-- ==== Sys2Proof/Word.lean ====
section
/-! DEFINITION. The words of the machine (00_scope.md R13, R15, 10_state.md R20, R21). -/

namespace Sys2Proof

/-- Eight bits: one cell of memory. -/
abbrev Byte := BitVec 8

/-- Sixteen bits: an instruction word, the transfer of one bus cycle (R6). -/
abbrev Word := BitVec 16

/-- Thirty-two bits: a data or address register (R20, R21). -/
abbrev Long := BitVec 32

/-- The number of a data or address register in an instruction (R20, R21). -/
abbrev Reg := Fin 8

end Sys2Proof
end

