-- ==== Sys2Proof/Syntax.lean ====
section
/-! DEFINITION. The instructions: one constructor per row of spec/opcode_table.json, in the table's order (30_encoding.md). -/

namespace Sys2Proof

/-- Operand sizes (R15, R85). -/
inductive Size where
  | b | w | l
  deriving DecidableEq, Repr

/-- The width of an operand in bits (R13). -/
def Size.bits : Size → Nat
  | .b => 8
  | .w => 16
  | .l => 32

/-- The width of an operand in bytes (R13). -/
def Size.bytes : Size → Nat
  | .b => 1
  | .w => 2
  | .l => 4

/-- The sizes of the instructions that take a word or a long only (R85, last row of its table). -/
inductive WL where
  | w | l
  deriving DecidableEq, Repr

def WL.size : WL → Size
  | .w => .w
  | .l => .l

/-- The sixteen conditions of R28, in the order of their codes. -/
inductive Cond where
  | t | f | hi | ls | cc | cs | ne | eq | vc | vs | pl | mi | ge | lt | gt | le
  deriving DecidableEq, Repr

/-- An immediate operand, of the size of its operation (R86). -/
inductive Imm where
  | b (v : Byte)
  | w (v : Word)
  | l (v : Long)
  deriving DecidableEq, Repr

def Imm.size : Imm → Size
  | .b _ => .b
  | .w _ => .w
  | .l _ => .l

/-- The fields of a brief extension word (R84). Bits 10:8, which the part ignores, are not kept. -/
structure Index where
  /-- bit 15: the index register is an address register -/
  isAddr : Bool
  /-- bits 14:12 -/
  reg : Reg
  /-- bit 11: the whole register is the index, not its low word -/
  long : Bool
  /-- bits 7:0 -/
  d8 : Byte
  deriving DecidableEq, Repr

/-- The twelve addressing modes by name (R120). -/
inductive Mode where
  | dn | an | ind | postInc | preDec | disp | index | absW | absL | pcDisp | pcIndex | imm
  deriving DecidableEq, Repr

/-- An effective address: a mode with its register and its extension words (R83). -/
inductive Ea where
  | dn (r : Reg)
  | an (r : Reg)
  | ind (r : Reg)
  | postInc (r : Reg)
  | preDec (r : Reg)
  | disp (r : Reg) (d16 : Word)
  | index (r : Reg) (x : Index)
  | absW (a : Word)
  | absL (a : Long)
  | pcDisp (d16 : Word)
  | pcIndex (x : Index)
  | imm (v : Imm)
  deriving DecidableEq, Repr

def Ea.mode : Ea → Mode
  | .dn _ => .dn
  | .an _ => .an
  | .ind _ => .ind
  | .postInc _ => .postInc
  | .preDec _ => .preDec
  | .disp _ _ => .disp
  | .index _ _ => .index
  | .absW _ => .absW
  | .absL _ => .absL
  | .pcDisp _ => .pcDisp
  | .pcIndex _ => .pcIndex
  | .imm _ => .imm

/-- The number of extension words of an effective address (R81). -/
def Ea.extWords : Ea → Nat
  | .disp _ _ | .index _ _ | .absW _ | .pcDisp _ | .pcIndex _ => 1
  | .absL _ => 2
  | .imm (.b _) | .imm (.w _) => 1
  | .imm (.l _) => 2
  | _ => 0

/-- The displacement of Bcc, BRA, BSR: a byte in the operation word or a word after it (R86, R295). -/
inductive Disp where
  | byte (d : Byte)
  | word (d : Word)
  deriving DecidableEq, Repr

/-- The four bit instructions (46_bit_manipulation.md). -/
inductive BitOp where
  | chg | clr | set | tst
  deriving DecidableEq, Repr

/-- The instruction set, one constructor per row of the opcode table. Operands stand in the order the assembler writes
them (R98): source first, destination second. -/
inductive Instr where
  | oriToCcr (v : Byte)
  | oriToSr (v : Word)
  | andiToCcr (v : Byte)
  | andiToSr (v : Word)
  | eoriToCcr (v : Byte)
  | eoriToSr (v : Word)
  | movepToReg (sz : WL) (ay : Reg) (d16 : Word) (dx : Reg)
  | movepToMem (sz : WL) (dx : Reg) (ay : Reg) (d16 : Word)
  | btstDn (dn : Reg) (ea : Ea)
  | bchgDn (dn : Reg) (ea : Ea)
  | bclrDn (dn : Reg) (ea : Ea)
  | bsetDn (dn : Reg) (ea : Ea)
  | btstImm (bit : Byte) (ea : Ea)
  | bchgImm (bit : Byte) (ea : Ea)
  | bclrImm (bit : Byte) (ea : Ea)
  | bsetImm (bit : Byte) (ea : Ea)
  | ori (v : Imm) (ea : Ea)
  | andi (v : Imm) (ea : Ea)
  | subi (v : Imm) (ea : Ea)
  | addi (v : Imm) (ea : Ea)
  | eori (v : Imm) (ea : Ea)
  | cmpi (v : Imm) (ea : Ea)
  | moveaW (src : Ea) (an : Reg)
  | moveaL (src : Ea) (an : Reg)
  | moveB (src dst : Ea)
  | moveW (src dst : Ea)
  | moveL (src dst : Ea)
  | resetDevices
  | nop
  | stop (v : Word)
  | rte
  | rts
  | trapv
  | rtr
  | illegal
  | trap (v : Fin 16)
  | link (an : Reg) (d16 : Word)
  | unlk (an : Reg)
  | moveToUsp (an : Reg)
  | moveFromUsp (an : Reg)
  | swap (dn : Reg)
  | extW (dn : Reg)
  | extL (dn : Reg)
  | moveFromSr (ea : Ea)
  | moveToCcr (ea : Ea)
  | moveToSr (ea : Ea)
  | tas (ea : Ea)
  | chk (ea : Ea) (dn : Reg)
  | lea (ea : Ea) (an : Reg)
  | nbcd (ea : Ea)
  | pea (ea : Ea)
  | movemToMem (sz : WL) (mask : Word) (ea : Ea)
  | movemToReg (sz : WL) (ea : Ea) (mask : Word)
  | jsr (ea : Ea)
  | jmp (ea : Ea)
  | negx (sz : Size) (ea : Ea)
  | clr (sz : Size) (ea : Ea)
  | neg (sz : Size) (ea : Ea)
  | notEa (sz : Size) (ea : Ea)
  | tst (sz : Size) (ea : Ea)
  | dbcc (cond : Cond) (dn : Reg) (d16 : Word)
  | scc (cond : Cond) (ea : Ea)
  | addq (q : Reg) (sz : Size) (ea : Ea)
  | subq (q : Reg) (sz : Size) (ea : Ea)
  | bra (d : Disp)
  | bsr (d : Disp)
  | bcc (cond : Cond) (d : Disp)
  | moveq (v : Byte) (dn : Reg)
  | divu (ea : Ea) (dn : Reg)
  | divs (ea : Ea) (dn : Reg)
  | sbcdReg (dy dx : Reg)
  | sbcdMem (ay ax : Reg)
  | orEaDn (sz : Size) (ea : Ea) (dn : Reg)
  | orDnEa (sz : Size) (dn : Reg) (ea : Ea)
  | suba (sz : WL) (ea : Ea) (an : Reg)
  | subxReg (sz : Size) (dy dx : Reg)
  | subxMem (sz : Size) (ay ax : Reg)
  | subEaDn (sz : Size) (ea : Ea) (dn : Reg)
  | subDnEa (sz : Size) (dn : Reg) (ea : Ea)
  | cmpa (sz : WL) (ea : Ea) (an : Reg)
  | cmpm (sz : Size) (ay ax : Reg)
  | cmp (sz : Size) (ea : Ea) (dn : Reg)
  | eor (sz : Size) (dn : Reg) (ea : Ea)
  | mulu (ea : Ea) (dn : Reg)
  | muls (ea : Ea) (dn : Reg)
  | abcdReg (dy dx : Reg)
  | abcdMem (ay ax : Reg)
  | exgDD (dx dy : Reg)
  | exgAA (ax ay : Reg)
  | exgDA (dx ay : Reg)
  | andEaDn (sz : Size) (ea : Ea) (dn : Reg)
  | andDnEa (sz : Size) (dn : Reg) (ea : Ea)
  | adda (sz : WL) (ea : Ea) (an : Reg)
  | addxReg (sz : Size) (dy dx : Reg)
  | addxMem (sz : Size) (ay ax : Reg)
  | addEaDn (sz : Size) (ea : Ea) (dn : Reg)
  | addDnEa (sz : Size) (dn : Reg) (ea : Ea)
  | asrMem (ea : Ea)
  | aslMem (ea : Ea)
  | lsrMem (ea : Ea)
  | lslMem (ea : Ea)
  | roxrMem (ea : Ea)
  | roxlMem (ea : Ea)
  | rorMem (ea : Ea)
  | rolMem (ea : Ea)
  | asrImm (sz : Size) (cnt dn : Reg)
  | asrReg (sz : Size) (dm dn : Reg)
  | aslImm (sz : Size) (cnt dn : Reg)
  | aslReg (sz : Size) (dm dn : Reg)
  | lsrImm (sz : Size) (cnt dn : Reg)
  | lsrReg (sz : Size) (dm dn : Reg)
  | lslImm (sz : Size) (cnt dn : Reg)
  | lslReg (sz : Size) (dm dn : Reg)
  | roxrImm (sz : Size) (cnt dn : Reg)
  | roxrReg (sz : Size) (dm dn : Reg)
  | roxlImm (sz : Size) (cnt dn : Reg)
  | roxlReg (sz : Size) (dm dn : Reg)
  | rorImm (sz : Size) (cnt dn : Reg)
  | rorReg (sz : Size) (dm dn : Reg)
  | rolImm (sz : Size) (cnt dn : Reg)
  | rolReg (sz : Size) (dm dn : Reg)
  deriving DecidableEq, Repr

end Sys2Proof
end

