-- ==== Sys2Proof/Config.lean ====
section
/-! DEFINITION. What an implementation fixes (00_scope.md R6 to R8, the named alternatives of 90_conflicts.md), and the free
values: constants with no body, of which nothing can be proved beyond their type. -/

namespace Sys2Proof.Config

/-- BUS_BITS (R6): a bus cycle moves at most this many bits. -/
def busBits : Nat := 16

/-- ADDR_BITS (R7, D2): the low bits of an address that reach memory. -/
def addrBits : Nat := 24

/-- WAIT (R8, D5): extra clock periods per bus cycle. -/
def wait : Nat := 0

/-- IACK_CLOCKS (R8, D14): clock periods of an interrupt acknowledge cycle, as the sources assume. -/
def iackClocks : Nat := 4

/-- MOVE_BW_PREDEC_IX_READS (R152, D12): the printed value, 4. The counting law gives 3. -/
def moveBwPredecIxReads : Nat := 4

/-- MOVE_L_PCDISP_ABSL_READS (R152, D12): the printed value, 5. The counting law gives 6. -/
def moveLPcdispAbslReads : Nat := 5

/-- ANDI_L_MEM_WRITES (R210, D12): the printed value, 1. The counting law gives 2. -/
def andiLMemWrites : Nat := 1

/-- BCC_W_NOT_TAKEN_READS (R297, D12): the printed value, 1. The counting law gives 2. -/
def bccWNotTakenReads : Nat := 1

/-- ZERO_DIVIDE_ADDS_EA (R412, D22): the model's choice is to charge the fetch of the divisor. -/
def zeroDivideAddsEa : Bool := true

/-- What a byte of memory reads as when nothing has written it. DESIGN CHOICE, unsafe (log 2): R35 leaves the contents
of memory to the platform. -/
def unwrittenByte : Byte := 0

/-- A free bit: a flag the spec leaves undefined (93 U1 to U3). The argument is the draw's index. -/
opaque freeBit : Nat → Bool

/-- A free byte: the result of decimal arithmetic on a digit above 9 (93 U1). -/
opaque freeByte : Nat → Byte

/-- A free long: a register after a bus or address error (R55, 93 U4). -/
opaque freeLong : Nat → Long

/-- A free number: the open parts of the group 0 frame (R430, 93 U4) and of GROUP0_ELAPSED (R431). -/
opaque freeNat : Nat → Nat

/-- The draw behind DIV_CLOCKS (R181, D10) for DIVU, a function of dividend and divisor. -/
opaque divuDraw : Long → Word → Nat

/-- The draw behind DIV_CLOCKS (R181, D10) for DIVS, a function of dividend and divisor. -/
opaque divsDraw : Long → Word → Nat

/-- The draw behind BITOP_CLOCKS (R273, D11), a function of the instruction, its form (static or not) and the bit number. -/
opaque bitOpDraw : BitOp → Bool → Nat → Nat

end Sys2Proof.Config
end

