-- ==== Sys2Proof/WellFormed.lean ====
section
/-! DEFINITION. The checks of an instruction: which addressing modes and sizes each takes (30_encoding.md R87 to R92, R96). -/

namespace Sys2Proof

/-- Data modes: all but An (R96). -/
def Mode.isData : Mode → Bool
  | .an => false
  | _ => true

/-- Memory modes: all but Dn and An (R96). -/
def Mode.isMemory : Mode → Bool
  | .dn | .an => false
  | _ => true

/-- Control modes (R96). -/
def Mode.isControl : Mode → Bool
  | .ind | .disp | .index | .absW | .absL | .pcDisp | .pcIndex => true
  | _ => false

/-- Alterable modes (R96). -/
def Mode.isAlterable : Mode → Bool
  | .pcDisp | .pcIndex | .imm => false
  | _ => true

/-- Data alterable modes (R96). -/
def Mode.isDataAlterable (m : Mode) : Bool := m.isData && m.isAlterable

/-- Memory alterable modes (R96). -/
def Mode.isMemoryAlterable (m : Mode) : Bool := m.isMemory && m.isAlterable

/-- Every mode, An not for byte (R21, R91). -/
def Mode.isSource (sz : Size) (m : Mode) : Bool := !(m == .an && sz == .b)

/-- Alterable modes, An not for byte: ADDQ and SUBQ (R90). -/
def Mode.isQuickDest (sz : Size) (m : Mode) : Bool := m.isAlterable && m.isSource sz

/-- The modes of MOVEM registers to memory (R315). -/
def Mode.isMovemDest (m : Mode) : Bool := m == .preDec || (m.isControl && m.isAlterable)

/-- The modes of MOVEM memory to registers (R315). -/
def Mode.isMovemSource (m : Mode) : Bool := m == .postInc || m.isControl

/-- BTST with a static bit number takes a data mode other than #xxx (R87). -/
def Mode.isBtstStatic (m : Mode) : Bool := m.isData && !(m == .imm)

/-- An immediate operand of an effective address has the size of its operation (R86). -/
def Ea.sizeOk (sz : Size) : Ea → Bool
  | .imm v => v.size == sz
  | _ => true

/-- An effective address of a given class, its immediate (if it is one) of the operation's size. -/
def Ea.ok (cls : Mode → Bool) (sz : Size) (ea : Ea) : Bool := cls ea.mode && ea.sizeOk sz

/-- A byte displacement is not zero: zero says that a word displacement follows (R86). -/
def Disp.ok : Disp → Bool
  | .byte d => d != 0
  | .word _ => true

/-- The conditions of Bcc: not T and not F, whose codes are BRA and BSR (R28). -/
def Cond.isBranch : Cond → Bool
  | .t | .f => false
  | _ => true

/-- An instruction that an encoding of R87 to R92 stands for. -/
def Instr.wellFormed : Instr → Bool
  | .btstDn _ ea => ea.ok Mode.isData .b
  | .bchgDn _ ea | .bclrDn _ ea | .bsetDn _ ea => ea.ok Mode.isDataAlterable .b
  | .btstImm _ ea => ea.ok Mode.isBtstStatic .b
  | .bchgImm _ ea | .bclrImm _ ea | .bsetImm _ ea => ea.ok Mode.isDataAlterable .b
  | .ori v ea | .andi v ea | .subi v ea | .addi v ea | .eori v ea | .cmpi v ea => ea.ok Mode.isDataAlterable v.size
  | .moveaW src _ => src.ok (Mode.isSource .w) .w
  | .moveaL src _ => src.ok (Mode.isSource .l) .l
  | .moveB src dst => src.ok (Mode.isSource .b) .b && dst.ok Mode.isDataAlterable .b
  | .moveW src dst => src.ok (Mode.isSource .w) .w && dst.ok Mode.isDataAlterable .w
  | .moveL src dst => src.ok (Mode.isSource .l) .l && dst.ok Mode.isDataAlterable .l
  | .moveFromSr ea => ea.ok Mode.isDataAlterable .w
  | .moveToCcr ea | .moveToSr ea => ea.ok Mode.isData .w
  | .tas ea | .nbcd ea | .scc _ ea => ea.ok Mode.isDataAlterable .b
  | .chk ea _ | .divu ea _ | .divs ea _ | .mulu ea _ | .muls ea _ => ea.ok Mode.isData .w
  | .lea ea _ | .pea ea | .jsr ea | .jmp ea => ea.ok Mode.isControl .l
  | .movemToMem sz _ ea => ea.ok Mode.isMovemDest sz.size
  | .movemToReg sz ea _ => ea.ok Mode.isMovemSource sz.size
  | .negx sz ea | .clr sz ea | .neg sz ea | .notEa sz ea | .tst sz ea => ea.ok Mode.isDataAlterable sz
  | .addq _ sz ea | .subq _ sz ea => ea.ok (Mode.isQuickDest sz) sz
  | .bra d | .bsr d => d.ok
  | .bcc c d => c.isBranch && d.ok
  | .orEaDn sz ea _ | .andEaDn sz ea _ => ea.ok Mode.isData sz
  | .subEaDn sz ea _ | .cmp sz ea _ | .addEaDn sz ea _ => ea.ok (Mode.isSource sz) sz
  | .orDnEa sz _ ea | .subDnEa sz _ ea | .andDnEa sz _ ea | .addDnEa sz _ ea => ea.ok Mode.isMemoryAlterable sz
  | .eor sz _ ea => ea.ok Mode.isDataAlterable sz
  | .suba sz ea _ | .cmpa sz ea _ | .adda sz ea _ => ea.ok (Mode.isSource sz.size) sz.size
  | .asrMem ea | .aslMem ea | .lsrMem ea | .lslMem ea
  | .roxrMem ea | .roxlMem ea | .rorMem ea | .rolMem ea => ea.ok Mode.isMemoryAlterable .w
  | .oriToCcr _ | .oriToSr _ | .andiToCcr _ | .andiToSr _ | .eoriToCcr _ | .eoriToSr _ => true
  | .movepToReg _ _ _ _ | .movepToMem _ _ _ _ => true
  | .resetDevices | .nop | .stop _ | .rte | .rts | .trapv | .rtr | .illegal | .trap _ => true
  | .link _ _ | .unlk _ | .moveToUsp _ | .moveFromUsp _ | .swap _ | .extW _ | .extL _ => true
  | .dbcc _ _ _ | .moveq _ _ => true
  | .sbcdReg _ _ | .sbcdMem _ _ | .abcdReg _ _ | .abcdMem _ _ => true
  | .subxReg _ _ _ | .subxMem _ _ _ | .addxReg _ _ _ | .addxMem _ _ _ | .cmpm _ _ _ => true
  | .exgDD _ _ | .exgAA _ _ | .exgDA _ _ => true
  | .asrImm _ _ _ | .asrReg _ _ _ | .aslImm _ _ _ | .aslReg _ _ _ => true
  | .lsrImm _ _ _ | .lsrReg _ _ _ | .lslImm _ _ _ | .lslReg _ _ _ => true
  | .roxrImm _ _ _ | .roxrReg _ _ _ | .roxlImm _ _ _ | .roxlReg _ _ _ => true
  | .rorImm _ _ _ | .rorReg _ _ _ | .rolImm _ _ _ | .rolReg _ _ _ => true

end Sys2Proof
end

