-- ==== Sys2Proof/Decode.lean ====
section
/-! DEFINITION. The decoder, total on any words and on any bytes, and the encoder after it (30_encoding.md). An operation
word is read as a number; `field n lo len` is its slice of `len` bits from bit `lo` up (R13). -/

namespace Sys2Proof

/-- Why the decoder gives no instruction (R94). `truncated`: the words end before the instruction does; a fetch always
hands over as many words as the longest instruction has. -/
inductive Reject where
  | illegal
  | lineA
  | lineF
  | truncated
  deriving DecidableEq, Repr

/-- What a parser answers: a value and the words after it, or the reason there is none. -/
abbrev Parsed (α : Type) := Except Reject (α × List Word)

/-- The `len` bits of `n` from bit `lo` up (R13). -/
def field (n lo len : Nat) : Nat := n / 2 ^ lo % 2 ^ len

/-- The register named by the three bits from bit `lo` up. -/
def regAt (n lo : Nat) : Reg := Fin.ofNat 8 (field n lo 3)

/-- The usual size field (R85): 11 is no size. -/
def Size.ofCode : Nat → Option Size
  | 0 => some .b
  | 1 => some .w
  | 2 => some .l
  | _ => none

/-- The one-bit size field (R85). -/
def WL.ofCode (n : Nat) : WL := if n = 0 then .w else .l

/-- The condition of a four-bit code (R28). -/
def Cond.ofCode : Nat → Cond
  | 0 => .t
  | 1 => .f
  | 2 => .hi
  | 3 => .ls
  | 4 => .cc
  | 5 => .cs
  | 6 => .ne
  | 7 => .eq
  | 8 => .vc
  | 9 => .vs
  | 10 => .pl
  | 11 => .mi
  | 12 => .ge
  | 13 => .lt
  | 14 => .gt
  | _ => .le

/-- The mode of an effective address field (R83); mode 111 with register 101, 110, 111 is none. -/
def Mode.ofBits (mode reg : Nat) : Option Mode :=
  match mode with
  | 0 => some .dn
  | 1 => some .an
  | 2 => some .ind
  | 3 => some .postInc
  | 4 => some .preDec
  | 5 => some .disp
  | 6 => some .index
  | _ =>
    match reg with
    | 0 => some .absW
    | 1 => some .absL
    | 2 => some .pcDisp
    | 3 => some .pcIndex
    | 4 => some .imm
    | _ => none

/-- The next extension word. -/
def withWord (ws : List Word) (k : Word → Instr) : Parsed Instr :=
  match ws with
  | [] => .error .truncated
  | v :: rest => .ok (k v, rest)

/-- Two words as a long, the high word first (R83, R86). -/
def longOf (hi lo : Word) : Long := BitVec.ofNat 32 (65536 * hi.toNat + lo.toNat)

/-- The low byte of an extension word (R86). -/
def lowByte (v : Word) : Byte := BitVec.ofNat 8 v.toNat

/-- An immediate operand (R86): byte and word one extension word, long two. -/
def parseImm (sz : Size) (ws : List Word) : Parsed Imm :=
  match sz, ws with
  | .b, v :: rest => .ok (.b (lowByte v), rest)
  | .w, v :: rest => .ok (.w v, rest)
  | .l, hi :: lo :: rest => .ok (.l (longOf hi lo), rest)
  | _, _ => .error .truncated

/-- A brief extension word (R84); bits 10:8 are ignored. -/
def Index.ofWord (v : Word) : Index :=
  { isAddr := field v.toNat 15 1 == 1
    reg := regAt v.toNat 12
    long := field v.toNat 11 1 == 1
    d8 := lowByte v }

/-- The operand of a mode, its extension words taken from `ws` (R83). -/
def parseEa (m : Mode) (r : Reg) (sz : Size) (ws : List Word) : Parsed Ea :=
  match m, ws with
  | .dn, ws => .ok (.dn r, ws)
  | .an, ws => .ok (.an r, ws)
  | .ind, ws => .ok (.ind r, ws)
  | .postInc, ws => .ok (.postInc r, ws)
  | .preDec, ws => .ok (.preDec r, ws)
  | .disp, v :: rest => .ok (.disp r v, rest)
  | .index, v :: rest => .ok (.index r (Index.ofWord v), rest)
  | .absW, v :: rest => .ok (.absW v, rest)
  | .absL, hi :: lo :: rest => .ok (.absL (longOf hi lo), rest)
  | .pcDisp, v :: rest => .ok (.pcDisp v, rest)
  | .pcIndex, v :: rest => .ok (.pcIndex (Index.ofWord v), rest)
  | .imm, ws =>
    match parseImm sz ws with
    | .ok (v, rest) => .ok (.imm v, rest)
    | .error e => .error e
  | _, _ => .error .truncated

/-- The effective address in bits 5:0 (R83). -/
def withEa (cls : Mode → Bool) (sz : Size) (n : Nat) (ws : List Word) (k : Ea → Instr) : Parsed Instr :=
  match Mode.ofBits (field n 3 3) (field n 0 3) with
  | none => .error .illegal
  | some m =>
    if cls m then
      match parseEa m (regAt n 0) sz ws with
      | .ok (ea, rest) => .ok (k ea, rest)
      | .error e => .error e
    else .error .illegal

/-- The two effective addresses of MOVE: source in bits 5:0, destination with its halves swapped in bits 11:6, the
source's extension words first (R83, R88). -/
def withMoveEas (sz : Size) (n : Nat) (ws : List Word) (k : Ea → Ea → Instr) : Parsed Instr :=
  match Mode.ofBits (field n 3 3) (field n 0 3), Mode.ofBits (field n 6 3) (field n 9 3) with
  | some ms, some md =>
    if ms.isSource sz && md.isDataAlterable then
      match parseEa ms (regAt n 0) sz ws with
      | .ok (src, rest) =>
        match parseEa md (regAt n 9) sz rest with
        | .ok (dst, rest') => .ok (k src dst, rest')
        | .error e => .error e
      | .error e => .error e
    else .error .illegal
  | _, _ => .error .illegal

/-- The size in bits 7:6, then the effective address in bits 5:0. -/
def withSizeEa (cls : Size → Mode → Bool) (n : Nat) (ws : List Word) (k : Size → Ea → Instr) : Parsed Instr :=
  match Size.ofCode (field n 6 2) with
  | none => .error .illegal
  | some sz => withEa (cls sz) sz n ws (k sz)

/-- An immediate of the size in bits 7:6, then the effective address (R81, R87). -/
def withImmEa (cls : Mode → Bool) (n : Nat) (ws : List Word) (k : Imm → Ea → Instr) : Parsed Instr :=
  match Size.ofCode (field n 6 2) with
  | none => .error .illegal
  | some sz =>
    match parseImm sz ws with
    | .ok (v, rest) => withEa cls sz n rest (k v)
    | .error e => .error e

/-- One extension word of the instruction's own, then the effective address (R81). -/
def withWordEa (cls : Mode → Bool) (sz : Size) (n : Nat) (ws : List Word) (k : Word → Ea → Instr) : Parsed Instr :=
  match ws with
  | v :: rest => withEa cls sz n rest (k v)
  | [] => .error .truncated

/-- The displacement of Bcc, BRA, BSR: bits 7:0, or the next word where they are zero (R86). -/
def withDisp (n : Nat) (ws : List Word) (k : Disp → Instr) : Parsed Instr :=
  if field n 0 8 = 0 then withWord ws (fun v => k (.word v))
  else .ok (k (.byte (BitVec.ofNat 8 (field n 0 8))), ws)

/-- Line 0000 (R87, R95). -/
def decodeLine0 (n : Nat) (ws : List Word) : Parsed Instr :=
  if n = 0x003C then withWord ws (fun v => .oriToCcr (lowByte v))
  else if n = 0x007C then withWord ws .oriToSr
  else if n = 0x023C then withWord ws (fun v => .andiToCcr (lowByte v))
  else if n = 0x027C then withWord ws .andiToSr
  else if n = 0x0A3C then withWord ws (fun v => .eoriToCcr (lowByte v))
  else if n = 0x0A7C then withWord ws .eoriToSr
  else if field n 8 1 = 1 then
    if field n 3 3 = 1 then
      if field n 7 1 = 0 then
        withWord ws (fun v => .movepToReg (WL.ofCode (field n 6 1)) (regAt n 0) v (regAt n 9))
      else withWord ws (fun v => .movepToMem (WL.ofCode (field n 6 1)) (regAt n 9) (regAt n 0) v)
    else
      match field n 6 2 with
      | 0 => withEa Mode.isData .b n ws (.btstDn (regAt n 9))
      | 1 => withEa Mode.isDataAlterable .b n ws (.bchgDn (regAt n 9))
      | 2 => withEa Mode.isDataAlterable .b n ws (.bclrDn (regAt n 9))
      | _ => withEa Mode.isDataAlterable .b n ws (.bsetDn (regAt n 9))
  else
    match field n 9 3 with
    | 0 => withImmEa Mode.isDataAlterable n ws .ori
    | 1 => withImmEa Mode.isDataAlterable n ws .andi
    | 2 => withImmEa Mode.isDataAlterable n ws .subi
    | 3 => withImmEa Mode.isDataAlterable n ws .addi
    | 4 =>
      match field n 6 2 with
      | 0 => withWordEa Mode.isBtstStatic .b n ws (fun v => .btstImm (lowByte v))
      | 1 => withWordEa Mode.isDataAlterable .b n ws (fun v => .bchgImm (lowByte v))
      | 2 => withWordEa Mode.isDataAlterable .b n ws (fun v => .bclrImm (lowByte v))
      | _ => withWordEa Mode.isDataAlterable .b n ws (fun v => .bsetImm (lowByte v))
    | 5 => withImmEa Mode.isDataAlterable n ws .eori
    | 6 => withImmEa Mode.isDataAlterable n ws .cmpi
    | _ => .error .illegal

/-- Lines 0001, 0011, 0010 (R88): MOVEA before MOVE (R95). -/
def decodeLineMove (sz : Size) (n : Nat) (ws : List Word) : Parsed Instr :=
  match sz with
  | .b => withMoveEas .b n ws .moveB
  | .w =>
    if field n 6 3 = 1 then withEa (Mode.isSource .w) .w n ws (fun ea => .moveaW ea (regAt n 9))
    else withMoveEas .w n ws .moveW
  | .l =>
    if field n 6 3 = 1 then withEa (Mode.isSource .l) .l n ws (fun ea => .moveaL ea (regAt n 9))
    else withMoveEas .l n ws .moveL

/-- The words 0100 1110 0100 0000 to 0100 1110 0111 1111 (R89). -/
def decodeLine4Fixed (n : Nat) (ws : List Word) : Parsed Instr :=
  match field n 3 3 with
  | 0 => .ok (.trap (Fin.ofNat 16 (field n 0 4)), ws)
  | 1 => .ok (.trap (Fin.ofNat 16 (field n 0 4)), ws)
  | 2 => withWord ws (.link (regAt n 0))
  | 3 => .ok (.unlk (regAt n 0), ws)
  | 4 => .ok (.moveToUsp (regAt n 0), ws)
  | 5 => .ok (.moveFromUsp (regAt n 0), ws)
  | 6 =>
    match field n 0 3 with
    | 0 => .ok (.resetDevices, ws)
    | 1 => .ok (.nop, ws)
    | 2 => withWord ws .stop
    | 3 => .ok (.rte, ws)
    | 5 => .ok (.rts, ws)
    | 6 => .ok (.trapv, ws)
    | 7 => .ok (.rtr, ws)
    | _ => .error .illegal
  | _ => .error .illegal

/-- Line 0100 (R89, R95). -/
def decodeLine4 (n : Nat) (ws : List Word) : Parsed Instr :=
  if field n 8 1 = 1 then
    match field n 6 2 with
    | 2 => withEa Mode.isData .w n ws (fun ea => .chk ea (regAt n 9))
    | 3 => withEa Mode.isControl .l n ws (fun ea => .lea ea (regAt n 9))
    | _ => .error .illegal
  else
    match field n 9 3 with
    | 0 =>
      if field n 6 2 = 3 then withEa Mode.isDataAlterable .w n ws .moveFromSr
      else withSizeEa (fun _ => Mode.isDataAlterable) n ws .negx
    | 1 => withSizeEa (fun _ => Mode.isDataAlterable) n ws .clr
    | 2 =>
      if field n 6 2 = 3 then withEa Mode.isData .w n ws .moveToCcr
      else withSizeEa (fun _ => Mode.isDataAlterable) n ws .neg
    | 3 =>
      if field n 6 2 = 3 then withEa Mode.isData .w n ws .moveToSr
      else withSizeEa (fun _ => Mode.isDataAlterable) n ws .notEa
    | 4 =>
      match field n 6 2 with
      | 0 => withEa Mode.isDataAlterable .b n ws .nbcd
      | 1 =>
        if field n 3 3 = 0 then .ok (.swap (regAt n 0), ws)
        else withEa Mode.isControl .l n ws .pea
      | 2 =>
        if field n 3 3 = 0 then .ok (.extW (regAt n 0), ws)
        else withWordEa Mode.isMovemDest .w n ws (.movemToMem .w)
      | _ =>
        if field n 3 3 = 0 then .ok (.extL (regAt n 0), ws)
        else withWordEa Mode.isMovemDest .l n ws (.movemToMem .l)
    | 5 =>
      if n = 0x4AFC then .ok (.illegal, ws)
      else if field n 6 2 = 3 then withEa Mode.isDataAlterable .b n ws .tas
      else withSizeEa (fun _ => Mode.isDataAlterable) n ws .tst
    | 6 =>
      match field n 6 2 with
      | 2 => withWordEa Mode.isMovemSource .w n ws (fun v ea => .movemToReg .w ea v)
      | 3 => withWordEa Mode.isMovemSource .l n ws (fun v ea => .movemToReg .l ea v)
      | _ => .error .illegal
    | _ =>
      match field n 6 2 with
      | 1 => decodeLine4Fixed n ws
      | 2 => withEa Mode.isControl .l n ws .jsr
      | 3 => withEa Mode.isControl .l n ws .jmp
      | _ => .error .illegal

/-- Line 0101 (R90, R95): DBcc before Scc before ADDQ and SUBQ. -/
def decodeLine5 (n : Nat) (ws : List Word) : Parsed Instr :=
  if field n 6 2 = 3 then
    if field n 3 3 = 1 then withWord ws (.dbcc (Cond.ofCode (field n 8 4)) (regAt n 0))
    else withEa Mode.isDataAlterable .b n ws (.scc (Cond.ofCode (field n 8 4)))
  else if field n 8 1 = 0 then withSizeEa Mode.isQuickDest n ws (.addq (regAt n 9))
  else withSizeEa Mode.isQuickDest n ws (.subq (regAt n 9))

/-- Line 0110 (R90): codes 0000 and 0001 are BRA and BSR. -/
def decodeLine6 (n : Nat) (ws : List Word) : Parsed Instr :=
  if field n 8 4 = 0 then withDisp n ws .bra
  else if field n 8 4 = 1 then withDisp n ws .bsr
  else withDisp n ws (.bcc (Cond.ofCode (field n 8 4)))

/-- Line 0111 (R90): bit 8 must be 0. -/
def decodeLine7 (n : Nat) (ws : List Word) : Parsed Instr :=
  if field n 8 1 = 0 then .ok (.moveq (BitVec.ofNat 8 (field n 0 8)) (regAt n 9), ws)
  else .error .illegal

/-- Line 1000 (R91, R95). -/
def decodeLine8 (n : Nat) (ws : List Word) : Parsed Instr :=
  if field n 6 2 = 3 then
    if field n 8 1 = 0 then withEa Mode.isData .w n ws (fun ea => .divu ea (regAt n 9))
    else withEa Mode.isData .w n ws (fun ea => .divs ea (regAt n 9))
  else if field n 8 1 = 0 then withSizeEa (fun _ => Mode.isData) n ws (fun sz ea => .orEaDn sz ea (regAt n 9))
  else if field n 4 2 = 0 then
    if field n 6 2 = 0 then
      if field n 3 1 = 0 then .ok (.sbcdReg (regAt n 0) (regAt n 9), ws)
      else .ok (.sbcdMem (regAt n 0) (regAt n 9), ws)
    else .error .illegal
  else withSizeEa (fun _ => Mode.isMemoryAlterable) n ws (fun sz ea => .orDnEa sz (regAt n 9) ea)

/-- Lines 1001 and 1101 (R91, R95): the address form, the extended form, then the two data register forms. -/
def decodeLineAddSub (toAn : WL → Ea → Reg → Instr) (xReg xMem : Size → Reg → Reg → Instr) (toDn : Size → Ea → Reg → Instr)
    (toEa : Size → Reg → Ea → Instr) (n : Nat) (ws : List Word) : Parsed Instr :=
  match Size.ofCode (field n 6 2) with
  | none =>
    withEa (Mode.isSource (WL.ofCode (field n 8 1)).size) (WL.ofCode (field n 8 1)).size n ws
      (fun ea => toAn (WL.ofCode (field n 8 1)) ea (regAt n 9))
  | some sz =>
    if field n 8 1 = 0 then withEa (Mode.isSource sz) sz n ws (fun ea => toDn sz ea (regAt n 9))
    else if field n 4 2 = 0 then
      if field n 3 1 = 0 then .ok (xReg sz (regAt n 0) (regAt n 9), ws)
      else .ok (xMem sz (regAt n 0) (regAt n 9), ws)
    else withEa Mode.isMemoryAlterable sz n ws (fun ea => toEa sz (regAt n 9) ea)

/-- Line 1011 (R91, R95): CMPA, then CMPM before EOR. -/
def decodeLineB (n : Nat) (ws : List Word) : Parsed Instr :=
  match Size.ofCode (field n 6 2) with
  | none =>
    withEa (Mode.isSource (WL.ofCode (field n 8 1)).size) (WL.ofCode (field n 8 1)).size n ws
      (fun ea => .cmpa (WL.ofCode (field n 8 1)) ea (regAt n 9))
  | some sz =>
    if field n 8 1 = 0 then withEa (Mode.isSource sz) sz n ws (fun ea => .cmp sz ea (regAt n 9))
    else if field n 3 3 = 1 then .ok (.cmpm sz (regAt n 0) (regAt n 9), ws)
    else withEa Mode.isDataAlterable sz n ws (fun ea => .eor sz (regAt n 9) ea)

/-- Line 1100 (R91, R95): MULU and MULS, then ABCD and EXG, then AND. -/
def decodeLineC (n : Nat) (ws : List Word) : Parsed Instr :=
  if field n 6 2 = 3 then
    if field n 8 1 = 0 then withEa Mode.isData .w n ws (fun ea => .mulu ea (regAt n 9))
    else withEa Mode.isData .w n ws (fun ea => .muls ea (regAt n 9))
  else if field n 8 1 = 0 then withSizeEa (fun _ => Mode.isData) n ws (fun sz ea => .andEaDn sz ea (regAt n 9))
  else if field n 4 2 = 0 then
    match field n 6 2, field n 3 1 with
    | 0, 0 => .ok (.abcdReg (regAt n 0) (regAt n 9), ws)
    | 0, _ => .ok (.abcdMem (regAt n 0) (regAt n 9), ws)
    | 1, 0 => .ok (.exgDD (regAt n 9) (regAt n 0), ws)
    | 1, _ => .ok (.exgAA (regAt n 9) (regAt n 0), ws)
    | 2, 1 => .ok (.exgDA (regAt n 9) (regAt n 0), ws)
    | _, _ => .error .illegal
  else withSizeEa (fun _ => Mode.isMemoryAlterable) n ws (fun sz ea => .andDnEa sz (regAt n 9) ea)

/-- The memory form of line 1110 (R92): bits 11:9 the kind, bit 8 the direction. -/
def decodeShiftMem (n : Nat) (ws : List Word) : Parsed Instr :=
  match field n 8 4 with
  | 0 => withEa Mode.isMemoryAlterable .w n ws .asrMem
  | 1 => withEa Mode.isMemoryAlterable .w n ws .aslMem
  | 2 => withEa Mode.isMemoryAlterable .w n ws .lsrMem
  | 3 => withEa Mode.isMemoryAlterable .w n ws .lslMem
  | 4 => withEa Mode.isMemoryAlterable .w n ws .roxrMem
  | 5 => withEa Mode.isMemoryAlterable .w n ws .roxlMem
  | 6 => withEa Mode.isMemoryAlterable .w n ws .rorMem
  | 7 => withEa Mode.isMemoryAlterable .w n ws .rolMem
  | _ => .error .illegal

/-- The register form of line 1110 (R92): bits 4:3 the kind, bit 8 the direction, bit 5 the count's form. -/
def shiftRegCtor (kind dir form : Nat) : Size → Reg → Reg → Instr :=
  match kind, dir, form with
  | 0, 0, 0 => .asrImm
  | 0, 0, _ => .asrReg
  | 0, _, 0 => .aslImm
  | 0, _, _ => .aslReg
  | 1, 0, 0 => .lsrImm
  | 1, 0, _ => .lsrReg
  | 1, _, 0 => .lslImm
  | 1, _, _ => .lslReg
  | 2, 0, 0 => .roxrImm
  | 2, 0, _ => .roxrReg
  | 2, _, 0 => .roxlImm
  | 2, _, _ => .roxlReg
  | _, 0, 0 => .rorImm
  | _, 0, _ => .rorReg
  | _, _, 0 => .rolImm
  | _, _, _ => .rolReg

/-- Line 1110 (R92, R95). -/
def decodeLineE (n : Nat) (ws : List Word) : Parsed Instr :=
  match Size.ofCode (field n 6 2) with
  | none => decodeShiftMem n ws
  | some sz => .ok (shiftRegCtor (field n 3 2) (field n 8 1) (field n 5 1) sz (regAt n 9) (regAt n 0), ws)

/-- An operation word with the words after it (R82, R94). -/
def decodeOp (n : Nat) (ws : List Word) : Parsed Instr :=
  match field n 12 4 with
  | 0 => decodeLine0 n ws
  | 1 => decodeLineMove .b n ws
  | 2 => decodeLineMove .l n ws
  | 3 => decodeLineMove .w n ws
  | 4 => decodeLine4 n ws
  | 5 => decodeLine5 n ws
  | 6 => decodeLine6 n ws
  | 7 => decodeLine7 n ws
  | 8 => decodeLine8 n ws
  | 9 => decodeLineAddSub .suba .subxReg .subxMem .subEaDn .subDnEa n ws
  | 10 => .error .lineA
  | 11 => decodeLineB n ws
  | 12 => decodeLineC n ws
  | 13 => decodeLineAddSub .adda .addxReg .addxMem .addEaDn .addDnEa n ws
  | 14 => decodeLineE n ws
  | _ => .error .lineF

/-- The decoder on instruction words: the instruction they begin with and the words after it, or why there is none (R94). -/
def decode : List Word → Parsed Instr
  | [] => .error .truncated
  | op :: ws => decodeOp op.toNat ws

/-- Bytes in memory order as words, the first byte the more significant (R52, R80); an odd last byte is left out. -/
def wordsOfBytes : List Byte → List Word
  | hi :: lo :: rest => BitVec.ofNat 16 (256 * hi.toNat + lo.toNat) :: wordsOfBytes rest
  | _ => []

/-- A word as its two bytes in memory order (R52). -/
def bytesOfWord (v : Word) : List Byte := [BitVec.ofNat 8 (v.toNat / 256), BitVec.ofNat 8 v.toNat]

/-- The decoder on bytes. -/
def decodeBytes (bs : List Byte) : Parsed Instr := decode (wordsOfBytes bs)

/-- The number of words of the instruction an operation word begins (R80: the operation word alone decides); 1 where it
begins none. -/
def wordCount (op : Word) : Nat :=
  match decode [op, 0, 0, 0, 0] with
  | .ok (_, rest) => 5 - rest.length
  | .error _ => 1

/-! The encoder. -/

def Size.code : Size → Nat
  | .b => 0
  | .w => 1
  | .l => 2

def WL.code : WL → Nat
  | .w => 0
  | .l => 1

def Cond.code : Cond → Nat
  | .t => 0
  | .f => 1
  | .hi => 2
  | .ls => 3
  | .cc => 4
  | .cs => 5
  | .ne => 6
  | .eq => 7
  | .vc => 8
  | .vs => 9
  | .pl => 10
  | .mi => 11
  | .ge => 12
  | .lt => 13
  | .gt => 14
  | .le => 15

/-- The mode half of an effective address field (R83). -/
def Ea.modeBits : Ea → Nat
  | .dn _ => 0
  | .an _ => 1
  | .ind _ => 2
  | .postInc _ => 3
  | .preDec _ => 4
  | .disp _ _ => 5
  | .index _ _ => 6
  | _ => 7

/-- The register half of an effective address field (R83). -/
def Ea.regBits : Ea → Nat
  | .dn r | .an r | .ind r | .postInc r | .preDec r | .disp r _ | .index r _ => r.val
  | .absW _ => 0
  | .absL _ => 1
  | .pcDisp _ => 2
  | .pcIndex _ => 3
  | .imm _ => 4

/-- The field in bits 5:0. -/
def Ea.field (ea : Ea) : Nat := ea.modeBits * 8 + ea.regBits

/-- The destination field of MOVE in bits 11:6, its halves swapped (R83). -/
def Ea.dstField (ea : Ea) : Nat := ea.regBits * 512 + ea.modeBits * 64

def Index.toWord (x : Index) : Word :=
  BitVec.ofNat 16 (32768 * x.isAddr.toNat + 4096 * x.reg.val + 2048 * x.long.toNat + x.d8.toNat)

/-- A long as two words, high first. -/
def wordsOfLong (v : Long) : List Word := [BitVec.ofNat 16 (v.toNat / 65536), BitVec.ofNat 16 v.toNat]

/-- A byte in the low half of an extension word, the ignored high half 0 (R86, R93). -/
def wordOfByte (v : Byte) : Word := BitVec.ofNat 16 v.toNat

def Imm.words : Imm → List Word
  | .b v => [wordOfByte v]
  | .w v => [v]
  | .l v => wordsOfLong v

/-- The extension words of an effective address (R81). -/
def Ea.words : Ea → List Word
  | .disp _ d => [d]
  | .index _ x => [x.toWord]
  | .absW a => [a]
  | .absL a => wordsOfLong a
  | .pcDisp d => [d]
  | .pcIndex x => [x.toWord]
  | .imm v => v.words
  | _ => []

def Disp.field : Disp → Nat
  | .byte d => d.toNat
  | .word _ => 0

def Disp.words : Disp → List Word
  | .byte _ => []
  | .word d => [d]

/-- The operation word as a number (30_encoding.md R87 to R92). -/
def Instr.opNat : Instr → Nat
  | .oriToCcr _ => 0x003C
  | .oriToSr _ => 0x007C
  | .andiToCcr _ => 0x023C
  | .andiToSr _ => 0x027C
  | .eoriToCcr _ => 0x0A3C
  | .eoriToSr _ => 0x0A7C
  | .movepToReg sz ay _ dx => 0x0108 + dx.val * 512 + sz.code * 64 + ay.val
  | .movepToMem sz dx ay _ => 0x0188 + dx.val * 512 + sz.code * 64 + ay.val
  | .btstDn dn ea => 0x0100 + dn.val * 512 + ea.field
  | .bchgDn dn ea => 0x0140 + dn.val * 512 + ea.field
  | .bclrDn dn ea => 0x0180 + dn.val * 512 + ea.field
  | .bsetDn dn ea => 0x01C0 + dn.val * 512 + ea.field
  | .btstImm _ ea => 0x0800 + ea.field
  | .bchgImm _ ea => 0x0840 + ea.field
  | .bclrImm _ ea => 0x0880 + ea.field
  | .bsetImm _ ea => 0x08C0 + ea.field
  | .ori v ea => 0x0000 + v.size.code * 64 + ea.field
  | .andi v ea => 0x0200 + v.size.code * 64 + ea.field
  | .subi v ea => 0x0400 + v.size.code * 64 + ea.field
  | .addi v ea => 0x0600 + v.size.code * 64 + ea.field
  | .eori v ea => 0x0A00 + v.size.code * 64 + ea.field
  | .cmpi v ea => 0x0C00 + v.size.code * 64 + ea.field
  | .moveaW src an => 0x3040 + an.val * 512 + src.field
  | .moveaL src an => 0x2040 + an.val * 512 + src.field
  | .moveB src dst => 0x1000 + dst.dstField + src.field
  | .moveW src dst => 0x3000 + dst.dstField + src.field
  | .moveL src dst => 0x2000 + dst.dstField + src.field
  | .resetDevices => 0x4E70
  | .nop => 0x4E71
  | .stop _ => 0x4E72
  | .rte => 0x4E73
  | .rts => 0x4E75
  | .trapv => 0x4E76
  | .rtr => 0x4E77
  | .illegal => 0x4AFC
  | .trap v => 0x4E40 + v.val
  | .link an _ => 0x4E50 + an.val
  | .unlk an => 0x4E58 + an.val
  | .moveToUsp an => 0x4E60 + an.val
  | .moveFromUsp an => 0x4E68 + an.val
  | .swap dn => 0x4840 + dn.val
  | .extW dn => 0x4880 + dn.val
  | .extL dn => 0x48C0 + dn.val
  | .moveFromSr ea => 0x40C0 + ea.field
  | .moveToCcr ea => 0x44C0 + ea.field
  | .moveToSr ea => 0x46C0 + ea.field
  | .tas ea => 0x4AC0 + ea.field
  | .chk ea dn => 0x4180 + dn.val * 512 + ea.field
  | .lea ea an => 0x41C0 + an.val * 512 + ea.field
  | .nbcd ea => 0x4800 + ea.field
  | .pea ea => 0x4840 + ea.field
  | .movemToMem sz _ ea => 0x4880 + sz.code * 64 + ea.field
  | .movemToReg sz ea _ => 0x4C80 + sz.code * 64 + ea.field
  | .jsr ea => 0x4E80 + ea.field
  | .jmp ea => 0x4EC0 + ea.field
  | .negx sz ea => 0x4000 + sz.code * 64 + ea.field
  | .clr sz ea => 0x4200 + sz.code * 64 + ea.field
  | .neg sz ea => 0x4400 + sz.code * 64 + ea.field
  | .notEa sz ea => 0x4600 + sz.code * 64 + ea.field
  | .tst sz ea => 0x4A00 + sz.code * 64 + ea.field
  | .dbcc c dn _ => 0x50C8 + c.code * 256 + dn.val
  | .scc c ea => 0x50C0 + c.code * 256 + ea.field
  | .addq q sz ea => 0x5000 + q.val * 512 + sz.code * 64 + ea.field
  | .subq q sz ea => 0x5100 + q.val * 512 + sz.code * 64 + ea.field
  | .bra d => 0x6000 + d.field
  | .bsr d => 0x6100 + d.field
  | .bcc c d => 0x6000 + c.code * 256 + d.field
  | .moveq v dn => 0x7000 + dn.val * 512 + v.toNat
  | .divu ea dn => 0x80C0 + dn.val * 512 + ea.field
  | .divs ea dn => 0x81C0 + dn.val * 512 + ea.field
  | .sbcdReg dy dx => 0x8100 + dx.val * 512 + dy.val
  | .sbcdMem ay ax => 0x8108 + ax.val * 512 + ay.val
  | .orEaDn sz ea dn => 0x8000 + dn.val * 512 + sz.code * 64 + ea.field
  | .orDnEa sz dn ea => 0x8100 + dn.val * 512 + sz.code * 64 + ea.field
  | .suba sz ea an => 0x90C0 + an.val * 512 + sz.code * 256 + ea.field
  | .subxReg sz dy dx => 0x9100 + dx.val * 512 + sz.code * 64 + dy.val
  | .subxMem sz ay ax => 0x9108 + ax.val * 512 + sz.code * 64 + ay.val
  | .subEaDn sz ea dn => 0x9000 + dn.val * 512 + sz.code * 64 + ea.field
  | .subDnEa sz dn ea => 0x9100 + dn.val * 512 + sz.code * 64 + ea.field
  | .cmpa sz ea an => 0xB0C0 + an.val * 512 + sz.code * 256 + ea.field
  | .cmpm sz ay ax => 0xB108 + ax.val * 512 + sz.code * 64 + ay.val
  | .cmp sz ea dn => 0xB000 + dn.val * 512 + sz.code * 64 + ea.field
  | .eor sz dn ea => 0xB100 + dn.val * 512 + sz.code * 64 + ea.field
  | .mulu ea dn => 0xC0C0 + dn.val * 512 + ea.field
  | .muls ea dn => 0xC1C0 + dn.val * 512 + ea.field
  | .abcdReg dy dx => 0xC100 + dx.val * 512 + dy.val
  | .abcdMem ay ax => 0xC108 + ax.val * 512 + ay.val
  | .exgDD dx dy => 0xC140 + dx.val * 512 + dy.val
  | .exgAA ax ay => 0xC148 + ax.val * 512 + ay.val
  | .exgDA dx ay => 0xC188 + dx.val * 512 + ay.val
  | .andEaDn sz ea dn => 0xC000 + dn.val * 512 + sz.code * 64 + ea.field
  | .andDnEa sz dn ea => 0xC100 + dn.val * 512 + sz.code * 64 + ea.field
  | .adda sz ea an => 0xD0C0 + an.val * 512 + sz.code * 256 + ea.field
  | .addxReg sz dy dx => 0xD100 + dx.val * 512 + sz.code * 64 + dy.val
  | .addxMem sz ay ax => 0xD108 + ax.val * 512 + sz.code * 64 + ay.val
  | .addEaDn sz ea dn => 0xD000 + dn.val * 512 + sz.code * 64 + ea.field
  | .addDnEa sz dn ea => 0xD100 + dn.val * 512 + sz.code * 64 + ea.field
  | .asrMem ea => 0xE0C0 + ea.field
  | .aslMem ea => 0xE1C0 + ea.field
  | .lsrMem ea => 0xE2C0 + ea.field
  | .lslMem ea => 0xE3C0 + ea.field
  | .roxrMem ea => 0xE4C0 + ea.field
  | .roxlMem ea => 0xE5C0 + ea.field
  | .rorMem ea => 0xE6C0 + ea.field
  | .rolMem ea => 0xE7C0 + ea.field
  | .asrImm sz c dn => 0xE000 + c.val * 512 + sz.code * 64 + dn.val
  | .asrReg sz m dn => 0xE020 + m.val * 512 + sz.code * 64 + dn.val
  | .aslImm sz c dn => 0xE100 + c.val * 512 + sz.code * 64 + dn.val
  | .aslReg sz m dn => 0xE120 + m.val * 512 + sz.code * 64 + dn.val
  | .lsrImm sz c dn => 0xE008 + c.val * 512 + sz.code * 64 + dn.val
  | .lsrReg sz m dn => 0xE028 + m.val * 512 + sz.code * 64 + dn.val
  | .lslImm sz c dn => 0xE108 + c.val * 512 + sz.code * 64 + dn.val
  | .lslReg sz m dn => 0xE128 + m.val * 512 + sz.code * 64 + dn.val
  | .roxrImm sz c dn => 0xE010 + c.val * 512 + sz.code * 64 + dn.val
  | .roxrReg sz m dn => 0xE030 + m.val * 512 + sz.code * 64 + dn.val
  | .roxlImm sz c dn => 0xE110 + c.val * 512 + sz.code * 64 + dn.val
  | .roxlReg sz m dn => 0xE130 + m.val * 512 + sz.code * 64 + dn.val
  | .rorImm sz c dn => 0xE018 + c.val * 512 + sz.code * 64 + dn.val
  | .rorReg sz m dn => 0xE038 + m.val * 512 + sz.code * 64 + dn.val
  | .rolImm sz c dn => 0xE118 + c.val * 512 + sz.code * 64 + dn.val
  | .rolReg sz m dn => 0xE138 + m.val * 512 + sz.code * 64 + dn.val

/-- The extension words: the instruction's own, then the source's, then the destination's (R81). -/
def Instr.extension : Instr → List Word
  | .oriToCcr v | .andiToCcr v | .eoriToCcr v => [wordOfByte v]
  | .oriToSr v | .andiToSr v | .eoriToSr v | .stop v => [v]
  | .movepToReg _ _ d _ => [d]
  | .movepToMem _ _ _ d => [d]
  | .link _ d => [d]
  | .dbcc _ _ d => [d]
  | .bra d | .bsr d | .bcc _ d => d.words
  | .btstImm b ea | .bchgImm b ea | .bclrImm b ea | .bsetImm b ea => wordOfByte b :: ea.words
  | .ori v ea | .andi v ea | .subi v ea | .addi v ea | .eori v ea | .cmpi v ea => v.words ++ ea.words
  | .moveB src dst | .moveW src dst | .moveL src dst => src.words ++ dst.words
  | .movemToMem _ mask ea => mask :: ea.words
  | .movemToReg _ ea mask => mask :: ea.words
  | .moveaW ea _ | .moveaL ea _ | .btstDn _ ea | .bchgDn _ ea | .bclrDn _ ea | .bsetDn _ ea => ea.words
  | .moveFromSr ea | .moveToCcr ea | .moveToSr ea | .tas ea | .nbcd ea | .pea ea | .jsr ea | .jmp ea => ea.words
  | .chk ea _ | .lea ea _ | .divu ea _ | .divs ea _ | .mulu ea _ | .muls ea _ => ea.words
  | .negx _ ea | .clr _ ea | .neg _ ea | .notEa _ ea | .tst _ ea | .scc _ ea => ea.words
  | .addq _ _ ea | .subq _ _ ea => ea.words
  | .orEaDn _ ea _ | .subEaDn _ ea _ | .cmp _ ea _ | .andEaDn _ ea _ | .addEaDn _ ea _ => ea.words
  | .orDnEa _ _ ea | .subDnEa _ _ ea | .eor _ _ ea | .andDnEa _ _ ea | .addDnEa _ _ ea => ea.words
  | .suba _ ea _ | .cmpa _ ea _ | .adda _ ea _ => ea.words
  | .asrMem ea | .aslMem ea | .lsrMem ea | .lslMem ea | .roxrMem ea | .roxlMem ea | .rorMem ea | .rolMem ea => ea.words
  | .resetDevices | .nop | .rte | .rts | .trapv | .rtr | .illegal | .trap _ => []
  | .unlk _ | .moveToUsp _ | .moveFromUsp _ | .swap _ | .extW _ | .extL _ | .moveq _ _ => []
  | .sbcdReg _ _ | .sbcdMem _ _ | .abcdReg _ _ | .abcdMem _ _ | .exgDD _ _ | .exgAA _ _ | .exgDA _ _ => []
  | .subxReg _ _ _ | .subxMem _ _ _ | .addxReg _ _ _ | .addxMem _ _ _ | .cmpm _ _ _ => []
  | .asrImm _ _ _ | .asrReg _ _ _ | .aslImm _ _ _ | .aslReg _ _ _ => []
  | .lsrImm _ _ _ | .lsrReg _ _ _ | .lslImm _ _ _ | .lslReg _ _ _ => []
  | .roxrImm _ _ _ | .roxrReg _ _ _ | .roxlImm _ _ _ | .roxlReg _ _ _ => []
  | .rorImm _ _ _ | .rorReg _ _ _ | .rolImm _ _ _ | .rolReg _ _ _ => []

/-- The words of an instruction (R80, R81). -/
def encode (i : Instr) : List Word := BitVec.ofNat 16 i.opNat :: i.extension

/-- The bytes of an instruction in memory order. -/
def encodeBytes (i : Instr) : List Byte := (encode i).flatMap bytesOfWord

/-- The five words that the bits `w` stand for: bit 0 is the least significant bit of the first word, a later word's bits
count on from it, and every bit above `nbits` is 0. -/
def tableWords (nbits w : Nat) : List Word :=
  let v := w % 2 ^ nbits
  [BitVec.ofNat 16 v, BitVec.ofNat 16 (v / 2 ^ 16), BitVec.ofNat 16 (v / 2 ^ 32), BitVec.ofNat 16 (v / 2 ^ 48),
    BitVec.ofNat 16 (v / 2 ^ 64)]

/-- The instruction the decoder reads from the table's numbering of an instruction's bits, the words laid out as memory
holds them. -/
def decodeTableWord (nbits w : Nat) : Option Instr :=
  match decodeBytes ((tableWords nbits w).flatMap bytesOfWord) with
  | .ok (i, _) => some i
  | .error _ => none

end Sys2Proof
end

