-- ==== Sys2Proof/Machine/State.lean ====
section
/-! DEFINITION. The state of the machine as plain data (10_state.md), why a step can stop, and the machine right after reset. -/

namespace Sys2Proof.Machine

/-- The status register (R26). The six bits that R26's table gives as 0 (14, 12, 11, 7, 6, 5) hold no state. -/
structure StatusReg where
  /-- bit 15: trace -/
  t : Bool
  /-- bit 13: supervisor -/
  s : Bool
  /-- bits 10:8: interrupt priority mask -/
  i : BitVec 3
  /-- bit 4: extend -/
  x : Bool
  /-- bit 3: negative -/
  n : Bool
  /-- bit 2: zero -/
  z : Bool
  /-- bit 1: overflow -/
  v : Bool
  /-- bit 0: carry -/
  c : Bool
  deriving DecidableEq, Repr

/-- The run states of R33. -/
inductive RunState where
  | running | stopped | halted
  deriving DecidableEq, Repr

/-- The platform's answer to an interrupt acknowledge cycle (R421). -/
inductive IackAnswer where
  | vector (v : BitVec 8)
  | autovector
  | busError
  deriving DecidableEq, Repr

/-- The platform's answer to one bus cycle in a window it answers itself (R9, R17). -/
inductive BusAnswer where
  /-- as memory there would: a read takes its bytes, a write changes them -/
  | memory
  /-- a read takes these data, of which a byte is the low one; a write is taken and changes no memory -/
  | data (w : Word)
  /-- the cycle ends in a bus error (R402) -/
  | busError
  deriving DecidableEq, Repr

/-- What the platform presents to the processor at a step (R9, R420, R421, R451). -/
structure Pins where
  /-- the interrupt request level, 0 for none (R420) -/
  ipl : BitVec 3
  /-- the answer an acknowledge cycle would get (R421) -/
  iack : IackAnswer
  /-- RESET and HALT are asserted together (R451); each step with them asserted is one whole reset (log 36) -/
  reset : Bool
  deriving DecidableEq, Repr

/-- What answers a bus cycle at an address (R9, 93 U17). -/
inductive RegionKind where
  /-- memory that is read and written -/
  | ram
  /-- memory that is read; a write is taken and changes nothing -/
  | rom
  /-- nothing: every cycle ends in a bus error -/
  | absent
  /-- a window in which the platform answers every cycle afresh, from `State.answers` (log 35) -/
  | device
  /-- a window that ends no cycle in an error and drives no data: what a read takes is free; a write changes memory where
  `stores` says so (log 39) -/
  | undriven (stores : Bool)
  deriving DecidableEq, Repr

/-- A range of addresses of the platform's memory map. -/
structure Region where
  base : Nat
  size : Nat
  kind : RegionKind
  deriving DecidableEq, Repr

/-- A 14-byte frame of R430 on the supervisor stack (log 27). -/
structure Group0Frame where
  /-- the address of its first byte -/
  sp : Long
  /-- the address of the instruction in progress when the access failed -/
  start : Long
  /-- that instruction's bytes; 0 where none was in progress -/
  length : Nat
  /-- how many bytes SSP has stood above its first byte, at most: software has discarded the bytes below -/
  top : Nat
  /-- the places, from 0, of the bytes that still are the frame's: none has been stored over since it was discarded -/
  kept : List Nat
  deriving DecidableEq, Repr

/-- What the model keeps of the stores made so far, for the fault end of R454 and the refusals of R430 and 93 U22: its own
bookkeeping, no state of the machine. -/
structure Bookkeeping where
  /-- the vectors a store has reached, rising (93 U19, log 29) -/
  vectors : List Nat
  /-- the group 0 frames on the supervisor stack (log 27) -/
  frames : List Group0Frame
  deriving DecidableEq, Repr

/-- A timing triple: clock periods, bus read cycles, bus write cycles (R10). -/
structure Time where
  clk : Nat
  r : Nat
  w : Nat
  deriving DecidableEq, Repr

/-- Memory: the bytes that differ from `Config.unwrittenByte`, by rising address. -/
abbrev Memory := List Host.Cell

/-- The whole state (INVENTORY.md, "State"). -/
structure State where
  /-- D0 to D7 (R20) -/
  d : Vector Long 8
  /-- A0 to A6 (R21); A7 is `usp` or `ssp` (R23) -/
  a : Vector Long 7
  /-- the user stack pointer (R22) -/
  usp : Long
  /-- the supervisor stack pointer (R22) -/
  ssp : Long
  /-- the program counter (R24) -/
  pc : Long
  /-- the status register (R26) -/
  sr : StatusReg
  /-- running, stopped or halted (R33) -/
  run : RunState
  /-- the operation word of the instruction in progress (R430) -/
  ir : Word
  /-- a trace exception is due when the instruction in progress is complete (R424) -/
  tracePending : Bool
  /-- memory (R31) -/
  mem : Memory
  /-- the platform's inputs now (R9) -/
  pins : Pins
  /-- the request level has become 7 since it was last sampled (R420) -/
  level7Edge : Bool
  /-- the platform's inputs at the following steps; empty: they stay as they are (R9) -/
  schedule : List Pins
  /-- the platform's memory map; an address in no region is RAM (R9) -/
  regions : List Region
  /-- the platform's answers to the next bus cycles in device windows, one a cycle; past the last one they are free
  (R9, R17, log 35) -/
  answers : List BusAnswer
  /-- the platform forbids TAS on memory (R462) -/
  tasForbidden : Bool
  /-- the words read ahead (R32, R35, R460), as their bus cycles were answered: the first is that at the pc. Of one that
  memory answers the contents are not kept: the fetch takes them from memory (R32, 92 D7, log 14) -/
  ahead : List BusAnswer
  /-- the model's own: what it keeps of the stores made (log 27, 29) -/
  book : Bookkeeping
  /-- the model's own: the index of the next free value (log 34) -/
  draws : Nat
  /-- the sum of the timing triples so far (R34) -/
  elapsed : Time
  deriving DecidableEq, Repr

/-- Why the machine stops with a fault. -/
inductive Fault where
  /-- Raised by `step` in the run state `halted` when no input is to come: the stuck state of R432 (93 U15). Safe: the
  hardware does nothing either until an external reset. -/
  | halted
  /-- Raised by an exception whose vector nothing has written: the fault end of R454 (92 D19, 93 U19, log 29). Safe: the
  hardware goes on at whatever the vector holds. -/
  | unsetVector
  deriving DecidableEq, Repr

/-- Why an instruction gets no meaning. -/
inductive Refusal where
  /-- Raised by an arm of `exec` for an instruction without a meaning; no arm does. Safe. -/
  | notModelled (mnemonic : String)
  /-- Raised by a store into the four bytes after the storing instruction (R65, R460, 93 U7). Safe: the hardware goes on. -/
  | prefetchWindow
  /-- Raised by TAS on memory where the platform forbids it (R462, 93 U18). Safe. -/
  | tasForbidden
  /-- Raised by RTE from a 14-byte bus or address error frame of which no 8 bytes have been discarded (93 U22, R430). Safe:
  the hardware pops the wrong words. -/
  | rteFromGroup0Frame
  /-- Raised by RTE from such a frame with 8 bytes discarded, into the instruction that faulted (R430, 92 D4, 93 U22). Safe. -/
  | resumesFaultedInstruction
  deriving DecidableEq, Repr

/-- The machine right after reset (R35, R451, R452). The long at 0 and the long at 4 of a memory with nothing listed give
SSP and pc (log 5). D0 to D7, A0 to A6 and USP have no value in the spec, which says of a model's value only that it is
"never zero" (R35): DESIGN CHOICE, unsafe (log 3). The five flags have none either: DESIGN CHOICE, unsafe (log 4). The
inputs and the model's own fields: log 6, 7, 35, 28, 27, 29, 34. The two words at pc are read ahead (R35). `elapsed` counts
reset (R450). -/
def State.reset : State :=
  { d := #v[0x00000D00, 0x00000D10, 0x00000D20, 0x00000D30, 0x00000D40, 0x00000D50, 0x00000D60, 0x00000D70]
    a := #v[0x0000A000, 0x0000A100, 0x0000A200, 0x0000A300, 0x0000A400, 0x0000A500, 0x0000A600]
    usp := 0x0000A800
    ssp := 0
    pc := 0
    sr := { t := false, s := true, i := 7, x := false, n := false, z := false, v := false, c := false }
    run := .running
    ir := 0
    tracePending := false
    mem := []
    pins := { ipl := 0, iack := .autovector, reset := false }
    level7Edge := false
    schedule := []
    regions := []
    answers := []
    tasForbidden := false
    ahead := [.memory, .memory]
    book := { vectors := [], frames := [] }
    draws := 0
    elapsed := { clk := 40, r := 6, w := 0 } }

end Sys2Proof.Machine
end

