-- ==== Sys2Proof/Machine/Bits.lean ====
section
/-! DEFINITION. Slices, sign extension and byte order on unsigned numbers (00_scope.md R13, R14; 20_memory.md R52). An operand
of `bits` bits is a number below `2 ^ bits`; registers and bytes are bit vectors. -/

namespace Sys2Proof.Machine

/-- `trunc_bits(v)` (R13). -/
def trunc (bits v : Nat) : Nat := v % 2 ^ bits

/-- `msb(v, bits)` (R13). -/
def msb (bits v : Nat) : Bool := v / 2 ^ (bits - 1) % 2 == 1

/-- Bit `k` of `v`. -/
def bitAt (v k : Nat) : Bool := v / 2 ^ k % 2 == 1

/-- An operand of `bits` bits read as a two's complement number. -/
def signed (bits v : Nat) : Int := if msb bits v then (v : Int) - 2 ^ bits else v

/-- The two's complement number `z` as an operand of `bits` bits. -/
def ofSigned (bits : Nat) (z : Int) : Nat := (z % 2 ^ bits).toNat

/-- `sext_32` of an operand of `bits` bits (R13). -/
def sext32 (bits v : Nat) : Long := BitVec.ofInt 32 (signed bits v)

/-- The low `bits` bits of a register (R20). -/
def lowBits (bits : Nat) (x : Long) : Nat := x.toNat % 2 ^ bits

/-- A register with its low `bits` bits replaced and the bits above unchanged (R20). -/
def withLowBits (bits : Nat) (x : Long) (v : Nat) : Long := BitVec.ofNat 32 (2 ^ bits * (x.toNat / 2 ^ bits) + v % 2 ^ bits)

/-- The address that reaches memory (R24, R25): the low ADDR_BITS bits. -/
def phys (a : Long) : Nat := a.toNat % 2 ^ Config.addrBits

/-- The bytes of an operand in memory order, the most significant first (R52). -/
def bytesOf : Size → Nat → List Byte
  | .b, v => [BitVec.ofNat 8 v]
  | .w, v => [BitVec.ofNat 8 (v / 256), BitVec.ofNat 8 v]
  | .l, v => [BitVec.ofNat 8 (v / 16777216), BitVec.ofNat 8 (v / 65536), BitVec.ofNat 8 (v / 256), BitVec.ofNat 8 v]

/-- The cells that bytes occupy from address `a` up. -/
def cellsFrom (a : Long) : List Byte → List Host.Cell
  | [] => []
  | b :: bs => (phys a, b) :: cellsFrom (a + 1) bs

/-- The cells an operand occupies at address `a` (R52). -/
def cellsOf (sz : Size) (a : Long) (v : Nat) : List Host.Cell := cellsFrom a (bytesOf sz v)

/-- The immediate's value as a number. -/
def immValue : Imm → Nat
  | .b v => v.toNat
  | .w v => v.toNat
  | .l v => v.toNat

end Sys2Proof.Machine
end

