-- ==== Sys2Proof/Machine/Flags.lean ====
section
/-! DEFINITION. The status register as a word, the condition tests and every flag computation (10_state.md R26 to R29). -/

namespace Sys2Proof.Machine

/-- The condition code register, the low byte of SR (R26). -/
def StatusReg.ccr (sr : StatusReg) : Nat :=
  sr.x.toNat * 16 + sr.n.toNat * 8 + sr.z.toNat * 4 + sr.v.toNat * 2 + sr.c.toNat

/-- The status register as a word: the bits that do not exist read 0 (R26). -/
def StatusReg.toWord (sr : StatusReg) : Word :=
  BitVec.ofNat 16 (32768 * sr.t.toNat + 8192 * sr.s.toNat + 256 * sr.i.toNat + sr.ccr)

/-- A write of CCR: the five flags from a number, its other bits ignored (R350, CCR_MASK). -/
def StatusReg.withCcr (sr : StatusReg) (v : Nat) : StatusReg :=
  { sr with x := bitAt v 4, n := bitAt v 3, z := bitAt v 2, v := bitAt v 1, c := bitAt v 0 }

/-- A write of SR: the fields from a number, the bits that do not exist ignored (R350, SR_MASK). -/
def StatusReg.ofNat (v : Nat) : StatusReg :=
  { t := bitAt v 15, s := bitAt v 13, i := BitVec.ofNat 3 (v / 256)
    x := bitAt v 4, n := bitAt v 3, z := bitAt v 2, v := bitAt v 1, c := bitAt v 0 }

/-- `cond(cc)` (R28). -/
def StatusReg.cond (sr : StatusReg) : Cond → Bool
  | .t => true
  | .f => false
  | .hi => !sr.c && !sr.z
  | .ls => sr.c || sr.z
  | .cc => !sr.c
  | .cs => sr.c
  | .ne => !sr.z
  | .eq => sr.z
  | .vc => !sr.v
  | .vs => sr.v
  | .pl => !sr.n
  | .mi => sr.n
  | .ge => sr.n == sr.v
  | .lt => sr.n != sr.v
  | .gt => !sr.z && sr.n == sr.v
  | .le => sr.z || sr.n != sr.v

/-- `flags_logic` (R29): X unchanged. -/
def flagsLogic (bits r : Nat) (sr : StatusReg) : StatusReg :=
  { sr with n := msb bits r, z := r == 0, v := false, c := false }

/-- The result of an addition, `d + s` (R29). -/
def addResult (bits s d : Nat) : Nat := trunc bits (d + s)

/-- The result of a subtraction, `d - s` (R29). -/
def subResult (bits s d : Nat) : Nat := trunc bits (d + 2 ^ bits - s)

/-- `flags_add` (R29). -/
def flagsAdd (bits s d r : Nat) (sr : StatusReg) : StatusReg :=
  { sr with
    x := decide (2 ^ bits ≤ d + s)
    n := msb bits r
    z := r == 0
    v := msb bits s == msb bits d && msb bits r != msb bits d
    c := decide (2 ^ bits ≤ d + s) }

/-- `flags_cmp` (R29): X unchanged. -/
def flagsCmp (bits s d r : Nat) (sr : StatusReg) : StatusReg :=
  { sr with
    n := msb bits r
    z := r == 0
    v := msb bits s != msb bits d && msb bits r != msb bits d
    c := decide (d < s) }

/-- `flags_sub` (R29). -/
def flagsSub (bits s d r : Nat) (sr : StatusReg) : StatusReg :=
  { flagsCmp bits s d r sr with x := decide (d < s) }

/-- The result of ADDX, `d + s + X` (R341). -/
def addxResult (bits s d : Nat) (x : Bool) : Nat := trunc bits (d + s + x.toNat)

/-- The result of SUBX, `d - s - X` (R342). -/
def subxResult (bits s d : Nat) (x : Bool) : Nat := trunc bits (d + 2 * 2 ^ bits - s - x.toNat)

/-- The flags of ADDX (R341): Z is cleared by a result that is not zero and else left. -/
def flagsAddx (bits s d r : Nat) (sr : StatusReg) : StatusReg :=
  { sr with
    x := decide (2 ^ bits ≤ d + s + sr.x.toNat)
    n := msb bits r
    z := r == 0 && sr.z
    v := msb bits s == msb bits d && msb bits r != msb bits d
    c := decide (2 ^ bits ≤ d + s + sr.x.toNat) }

/-- The flags of SUBX and NEGX (R342, R234): Z as for ADDX. -/
def flagsSubx (bits s d r : Nat) (sr : StatusReg) : StatusReg :=
  { sr with
    x := decide (d < s + sr.x.toNat)
    n := msb bits r
    z := r == 0 && sr.z
    v := msb bits s != msb bits d && msb bits r != msb bits d
    c := decide (d < s + sr.x.toNat) }

/-- The flags of a shift that moves bits (R252 to R255): C and X take the last bit shifted out. -/
def flagsShift (bits r : Nat) (carry overflow : Bool) (sr : StatusReg) : StatusReg :=
  { sr with x := carry, n := msb bits r, z := r == 0, v := overflow, c := carry }

/-- The flags of a rotate without extend, and of a shift by no place (R252 to R257): X unchanged. -/
def flagsRotate (bits r : Nat) (carry : Bool) (sr : StatusReg) : StatusReg :=
  { sr with n := msb bits r, z := r == 0, v := false, c := carry }

/-- The eight shifts and rotates (R252 to R259). -/
inductive ShiftOp where
  | asl | asr | lsl | lsr | rol | ror | roxl | roxr
  deriving DecidableEq, Repr

/-- `d * 2 ^ n` in `bits` bits (R252, R254). -/
def shiftLeft (bits n d : Nat) : Nat := trunc bits (d * 2 ^ n)

/-- The last bit a left shift by `n > 0` moves out (R252). -/
def leftCarry (bits n d : Nat) : Bool := if n ≤ bits then bitAt d (bits - n) else false

/-- V of ASL by `n > 0` (R252): the sign bit changed at some step. -/
def aslOverflow (bits n d : Nat) : Bool :=
  if n < bits then d / 2 ^ (bits - 1 - n) != 0 && d / 2 ^ (bits - 1 - n) != 2 ^ (n + 1) - 1 else d != 0

/-- The floor of the signed operand by `2 ^ n` (R253). -/
def shiftRightArith (bits n d : Nat) : Nat := ofSigned bits (signed bits d / 2 ^ n)

/-- `t` rotated left by `k < bits` places within `bits` bits (R256, R258). -/
def rotateLeft (bits k t : Nat) : Nat := trunc bits (t * 2 ^ k) + t / 2 ^ (bits - k)

/-- `t` rotated right by `k < bits` places within `bits` bits (R257, R259). -/
def rotateRight (bits k t : Nat) : Nat := t / 2 ^ k + trunc bits (t * 2 ^ (bits - k))

/-- X on top of the operand, `bits + 1` bits (R258). -/
def withExtend (bits d : Nat) (x : Bool) : Nat := 2 ^ bits * x.toNat + d

/-- ROXL and ROXR from the rotated `bits + 1` bits (R258): X and C take the top bit. -/
def fromExtend (bits t : Nat) (sr : StatusReg) : Nat × StatusReg :=
  (trunc bits t, flagsShift bits (trunc bits t) (bitAt t bits) false sr)

/-- The result and the flags of a shift or rotate of the operand `d` by `n` places (R252 to R259). -/
def shiftResult (op : ShiftOp) (bits n d : Nat) (sr : StatusReg) : Nat × StatusReg :=
  match op with
  | .asl =>
    if n = 0 then (d, flagsRotate bits d false sr)
    else (shiftLeft bits n d, flagsShift bits (shiftLeft bits n d) (leftCarry bits n d) (aslOverflow bits n d) sr)
  | .lsl =>
    if n = 0 then (d, flagsRotate bits d false sr)
    else (shiftLeft bits n d, flagsShift bits (shiftLeft bits n d) (leftCarry bits n d) false sr)
  | .asr =>
    if n = 0 then (d, flagsRotate bits d false sr)
    else (shiftRightArith bits n d, flagsShift bits (shiftRightArith bits n d)
      (if n ≤ bits then bitAt d (n - 1) else msb bits d) false sr)
  | .lsr =>
    if n = 0 then (d, flagsRotate bits d false sr)
    else (d / 2 ^ n, flagsShift bits (d / 2 ^ n) (if n ≤ bits then bitAt d (n - 1) else false) false sr)
  | .rol =>
    let r := rotateLeft bits (n % bits) d
    (r, flagsRotate bits r (n != 0 && bitAt r 0) sr)
  | .ror =>
    let r := rotateRight bits (n % bits) d
    (r, flagsRotate bits r (n != 0 && msb bits r) sr)
  | .roxl => fromExtend bits (rotateLeft (bits + 1) (n % (bits + 1)) (withExtend bits d sr.x)) sr
  | .roxr => fromExtend bits (rotateRight (bits + 1) (n % (bits + 1)) (withExtend bits d sr.x)) sr

/-- The two-operand operations of R171, R173, R182, R186, R187. -/
inductive AluOp where
  | add | sub | and | or | eor
  deriving DecidableEq, Repr

/-- The result and the flags of a two-operand operation with source `s` and destination `d`. -/
def aluResult (op : AluOp) (bits s d : Nat) (sr : StatusReg) : Nat × StatusReg :=
  match op with
  | .add => (addResult bits s d, flagsAdd bits s d (addResult bits s d) sr)
  | .sub => (subResult bits s d, flagsSub bits s d (subResult bits s d) sr)
  | .and => (d &&& s, flagsLogic bits (d &&& s) sr)
  | .or => (d ||| s, flagsLogic bits (d ||| s) sr)
  | .eor => (d ^^^ s, flagsLogic bits (d ^^^ s) sr)

/-- Both digits of a packed decimal byte are 0 to 9 (R232, R344). -/
def isDecimal (v : Nat) : Bool := decide (v % 16 ≤ 9) && decide (v / 16 ≤ 9)

/-- ABCD on decimal digits: the result and the decimal carry (R344). -/
def abcdResult (s d : Nat) (x : Bool) : Nat × Bool :=
  let lo := s % 16 + d % 16 + x.toNat
  let k := decide (9 < lo)
  let lo' := if k then lo - 10 else lo
  let hi := s / 16 + d / 16 + k.toNat
  let c := decide (9 < hi)
  let hi' := if c then hi - 10 else hi
  (hi' * 16 + lo', c)

/-- SBCD on decimal digits: the result and the decimal borrow (R345); NBCD is SBCD from 0 (R232). -/
def sbcdResult (s d : Nat) (x : Bool) : Nat × Bool :=
  let b := decide (d % 16 < s % 16 + x.toNat)
  let lo := if b then d % 16 + 10 - s % 16 - x.toNat else d % 16 - s % 16 - x.toNat
  let c := decide (d / 16 < s / 16 + b.toNat)
  let hi := if c then d / 16 + 10 - s / 16 - b.toNat else d / 16 - s / 16 - b.toNat
  (hi * 16 + lo, c)

/-- The flags of ABCD, SBCD, NBCD on decimal digits (R344): N and V are the free bits `n` and `v` (93 U1). -/
def flagsDecimal (r : Nat) (carry n v : Bool) (sr : StatusReg) : StatusReg :=
  { sr with x := carry, n := n, z := r == 0 && sr.z, v := v, c := carry }

end Sys2Proof.Machine
end

