-- ==== Sys2Proof/Machine/Timing.lean ====
section
/-! DEFINITION. The timing layer: the tables of files 40 to 49 and 60 as one total function of an instruction descriptor
(00_scope.md R10, R12). A cell of a form that does not exist ("-") is given as 0(0/0); no well-formed instruction asks for it. -/

namespace Sys2Proof.Machine

/-- Componentwise sum (R10). -/
def Time.add (s t : Time) : Time := { clk := s.clk + t.clk, r := s.r + t.r, w := s.w + t.w }

/-- The triple with the wait states of its bus cycles (R470): nothing is added at WAIT = 0. -/
def Time.withWait (t : Time) : Time := { t with clk := t.clk + Config.wait * (t.r + t.w) }

/-- No time. -/
def Time.zero : Time := { clk := 0, r := 0, w := 0 }

/-- The effective address calculation time, byte and word column (R121). -/
def eaTimeBW : Mode → Time
  | .dn => ⟨0, 0, 0⟩
  | .an => ⟨0, 0, 0⟩
  | .ind => ⟨4, 1, 0⟩
  | .postInc => ⟨4, 1, 0⟩
  | .preDec => ⟨6, 1, 0⟩
  | .disp => ⟨8, 2, 0⟩
  | .index => ⟨10, 2, 0⟩
  | .absW => ⟨8, 2, 0⟩
  | .absL => ⟨12, 3, 0⟩
  | .pcDisp => ⟨8, 2, 0⟩
  | .pcIndex => ⟨10, 2, 0⟩
  | .imm => ⟨4, 1, 0⟩

/-- The effective address calculation time, long column (R121). -/
def eaTimeL : Mode → Time
  | .dn => ⟨0, 0, 0⟩
  | .an => ⟨0, 0, 0⟩
  | .ind => ⟨8, 2, 0⟩
  | .postInc => ⟨8, 2, 0⟩
  | .preDec => ⟨10, 2, 0⟩
  | .disp => ⟨12, 3, 0⟩
  | .index => ⟨14, 3, 0⟩
  | .absW => ⟨12, 3, 0⟩
  | .absL => ⟨16, 4, 0⟩
  | .pcDisp => ⟨12, 3, 0⟩
  | .pcIndex => ⟨14, 3, 0⟩
  | .imm => ⟨8, 2, 0⟩

/-- `EA(mode, size)` (R121). -/
def eaTime (m : Mode) : Size → Time
  | .b => eaTimeBW m
  | .w => eaTimeBW m
  | .l => eaTimeL m

/-- The row `Dn` of the MOVE byte and word table (R150). -/
def moveDstBW : Mode → Time
  | .dn => ⟨4, 1, 0⟩
  | .an => ⟨4, 1, 0⟩
  | .ind => ⟨8, 1, 1⟩
  | .postInc => ⟨8, 1, 1⟩
  | .preDec => ⟨8, 1, 1⟩
  | .disp => ⟨12, 2, 1⟩
  | .index => ⟨14, 2, 1⟩
  | .absW => ⟨12, 2, 1⟩
  | .absL => ⟨16, 3, 1⟩
  | _ => ⟨0, 0, 0⟩

/-- The row `Dn` of the MOVE long table (R151). -/
def moveDstL : Mode → Time
  | .dn => ⟨4, 1, 0⟩
  | .an => ⟨4, 1, 0⟩
  | .ind => ⟨12, 1, 2⟩
  | .postInc => ⟨12, 1, 2⟩
  | .preDec => ⟨12, 1, 2⟩
  | .disp => ⟨16, 2, 2⟩
  | .index => ⟨18, 2, 2⟩
  | .absW => ⟨16, 2, 2⟩
  | .absL => ⟨20, 3, 2⟩
  | _ => ⟨0, 0, 0⟩

/-- The two MOVE tables (R150, R151), each cell its column's `Dn` row plus the source's effective address time (R152), but
for the two cells whose read count both documents print otherwise. -/
def moveTime (sz : Size) (src dst : Mode) : Time :=
  match sz, src, dst with
  | .b, .preDec, .index => ⟨20, Config.moveBwPredecIxReads, 1⟩
  | .w, .preDec, .index => ⟨20, Config.moveBwPredecIxReads, 1⟩
  | .l, .pcDisp, .absL => ⟨32, Config.moveLPcdispAbslReads, 2⟩
  | .l, src, dst => (moveDstL dst).add (eaTimeL src)
  | _, src, dst => (moveDstBW dst).add (eaTimeBW src)

/-- The `**` rule (R176): the base of six clocks is eight for a register or an immediate source. -/
def starStar : Mode → Time
  | .dn => ⟨8, 1, 0⟩
  | .an => ⟨8, 1, 0⟩
  | .imm => ⟨8, 1, 0⟩
  | _ => ⟨6, 1, 0⟩

/-- Byte and word against long. -/
def bySize (sz : Size) (bw l : Time) : Time :=
  match sz with
  | .b => bw
  | .w => bw
  | .l => l

/-- How DBcc ends (R12). -/
inductive DbccOutcome where
  | ccTrue | ccFalseTaken | ccFalseExpired
  deriving DecidableEq, Repr

/-- An instruction descriptor (R12): the table's row with its size, its modes and its dynamic outcome. Rows that share
their cells share a constructor, which names them. -/
inductive Descriptor where
  /-- MOVE, MOVEA (R150, R151) -/
  | move (sz : Size) (src dst : Mode)
  /-- ADD, SUB, AND, OR `<ea>,Dn` (R170, R176) -/
  | aluEaDn (sz : Size) (src : Mode)
  /-- ADD, SUB, AND, OR, EOR `Dn,<M>` (R170) -/
  | aluDnMem (sz : Size) (dst : Mode)
  /-- EOR to a data register (R182) -/
  | eorReg (sz : Size)
  /-- ADDA, SUBA (R170, R176) -/
  | aluAn (sz : Size) (src : Mode)
  /-- CMP `<ea>,Dn` (R174) -/
  | cmp (sz : Size) (src : Mode)
  /-- CMPA (R175) -/
  | cmpa (sz : Size) (src : Mode)
  /-- MULU, MULS with `n` of R185 -/
  | mul (n : Nat) (src : Mode)
  /-- DIVU, DIVS without a trap, with DIV_CLOCKS (R181) -/
  | div (clocks : Nat) (src : Mode)
  /-- ADDI, ANDI, EORI, ORI, SUBI `#,Dn` (R200) -/
  | immDn (sz : Size)
  /-- ADDI, EORI, ORI, SUBI `#,M` (R200) -/
  | immMem (sz : Size) (dst : Mode)
  /-- ANDI `#,M` (R200, R210) -/
  | andiMem (sz : Size) (dst : Mode)
  /-- CMPI `#,Dn` (R201) -/
  | cmpiDn (sz : Size)
  /-- CMPI `#,M` (R201) -/
  | cmpiMem (sz : Size) (dst : Mode)
  /-- ADDQ, SUBQ `#,Dn` (R203) -/
  | quickDn (sz : Size)
  /-- ADDQ, SUBQ `#,An` (R203) -/
  | quickAn
  /-- ADDQ, SUBQ `#,M` (R203) -/
  | quickMem (sz : Size) (dst : Mode)
  /-- MOVEQ (R206) -/
  | moveq
  /-- CLR, NEG, NEGX, NOT on a register (R230) -/
  | singleDn (sz : Size)
  /-- CLR, NEG, NEGX, NOT on memory (R230) -/
  | singleMem (sz : Size) (dst : Mode)
  /-- NBCD on a register -/
  | nbcdDn
  /-- NBCD on memory -/
  | nbcdMem (dst : Mode)
  /-- Scc on a register, by the truth of the condition -/
  | sccDn (taken : Bool)
  /-- Scc on memory -/
  | sccMem (dst : Mode)
  /-- TAS on a register -/
  | tasDn
  /-- TAS on memory -/
  | tasMem (dst : Mode)
  /-- TST (R230): the register cell is the memory cell without its effective address time -/
  | tst (sz : Size) (m : Mode)
  /-- shifts and rotates of a register by `n` (R250, R251) -/
  | shiftDn (sz : Size) (n : Nat)
  /-- shifts and rotates of memory -/
  | shiftMem (dst : Mode)
  /-- BTST on a register (R270, exact) -/
  | btstDn (static : Bool)
  /-- BTST on memory -/
  | btstMem (static : Bool) (m : Mode)
  /-- BCHG, BCLR, BSET on a register, with BITOP_CLOCKS (R273) -/
  | bitDn (static : Bool) (clocks : Nat)
  /-- BCHG, BCLR, BSET on memory -/
  | bitMem (static : Bool) (dst : Mode)
  /-- Bcc by displacement size and outcome (R290) -/
  | bcc (word taken : Bool)
  | bra
  | bsr
  | dbcc (o : DbccOutcome)
  | jmp (m : Mode)
  | jsr (m : Mode)
  | lea (m : Mode)
  | pea (m : Mode)
  /-- MOVEM memory to registers, `n` registers (R310) -/
  | movemToReg (sz : Size) (n : Nat) (m : Mode)
  /-- MOVEM registers to memory -/
  | movemToMem (sz : Size) (n : Nat) (m : Mode)
  /-- ADDX, SUBX on registers (R340) -/
  | extendDn (sz : Size)
  /-- ADDX, SUBX on memory -/
  | extendMem (sz : Size)
  | cmpm (sz : Size)
  /-- ABCD, SBCD on registers -/
  | bcdDn
  /-- ABCD, SBCD on memory -/
  | bcdMem
  /-- ANDI, EORI, ORI to CCR and to SR (R350) -/
  | immStatus
  /-- CHK without a trap -/
  | chk (src : Mode)
  | moveFromSrDn
  | moveFromSrMem (dst : Mode)
  /-- MOVE to CCR, MOVE to SR -/
  | moveToStatus (src : Mode)
  | exg
  | ext
  | link
  | moveUsp
  | nop
  | resetDevices
  | rte
  | rtr
  | rts
  | stop
  | swap
  | trapvNoTrap
  | unlk
  /-- MOVEP either way (R380) -/
  | movep (sz : Size) (toMem : Bool)
  /-- bus error, address error (R400) -/
  | group0
  /-- CHK, trap taken -/
  | chkTrap (src : Mode)
  /-- Divide by Zero (R412) -/
  | zeroDivide (src : Mode)
  /-- illegal instruction; line A and line F too (R414) -/
  | illegal
  /-- interrupt, every variant (R414) -/
  | interrupt
  | privilege
  | resetPins
  | trace
  | trap
  | trapvTrap
  deriving DecidableEq, Repr

/-- The JMP row of R310. -/
def jmpTime : Mode → Time
  | .ind => ⟨8, 2, 0⟩
  | .disp => ⟨10, 2, 0⟩
  | .index => ⟨14, 3, 0⟩
  | .absW => ⟨10, 2, 0⟩
  | .absL => ⟨12, 3, 0⟩
  | .pcDisp => ⟨10, 2, 0⟩
  | .pcIndex => ⟨14, 3, 0⟩
  | _ => ⟨0, 0, 0⟩

/-- The JSR row of R310. -/
def jsrTime : Mode → Time
  | .ind => ⟨16, 2, 2⟩
  | .disp => ⟨18, 2, 2⟩
  | .index => ⟨22, 2, 2⟩
  | .absW => ⟨18, 2, 2⟩
  | .absL => ⟨20, 3, 2⟩
  | .pcDisp => ⟨18, 2, 2⟩
  | .pcIndex => ⟨22, 2, 2⟩
  | _ => ⟨0, 0, 0⟩

/-- The LEA row of R310. -/
def leaTime : Mode → Time
  | .ind => ⟨4, 1, 0⟩
  | .disp => ⟨8, 2, 0⟩
  | .index => ⟨12, 2, 0⟩
  | .absW => ⟨8, 2, 0⟩
  | .absL => ⟨12, 3, 0⟩
  | .pcDisp => ⟨8, 2, 0⟩
  | .pcIndex => ⟨12, 2, 0⟩
  | _ => ⟨0, 0, 0⟩

/-- The PEA row of R310. -/
def peaTime : Mode → Time
  | .ind => ⟨12, 1, 2⟩
  | .disp => ⟨16, 2, 2⟩
  | .index => ⟨20, 2, 2⟩
  | .absW => ⟨16, 2, 2⟩
  | .absL => ⟨20, 3, 2⟩
  | .pcDisp => ⟨16, 2, 2⟩
  | .pcIndex => ⟨20, 2, 2⟩
  | _ => ⟨0, 0, 0⟩

/-- The part of the MOVEM memory to registers rows of R310 that does not depend on the count. -/
def movemToRegBase : Mode → Time
  | .ind => ⟨12, 3, 0⟩
  | .postInc => ⟨12, 3, 0⟩
  | .disp => ⟨16, 4, 0⟩
  | .index => ⟨18, 4, 0⟩
  | .absW => ⟨16, 4, 0⟩
  | .absL => ⟨20, 5, 0⟩
  | .pcDisp => ⟨16, 4, 0⟩
  | .pcIndex => ⟨18, 4, 0⟩
  | _ => ⟨0, 0, 0⟩

/-- The part of the MOVEM registers to memory rows of R310 that does not depend on the count. -/
def movemToMemBase : Mode → Time
  | .ind => ⟨8, 2, 0⟩
  | .preDec => ⟨8, 2, 0⟩
  | .disp => ⟨12, 3, 0⟩
  | .index => ⟨14, 3, 0⟩
  | .absW => ⟨12, 3, 0⟩
  | .absL => ⟨16, 4, 0⟩
  | _ => ⟨0, 0, 0⟩

/-- `time : Descriptor → (clk, r, w)` (R12): one arm per row of the tables of R150, R151, R170, R200, R230, R250, R270,
R290, R310, R340, R350, R380, R400. -/
def time : Descriptor → Time
  | .move sz src dst => moveTime sz src dst
  | .aluEaDn sz src => (bySize sz ⟨4, 1, 0⟩ (starStar src)).add (eaTime src sz)
  | .aluDnMem sz dst => (bySize sz ⟨8, 1, 1⟩ ⟨12, 1, 2⟩).add (eaTime dst sz)
  | .eorReg sz => bySize sz ⟨4, 1, 0⟩ ⟨8, 1, 0⟩
  | .aluAn sz src => (bySize sz ⟨8, 1, 0⟩ (starStar src)).add (eaTime src sz)
  | .cmp sz src => (bySize sz ⟨4, 1, 0⟩ ⟨6, 1, 0⟩).add (eaTime src sz)
  | .cmpa sz src => Time.add ⟨6, 1, 0⟩ (eaTime src sz)
  | .mul n src => Time.add ⟨38 + 2 * n, 1, 0⟩ (eaTimeBW src)
  | .div clocks src => Time.add ⟨clocks, 1, 0⟩ (eaTimeBW src)
  | .immDn sz => bySize sz ⟨8, 2, 0⟩ ⟨16, 3, 0⟩
  | .immMem sz dst => (bySize sz ⟨12, 2, 1⟩ ⟨20, 3, 2⟩).add (eaTime dst sz)
  | .andiMem sz dst => (bySize sz ⟨12, 2, 1⟩ ⟨20, 3, Config.andiLMemWrites⟩).add (eaTime dst sz)
  | .cmpiDn sz => bySize sz ⟨8, 2, 0⟩ ⟨14, 3, 0⟩
  | .cmpiMem sz dst => (bySize sz ⟨8, 2, 0⟩ ⟨12, 3, 0⟩).add (eaTime dst sz)
  | .quickDn sz => bySize sz ⟨4, 1, 0⟩ ⟨8, 1, 0⟩
  | .quickAn => ⟨8, 1, 0⟩
  | .quickMem sz dst => (bySize sz ⟨8, 1, 1⟩ ⟨12, 1, 2⟩).add (eaTime dst sz)
  | .moveq => ⟨4, 1, 0⟩
  | .singleDn sz => bySize sz ⟨4, 1, 0⟩ ⟨6, 1, 0⟩
  | .singleMem sz dst => (bySize sz ⟨8, 1, 1⟩ ⟨12, 1, 2⟩).add (eaTime dst sz)
  | .nbcdDn => ⟨6, 1, 0⟩
  | .nbcdMem dst => Time.add ⟨8, 1, 1⟩ (eaTimeBW dst)
  | .sccDn taken => if taken then ⟨6, 1, 0⟩ else ⟨4, 1, 0⟩
  | .sccMem dst => Time.add ⟨8, 1, 1⟩ (eaTimeBW dst)
  | .tasDn => ⟨4, 1, 0⟩
  | .tasMem dst => Time.add ⟨10, 1, 1⟩ (eaTimeBW dst)
  | .tst sz m => Time.add ⟨4, 1, 0⟩ (eaTime m sz)
  | .shiftDn sz n => bySize sz ⟨6 + 2 * n, 1, 0⟩ ⟨8 + 2 * n, 1, 0⟩
  | .shiftMem dst => Time.add ⟨8, 1, 1⟩ (eaTimeBW dst)
  | .btstDn static => if static then ⟨10, 2, 0⟩ else ⟨6, 1, 0⟩
  | .btstMem static m => Time.add (if static then ⟨8, 2, 0⟩ else ⟨4, 1, 0⟩) (eaTimeBW m)
  | .bitDn static clocks => ⟨clocks, if static then 2 else 1, 0⟩
  | .bitMem static dst => Time.add (if static then ⟨12, 2, 1⟩ else ⟨8, 1, 1⟩) (eaTimeBW dst)
  | .bcc word taken =>
    if taken then ⟨10, 2, 0⟩ else if word then ⟨12, Config.bccWNotTakenReads, 0⟩ else ⟨8, 1, 0⟩
  | .bra => ⟨10, 2, 0⟩
  | .bsr => ⟨18, 2, 2⟩
  | .dbcc .ccTrue => ⟨12, 2, 0⟩
  | .dbcc .ccFalseTaken => ⟨10, 2, 0⟩
  | .dbcc .ccFalseExpired => ⟨14, 3, 0⟩
  | .jmp m => jmpTime m
  | .jsr m => jsrTime m
  | .lea m => leaTime m
  | .pea m => peaTime m
  | .movemToReg sz n m => (movemToRegBase m).add (bySize sz ⟨4 * n, n, 0⟩ ⟨8 * n, 2 * n, 0⟩)
  | .movemToMem sz n m => (movemToMemBase m).add (bySize sz ⟨4 * n, 0, n⟩ ⟨8 * n, 0, 2 * n⟩)
  | .extendDn sz => bySize sz ⟨4, 1, 0⟩ ⟨8, 1, 0⟩
  | .extendMem sz => bySize sz ⟨18, 3, 1⟩ ⟨30, 5, 2⟩
  | .cmpm sz => bySize sz ⟨12, 3, 0⟩ ⟨20, 5, 0⟩
  | .bcdDn => ⟨6, 1, 0⟩
  | .bcdMem => ⟨18, 3, 1⟩
  | .immStatus => ⟨20, 3, 0⟩
  | .chk src => Time.add ⟨10, 1, 0⟩ (eaTimeBW src)
  | .moveFromSrDn => ⟨6, 1, 0⟩
  | .moveFromSrMem dst => Time.add ⟨8, 1, 1⟩ (eaTimeBW dst)
  | .moveToStatus src => Time.add ⟨12, 1, 0⟩ (eaTimeBW src)
  | .exg => ⟨6, 1, 0⟩
  | .ext => ⟨4, 1, 0⟩
  | .link => ⟨16, 2, 2⟩
  | .moveUsp => ⟨4, 1, 0⟩
  | .nop => ⟨4, 1, 0⟩
  | .resetDevices => ⟨132, 1, 0⟩
  | .rte => ⟨20, 5, 0⟩
  | .rtr => ⟨20, 5, 0⟩
  | .rts => ⟨16, 4, 0⟩
  | .stop => ⟨4, 0, 0⟩
  | .swap => ⟨4, 1, 0⟩
  | .trapvNoTrap => ⟨4, 1, 0⟩
  | .unlk => ⟨12, 3, 0⟩
  | .movep .l toMem => if toMem then ⟨24, 2, 4⟩ else ⟨24, 6, 0⟩
  | .movep _ toMem => if toMem then ⟨16, 2, 2⟩ else ⟨16, 4, 0⟩
  | .group0 => ⟨50, 4, 7⟩
  | .chkTrap src => Time.add ⟨44, 5, 3⟩ (eaTimeBW src)
  | .zeroDivide src => Time.add ⟨42, 5, 3⟩ (if Config.zeroDivideAddsEa then eaTimeBW src else ⟨0, 0, 0⟩)
  | .illegal => ⟨34, 4, 3⟩
  | .interrupt => ⟨40 + Config.iackClocks, 5, 3⟩
  | .privilege => ⟨34, 4, 3⟩
  | .resetPins => ⟨40, 6, 0⟩
  | .trace => ⟨34, 4, 3⟩
  | .trap => ⟨38, 4, 3⟩
  | .trapvTrap => ⟨34, 4, 3⟩

/-- DIV_CLOCKS of DIVU without overflow: even, 127 to 140 (R181, D10); the draw is free. -/
def divuClocks (dividend : Long) (divisor : Word) : Nat := 128 + 2 * (Config.divuDraw dividend divisor % 7)

/-- DIV_CLOCKS of DIVS without overflow: even, 143 to 158 (R181, D10); the draw is free. -/
def divsClocks (dividend : Long) (divisor : Word) : Nat := 144 + 2 * (Config.divsDraw dividend divisor % 8)

/-- DIV_CLOCKS of DIVU on quotient overflow: at most 140 (R181). -/
def divuOverflowClocks (dividend : Long) (divisor : Word) : Nat := Config.divuDraw dividend divisor % 141

/-- DIV_CLOCKS of DIVS on quotient overflow: at most 158 (R181). -/
def divsOverflowClocks (dividend : Long) (divisor : Word) : Nat := Config.divsDraw dividend divisor % 159

/-- The greatest BITOP_CLOCKS of a bit operation on a register (R270). -/
def bitOpMax (op : BitOp) (static : Bool) : Nat :=
  (match op with
    | .clr => 10
    | .chg => 8
    | .set => 8
    | .tst => 6) + if static then 4 else 0

/-- BITOP_CLOCKS (R273, D11): even, at least four clocks a bus cycle, at most the cell; the draw is free. -/
def bitOpClocks (op : BitOp) (static : Bool) (b : Nat) : Nat :=
  let least := if static then 8 else 4
  least + 2 * (Config.bitOpDraw op static b % ((bitOpMax op static - least) / 2 + 1))

/-- The number of 1 bits among the low `k` bits of `v`. -/
def onesBelow : Nat → Nat → Nat
  | 0, _ => 0
  | k + 1, v => v % 2 + onesBelow k (v / 2)

/-- `n` of R185 for MULU: the ones of the source. -/
def muluCount (s : Nat) : Nat := onesBelow 16 s

/-- `n` of R185 for MULS: the 10 and 01 patterns of the source with a zero appended. -/
def mulsCount (s : Nat) : Nat := onesBelow 16 (2 * s ^^^ s)

end Sys2Proof.Machine
end

