-- ==== Sys2Proof/Machine/Ops.lean ====
section
/-! DEFINITION. The named operations over registers, memory and the bus, taking an exception and returning from one
(10_state.md, 20_memory.md, 60_exceptions.md, 70_reset_and_hazards.md). -/

namespace Sys2Proof.Machine

/-! Memory as canonical data. -/

/-- The byte at an address: the listed one, else `Config.unwrittenByte`. -/
def Memory.read : Memory → Nat → Byte
  | [], _ => Config.unwrittenByte
  | (k, x) :: m, a => if k = a then x else Memory.read m a

/-- Memory with the byte at an address replaced, in canonical form. -/
def Memory.write : Memory → Nat → Byte → Memory
  | [], a, b => if b = Config.unwrittenByte then [] else [(a, b)]
  | (k, x) :: m, a, b =>
    if a < k then (if b = Config.unwrittenByte then (k, x) :: m else (a, b) :: (k, x) :: m)
    else if a = k then (if b = Config.unwrittenByte then m else (a, b) :: m)
    else (k, x) :: Memory.write m a b

/-- Every listed address is above `lo`, the addresses rise strictly and lie below `2 ^ ADDR_BITS`, and no listed byte is the
one an unlisted address reads as. `lo = none` bounds nothing. -/
def Memory.wfAbove : Option Nat → Memory → Bool
  | _, [] => true
  | lo, (k, x) :: m =>
    (match lo with
      | none => true
      | some l => decide (l < k)) && decide (k < 2 ^ Config.addrBits) && x != Config.unwrittenByte && Memory.wfAbove (some k) m

/-- The canonical form of memory. -/
def Memory.wf (m : Memory) : Bool := Memory.wfAbove none m

/-! Registers. -/

/-- A data register (R20). -/
def State.dreg (s : State) (r : Reg) : Long := s.d[r]

/-- Write a whole data register (R20). -/
def State.setD (s : State) (r : Reg) (v : Long) : State := { s with d := s.d.set r v }

/-- The active stack pointer, A7 (R23). -/
def State.sp (s : State) : Long := if s.sr.s then s.ssp else s.usp

/-- Write the active stack pointer (R23). -/
def State.setSp (s : State) (v : Long) : State := if s.sr.s then { s with ssp := v } else { s with usp := v }

/-- An address register; number 7 is the active stack pointer (R21, R23). -/
def State.areg (s : State) (r : Reg) : Long := if h : r.val < 7 then s.a[r.val] else s.sp

/-- Write a whole address register (R21, R23). -/
def State.setA (s : State) (r : Reg) (v : Long) : State :=
  if h : r.val < 7 then { s with a := s.a.set r.val v } else s.setSp v

/-- The low `size` bits of a data register as a number (R20, R124). -/
def State.dlow (s : State) (sz : Size) (r : Reg) : Nat := lowBits sz.bits (s.dreg r)

/-- Write the low `size` bits of a data register, the bits above unchanged (R20, R124). -/
def State.setDlow (s : State) (sz : Size) (r : Reg) (v : Nat) : State := s.setD r (withLowBits sz.bits (s.dreg r) v)

/-- A register by name: those an instruction may write, and those MOVEM transfers. -/
inductive RegRef where
  | d (r : Reg)
  | a (r : Reg)
  deriving DecidableEq, Repr

def State.reg (s : State) : RegRef → Long
  | .d r => s.dreg r
  | .a r => s.areg r

def State.setReg (s : State) : RegRef → Long → State
  | .d r, v => s.setD r v
  | .a r, v => s.setA r v

/-- Write the status register's fields. -/
def State.setSr (s : State) (sr : StatusReg) : State := { s with sr := sr }

/-- The pc moved past `n` instruction words (R24). -/
def State.skip (s : State) (n : Nat) : State := { s with pc := s.pc + BitVec.ofNat 32 (2 * n) }

/-- Add a timing triple to the total (R18), with its wait states (R470). -/
def State.charge (s : State) (t : Time) : State := { s with elapsed := s.elapsed.add t.withWait }

/-- The counter past `n` free values. -/
def State.drawn (s : State) (n : Nat) : State := { s with draws := s.draws + n }

/-! Bus cycles. -/

/-- What the platform's memory map has at a memory address: the first region that holds it, else RAM (R9, log 7). -/
def State.kindAt (s : State) (a : Nat) : RegionKind :=
  match s.regions.find? (fun g => decide (g.base ≤ a) && decide (a < g.base + g.size)) with
  | some g => g.kind
  | none => .ram

/-- Memory, RAM or ROM, answers a bus cycle at this address. -/
def State.inMemory (s : State) (a : Long) : Bool := s.kindAt (phys a) == .ram || s.kindAt (phys a) == .rom

/-- The byte memory holds at an address, no bus cycle made. -/
def State.byteAt (s : State) (a : Long) : Byte := Memory.read s.mem (phys a)

/-- `MemRead` without a bus cycle: an unsigned number, first byte most significant (R14, R52). -/
def State.peek (s : State) : Size → Long → Nat
  | .b, a => (s.byteAt a).toNat
  | .w, a => 256 * (s.byteAt a).toNat + (s.byteAt (a + 1)).toNat
  | .l, a =>
    16777216 * (s.byteAt a).toNat + 65536 * (s.byteAt (a + 1)).toNat + 256 * (s.byteAt (a + 2)).toNat
      + (s.byteAt (a + 3)).toNat

/-- A frame after stores at some addresses: a byte of it that has been discarded and is stored over is its no more
(log 27). -/
def Group0Frame.stored (f : Group0Frame) (addrs : List Nat) : Group0Frame :=
  { f with kept := f.kept.filter (fun k => !(decide (k < f.top) && addrs.contains (phys (f.sp + BitVec.ofNat 32 k)))) }

/-- The bookkeeping after stores at some addresses: the vectors among them count as written (log 29), and a frame of which
no byte is left is dropped (log 27). -/
def Bookkeeping.stored (b : Bookkeeping) (addrs : List Nat) : Bookkeeping :=
  { vectors :=
      if addrs.any (fun a => decide (a < 1024)) then
        (List.range 256).filter (fun v => b.vectors.contains v || addrs.any (fun a => a / 4 == v))
      else b.vectors
    frames := (b.frames.map (fun f => f.stored addrs)).filter (fun f => !f.kept.isEmpty) }

/-- Cells written to memory, no bus cycle made. -/
def State.poke (s : State) (cells : List Host.Cell) : State :=
  { s with
    mem := cells.foldl (fun m c => Memory.write m c.1 c.2) s.mem, book := s.book.stored (cells.map Prod.fst) }

/-- A bus or address error before it is processed (R430). -/
structure AccessFault where
  /-- a bus error, not an address error -/
  bus : Bool
  /-- the address of the access that failed; of a long access, that of the failing bus cycle (log 37) -/
  addr : Long
  /-- the access was a read -/
  read : Bool
  /-- the access was to program space -/
  program : Bool
  deriving DecidableEq, Repr

/-- How an instruction or an exception sequence ends before it is complete. -/
inductive Stop where
  /-- a bus or address error, with the state at that point and the cells that are left old or new (R55) -/
  | access (f : AccessFault) (s : State) (pending : List Host.Cell)
  | fault (r : Fault)
  | refuse (r : Refusal)
  deriving DecidableEq, Repr

/-- The platform's answer to a bus cycle in a device window: the next of its list, else a free one (R9, R17, log 35). -/
def State.answer (s : State) : BusAnswer × State :=
  match s.answers with
  | x :: rest => (x, { s with answers := rest })
  | [] =>
    (match Config.freeNat s.draws % 3 with
      | 0 => .memory
      | 1 => .data (BitVec.ofNat 16 (Config.freeNat (s.draws + 1)))
      | _ => .busError, s.drawn 2)

/-- One bus cycle at an address (R50): what answers it, or the bus error it ends in (R402). The address it starts at decides,
for both bytes of a word (log 7). -/
def State.busCycle (s : State) (a : Long) (read program : Bool) (pending : List Host.Cell) : Except Stop (BusAnswer × State) :=
  let failed (t : State) : Stop := .access { bus := true, addr := a, read := read, program := program } t pending
  match s.kindAt (phys a) with
  | .ram => .ok (.memory, s)
  | .rom => .ok (if read then .memory else .data 0, s)
  | .absent => .error (failed s)
  | .device =>
    match s.answer with
    | (.busError, t) => .error (failed t)
    | (x, t) => .ok (x, t)
  | .undriven stores =>
    if read then .ok (.data (BitVec.ofNat 16 (Config.freeNat s.draws)), s.drawn 1)
    else .ok (if stores then .memory else .data 0, s)

/-- The bus cycles of an access (R50, R53), with the answer of each (of the one, twice): an odd word or long access makes
none and is an address error (R54); a long is two cycles, the lower address first (log 9), and an error in the second is
reported with that cycle's address (log 37). -/
def State.busCycles (s : State) (sz : Size) (a : Long) (read program : Bool) (pending : List Host.Cell) :
    Except Stop (BusAnswer × BusAnswer × State) :=
  if sz ≠ .b ∧ a.toNat % 2 = 1 then
    .error (.access { bus := false, addr := a, read := read, program := program } s [])
  else
    match s.busCycle a read program pending with
    | .error e => .error e
    | .ok (x, t) =>
      if sz = .l then
        match t.busCycle (a + 2) read program pending with
        | .error e => .error e
        | .ok (y, u) => .ok (x, y, u)
      else .ok (x, x, t)

/-- The number one bus cycle reads: memory's, or the data of the answer. -/
def State.cycleValue (s : State) (sz : Size) (a : Long) : BusAnswer → Nat
  | .data w => w.toNat % 2 ^ sz.bits
  | _ => s.peek sz a

/-- The number the bus cycles of a read give. -/
def State.answeredValue (s : State) (sz : Size) (a : Long) (x y : BusAnswer) : Nat :=
  match sz with
  | .l => 65536 * s.cycleValue .w a x + s.cycleValue .w (a + 2) y
  | sz => s.cycleValue sz a x

/-- `MemRead` (R14): the operand, or the error. -/
def State.memRead (s : State) (sz : Size) (a : Long) (program : Bool) : Except Stop (Nat × State) :=
  match s.busCycles sz a true program [] with
  | .error e => .error e
  | .ok (x, y, t) => .ok (t.answeredValue sz a x y, t)

/-- The cells the bus cycles of a write change in memory. -/
def answeredCells (sz : Size) (a : Long) (v : Nat) (x y : BusAnswer) : List Host.Cell :=
  match sz with
  | .l => (if x = .memory then cellsOf .w a (v / 65536) else []) ++ (if y = .memory then cellsOf .w (a + 2) v else [])
  | sz => if x = .memory then cellsOf sz a v else []

/-- How a write cycle at an address may be answered, as far as it matters to memory: it may change in RAM, in a device
window and where an undriven one stores. -/
def State.mayTake (s : State) (a : Long) : BusAnswer :=
  match s.kindAt (phys a) with
  | .ram | .device | .undriven true => .memory
  | .rom | .absent | .undriven false => .data 0

/-- The cells the store of an operand may change (R55): none at an odd word or long address (R54). -/
def State.mayCells (s : State) (sz : Size) (a : Long) (v : Nat) : List Host.Cell :=
  if sz ≠ .b ∧ a.toNat % 2 = 1 then [] else answeredCells sz a v (s.mayTake a) (s.mayTake (a + 2))

/-- The bus cycles of a write: the cells they change in memory. -/
def State.writeCycles (s : State) (sz : Size) (a : Long) (v : Nat) (pending : List Host.Cell) :
    Except Stop (List Host.Cell × State) :=
  match s.busCycles sz a false false pending with
  | .error e => .error e
  | .ok (x, y, t) => .ok (answeredCells sz a v x y, t)

/-- The bus cycles of a list of stores of one size, in order: the cells they change in memory. -/
def State.writeAll (s : State) (sz : Size) (pending : List Host.Cell) : List (Long × Nat) → Except Stop (List Host.Cell × State)
  | [] => .ok ([], s)
  | p :: rest =>
    match s.writeCycles sz p.1 p.2 pending with
    | .error e => .error e
    | .ok (cells, t) =>
      match t.writeAll sz pending rest with
      | .error e => .error e
      | .ok (more, u) => .ok (cells ++ more, u)

/-- An address lies in the four bytes that follow the storing instruction, the pc being past its words (R65, R460). -/
def State.inPrefetchWindow (s : State) (a : Nat) : Bool :=
  a == phys s.pc || a == phys (s.pc + 1) || a == phys (s.pc + 2) || a == phys (s.pc + 3)

/-- A store of cells whose bus cycles have been made: into the prefetch window it is refused (R460, 93 U7). -/
def State.storeCells (s : State) (cells : List Host.Cell) : Except Stop State :=
  if cells.any (fun c => s.inPrefetchWindow c.1) then .error (.refuse .prefetchWindow) else .ok (s.poke cells)

/-- `MemWrite` (R14): the state with the operand stored, or the error. -/
def State.memWrite (s : State) (sz : Size) (a : Long) (v : Nat) : Except Stop State :=
  match s.writeCycles sz a v (s.mayCells sz a v) with
  | .error e => .error e
  | .ok (cells, t) => t.storeCells cells

/-- A list of stores of one size: all the bus cycles, then the bytes; where a cycle fails, every byte of the list is left
old or new (R55). -/
def State.storeAll (s : State) (sz : Size) (stores : List (Long × Nat)) : Except Stop State :=
  match s.writeAll sz (stores.flatMap (fun p => s.mayCells sz p.1 p.2)) stores with
  | .error e => .error e
  | .ok (cells, t) => t.storeCells cells

/-- `Push32` and `Push16` (R14). -/
def State.push (s : State) (sz : Size) (v : Nat) : Except Stop State :=
  (s.setSp (s.sp - BitVec.ofNat 32 sz.bytes)).memWrite sz (s.sp - BitVec.ofNat 32 sz.bytes) v

/-- `Pop32` and `Pop16` (R14). -/
def State.pop (s : State) (sz : Size) : Except Stop (Nat × State) :=
  match s.memRead sz s.sp false with
  | .error e => .error e
  | .ok (v, t) => .ok (v, t.setSp (s.sp + BitVec.ofNat 32 sz.bytes))

/-! Reading ahead (R32, R51, R460). -/

/-- A word read ahead: its bus cycle is made now, and an error it ends in is kept, to be raised only if the word is used
(R460). -/
def State.lookAhead (s : State) (a : Long) : BusAnswer × State :=
  match s.busCycle a true true [] with
  | .ok p => p
  | .error (.access _ t _) => (.busError, t)
  | .error _ => (.busError, s)

/-- The reads of an instruction that replace the words it consumed (R51): two words are read ahead again, from the pc up. -/
def State.readAhead (s : State) : State :=
  match s.ahead with
  | [] =>
    let p := s.lookAhead s.pc
    let q := p.2.lookAhead (s.pc + 2)
    { q.2 with ahead := [p.1, q.1] }
  | [x] =>
    let q := s.lookAhead (s.pc + 2)
    { q.2 with ahead := [x, q.1] }
  | _ => s

/-- A read that the count of an instruction shows beyond its words, its operands and its refill, and whose address no source
gives (R51, R58): the model reads the word after the instruction and drops it (log 40). -/
def State.extraRead (s : State) : State := (s.lookAhead s.pc).2

/-- The rest of a refill at the pc, whose first word has been read (R51): the second is read ahead. -/
def State.arrive (s : State) (first : BusAnswer) : State :=
  let p := s.lookAhead (s.pc + 2)
  { p.2 with ahead := [first, p.1] }

/-- `pc <- t` and the refill there, two reads (R51): the first word at the target must be readable, or the fetch raises its
error with the pc loaded (R25, log 14). -/
def State.jump (s : State) (t : Long) : Except Stop State :=
  match ({ s with pc := t } : State).busCycles .w t true true [] with
  | .error e => .error e
  | .ok (x, _, u) => .ok (u.arrive x)

/-- Where an access fails before a location is stored, the location is left old or new as well (R55): `cells`, given the
state at the failure, are its new contents, for which up to two free numbers are drawn there. -/
def orPending {α : Type} (cells : State → List Host.Cell) : Except Stop α → Except Stop α
  | .error (.access f s pending) => .error (.access f (s.drawn 2) (pending ++ cells s))
  | r => r

/-! Taking an exception. -/

/-- The bookkeeping brought up to date with SSP: software discards the bytes of a frame by moving SSP above them (R430,
log 27). -/
def State.tracked (s : State) : Bookkeeping :=
  { s.book with frames := s.book.frames.map (fun f => { f with top := max f.top (s.ssp - f.sp).toInt.toNat }) }

/-- Nothing has written a vector (93 U19, log 29): no store has reached it, memory answers for it, and its four bytes are as
unlisted ones read. -/
def State.vectorUnset (s : State) (v : Nat) : Bool :=
  !s.book.vectors.contains v && s.inMemory (BitVec.ofNat 32 (4 * v)) && s.inMemory (BitVec.ofNat 32 (4 * v) + 2) &&
    (cellsOf .l (BitVec.ofNat 32 (4 * v)) 0).all (fun c => Memory.read s.mem c.1 == Config.unwrittenByte)

/-- `pc <- MemRead(4 * v, 4)` and the refill (R410, R430, R451): vectors 0 and 1 are read as program, the others as data
(R401). -/
def State.followVector (s : State) (v : Nat) : Except Stop State :=
  match s.memRead .l (BitVec.ofNat 32 (4 * v)) (decide (v ≤ 1)) with
  | .error e => .error e
  | .ok (t, s1) => s1.jump (BitVec.ofNat 32 t)

/-- Control goes through vector `v`; one that nothing has written is a fault end and is not followed (R454, 92 D19, 93 U19,
log 29). -/
def State.toVector (s : State) (v : Nat) : Except Stop State :=
  if s.vectorUnset v then .error (.fault .unsetVector) else s.followVector v

/-- A register an abandoned instruction may write holds any value (R55); SSP is as R430 gives it. -/
def State.scrambleReg (s : State) (r : RegRef) : State :=
  match r with
  | .d n => (s.setD n (Config.freeLong s.draws)).drawn 1
  | .a n => if n.val = 7 && s.sr.s then s else (s.setA n (Config.freeLong s.draws)).drawn 1

/-- A location an abandoned instruction may write holds its old or its new contents (R55). -/
def State.scrambleCell (s : State) (c : Host.Cell) : State :=
  if Config.freeBit s.draws then (s.poke [c]).drawn 1 else s.drawn 1

/-- The free parts of the state after a bus or address error (R55, log 10). -/
def State.scramble (s : State) (regs : List RegRef) (pending : List Host.Cell) : State :=
  pending.foldl State.scrambleCell (regs.foldl State.scrambleReg s)

/-- GROUP0_ELAPSED (R431): componentwise at most the full time of what was abandoned; the draws are free. -/
def group0Elapsed (full : Time) (draw : Nat) : Time :=
  { clk := Config.freeNat draw % (full.clk + 1)
    r := Config.freeNat (draw + 1) % (full.r + 1)
    w := Config.freeNat (draw + 2) % (full.w + 1) }

/-- The special status word of R430: bits 15:5 free, then R/W, I/N and the function code. -/
def specialStatus (f : AccessFault) (inException supervisor : Bool) (draw : Nat) : Nat :=
  Config.freeNat draw % 2048 * 32 + f.read.toNat * 16 + inException.toNat * 8 + supervisor.toNat * 4
    + (if f.program then 2 else 1)

/-- The seven words of the group 0 frame at `sp` (R430), by rising address. -/
def group0FrameWords (sp : Long) (status : Nat) (addr : Long) (ir : Word) (sr : Word) (pc : Long) : List (Long × Nat) :=
  [(sp, status), (sp + 2, addr.toNat / 65536), (sp + 4, addr.toNat), (sp + 6, ir.toNat), (sp + 8, sr.toNat),
    (sp + 10, pc.toNat / 65536), (sp + 12, pc.toNat)]

/-- What is abandoned by a bus or address error. -/
structure Abandoned where
  /-- the address of the instruction abandoned, or of the one that would have run next -/
  start : Long
  /-- its bytes (R430, 93 U22); 0 where none was in progress -/
  length : Nat
  /-- an exception sequence was in progress: the I/N bit (R430) -/
  inException : Bool
  /-- the registers it may write (R55) -/
  regs : List RegRef
  /-- the bound of GROUP0_ELAPSED (R431) -/
  full : Time
  deriving DecidableEq, Repr

/-- Bus error and address error processing (R430): `x` is what is abandoned, `pending` the cells it may write (R55). A further
bus or address error here halts the processor (R432); a word of the frame whose cycle was under way is then left old or new
(log 15). -/
def State.enterGroup0 (x : Abandoned) (f : AccessFault) (s : State) (pending : List Host.Cell) :
    Host.Outcome State Fault Refusal :=
  let s1 := s.scramble x.regs pending
  let old := s1.sr
  let sp := s1.ssp - 14
  let k := s1.draws
  let words := group0FrameWords sp (specialStatus f x.inException old.s k) f.addr s1.ir old.toWord
    (x.start + BitVec.ofNat 32 (2 + Config.freeNat (k + 1) % 9))
  let frame : Group0Frame := { sp := sp, start := x.start, length := x.length, top := 0, kept := List.range 14 }
  let s2 : State :=
    { s1 with
      sr := { old with s := true, t := false }, ssp := sp, run := .running, tracePending := false, draws := k + 5
      book := { s1.tracked with frames := frame :: s1.tracked.frames } }
  match s2.writeAll .w (words.flatMap (fun p => s2.mayCells .w p.1 p.2)) words with
  | .error (.fault r) => .fault r
  | .error (.refuse r) => .refused r
  | .error (.access _ t frame) => .next { t.scramble [] frame with run := .halted }
  | .ok (cells, t) =>
    match (t.poke cells).toVector (if f.bus then 2 else 3) with
    | .error (.fault r) => .fault r
    | .error (.refuse r) => .refused r
    | .error (.access _ u _) => .next { u with run := .halted }
    | .ok u => .next ((u.charge (group0Elapsed x.full (k + 2))).charge (time .group0))

/-- How a stop ends an instruction or an exception sequence. -/
def Stop.outcome (x : Abandoned) : Stop → Host.Outcome State Fault Refusal
  | .access f s pending => s.enterGroup0 x f pending
  | .fault r => .fault r
  | .refuse r => .refused r

/-- The stacking and the vector fetch of R410, the status register already changed: SR below the saved pc. Where the vector
or the refill fails, the frame is left old or new (R55). -/
def State.stackAndVector (s : State) (old : StatusReg) (saved : Long) (v : Nat) : Except Stop State :=
  let sp := s.ssp - 6
  let sr := old.toWord.toNat
  let frame := s.mayCells .w sp sr ++ s.mayCells .l (sp + 2) saved.toNat
  match ({ s with ssp := sp + 2 } : State).writeCycles .l (sp + 2) saved.toNat frame with
  | .error e => .error e
  | .ok (pcCells, t) =>
    match ({ t with ssp := sp } : State).writeCycles .w sp sr frame with
    | .error e => .error e
    | .ok (srCells, u) =>
      match (u.poke (srCells ++ pcCells)).toVector v with
      | .error (.access f x _) => .error (.access f { x with mem := s.mem, book := s.book } (srCells ++ pcCells))
      | r => r

/-- Exception processing for every exception but reset, bus error and address error (R410): the old SR and `saved` go to
the supervisor stack, S is set and T cleared, an interrupt sets I to its level, control goes through vector `v`, and `t` is
charged. A bus or address error on the way is an ordinary one with I/N = 1 (R432); `start` and `length` say which
instruction was in progress. -/
def State.takeException (start : Long) (length v : Nat) (saved : Long) (level : Option (BitVec 3)) (t : Time) (s : State) :
    Host.Outcome State Fault Refusal :=
  let s1 : State :=
    { s with
      sr := { s.sr with s := true, t := false, i := level.getD s.sr.i }, run := .running, book := s.tracked }
  match s1.stackAndVector s.sr saved v with
  | .error e => e.outcome { start := start, length := length, inException := true, regs := [], full := t }
  | .ok s2 => .next (s2.charge t)

/-- The bytes of the instruction in progress, which its operation word alone says (R80). -/
def State.irBytes (s : State) : Nat := 2 * wordCount s.ir

/-- An illegal operation word, or one of line A or F (vector 4, 10, 11): saved pc the word itself, not traced (R402, R423). -/
def State.illegalWord (v : Nat) (s : State) : Host.Outcome State Fault Refusal :=
  State.takeException s.pc s.irBytes v s.pc none (time .illegal) { s with tracePending := false }

/-- Privilege violation (R441): before any effect, saved pc the operation word, not traced (R423). -/
def State.privilegeViolation (s : State) : Host.Outcome State Fault Refusal :=
  State.takeException s.pc s.irBytes 8 s.pc none (time .privilege) { s with tracePending := false }

/-- A trap of group 2 (R423): vector `v`, saved pc the next instruction; `start` is the trapping instruction's address. -/
def State.trapTo (start : Long) (v : Nat) (d : Descriptor) (s : State) : Host.Outcome State Fault Refusal :=
  State.takeException start s.irBytes v s.pc none (time d) s

/-- The trace exception (R424); no instruction is in progress. -/
def State.takeTrace (s : State) : Host.Outcome State Fault Refusal :=
  State.takeException s.pc 0 9 s.pc none (time .trace) { s with tracePending := false }

/-- The vector number an acknowledge cycle of level `l` gives (R421). -/
def IackAnswer.vectorNumber (l : BitVec 3) : IackAnswer → Nat
  | .vector v => v.toNat
  | .autovector => 24 + l.toNat
  | .busError => 24

/-- The interrupt exception at the level presented (R410, R421, R422); the request is sampled by it (R420). No instruction
is in progress. -/
def State.takeInterrupt (s : State) : Host.Outcome State Fault Refusal :=
  State.takeException s.pc 0 (s.pins.iack.vectorNumber s.pins.ipl) s.pc (some s.pins.ipl) (time .interrupt)
    { s with level7Edge := false }

/-- An interrupt is taken (R420): the level is above the mask, or is 7 and has become 7 since it was last sampled. -/
def State.interruptDue (s : State) : Bool :=
  decide (s.sr.i.toNat < s.pins.ipl.toNat) || (s.pins.ipl == 7 && s.level7Edge)

/-- The platform's inputs of this step: the next of the schedule if it has one (R9); a change to level 7 is an edge (R420). -/
def State.nextPins (s : State) : State :=
  match s.schedule with
  | [] => s
  | p :: rest => { s with pins := p, schedule := rest, level7Edge := s.level7Edge || (p.ipl == 7 && s.pins.ipl != 7) }

/-- The state a step begins from: its inputs sampled, and the model's own bookkeeping brought up to date. -/
def State.sampled (s : State) : State := { s.nextPins with book := s.tracked }

/-- The reset sequence (R451). A bus or address error on the way halts the processor (R432). A step whose pins are asserted is
one whole sequence, timed once, and a reset held for several steps is repeated (log 36). -/
def State.resetSequence (s : State) : Host.Outcome State Fault Refusal :=
  let s1 : State :=
    { s with
      sr := { s.sr with s := true, t := false, i := 7 }, run := .running, tracePending := false, level7Edge := false
      book := { s.book with frames := [] } }
  match s1.memRead .l 0 true with
  | .error (.fault r) => .fault r
  | .error (.refuse r) => .refused r
  | .error (.access _ t _) => .next { t with run := .halted }
  | .ok (sp, t) =>
    match ({ t with ssp := BitVec.ofNat 32 sp } : State).followVector 1 with
    | .error (.fault r) => .fault r
    | .error (.refuse r) => .refused r
    | .error (.access _ s2 _) => .next { s2 with run := .halted }
    | .ok s2 => .next (s2.charge (time .resetPins))

/-! How a meaning ends. -/

/-- An instruction that began in `s0` and takes `t` when it completes; `regs` are the registers it may write (R55). -/
def State.finish (s0 : State) (t : Time) (regs : List RegRef) (r : Except Stop State) : Host.Outcome State Fault Refusal :=
  match r with
  | .ok s => .next (s.charge t)
  | .error e => e.outcome { start := s0.pc, length := s0.irBytes, inException := false, regs := regs, full := t }

/-- A privileged instruction (R440, R441): in user state the privilege violation, in supervisor state its effect. -/
def State.privileged (s : State) (effect : Host.Outcome State Fault Refusal) : Host.Outcome State Fault Refusal :=
  if s.sr.s then effect else s.privilegeViolation

/-- The list of privileged instructions (R441). -/
def isPrivileged : Instr → Bool
  | .oriToSr _ | .andiToSr _ | .eoriToSr _ | .moveToSr _ | .moveToUsp _ | .moveFromUsp _ | .resetDevices | .rte
  | .stop _ => true
  | _ => false

/-- A stack pointer stands at a group 0 frame of which software has not discarded 8 bytes: one of the six bytes that RTE would
pop is among the first 8 of the frame (93 U22, log 27). -/
def Group0Frame.wholeAt (f : Group0Frame) (ssp : Long) : Bool :=
  decide ((ssp - f.sp).toNat < 8) &&
    f.kept.any (fun k => decide (k < 8) && decide ((ssp - f.sp).toNat ≤ k) && decide (k < (ssp - f.sp).toNat + 6))

/-- A stack pointer stands at a group 0 frame cut down by its first 8 bytes, and the return goes into the instruction that
faulted (R430, 92 D4, 93 U22, log 27). -/
def Group0Frame.resumesAt (f : Group0Frame) (ssp target : Long) : Bool :=
  ssp - f.sp == 8 && f.kept.any (fun k => decide (8 ≤ k)) && decide ((target - f.start).toNat < f.length)

/-- The return from an exception (R372): SR and pc from the supervisor stack. From a group 0 frame of which software has not
discarded 8 bytes it is refused, and so is a return from one cut down by those 8 bytes into the instruction that faulted
(R430, 92 D4, 93 U22, log 27). -/
def State.returnFromException (s : State) : Except Stop State :=
  if s.book.frames.any (fun f => f.wholeAt s.ssp) then .error (.refuse .rteFromGroup0Frame)
  else
    match s.memRead .w s.ssp false with
    | .error e => .error e
    | .ok (w, t) =>
      match t.memRead .l (s.ssp + 2) false with
      | .error e => .error e
      | .ok (p, u) =>
        if s.book.frames.any (fun f => f.resumesAt s.ssp (BitVec.ofNat 32 p)) then
          .error (.refuse .resumesFaultedInstruction)
        else ({ u with ssp := s.ssp + 6, sr := StatusReg.ofNat w } : State).jump (BitVec.ofNat 32 p)

end Sys2Proof.Machine
end

