-- ==== Sys2Proof/Machine/Operands.lean ====
section
/-! DEFINITION. Every operand form: the twelve addressing modes (40_effective_address.md). The pc stands at the first
extension word of the effective address not yet consumed (R24). -/

namespace Sys2Proof.Machine

/-- Where an operand is. -/
inductive Loc where
  | d (r : Reg)
  | a (r : Reg)
  /-- memory; `program`: an operand of a PC mode, read from where instructions lie (R31, log 12) -/
  | mem (addr : Long) (program : Bool)
  | imm (v : Imm)
  deriving DecidableEq, Repr

/-- The step of `(An)+` and `-(An)` (R127): the operand's bytes, but 2 for a byte through A7 (R59). -/
def increment (sz : Size) (r : Reg) : Long := if sz = .b ∧ r.val = 7 then 2 else BitVec.ofNat 32 sz.bytes

/-- A displacement word or byte sign-extended to 32 bits (R86). -/
def disp16 (d : Word) : Long := d.signExtend 32

def disp8 (d : Byte) : Long := d.signExtend 32

/-- The index of a brief extension word (R130): the whole register, or its low word sign-extended. -/
def State.indexValue (s : State) (x : Index) : Long :=
  let v := if x.isAddr then s.areg x.reg else s.dreg x.reg
  if x.long then v else (v.setWidth 16).signExtend 32

/-- The location of an operand, its extension words consumed and a pre-decrement done (R124 to R135). The base of a PC mode
is the address of its extension word (R133, R134). -/
def State.locate (s : State) (sz : Size) : Ea → Loc × State
  | .dn r => (.d r, s)
  | .an r => (.a r, s)
  | .ind r => (.mem (s.areg r) false, s)
  | .postInc r => (.mem (s.areg r) false, s)
  | .preDec r => (.mem (s.areg r - increment sz r) false, s.setA r (s.areg r - increment sz r))
  | .disp r d => (.mem (s.areg r + disp16 d) false, s.skip 1)
  | .index r x => (.mem (s.areg r + s.indexValue x + disp8 x.d8) false, s.skip 1)
  | .absW a => (.mem (disp16 a) false, s.skip 1)
  | .absL a => (.mem a false, s.skip 2)
  | .pcDisp d => (.mem (s.pc + disp16 d) true, s.skip 1)
  | .pcIndex x => (.mem (s.pc + s.indexValue x + disp8 x.d8) true, s.skip 1)
  | .imm v => (.imm v, s.skip (Ea.imm v).extWords)

/-- The post-increment, after the access (R127). -/
def State.settle (s : State) (sz : Size) : Ea → State
  | .postInc r => s.setA r (s.areg r + increment sz r)
  | _ => s

/-- The operand at a location, as a number of `size` bits. -/
def State.readLoc (s : State) (sz : Size) : Loc → Except Stop (Nat × State)
  | .d r => .ok (s.dlow sz r, s)
  | .a r => .ok (lowBits sz.bits (s.areg r), s)
  | .mem a program => s.memRead sz a program
  | .imm v => .ok (immValue v, s)

/-- A result stored at a location: the low bits of a data register (R124), all of an address register sign-extended (R125),
or memory (R126). An immediate is never a destination (R135): the state is as it was. -/
def State.writeLoc (s : State) (sz : Size) (v : Nat) : Loc → Except Stop State
  | .d r => .ok (s.setDlow sz r v)
  | .a r => .ok (s.setA r (sext32 sz.bits v))
  | .mem a _ => s.memWrite sz a v
  | .imm _ => .ok s

/-- What reading an effective address gives: the operand, its location, the state with the registers it updates. -/
structure Fetched where
  value : Nat
  loc : Loc
  state : State
  deriving DecidableEq, Repr

/-- Evaluate an effective address and read its operand (R138): extension words, pre-decrement, the read, post-increment. -/
def State.readEa (s : State) (sz : Size) (ea : Ea) : Except Stop Fetched :=
  let p := s.locate sz ea
  match p.2.readLoc sz p.1 with
  | .error e => .error e
  | .ok (v, t) => .ok { value := v, loc := p.1, state := t.settle sz ea }

/-- Evaluate an effective address and store to it without reading it (MOVE, R154). -/
def State.writeEa (s : State) (sz : Size) (ea : Ea) (v : Nat) : Except Stop State :=
  let p := s.locate sz ea
  match p.2.writeLoc sz v p.1 with
  | .error e => .error e
  | .ok s' => .ok (s'.settle sz ea)

/-- The cells a store of `v` at a location may change (R55). -/
def State.locCells (s : State) (sz : Size) (v : Nat) : Loc → List Host.Cell
  | .mem a _ => s.mayCells sz a v
  | _ => []

/-- A free operand of a size, the next draw: what an access that failed would have read (R55). -/
def State.freeOperand (s : State) (sz : Size) : Nat := Config.freeNat s.draws % 2 ^ sz.bits

/-- Read an operand, compute from it and the status register, store the result where it was read, then set the flags
(R138: the effective address is evaluated once). Where the read fails, its place is left old, or new from a free operand
(R55). -/
def State.modifyEa (s : State) (sz : Size) (ea : Ea) (g : Nat → StatusReg → Nat × StatusReg) : Except Stop State := do
  let f ← orPending (fun t => t.locCells sz (g (t.freeOperand sz) t.sr).1 (s.locate sz ea).1) (s.readEa sz ea)
  let s' ← f.state.writeLoc sz (g f.value f.state.sr).1 f.loc
  .ok (s'.setSr (g f.value f.state.sr).2)

/-- As `State.modifyEa`, for the instructions whose rule sets the flags before it stores (R237, R274 to R276): an error of the
store finds them set. -/
def State.testAndModifyEa (s : State) (sz : Size) (ea : Ea) (g : Nat → StatusReg → Nat × StatusReg) : Except Stop State := do
  let f ← orPending (fun t => t.locCells sz (g (t.freeOperand sz) t.sr).1 (s.locate sz ea).1) (s.readEa sz ea)
  (f.state.setSr (g f.value f.state.sr).2).writeLoc sz (g f.value f.state.sr).1 f.loc

/-- Read an operand and set the flags from it; nothing is stored. -/
def State.testEa (s : State) (sz : Size) (ea : Ea) (g : Nat → StatusReg → StatusReg) : Except Stop State := do
  let f ← s.readEa sz ea
  .ok (f.state.setSr (g f.value f.state.sr))

/-- The address a control mode computes, no operand read (R311 to R314), with the state past its extension words. -/
def State.eaAddress (s : State) (ea : Ea) : Long × State :=
  match s.locate .l ea with
  | (.mem a _, s') => (a, s')
  | (_, s') => (0, s')

/-- The registers the evaluation of an effective address writes (R127, R128). -/
def eaUpdates : Ea → List RegRef
  | .postInc r => [.a r]
  | .preDec r => [.a r]
  | _ => []

/-- The registers an instruction with destination `ea` writes through it: the register itself, or an updated one. -/
def eaTargets : Ea → List RegRef
  | .dn r => [.d r]
  | .an r => [.a r]
  | ea => eaUpdates ea

/-- The value of a quick field: 000 means 8 (R86). -/
def quickValue (q : Reg) : Nat := if q.val = 0 then 8 else q.val

end Sys2Proof.Machine
end

