-- ==== Sys2Proof/Machine/BitManipulation.lean ====
section
/-! DEFINITION. The bit manipulation instructions (46_bit_manipulation.md). -/

namespace Sys2Proof.Machine

/-- The operand with bit `b` changed, cleared, set or left (R274 to R277). -/
def bitOpResult (op : BitOp) (d b : Nat) : Nat :=
  match op with
  | .chg => d ^^^ 2 ^ b
  | .clr => if bitAt d b then d - 2 ^ b else d
  | .set => d ||| 2 ^ b
  | .tst => d

/-- The time of a bit instruction (R270, R273). -/
def bitOpTime (op : BitOp) (static : Bool) (b : Nat) (ea : Ea) : Time :=
  match op, decide (ea.mode = .dn) with
  | .tst, true => time (.btstDn static)
  | .tst, false => time (.btstMem static ea.mode)
  | _, true => time (.bitDn static (bitOpClocks op static b))
  | _, false => time (.bitMem static ea.mode)

/-- A bit instruction (R271, R272): bit `raw` modulo 32 of a register, modulo 8 of a byte elsewhere; Z from the bit before
it changes, no other flag; it is set before the result is stored. -/
def bitOpEa (op : BitOp) (static : Bool) (raw : Nat) (ea : Ea) (s : State) : Host.Outcome State Fault Refusal :=
  let s1 := s.skip (if static then 2 else 1)
  match ea with
  | .dn r =>
    let d := (s.dreg r).toNat
    s.finish (bitOpTime op static (raw % 32) ea) [.d r]
      (.ok ((s1.setD r (BitVec.ofNat 32 (bitOpResult op d (raw % 32)))).setSr { s.sr with z := !bitAt d (raw % 32) }))
  | ea =>
    if op = .tst then
      s.finish (bitOpTime op static (raw % 8) ea) (eaUpdates ea)
        (s1.testEa .b ea (fun d sr => { sr with z := !bitAt d (raw % 8) }))
    else
      s.finish (bitOpTime op static (raw % 8) ea) (eaTargets ea)
        (s1.testAndModifyEa .b ea (fun d sr => (bitOpResult op d (raw % 8), { sr with z := !bitAt d (raw % 8) })))

def execBtstDn (dn : Reg) (ea : Ea) (s : State) : Host.Outcome State Fault Refusal :=
  bitOpEa .tst false (s.dreg dn).toNat ea s

def execBtstImm (bit : Byte) (ea : Ea) (s : State) : Host.Outcome State Fault Refusal :=
  bitOpEa .tst true bit.toNat ea s

def execBchgDn (dn : Reg) (ea : Ea) (s : State) : Host.Outcome State Fault Refusal :=
  bitOpEa .chg false (s.dreg dn).toNat ea s

def execBchgImm (bit : Byte) (ea : Ea) (s : State) : Host.Outcome State Fault Refusal :=
  bitOpEa .chg true bit.toNat ea s

def execBclrDn (dn : Reg) (ea : Ea) (s : State) : Host.Outcome State Fault Refusal :=
  bitOpEa .clr false (s.dreg dn).toNat ea s

def execBclrImm (bit : Byte) (ea : Ea) (s : State) : Host.Outcome State Fault Refusal :=
  bitOpEa .clr true bit.toNat ea s

def execBsetDn (dn : Reg) (ea : Ea) (s : State) : Host.Outcome State Fault Refusal :=
  bitOpEa .set false (s.dreg dn).toNat ea s

def execBsetImm (bit : Byte) (ea : Ea) (s : State) : Host.Outcome State Fault Refusal :=
  bitOpEa .set true bit.toNat ea s

end Sys2Proof.Machine
end

