-- ==== Sys2Proof/Machine/Conditional.lean ====
section
/-! DEFINITION. The conditional instructions (47_conditional.md). -/

namespace Sys2Proof.Machine

/-- The words of a branch by its displacement (R295). -/
def dispWords : Disp → Nat
  | .byte _ => 1
  | .word _ => 2

/-- The branch target (R295): the address after the operation word plus the displacement. -/
def State.branchTarget (s : State) : Disp → Long
  | .byte d => s.pc + 2 + disp8 d
  | .word d => s.pc + 2 + disp16 d

/-- The push of a return address, then the jump (R293, R312). Where the refill at the target fails, the pushed location
holds its old or its new contents (R55). -/
def State.call (s : State) (target : Long) : Except Stop State :=
  match s.push .l s.pc.toNat with
  | .error e => .error e
  | .ok s1 =>
    match s1.jump target with
    | .error (.access f s2 _) => .error (.access f { s2 with mem := s.mem, book := s.book } (s.mayCells .l s1.sp s.pc.toNat))
    | .error e => .error e
    | .ok s2 => .ok s2

/-- Bcc (R291). -/
def execBcc (cond : Cond) (d : Disp) (s : State) : Host.Outcome State Fault Refusal :=
  if s.sr.cond cond then
    s.finish (time (.bcc (dispWords d == 2) true)) [] ((s.skip (dispWords d)).jump (s.branchTarget d))
  else s.finish (time (.bcc (dispWords d == 2) false)) [] (.ok (s.skip (dispWords d)))

/-- BRA (R292). -/
def execBra (d : Disp) (s : State) : Host.Outcome State Fault Refusal :=
  s.finish (time .bra) [] ((s.skip (dispWords d)).jump (s.branchTarget d))

/-- BSR (R293). -/
def execBsr (d : Disp) (s : State) : Host.Outcome State Fault Refusal :=
  s.finish (time .bsr) [.a 7] ((s.skip (dispWords d)).call (s.branchTarget d))

/-- DBcc (R294): the low word of the register counts down; no flag is written. Where it expires the count shows a third read,
which no rule places (log 40). -/
def execDbcc (cond : Cond) (dn : Reg) (d16 : Word) (s : State) : Host.Outcome State Fault Refusal :=
  let c := subResult 16 1 (s.dlow .w dn)
  let s1 := (s.skip 2).setDlow .w dn c
  if s.sr.cond cond then s.finish (time (.dbcc .ccTrue)) [] (.ok (s.skip 2))
  else if c = 65535 then s.finish (time (.dbcc .ccFalseExpired)) [] (.ok s1.extraRead)
  else s.finish (time (.dbcc .ccFalseTaken)) [.d dn] (s1.jump (s.branchTarget (.word d16)))

end Sys2Proof.Machine
end

