-- ==== Sys2Proof/Machine/Immediate.lean ====
section
/-! DEFINITION. The immediate instructions (43_immediate.md). -/

namespace Sys2Proof.Machine

/-- The words of an instruction before its effective address: the operation word and the immediate (R81, R86). -/
def immWords (v : Imm) : Nat := 1 + (Ea.imm v).extWords

/-- `op #,<ea>` (R202, R204, R205, R207, R208). -/
def aluImm (op : AluOp) (v : Imm) (ea : Ea) (mem : Descriptor) (s : State) : Host.Outcome State Fault Refusal :=
  s.finish (time (if ea.mode = .dn then .immDn v.size else mem)) (eaTargets ea)
    ((s.skip (immWords v)).modifyEa v.size ea (fun d sr => aluResult op v.size.bits (immValue v) d sr))

def execOri (v : Imm) (ea : Ea) (s : State) : Host.Outcome State Fault Refusal := aluImm .or v ea (.immMem v.size ea.mode) s

/-- ANDI (R204); its long memory cell is printed with one write (R210). -/
def execAndi (v : Imm) (ea : Ea) (s : State) : Host.Outcome State Fault Refusal :=
  aluImm .and v ea (.andiMem v.size ea.mode) s

def execSubi (v : Imm) (ea : Ea) (s : State) : Host.Outcome State Fault Refusal := aluImm .sub v ea (.immMem v.size ea.mode) s

def execAddi (v : Imm) (ea : Ea) (s : State) : Host.Outcome State Fault Refusal := aluImm .add v ea (.immMem v.size ea.mode) s

def execEori (v : Imm) (ea : Ea) (s : State) : Host.Outcome State Fault Refusal := aluImm .eor v ea (.immMem v.size ea.mode) s

/-- CMPI (R201): nothing is stored. -/
def execCmpi (v : Imm) (ea : Ea) (s : State) : Host.Outcome State Fault Refusal :=
  s.finish (time (if ea.mode = .dn then .cmpiDn v.size else .cmpiMem v.size ea.mode)) (eaUpdates ea)
    ((s.skip (immWords v)).testEa v.size ea
      (fun d sr => flagsCmp v.size.bits (immValue v) d (subResult v.size.bits (immValue v) d) sr))

/-- ADDQ and SUBQ (R203, R209): on an address register all 32 bits and no flags, whatever the size. -/
def quickEa (op : AluOp) (q : Reg) (sz : Size) (ea : Ea) (s : State) : Host.Outcome State Fault Refusal :=
  match ea with
  | .an r =>
    s.finish (time .quickAn) [.a r]
      (.ok ((s.skip 1).setA r
        (if op = .sub then s.areg r - BitVec.ofNat 32 (quickValue q) else s.areg r + BitVec.ofNat 32 (quickValue q))))
  | ea =>
    s.finish (time (if ea.mode = .dn then .quickDn sz else .quickMem sz ea.mode)) (eaTargets ea)
      ((s.skip 1).modifyEa sz ea (fun d sr => aluResult op sz.bits (quickValue q) d sr))

def execAddq (q : Reg) (sz : Size) (ea : Ea) (s : State) : Host.Outcome State Fault Refusal := quickEa .add q sz ea s

def execSubq (q : Reg) (sz : Size) (ea : Ea) (s : State) : Host.Outcome State Fault Refusal := quickEa .sub q sz ea s

/-- MOVEQ (R206): the byte sign-extended to all 32 bits. -/
def execMoveq (v : Byte) (dn : Reg) (s : State) : Host.Outcome State Fault Refusal :=
  s.finish (time .moveq) [.d dn]
    (.ok (((s.skip 1).setD dn (disp8 v)).setSr (flagsLogic 32 (disp8 v).toNat s.sr)))

end Sys2Proof.Machine
end

