-- ==== Sys2Proof/Machine/JumpMovem.lean ====
section
/-! DEFINITION. JMP, JSR, LEA, PEA and MOVEM (48_jmp_jsr_lea_pea_movem.md). -/

namespace Sys2Proof.Machine

/-- JMP (R311). In the indexed modes the count shows a third read (R316), which no rule places (log 40). -/
def execJmp (ea : Ea) (s : State) : Host.Outcome State Fault Refusal :=
  let p := (s.skip 1).eaAddress ea
  s.finish (time (.jmp ea.mode)) []
    ((if ea.mode = .index ∨ ea.mode = .pcIndex then p.2.extraRead else p.2).jump p.1)

/-- JSR (R312): the target is computed before the push. -/
def execJsr (ea : Ea) (s : State) : Host.Outcome State Fault Refusal :=
  s.finish (time (.jsr ea.mode)) [.a 7] (((s.skip 1).eaAddress ea).2.call ((s.skip 1).eaAddress ea).1)

/-- LEA (R313): the address itself; no operand access, no flags. -/
def execLea (ea : Ea) (an : Reg) (s : State) : Host.Outcome State Fault Refusal :=
  s.finish (time (.lea ea.mode)) [.a an] (.ok (((s.skip 1).eaAddress ea).2.setA an ((s.skip 1).eaAddress ea).1))

/-- PEA (R314): the address is computed before the push. -/
def execPea (ea : Ea) (s : State) : Host.Outcome State Fault Refusal :=
  s.finish (time (.pea ea.mode)) [.a 7] (((s.skip 1).eaAddress ea).2.push .l ((s.skip 1).eaAddress ea).1.toNat)

/-- The registers a mask names, in order of transfer, given the register of each bit from bit 0 up (R320). -/
def maskRegs : List RegRef → Nat → List RegRef
  | [], _ => []
  | r :: rs, m => if m % 2 = 1 then r :: maskRegs rs (m / 2) else maskRegs rs (m / 2)

/-- Bit 0 is D0, bit 15 is A7 (R320). -/
def movemUp : List RegRef :=
  [.d 0, .d 1, .d 2, .d 3, .d 4, .d 5, .d 6, .d 7, .a 0, .a 1, .a 2, .a 3, .a 4, .a 5, .a 6, .a 7]

/-- With `-(An)` bit 0 is A7, bit 15 is D0 (R320). -/
def movemDown : List RegRef :=
  [.a 7, .a 6, .a 5, .a 4, .a 3, .a 2, .a 1, .a 0, .d 7, .d 6, .d 5, .d 4, .d 3, .d 2, .d 1, .d 0]

/-- The loads of MOVEM (R321): ascending addresses, each operand sign-extended to the whole register. -/
def loadRegs (sz : Size) (program : Bool) : List RegRef → Long → State → Except Stop State
  | [], _, s => .ok s
  | r :: rs, a, s =>
    match s.memRead sz a program with
    | .error e => .error e
    | .ok (v, t) => loadRegs sz program rs (a + BitVec.ofNat 32 sz.bytes) (t.setReg r (sext32 sz.bits v))

/-- MOVEM's start address, and whether it is in program space (R321, R322); `(An)+` and `-(An)` start at the register. -/
def State.movemStart (s : State) (sz : Size) (ea : Ea) : Long × Bool × State :=
  match ea with
  | .preDec r => (s.areg r, false, s)
  | ea =>
    match s.locate sz ea with
    | (.mem a program, s') => (a, program, s')
    | (_, s') => (0, false, s')

/-- MOVEM memory to registers (R321): the loads, one more word read and discarded (R323), then the update of `(An)+`. The
spec does not say which space that word is read from: the model takes the operands' own, program in the PC modes (log 12,
31). -/
def movemLoad (sz : Size) (ea : Ea) (mask : Word) (s : State) : Host.Outcome State Fault Refusal :=
  let regs := maskRegs movemUp mask.toNat
  let start := (s.skip 2).movemStart sz ea
  let final := start.1 + BitVec.ofNat 32 (sz.bytes * regs.length)
  s.finish (time (.movemToReg sz regs.length ea.mode)) (regs ++ eaUpdates ea) do
    let s1 ← loadRegs sz start.2.1 regs start.1 start.2.2
    let p ← s1.memRead .w final start.2.1
    match ea with
    | .postInc r => .ok (p.2.setA r final)
    | _ => .ok p.2

/-- The stores of MOVEM (R322) as addresses and values: ascending from the start, or descending for `-(An)`. -/
def movemStores (sz : Size) (down : Bool) (s : State) : List RegRef → Long → List (Long × Nat)
  | [], _ => []
  | r :: rs, a =>
    let step := BitVec.ofNat 32 sz.bytes
    if down then (a - step, lowBits sz.bits (s.reg r)) :: movemStores sz down s rs (a - step)
    else (a, lowBits sz.bits (s.reg r)) :: movemStores sz down s rs (a + step)

/-- MOVEM registers to memory (R322): with `-(An)` the register takes the last address after the stores, which read the
registers as they were. -/
def movemStore (sz : Size) (mask : Word) (ea : Ea) (s : State) : Host.Outcome State Fault Refusal :=
  let down := decide (ea.mode = .preDec)
  let regs := maskRegs (if down then movemDown else movemUp) mask.toNat
  let start := (s.skip 2).movemStart sz ea
  s.finish (time (.movemToMem sz regs.length ea.mode)) (eaUpdates ea) do
    let s1 ← start.2.2.storeAll sz (movemStores sz down s regs start.1)
    match ea with
    | .preDec r => .ok (s1.setA r (start.1 - BitVec.ofNat 32 (sz.bytes * regs.length)))
    | _ => .ok s1

def execMovemToReg (sz : WL) (ea : Ea) (mask : Word) (s : State) : Host.Outcome State Fault Refusal :=
  movemLoad sz.size ea mask s

def execMovemToMem (sz : WL) (mask : Word) (ea : Ea) (s : State) : Host.Outcome State Fault Refusal :=
  movemStore sz.size mask ea s

end Sys2Proof.Machine
end

