-- ==== Sys2Proof/Machine/Miscellaneous.lean ====
section
/-! DEFINITION. The miscellaneous instructions (49_multiprecision_misc_movep.md, sections 2 to 7). -/

namespace Sys2Proof.Machine

/-- ANDI, EORI, ORI to CCR (R351). The words read ahead are read again, and the count shows one read more (R51, log 40). -/
def immCcr (g : Nat → Nat → Nat) (v : Byte) (s : State) : Host.Outcome State Fault Refusal :=
  s.finish (time .immStatus) [] (.ok ((s.skip 2).extraRead.setSr (s.sr.withCcr (g s.sr.ccr v.toNat))))

/-- ANDI, EORI, ORI to SR (R353): privileged; the reads are those of the forms to CCR. -/
def immSr (g : Nat → Nat → Nat) (v : Word) (s : State) : Host.Outcome State Fault Refusal :=
  s.privileged (s.finish (time .immStatus) [] (.ok ((s.skip 2).extraRead.setSr (StatusReg.ofNat (g s.sr.toWord.toNat v.toNat)))))

def execOriToCcr (v : Byte) (s : State) : Host.Outcome State Fault Refusal := immCcr (fun a b => a ||| b) v s

def execOriToSr (v : Word) (s : State) : Host.Outcome State Fault Refusal := immSr (fun a b => a ||| b) v s

def execAndiToCcr (v : Byte) (s : State) : Host.Outcome State Fault Refusal := immCcr (fun a b => a &&& b) v s

def execAndiToSr (v : Word) (s : State) : Host.Outcome State Fault Refusal := immSr (fun a b => a &&& b) v s

def execEoriToCcr (v : Byte) (s : State) : Host.Outcome State Fault Refusal := immCcr (fun a b => a ^^^ b) v s

def execEoriToSr (v : Word) (s : State) : Host.Outcome State Fault Refusal := immSr (fun a b => a ^^^ b) v s

/-- MOVE from SR (R356): not privileged on this part; memory is read first (R58). -/
def execMoveFromSr (ea : Ea) (s : State) : Host.Outcome State Fault Refusal :=
  s.finish (time (if ea.mode = .dn then .moveFromSrDn else .moveFromSrMem ea.mode)) (eaTargets ea)
    ((s.skip 1).modifyEa .w ea (fun _ sr => (sr.toWord.toNat, sr)))

/-- MOVE to CCR (R354): a word source, its low byte used. -/
def execMoveToCcr (ea : Ea) (s : State) : Host.Outcome State Fault Refusal :=
  s.finish (time (.moveToStatus ea.mode)) (eaUpdates ea) ((s.skip 1).testEa .w ea (fun v sr => sr.withCcr v))

/-- MOVE to SR (R355): privileged. -/
def execMoveToSr (ea : Ea) (s : State) : Host.Outcome State Fault Refusal :=
  s.privileged (s.finish (time (.moveToStatus ea.mode)) (eaUpdates ea) ((s.skip 1).testEa .w ea (fun v _ => StatusReg.ofNat v)))

/-- MOVE to USP (R367): privileged. -/
def execMoveToUsp (an : Reg) (s : State) : Host.Outcome State Fault Refusal :=
  s.privileged (s.finish (time .moveUsp) [] (.ok { s.skip 1 with usp := s.areg an }))

/-- MOVE from USP (R367): privileged. -/
def execMoveFromUsp (an : Reg) (s : State) : Host.Outcome State Fault Refusal :=
  s.privileged (s.finish (time .moveUsp) [.a an] (.ok ((s.skip 1).setA an s.usp)))

/-- CHK (R352): N says which bound was broken; Z, V, C are free, and N where there is no trap (93 U3). Where the source
cannot be read, GROUP0_ELAPSED is bounded by the longer of the two full times, that of the trap: the model's choice
(log 23). A trap comes after the reads that replace the instruction's words (R405). -/
def execChk (ea : Ea) (dn : Reg) (s : State) : Host.Outcome State Fault Refusal :=
  match (s.skip 1).readEa .w ea with
  | .error e => s.finish (time (.chkTrap ea.mode)) (eaUpdates ea) (.error e)
  | .ok f =>
    let bound := signed 16 f.value
    let v := signed 16 (f.state.dlow .w dn)
    let k := s.draws
    let flags := fun n : Bool =>
      (f.state.setSr
        { f.state.sr with n := n, z := Config.freeBit k, v := Config.freeBit (k + 1), c := Config.freeBit (k + 2) }).drawn 4
    if v < 0 then (flags true).readAhead.trapTo s.pc 6 (.chkTrap ea.mode)
    else if bound < v then (flags false).readAhead.trapTo s.pc 6 (.chkTrap ea.mode)
    else .next ((flags (Config.freeBit (k + 3))).charge (time (.chk ea.mode)))

/-- TRAPV (R365). -/
def execTrapv (s : State) : Host.Outcome State Fault Refusal :=
  if s.sr.v then (s.skip 1).trapTo s.pc 7 .trapvTrap else s.finish (time .trapvNoTrap) [] (.ok (s.skip 1))

/-- TRAP (R366). -/
def execTrap (v : Fin 16) (s : State) : Host.Outcome State Fault Refusal := (s.skip 1).trapTo s.pc (32 + v.val) .trap

/-- ILLEGAL (R368). -/
def execIllegal (s : State) : Host.Outcome State Fault Refusal := s.illegalWord 4

/-- EXG of two data registers (R357). -/
def execExgDD (dx dy : Reg) (s : State) : Host.Outcome State Fault Refusal :=
  s.finish (time .exg) [.d dx, .d dy] (.ok (((s.skip 1).setD dx (s.dreg dy)).setD dy (s.dreg dx)))

/-- EXG of two address registers (R357). -/
def execExgAA (ax ay : Reg) (s : State) : Host.Outcome State Fault Refusal :=
  s.finish (time .exg) [.a ax, .a ay] (.ok (((s.skip 1).setA ax (s.areg ay)).setA ay (s.areg ax)))

/-- EXG of a data and an address register (R357). -/
def execExgDA (dx ay : Reg) (s : State) : Host.Outcome State Fault Refusal :=
  s.finish (time .exg) [.d dx, .a ay] (.ok (((s.skip 1).setD dx (s.areg ay)).setA ay (s.dreg dx)))

/-- EXT.W (R358): the low byte sign-extended to the low word. -/
def execExtW (dn : Reg) (s : State) : Host.Outcome State Fault Refusal :=
  let r := ofSigned 16 (signed 8 (s.dlow .b dn))
  s.finish (time .ext) [.d dn] (.ok (((s.skip 1).setDlow .w dn r).setSr (flagsLogic 16 r s.sr)))

/-- EXT.L (R358): the low word sign-extended to the register. -/
def execExtL (dn : Reg) (s : State) : Host.Outcome State Fault Refusal :=
  let r := ofSigned 32 (signed 16 (s.dlow .w dn))
  s.finish (time .ext) [.d dn] (.ok (((s.skip 1).setDlow .l dn r).setSr (flagsLogic 32 r s.sr)))

/-- SWAP (R364). -/
def execSwap (dn : Reg) (s : State) : Host.Outcome State Fault Refusal :=
  let r := 65536 * ((s.dreg dn).toNat % 65536) + (s.dreg dn).toNat / 65536
  s.finish (time .swap) [.d dn] (.ok (((s.skip 1).setDlow .l dn r).setSr (flagsLogic 32 r s.sr)))

/-- NOP (R361). -/
def execNop (s : State) : Host.Outcome State Fault Refusal := s.finish (time .nop) [] (.ok (s.skip 1))

/-- LINK (R359): with A7 itself the value pushed is the decremented pointer. -/
def execLink (an : Reg) (d16 : Word) (s : State) : Host.Outcome State Fault Refusal :=
  s.finish (time .link) [.a an, .a 7] do
    let s1 ← (s.skip 2).push .l (if an.val = 7 then s.sp - 4 else s.areg an).toNat
    .ok ((s1.setA an s1.sp).setSp (s1.sp + disp16 d16))

/-- UNLK (R360): the stack pointer from the register, then the register from the stack. -/
def execUnlk (an : Reg) (s : State) : Host.Outcome State Fault Refusal :=
  s.finish (time .unlk) [.a an, .a 7] do
    let p ← ((s.skip 1).setSp (s.areg an)).pop .l
    .ok (p.2.setA an (BitVec.ofNat 32 p.1))

/-- RTS (R374). -/
def execRts (s : State) : Host.Outcome State Fault Refusal :=
  s.finish (time .rts) [.a 7] do
    let p ← (s.skip 1).pop .l
    p.2.jump (BitVec.ofNat 32 p.1)

/-- RTR (R373): CCR from a word, then pc from a long. -/
def execRtr (s : State) : Host.Outcome State Fault Refusal :=
  s.finish (time .rtr) [.a 7] do
    let c ← (s.skip 1).pop .w
    let p ← (c.2.setSr (c.2.sr.withCcr c.1)).pop .l
    p.2.jump (BitVec.ofNat 32 p.1)

/-- RTE (R372): privileged. -/
def execRte (s : State) : Host.Outcome State Fault Refusal :=
  s.privileged (s.finish (time .rte) [] (s.skip 1).returnFromException)

/-- STOP (R363): privileged; SR from the immediate, then stopped. -/
def execStop (v : Word) (s : State) : Host.Outcome State Fault Refusal :=
  s.privileged (s.finish (time .stop) [] (.ok { s.skip 2 with sr := StatusReg.ofNat v.toNat, run := .stopped }))

/-- RESET (R362): privileged; no processor state changes (log 33). -/
def execResetDevices (s : State) : Host.Outcome State Fault Refusal :=
  s.privileged (s.finish (time .resetDevices) [] (.ok (s.skip 1)))

end Sys2Proof.Machine
end

