-- ==== Sys2Proof/Machine/Move.lean ====
section
/-! DEFINITION. MOVE and MOVEA (41_move.md). -/

namespace Sys2Proof.Machine

/-- MOVE (R154): the source wholly first, then the destination; the store, then the flags. Where the source cannot be read,
the destination is left old, or new from a free operand (R55). -/
def moveEa (sz : Size) (src dst : Ea) (s : State) : Host.Outcome State Fault Refusal :=
  s.finish (time (.move sz src.mode dst.mode)) (eaUpdates src ++ eaTargets dst) do
    let f ← orPending (fun t => t.locCells sz (t.freeOperand sz) ((t.settle sz src).locate sz dst).1) ((s.skip 1).readEa sz src)
    let s' ← f.state.writeEa sz dst f.value
    .ok (s'.setSr (flagsLogic sz.bits f.value s'.sr))

/-- MOVEA (R155): the source sign-extended to the whole address register; no flags. -/
def moveaEa (sz : Size) (src : Ea) (an : Reg) (s : State) : Host.Outcome State Fault Refusal :=
  s.finish (time (.move sz src.mode .an)) (.a an :: eaUpdates src) do
    let f ← (s.skip 1).readEa sz src
    .ok (f.state.setA an (sext32 sz.bits f.value))

def execMoveaW (src : Ea) (an : Reg) (s : State) : Host.Outcome State Fault Refusal := moveaEa .w src an s

def execMoveaL (src : Ea) (an : Reg) (s : State) : Host.Outcome State Fault Refusal := moveaEa .l src an s

def execMoveB (src dst : Ea) (s : State) : Host.Outcome State Fault Refusal := moveEa .b src dst s

def execMoveW (src dst : Ea) (s : State) : Host.Outcome State Fault Refusal := moveEa .w src dst s

def execMoveL (src dst : Ea) (s : State) : Host.Outcome State Fault Refusal := moveEa .l src dst s

end Sys2Proof.Machine
end

