-- ==== Sys2Proof/Machine/MovePeripheral.lean ====
section
/-! DEFINITION. MOVEP (49_multiprecision_misc_movep.md, section 8). -/

namespace Sys2Proof.Machine

/-- The addresses of MOVEP's bytes: `k` of them, every other one from `a` up (R381). -/
def movepAddrs : Nat → Long → List Long
  | 0, _ => []
  | k + 1, a => a :: movepAddrs k (a + 2)

/-- MOVEP register to memory (R381): the most significant byte at the lowest address. -/
def execMovepToMem (sz : WL) (dx ay : Reg) (d16 : Word) (s : State) : Host.Outcome State Fault Refusal :=
  let bytes := (bytesOf sz.size (s.dlow sz.size dx)).map (fun b => b.toNat)
  s.finish (time (.movep sz.size true)) []
    ((s.skip 2).storeAll .b ((movepAddrs sz.size.bytes (s.areg ay + disp16 d16)).zip bytes))

/-- The bytes at a list of addresses as one number, the first the most significant (R381). -/
def State.readBytes (s : State) : List Long → Nat → Except Stop (Nat × State)
  | [], v => .ok (v, s)
  | a :: as, v =>
    match s.memRead .b a false with
    | .error e => .error e
    | .ok (b, t) => t.readBytes as (256 * v + b)

/-- MOVEP memory to register (R381). -/
def execMovepToReg (sz : WL) (ay : Reg) (d16 : Word) (dx : Reg) (s : State) : Host.Outcome State Fault Refusal :=
  s.finish (time (.movep sz.size false)) [.d dx] do
    let p ← (s.skip 2).readBytes (movepAddrs sz.size.bytes (s.areg ay + disp16 d16)) 0
    .ok (p.2.setDlow sz.size dx p.1)

end Sys2Proof.Machine
end

