-- ==== Sys2Proof/Machine/SingleOperand.lean ====
section
/-! DEFINITION. The single operand instructions (44_single_operand.md). -/

namespace Sys2Proof.Machine

/-- The time of CLR, NEG, NEGX, NOT (R230): the register or the memory cell. -/
def singleTime (sz : Size) (ea : Ea) : Time := time (if ea.mode = .dn then .singleDn sz else .singleMem sz ea.mode)

/-- A single operand instruction that reads its operand, computes and stores (R231 to R235). -/
def singleEa (sz : Size) (ea : Ea) (g : Nat → StatusReg → Nat × StatusReg) (s : State) : Host.Outcome State Fault Refusal :=
  s.finish (singleTime sz ea) (eaTargets ea) ((s.skip 1).modifyEa sz ea g)

/-- NEGX (R234). -/
def execNegx (sz : Size) (ea : Ea) (s : State) : Host.Outcome State Fault Refusal :=
  singleEa sz ea (fun d sr => (subxResult sz.bits d 0 sr.x, flagsSubx sz.bits d 0 (subxResult sz.bits d 0 sr.x) sr)) s

/-- CLR (R231): memory is read before it is cleared, the value discarded (R58). -/
def execClr (sz : Size) (ea : Ea) (s : State) : Host.Outcome State Fault Refusal :=
  singleEa sz ea (fun _ sr => (0, { sr with n := false, z := true, v := false, c := false })) s

/-- NEG (R233). -/
def execNeg (sz : Size) (ea : Ea) (s : State) : Host.Outcome State Fault Refusal :=
  singleEa sz ea (fun d sr => (subResult sz.bits d 0, flagsSub sz.bits d 0 (subResult sz.bits d 0) sr)) s

/-- NOT (R235). -/
def execNotEa (sz : Size) (ea : Ea) (s : State) : Host.Outcome State Fault Refusal :=
  singleEa sz ea (fun d sr => (2 ^ sz.bits - 1 - d, flagsLogic sz.bits (2 ^ sz.bits - 1 - d) sr)) s

/-- TST (R238): nothing is stored. -/
def execTst (sz : Size) (ea : Ea) (s : State) : Host.Outcome State Fault Refusal :=
  s.finish (time (.tst sz ea.mode)) (eaUpdates ea) ((s.skip 1).testEa sz ea (fun d sr => flagsLogic sz.bits d sr))

/-- The result byte and the flags of a decimal operation (R232, R344, R345). On decimal digits N and V are free; with a
digit above 9 the result and all five flags are (93 U1). The draws are the six from `k`. -/
def decimalResult (valid : Bool) (r : Nat × Bool) (k : Nat) (sr : StatusReg) : Nat × StatusReg :=
  if valid then (r.1, flagsDecimal r.1 r.2 (Config.freeBit k) (Config.freeBit (k + 1)) sr)
  else
    ((Config.freeByte k).toNat,
      { sr with
        x := Config.freeBit (k + 1), n := Config.freeBit (k + 2), z := Config.freeBit (k + 3), v := Config.freeBit (k + 4)
        c := Config.freeBit (k + 5) })

/-- NBCD (R232). -/
def execNbcd (ea : Ea) (s : State) : Host.Outcome State Fault Refusal :=
  s.finish (time (if ea.mode = .dn then .nbcdDn else .nbcdMem ea.mode)) (eaTargets ea)
    (((s.skip 1).drawn 6).modifyEa .b ea
      (fun d sr => decimalResult (isDecimal d) (sbcdResult d 0 sr.x) s.draws sr))

/-- Scc (R236): memory is read first (R58); no flag is written. -/
def execScc (cond : Cond) (ea : Ea) (s : State) : Host.Outcome State Fault Refusal :=
  s.finish (time (if ea.mode = .dn then .sccDn (s.sr.cond cond) else .sccMem ea.mode)) (eaTargets ea)
    ((s.skip 1).modifyEa .b ea (fun _ sr => (if sr.cond cond then 255 else 0, sr)))

/-- TAS (R237): flags from the byte before bit 7 is set, then the store. On memory a platform may forbid it (R462, 93 U18). The
one indivisible cycle is a read and a write with nothing between, and in a device window the platform answers each of the
two, so that the write alone can fail: the model's choice (log 32). -/
def execTas (ea : Ea) (s : State) : Host.Outcome State Fault Refusal :=
  if s.tasForbidden && ea.mode != .dn then .refused .tasForbidden
  else
    s.finish (time (if ea.mode = .dn then .tasDn else .tasMem ea.mode)) (eaTargets ea)
      ((s.skip 1).testAndModifyEa .b ea (fun d sr => (d ||| 128, flagsLogic 8 d sr)))

end Sys2Proof.Machine
end

