-- ==== Sys2Proof/Machine/MultiPrecision.lean ====
section
/-! DEFINITION. The multi-precision instructions (49_multiprecision_misc_movep.md, section 1). -/

namespace Sys2Proof.Machine

/-- ADDX and SUBX on registers (R341, R342). -/
def extendReg (g : Nat → Nat → StatusReg → Nat × StatusReg) (sz : Size) (dy dx : Reg) (s : State) :
    Host.Outcome State Fault Refusal :=
  let r := g (s.dlow sz dy) (s.dlow sz dx) s.sr
  s.finish (time (.extendDn sz)) [.d dx] (.ok (((s.skip 1).setDlow sz dx r.1).setSr r.2))

/-- The memory form of R341, R344, R345: source `-(Ay)` first, then destination `-(Ax)`, the result stored there. Where the
source cannot be read, the destination is left old, or new from free operands (R55). -/
def State.preDecPair (s : State) (g : Nat → Nat → StatusReg → Nat × StatusReg) (sz : Size) (ay ax : Reg) : Except Stop State := do
  let f ← orPending
    (fun t => t.locCells sz (g (t.freeOperand sz) ((t.drawn 1).freeOperand sz) t.sr).1 (t.locate sz (.preDec ax)).1)
    (s.readEa sz (.preDec ay))
  f.state.modifyEa sz (.preDec ax) (fun d sr => g f.value d sr)

/-- ADDX of R341 as an operation on source, destination and status register. -/
def addxOp (bits s d : Nat) (sr : StatusReg) : Nat × StatusReg :=
  (addxResult bits s d sr.x, flagsAddx bits s d (addxResult bits s d sr.x) sr)

/-- SUBX of R342. -/
def subxOp (bits s d : Nat) (sr : StatusReg) : Nat × StatusReg :=
  (subxResult bits s d sr.x, flagsSubx bits s d (subxResult bits s d sr.x) sr)

/-- ABCD of R344, its free values drawn from `k`. -/
def abcdOp (k : Nat) (s d : Nat) (sr : StatusReg) : Nat × StatusReg :=
  decimalResult (isDecimal s && isDecimal d) (abcdResult s d sr.x) k sr

/-- SBCD of R345, its free values drawn from `k`. -/
def sbcdOp (k : Nat) (s d : Nat) (sr : StatusReg) : Nat × StatusReg :=
  decimalResult (isDecimal s && isDecimal d) (sbcdResult s d sr.x) k sr

def execAddxReg (sz : Size) (dy dx : Reg) (s : State) : Host.Outcome State Fault Refusal := extendReg (addxOp sz.bits) sz dy dx s

def execAddxMem (sz : Size) (ay ax : Reg) (s : State) : Host.Outcome State Fault Refusal :=
  s.finish (time (.extendMem sz)) [.a ay, .a ax] ((s.skip 1).preDecPair (addxOp sz.bits) sz ay ax)

def execSubxReg (sz : Size) (dy dx : Reg) (s : State) : Host.Outcome State Fault Refusal := extendReg (subxOp sz.bits) sz dy dx s

def execSubxMem (sz : Size) (ay ax : Reg) (s : State) : Host.Outcome State Fault Refusal :=
  s.finish (time (.extendMem sz)) [.a ay, .a ax] ((s.skip 1).preDecPair (subxOp sz.bits) sz ay ax)

/-- A decimal operation on registers (R344, R345). -/
def decimalReg (g : Nat → Nat → StatusReg → Nat × StatusReg) (dy dx : Reg) (s : State) : Host.Outcome State Fault Refusal :=
  let r := g (s.dlow .b dy) (s.dlow .b dx) s.sr
  s.finish (time .bcdDn) [.d dx] (.ok ((((s.skip 1).drawn 6).setDlow .b dx r.1).setSr r.2))

def execAbcdReg (dy dx : Reg) (s : State) : Host.Outcome State Fault Refusal := decimalReg (abcdOp s.draws) dy dx s

def execAbcdMem (ay ax : Reg) (s : State) : Host.Outcome State Fault Refusal :=
  s.finish (time .bcdMem) [.a ay, .a ax] (((s.skip 1).drawn 6).preDecPair (abcdOp s.draws) .b ay ax)

def execSbcdReg (dy dx : Reg) (s : State) : Host.Outcome State Fault Refusal := decimalReg (sbcdOp s.draws) dy dx s

def execSbcdMem (ay ax : Reg) (s : State) : Host.Outcome State Fault Refusal :=
  s.finish (time .bcdMem) [.a ay, .a ax] (((s.skip 1).drawn 6).preDecPair (sbcdOp s.draws) .b ay ax)

/-- CMPM (R343): `(Ay)+` then `(Ax)+`; nothing is stored. -/
def execCmpm (sz : Size) (ay ax : Reg) (s : State) : Host.Outcome State Fault Refusal :=
  s.finish (time (.cmpm sz)) [.a ay, .a ax] do
    let f ← (s.skip 1).readEa sz (.postInc ay)
    f.state.testEa sz (.postInc ax) (fun d sr => flagsCmp sz.bits f.value d (subResult sz.bits f.value d) sr)

end Sys2Proof.Machine
end

