-- ==== Sys2Proof/Machine/ShiftRotate.lean ====
section
/-! DEFINITION. The shift and rotate instructions (45_shift_rotate.md). -/

namespace Sys2Proof.Machine

/-- The register form (R260): the count `n` decides the time, unreduced (R251). -/
def shiftDn (op : ShiftOp) (sz : Size) (n : Nat) (dn : Reg) (s : State) : Host.Outcome State Fault Refusal :=
  let r := shiftResult op sz.bits n (s.dlow sz dn) s.sr
  s.finish (time (.shiftDn sz n)) [.d dn] (.ok (((s.skip 1).setDlow sz dn r.1).setSr r.2))

/-- The count of a register: its value modulo 64 (R251). -/
def State.shiftCount (s : State) (dm : Reg) : Nat := (s.dreg dm).toNat % 64

/-- The memory form (R260): a word, by one place. -/
def shiftMem (op : ShiftOp) (ea : Ea) (s : State) : Host.Outcome State Fault Refusal :=
  s.finish (time (.shiftMem ea.mode)) (eaTargets ea) ((s.skip 1).modifyEa .w ea (fun d sr => shiftResult op 16 1 d sr))

def execAsrMem (ea : Ea) (s : State) : Host.Outcome State Fault Refusal := shiftMem .asr ea s

def execAslMem (ea : Ea) (s : State) : Host.Outcome State Fault Refusal := shiftMem .asl ea s

def execLsrMem (ea : Ea) (s : State) : Host.Outcome State Fault Refusal := shiftMem .lsr ea s

def execLslMem (ea : Ea) (s : State) : Host.Outcome State Fault Refusal := shiftMem .lsl ea s

def execRoxrMem (ea : Ea) (s : State) : Host.Outcome State Fault Refusal := shiftMem .roxr ea s

def execRoxlMem (ea : Ea) (s : State) : Host.Outcome State Fault Refusal := shiftMem .roxl ea s

def execRorMem (ea : Ea) (s : State) : Host.Outcome State Fault Refusal := shiftMem .ror ea s

def execRolMem (ea : Ea) (s : State) : Host.Outcome State Fault Refusal := shiftMem .rol ea s

def execAsrImm (sz : Size) (cnt dn : Reg) (s : State) : Host.Outcome State Fault Refusal :=
  shiftDn .asr sz (quickValue cnt) dn s

def execAsrReg (sz : Size) (dm dn : Reg) (s : State) : Host.Outcome State Fault Refusal :=
  shiftDn .asr sz (s.shiftCount dm) dn s

def execAslImm (sz : Size) (cnt dn : Reg) (s : State) : Host.Outcome State Fault Refusal :=
  shiftDn .asl sz (quickValue cnt) dn s

def execAslReg (sz : Size) (dm dn : Reg) (s : State) : Host.Outcome State Fault Refusal :=
  shiftDn .asl sz (s.shiftCount dm) dn s

def execLsrImm (sz : Size) (cnt dn : Reg) (s : State) : Host.Outcome State Fault Refusal :=
  shiftDn .lsr sz (quickValue cnt) dn s

def execLsrReg (sz : Size) (dm dn : Reg) (s : State) : Host.Outcome State Fault Refusal :=
  shiftDn .lsr sz (s.shiftCount dm) dn s

def execLslImm (sz : Size) (cnt dn : Reg) (s : State) : Host.Outcome State Fault Refusal :=
  shiftDn .lsl sz (quickValue cnt) dn s

def execLslReg (sz : Size) (dm dn : Reg) (s : State) : Host.Outcome State Fault Refusal :=
  shiftDn .lsl sz (s.shiftCount dm) dn s

def execRoxrImm (sz : Size) (cnt dn : Reg) (s : State) : Host.Outcome State Fault Refusal :=
  shiftDn .roxr sz (quickValue cnt) dn s

def execRoxrReg (sz : Size) (dm dn : Reg) (s : State) : Host.Outcome State Fault Refusal :=
  shiftDn .roxr sz (s.shiftCount dm) dn s

def execRoxlImm (sz : Size) (cnt dn : Reg) (s : State) : Host.Outcome State Fault Refusal :=
  shiftDn .roxl sz (quickValue cnt) dn s

def execRoxlReg (sz : Size) (dm dn : Reg) (s : State) : Host.Outcome State Fault Refusal :=
  shiftDn .roxl sz (s.shiftCount dm) dn s

def execRorImm (sz : Size) (cnt dn : Reg) (s : State) : Host.Outcome State Fault Refusal :=
  shiftDn .ror sz (quickValue cnt) dn s

def execRorReg (sz : Size) (dm dn : Reg) (s : State) : Host.Outcome State Fault Refusal :=
  shiftDn .ror sz (s.shiftCount dm) dn s

def execRolImm (sz : Size) (cnt dn : Reg) (s : State) : Host.Outcome State Fault Refusal :=
  shiftDn .rol sz (quickValue cnt) dn s

def execRolReg (sz : Size) (dm dn : Reg) (s : State) : Host.Outcome State Fault Refusal :=
  shiftDn .rol sz (s.shiftCount dm) dn s

end Sys2Proof.Machine
end

