-- ==== Sys2Proof/Machine/Standard.lean ====
section
/-! DEFINITION. The standard instructions: ADD, SUB, CMP, AND, OR, EOR, multiply and divide (42_standard.md). -/

namespace Sys2Proof.Machine

/-- `op <ea>,Dn` (R171, R173, R186, R187). -/
def aluEaDn (op : AluOp) (sz : Size) (ea : Ea) (dn : Reg) (s : State) : Host.Outcome State Fault Refusal :=
  s.finish (time (.aluEaDn sz ea.mode)) (.d dn :: eaUpdates ea) do
    let f ← (s.skip 1).readEa sz ea
    let r := aluResult op sz.bits f.value (f.state.dlow sz dn) f.state.sr
    .ok ((f.state.setDlow sz dn r.1).setSr r.2)

/-- `op Dn,<ea>` (R171, R173, R182, R186, R187): memory, or a data register for EOR. -/
def aluDnEa (op : AluOp) (sz : Size) (dn : Reg) (ea : Ea) (d : Descriptor) (s : State) : Host.Outcome State Fault Refusal :=
  s.finish (time d) (eaTargets ea)
    ((s.skip 1).modifyEa sz ea (fun v sr => aluResult op sz.bits (s.dlow sz dn) v sr))

/-- ADDA and SUBA (R172, R188): the source sign-extended, the whole address register, no flags. -/
def aluAn (subtract : Bool) (sz : Size) (ea : Ea) (an : Reg) (s : State) : Host.Outcome State Fault Refusal :=
  s.finish (time (.aluAn sz ea.mode)) (.a an :: eaUpdates ea) do
    let f ← (s.skip 1).readEa sz ea
    let v := sext32 sz.bits f.value
    .ok (f.state.setA an (if subtract then f.state.areg an - v else f.state.areg an + v))

def execOrEaDn (sz : Size) (ea : Ea) (dn : Reg) (s : State) : Host.Outcome State Fault Refusal := aluEaDn .or sz ea dn s

def execOrDnEa (sz : Size) (dn : Reg) (ea : Ea) (s : State) : Host.Outcome State Fault Refusal :=
  aluDnEa .or sz dn ea (.aluDnMem sz ea.mode) s

def execSuba (sz : WL) (ea : Ea) (an : Reg) (s : State) : Host.Outcome State Fault Refusal := aluAn true sz.size ea an s

def execSubEaDn (sz : Size) (ea : Ea) (dn : Reg) (s : State) : Host.Outcome State Fault Refusal := aluEaDn .sub sz ea dn s

def execSubDnEa (sz : Size) (dn : Reg) (ea : Ea) (s : State) : Host.Outcome State Fault Refusal :=
  aluDnEa .sub sz dn ea (.aluDnMem sz ea.mode) s

def execAndEaDn (sz : Size) (ea : Ea) (dn : Reg) (s : State) : Host.Outcome State Fault Refusal := aluEaDn .and sz ea dn s

def execAndDnEa (sz : Size) (dn : Reg) (ea : Ea) (s : State) : Host.Outcome State Fault Refusal :=
  aluDnEa .and sz dn ea (.aluDnMem sz ea.mode) s

def execAdda (sz : WL) (ea : Ea) (an : Reg) (s : State) : Host.Outcome State Fault Refusal := aluAn false sz.size ea an s

def execAddEaDn (sz : Size) (ea : Ea) (dn : Reg) (s : State) : Host.Outcome State Fault Refusal := aluEaDn .add sz ea dn s

def execAddDnEa (sz : Size) (dn : Reg) (ea : Ea) (s : State) : Host.Outcome State Fault Refusal :=
  aluDnEa .add sz dn ea (.aluDnMem sz ea.mode) s

/-- EOR (R182): a data register destination has a time of its own. -/
def execEor (sz : Size) (dn : Reg) (ea : Ea) (s : State) : Host.Outcome State Fault Refusal :=
  aluDnEa .eor sz dn ea (if ea.mode = .dn then .eorReg sz else .aluDnMem sz ea.mode) s

/-- CMP (R174): nothing is stored. -/
def execCmp (sz : Size) (ea : Ea) (dn : Reg) (s : State) : Host.Outcome State Fault Refusal :=
  s.finish (time (.cmp sz ea.mode)) (eaUpdates ea) do
    let f ← (s.skip 1).readEa sz ea
    let d := f.state.dlow sz dn
    .ok (f.state.setSr (flagsCmp sz.bits f.value d (subResult sz.bits f.value d) f.state.sr))

/-- CMPA (R175): a comparison of 32 bits with the source sign-extended. -/
def execCmpa (sz : WL) (ea : Ea) (an : Reg) (s : State) : Host.Outcome State Fault Refusal :=
  s.finish (time (.cmpa sz.size ea.mode)) (eaUpdates ea) do
    let f ← (s.skip 1).readEa sz.size ea
    let v := (sext32 sz.size.bits f.value).toNat
    let d := (f.state.areg an).toNat
    .ok (f.state.setSr (flagsCmp 32 v d (subResult 32 v d) f.state.sr))

/-- MULU (R184): the time is a function of the source (R185). -/
def execMulu (ea : Ea) (dn : Reg) (s : State) : Host.Outcome State Fault Refusal :=
  match (s.skip 1).readEa .w ea with
  | .error e => s.finish (time (.mul 16 ea.mode)) (.d dn :: eaUpdates ea) (.error e)
  | .ok f =>
    let r := f.state.dlow .w dn * f.value
    .next (((f.state.setD dn (BitVec.ofNat 32 r)).setSr (flagsLogic 32 r f.state.sr)).charge
      (time (.mul (muluCount f.value) ea.mode)))

/-- MULS (R183): both factors signed. -/
def execMuls (ea : Ea) (dn : Reg) (s : State) : Host.Outcome State Fault Refusal :=
  match (s.skip 1).readEa .w ea with
  | .error e => s.finish (time (.mul 16 ea.mode)) (.d dn :: eaUpdates ea) (.error e)
  | .ok f =>
    let r := ofSigned 32 (signed 16 (f.state.dlow .w dn) * signed 16 f.value)
    .next (((f.state.setD dn (BitVec.ofNat 32 r)).setSr (flagsLogic 32 r f.state.sr)).charge
      (time (.mul (mulsCount f.value) ea.mode)))

/-- The end of a division whose quotient fits (R179): remainder over quotient, flags from the quotient. -/
def State.divided (s : State) (dn : Reg) (q m : Nat) (t : Time) : State :=
  ((s.setD dn (BitVec.ofNat 32 (65536 * (m % 65536) + q % 65536))).setSr
    { s.sr with n := msb 16 q, z := q % 65536 == 0, v := false, c := false }).charge t

/-- The end of a division whose quotient does not fit (R179): V set, C cleared, the register unchanged; N and Z free
(93 U2). -/
def State.divisionOverflow (s : State) (t : Time) : State :=
  ((s.setSr { s.sr with n := Config.freeBit s.draws, z := Config.freeBit (s.draws + 1), v := true, c := false }).drawn
    2).charge t

/-- DIVU (R179, R181). Its zero divide comes after the reads that replace the instruction's words (R405). -/
def execDivu (ea : Ea) (dn : Reg) (s : State) : Host.Outcome State Fault Refusal :=
  match (s.skip 1).readEa .w ea with
  | .error e => s.finish (time (.div 140 ea.mode)) (.d dn :: eaUpdates ea) (.error e)
  | .ok f =>
    let d := f.state.dreg dn
    let v : Word := BitVec.ofNat 16 f.value
    if f.value = 0 then f.state.readAhead.trapTo s.pc 5 (.zeroDivide ea.mode)
    else if 65535 < d.toNat / f.value then
      .next (f.state.divisionOverflow (time (.div (divuOverflowClocks d v) ea.mode)))
    else .next (f.state.divided dn (d.toNat / f.value) (d.toNat % f.value) (time (.div (divuClocks d v) ea.mode)))

/-- DIVS (R178, R181): the quotient truncated toward zero, the remainder with the sign of the dividend; zero
divide as for DIVU. -/
def execDivs (ea : Ea) (dn : Reg) (s : State) : Host.Outcome State Fault Refusal :=
  match (s.skip 1).readEa .w ea with
  | .error e => s.finish (time (.div 158 ea.mode)) (.d dn :: eaUpdates ea) (.error e)
  | .ok f =>
    let d := f.state.dreg dn
    let v : Word := BitVec.ofNat 16 f.value
    let q := Int.tdiv (signed 32 d.toNat) (signed 16 f.value)
    let m := signed 32 d.toNat - q * signed 16 f.value
    if f.value = 0 then f.state.readAhead.trapTo s.pc 5 (.zeroDivide ea.mode)
    else if q < -32768 ∨ 32767 < q then
      .next (f.state.divisionOverflow (time (.div (divsOverflowClocks d v) ea.mode)))
    else .next (f.state.divided dn (ofSigned 16 q) (ofSigned 16 m) (time (.div (divsClocks d v) ea.mode)))

end Sys2Proof.Machine
end

