-- ==== Sys2Proof/Machine/Dispatch.lean ====
section
/-! DEFINITION. The one dispatch from an instruction to its meaning. `exec` is called with the pc at the operation word. -/

namespace Sys2Proof.Machine

def exec (i : Instr) (s : State) : Host.Outcome State Fault Refusal :=
  match i with
  | .oriToCcr v => Sys2Proof.Machine.execOriToCcr v s
  | .oriToSr v => Sys2Proof.Machine.execOriToSr v s
  | .andiToCcr v => Sys2Proof.Machine.execAndiToCcr v s
  | .andiToSr v => Sys2Proof.Machine.execAndiToSr v s
  | .eoriToCcr v => Sys2Proof.Machine.execEoriToCcr v s
  | .eoriToSr v => Sys2Proof.Machine.execEoriToSr v s
  | .movepToReg sz ay d16 dx => Sys2Proof.Machine.execMovepToReg sz ay d16 dx s
  | .movepToMem sz dx ay d16 => Sys2Proof.Machine.execMovepToMem sz dx ay d16 s
  | .btstDn dn ea => Sys2Proof.Machine.execBtstDn dn ea s
  | .bchgDn dn ea => Sys2Proof.Machine.execBchgDn dn ea s
  | .bclrDn dn ea => Sys2Proof.Machine.execBclrDn dn ea s
  | .bsetDn dn ea => Sys2Proof.Machine.execBsetDn dn ea s
  | .btstImm bit ea => Sys2Proof.Machine.execBtstImm bit ea s
  | .bchgImm bit ea => Sys2Proof.Machine.execBchgImm bit ea s
  | .bclrImm bit ea => Sys2Proof.Machine.execBclrImm bit ea s
  | .bsetImm bit ea => Sys2Proof.Machine.execBsetImm bit ea s
  | .ori v ea => Sys2Proof.Machine.execOri v ea s
  | .andi v ea => Sys2Proof.Machine.execAndi v ea s
  | .subi v ea => Sys2Proof.Machine.execSubi v ea s
  | .addi v ea => Sys2Proof.Machine.execAddi v ea s
  | .eori v ea => Sys2Proof.Machine.execEori v ea s
  | .cmpi v ea => Sys2Proof.Machine.execCmpi v ea s
  | .moveaW src an => Sys2Proof.Machine.execMoveaW src an s
  | .moveaL src an => Sys2Proof.Machine.execMoveaL src an s
  | .moveB src dst => Sys2Proof.Machine.execMoveB src dst s
  | .moveW src dst => Sys2Proof.Machine.execMoveW src dst s
  | .moveL src dst => Sys2Proof.Machine.execMoveL src dst s
  | .resetDevices => Sys2Proof.Machine.execResetDevices s
  | .nop => Sys2Proof.Machine.execNop s
  | .stop v => Sys2Proof.Machine.execStop v s
  | .rte => Sys2Proof.Machine.execRte s
  | .rts => Sys2Proof.Machine.execRts s
  | .trapv => Sys2Proof.Machine.execTrapv s
  | .rtr => Sys2Proof.Machine.execRtr s
  | .illegal => Sys2Proof.Machine.execIllegal s
  | .trap v => Sys2Proof.Machine.execTrap v s
  | .link an d16 => Sys2Proof.Machine.execLink an d16 s
  | .unlk an => Sys2Proof.Machine.execUnlk an s
  | .moveToUsp an => Sys2Proof.Machine.execMoveToUsp an s
  | .moveFromUsp an => Sys2Proof.Machine.execMoveFromUsp an s
  | .swap dn => Sys2Proof.Machine.execSwap dn s
  | .extW dn => Sys2Proof.Machine.execExtW dn s
  | .extL dn => Sys2Proof.Machine.execExtL dn s
  | .moveFromSr ea => Sys2Proof.Machine.execMoveFromSr ea s
  | .moveToCcr ea => Sys2Proof.Machine.execMoveToCcr ea s
  | .moveToSr ea => Sys2Proof.Machine.execMoveToSr ea s
  | .tas ea => Sys2Proof.Machine.execTas ea s
  | .chk ea dn => Sys2Proof.Machine.execChk ea dn s
  | .lea ea an => Sys2Proof.Machine.execLea ea an s
  | .nbcd ea => Sys2Proof.Machine.execNbcd ea s
  | .pea ea => Sys2Proof.Machine.execPea ea s
  | .movemToMem sz mask ea => Sys2Proof.Machine.execMovemToMem sz mask ea s
  | .movemToReg sz ea mask => Sys2Proof.Machine.execMovemToReg sz ea mask s
  | .jsr ea => Sys2Proof.Machine.execJsr ea s
  | .jmp ea => Sys2Proof.Machine.execJmp ea s
  | .negx sz ea => Sys2Proof.Machine.execNegx sz ea s
  | .clr sz ea => Sys2Proof.Machine.execClr sz ea s
  | .neg sz ea => Sys2Proof.Machine.execNeg sz ea s
  | .notEa sz ea => Sys2Proof.Machine.execNotEa sz ea s
  | .tst sz ea => Sys2Proof.Machine.execTst sz ea s
  | .dbcc cond dn d16 => Sys2Proof.Machine.execDbcc cond dn d16 s
  | .scc cond ea => Sys2Proof.Machine.execScc cond ea s
  | .addq q sz ea => Sys2Proof.Machine.execAddq q sz ea s
  | .subq q sz ea => Sys2Proof.Machine.execSubq q sz ea s
  | .bra d => Sys2Proof.Machine.execBra d s
  | .bsr d => Sys2Proof.Machine.execBsr d s
  | .bcc cond d => Sys2Proof.Machine.execBcc cond d s
  | .moveq v dn => Sys2Proof.Machine.execMoveq v dn s
  | .divu ea dn => Sys2Proof.Machine.execDivu ea dn s
  | .divs ea dn => Sys2Proof.Machine.execDivs ea dn s
  | .sbcdReg dy dx => Sys2Proof.Machine.execSbcdReg dy dx s
  | .sbcdMem ay ax => Sys2Proof.Machine.execSbcdMem ay ax s
  | .orEaDn sz ea dn => Sys2Proof.Machine.execOrEaDn sz ea dn s
  | .orDnEa sz dn ea => Sys2Proof.Machine.execOrDnEa sz dn ea s
  | .suba sz ea an => Sys2Proof.Machine.execSuba sz ea an s
  | .subxReg sz dy dx => Sys2Proof.Machine.execSubxReg sz dy dx s
  | .subxMem sz ay ax => Sys2Proof.Machine.execSubxMem sz ay ax s
  | .subEaDn sz ea dn => Sys2Proof.Machine.execSubEaDn sz ea dn s
  | .subDnEa sz dn ea => Sys2Proof.Machine.execSubDnEa sz dn ea s
  | .cmpa sz ea an => Sys2Proof.Machine.execCmpa sz ea an s
  | .cmpm sz ay ax => Sys2Proof.Machine.execCmpm sz ay ax s
  | .cmp sz ea dn => Sys2Proof.Machine.execCmp sz ea dn s
  | .eor sz dn ea => Sys2Proof.Machine.execEor sz dn ea s
  | .mulu ea dn => Sys2Proof.Machine.execMulu ea dn s
  | .muls ea dn => Sys2Proof.Machine.execMuls ea dn s
  | .abcdReg dy dx => Sys2Proof.Machine.execAbcdReg dy dx s
  | .abcdMem ay ax => Sys2Proof.Machine.execAbcdMem ay ax s
  | .exgDD dx dy => Sys2Proof.Machine.execExgDD dx dy s
  | .exgAA ax ay => Sys2Proof.Machine.execExgAA ax ay s
  | .exgDA dx ay => Sys2Proof.Machine.execExgDA dx ay s
  | .andEaDn sz ea dn => Sys2Proof.Machine.execAndEaDn sz ea dn s
  | .andDnEa sz dn ea => Sys2Proof.Machine.execAndDnEa sz dn ea s
  | .adda sz ea an => Sys2Proof.Machine.execAdda sz ea an s
  | .addxReg sz dy dx => Sys2Proof.Machine.execAddxReg sz dy dx s
  | .addxMem sz ay ax => Sys2Proof.Machine.execAddxMem sz ay ax s
  | .addEaDn sz ea dn => Sys2Proof.Machine.execAddEaDn sz ea dn s
  | .addDnEa sz dn ea => Sys2Proof.Machine.execAddDnEa sz dn ea s
  | .asrMem ea => Sys2Proof.Machine.execAsrMem ea s
  | .aslMem ea => Sys2Proof.Machine.execAslMem ea s
  | .lsrMem ea => Sys2Proof.Machine.execLsrMem ea s
  | .lslMem ea => Sys2Proof.Machine.execLslMem ea s
  | .roxrMem ea => Sys2Proof.Machine.execRoxrMem ea s
  | .roxlMem ea => Sys2Proof.Machine.execRoxlMem ea s
  | .rorMem ea => Sys2Proof.Machine.execRorMem ea s
  | .rolMem ea => Sys2Proof.Machine.execRolMem ea s
  | .asrImm sz cnt dn => Sys2Proof.Machine.execAsrImm sz cnt dn s
  | .asrReg sz dm dn => Sys2Proof.Machine.execAsrReg sz dm dn s
  | .aslImm sz cnt dn => Sys2Proof.Machine.execAslImm sz cnt dn s
  | .aslReg sz dm dn => Sys2Proof.Machine.execAslReg sz dm dn s
  | .lsrImm sz cnt dn => Sys2Proof.Machine.execLsrImm sz cnt dn s
  | .lsrReg sz dm dn => Sys2Proof.Machine.execLsrReg sz dm dn s
  | .lslImm sz cnt dn => Sys2Proof.Machine.execLslImm sz cnt dn s
  | .lslReg sz dm dn => Sys2Proof.Machine.execLslReg sz dm dn s
  | .roxrImm sz cnt dn => Sys2Proof.Machine.execRoxrImm sz cnt dn s
  | .roxrReg sz dm dn => Sys2Proof.Machine.execRoxrReg sz dm dn s
  | .roxlImm sz cnt dn => Sys2Proof.Machine.execRoxlImm sz cnt dn s
  | .roxlReg sz dm dn => Sys2Proof.Machine.execRoxlReg sz dm dn s
  | .rorImm sz cnt dn => Sys2Proof.Machine.execRorImm sz cnt dn s
  | .rorReg sz dm dn => Sys2Proof.Machine.execRorReg sz dm dn s
  | .rolImm sz cnt dn => Sys2Proof.Machine.execRolImm sz cnt dn s
  | .rolReg sz dm dn => Sys2Proof.Machine.execRolReg sz dm dn s

end Sys2Proof.Machine
end

