-- ==== Sys2Proof/Machine/Abandon.lean ====
section
/-! DEFINITION. What an instruction may write and how long it takes, said of the instruction as a whole: what R55 and R431
leave open where one of its extension words cannot be fetched (20_memory.md, 60_exceptions.md). The lists and times are
those each meaning hands to `State.finish`. -/

namespace Sys2Proof.Machine

/-- The registers an instruction may write (R55). -/
def mayWrite : Instr → List RegRef
  | .oriToCcr _ | .oriToSr _ | .andiToCcr _ | .andiToSr _ | .eoriToCcr _ | .eoriToSr _ | .resetDevices | .nop | .stop _ | .rte
  | .trapv | .illegal | .trap _ | .moveToUsp _ | .jmp _ | .bra _ | .bcc _ _ | .movepToMem _ _ _ _ => []
  | .rts | .rtr | .bsr _ | .jsr _ | .pea _ => [.a 7]
  | .movepToReg _ _ _ dx => [.d dx]
  | .link an _ | .unlk an => [.a an, .a 7]
  | .moveFromUsp an | .lea _ an => [.a an]
  | .swap dn | .extW dn | .extL dn | .moveq _ dn | .dbcc _ dn _ => [.d dn]
  | .exgDD x y => [.d x, .d y]
  | .exgAA x y => [.a x, .a y]
  | .exgDA x y => [.d x, .a y]
  | .btstDn _ ea | .btstImm _ ea | .cmpi _ ea | .tst _ ea | .cmp _ ea _ | .cmpa _ ea _ | .moveToCcr ea | .moveToSr ea
  | .chk ea _ => eaUpdates ea
  | .bchgDn _ ea | .bclrDn _ ea | .bsetDn _ ea | .bchgImm _ ea | .bclrImm _ ea | .bsetImm _ ea | .ori _ ea | .andi _ ea
  | .subi _ ea | .addi _ ea | .eori _ ea | .moveFromSr ea | .tas ea | .nbcd ea | .negx _ ea | .clr _ ea | .neg _ ea
  | .notEa _ ea | .scc _ ea | .addq _ _ ea | .subq _ _ ea | .orDnEa _ _ ea | .subDnEa _ _ ea | .eor _ _ ea | .andDnEa _ _ ea
  | .addDnEa _ _ ea | .asrMem ea | .aslMem ea | .lsrMem ea | .lslMem ea | .roxrMem ea | .roxlMem ea | .rorMem ea
  | .rolMem ea => eaTargets ea
  | .moveaW src an | .moveaL src an | .suba _ src an | .adda _ src an => .a an :: eaUpdates src
  | .moveB src dst | .moveW src dst | .moveL src dst => eaUpdates src ++ eaTargets dst
  | .movemToMem _ _ ea => eaUpdates ea
  | .movemToReg _ ea mask => maskRegs movemUp mask.toNat ++ eaUpdates ea
  | .divu ea dn | .divs ea dn | .mulu ea dn | .muls ea dn | .orEaDn _ ea dn | .subEaDn _ ea dn | .andEaDn _ ea dn
  | .addEaDn _ ea dn => .d dn :: eaUpdates ea
  | .sbcdReg _ dx | .abcdReg _ dx | .subxReg _ _ dx | .addxReg _ _ dx => [.d dx]
  | .sbcdMem ay ax | .abcdMem ay ax | .subxMem _ ay ax | .addxMem _ ay ax | .cmpm _ ay ax => [.a ay, .a ax]
  | .asrImm _ _ dn | .asrReg _ _ dn | .aslImm _ _ dn | .aslReg _ _ dn | .lsrImm _ _ dn | .lsrReg _ _ dn | .lslImm _ _ dn
  | .lslReg _ _ dn | .roxrImm _ _ dn | .roxrReg _ _ dn | .roxlImm _ _ dn | .roxlReg _ _ dn | .rorImm _ _ dn
  | .rorReg _ _ dn | .rolImm _ _ dn | .rolReg _ _ dn => [.d dn]

/-- The bit a bit instruction names (R271, R272). -/
def bitNumber (raw : Nat) (ea : Ea) : Nat := if ea.mode = .dn then raw % 32 else raw % 8

/-- The full time of an instruction (R431), in a state where it begins: the longest where it depends on an operand. -/
def fullTime (s : State) : Instr → Time
  | .oriToCcr _ | .oriToSr _ | .andiToCcr _ | .andiToSr _ | .eoriToCcr _ | .eoriToSr _ => time .immStatus
  | .movepToReg sz _ _ _ => time (.movep sz.size false)
  | .movepToMem sz _ _ _ => time (.movep sz.size true)
  | .btstDn dn ea => bitOpTime .tst false (bitNumber (s.dreg dn).toNat ea) ea
  | .bchgDn dn ea => bitOpTime .chg false (bitNumber (s.dreg dn).toNat ea) ea
  | .bclrDn dn ea => bitOpTime .clr false (bitNumber (s.dreg dn).toNat ea) ea
  | .bsetDn dn ea => bitOpTime .set false (bitNumber (s.dreg dn).toNat ea) ea
  | .btstImm b ea => bitOpTime .tst true (bitNumber b.toNat ea) ea
  | .bchgImm b ea => bitOpTime .chg true (bitNumber b.toNat ea) ea
  | .bclrImm b ea => bitOpTime .clr true (bitNumber b.toNat ea) ea
  | .bsetImm b ea => bitOpTime .set true (bitNumber b.toNat ea) ea
  | .ori v ea | .subi v ea | .addi v ea | .eori v ea =>
    time (if ea.mode = .dn then .immDn v.size else .immMem v.size ea.mode)
  | .andi v ea => time (if ea.mode = .dn then .immDn v.size else .andiMem v.size ea.mode)
  | .cmpi v ea => time (if ea.mode = .dn then .cmpiDn v.size else .cmpiMem v.size ea.mode)
  | .moveaW src _ => time (.move .w src.mode .an)
  | .moveaL src _ => time (.move .l src.mode .an)
  | .moveB src dst => time (.move .b src.mode dst.mode)
  | .moveW src dst => time (.move .w src.mode dst.mode)
  | .moveL src dst => time (.move .l src.mode dst.mode)
  | .resetDevices => time .resetDevices
  | .nop => time .nop
  | .stop _ => time .stop
  | .rte => time .rte
  | .rts => time .rts
  | .trapv => time (if s.sr.v then .trapvTrap else .trapvNoTrap)
  | .rtr => time .rtr
  | .illegal => time .illegal
  | .trap _ => time .trap
  | .link _ _ => time .link
  | .unlk _ => time .unlk
  | .moveToUsp _ | .moveFromUsp _ => time .moveUsp
  | .swap _ => time .swap
  | .extW _ | .extL _ => time .ext
  | .moveFromSr ea => time (if ea.mode = .dn then .moveFromSrDn else .moveFromSrMem ea.mode)
  | .moveToCcr ea | .moveToSr ea => time (.moveToStatus ea.mode)
  | .tas ea => time (if ea.mode = .dn then .tasDn else .tasMem ea.mode)
  | .chk ea _ => time (.chkTrap ea.mode)
  | .lea ea _ => time (.lea ea.mode)
  | .nbcd ea => time (if ea.mode = .dn then .nbcdDn else .nbcdMem ea.mode)
  | .pea ea => time (.pea ea.mode)
  | .movemToMem sz mask ea =>
    time (.movemToMem sz.size (maskRegs (if ea.mode = .preDec then movemDown else movemUp) mask.toNat).length ea.mode)
  | .movemToReg sz ea mask => time (.movemToReg sz.size (maskRegs movemUp mask.toNat).length ea.mode)
  | .jsr ea => time (.jsr ea.mode)
  | .jmp ea => time (.jmp ea.mode)
  | .negx sz ea | .clr sz ea | .neg sz ea | .notEa sz ea => singleTime sz ea
  | .tst sz ea => time (.tst sz ea.mode)
  | .dbcc cond dn _ =>
    time (.dbcc (if s.sr.cond cond then .ccTrue else if s.dlow .w dn = 0 then .ccFalseExpired else .ccFalseTaken))
  | .scc cond ea => time (if ea.mode = .dn then .sccDn (s.sr.cond cond) else .sccMem ea.mode)
  | .addq _ sz ea | .subq _ sz ea =>
    time (if ea.mode = .an then .quickAn else if ea.mode = .dn then .quickDn sz else .quickMem sz ea.mode)
  | .bra _ => time .bra
  | .bsr _ => time .bsr
  | .bcc cond d => time (.bcc (dispWords d == 2) (s.sr.cond cond))
  | .moveq _ _ => time .moveq
  | .divu ea _ => time (.div 140 ea.mode)
  | .divs ea _ => time (.div 158 ea.mode)
  | .mulu ea _ | .muls ea _ => time (.mul 16 ea.mode)
  | .sbcdReg _ _ | .abcdReg _ _ => time .bcdDn
  | .sbcdMem _ _ | .abcdMem _ _ => time .bcdMem
  | .orEaDn sz ea _ | .subEaDn sz ea _ | .andEaDn sz ea _ | .addEaDn sz ea _ => time (.aluEaDn sz ea.mode)
  | .orDnEa sz _ ea | .subDnEa sz _ ea | .andDnEa sz _ ea | .addDnEa sz _ ea => time (.aluDnMem sz ea.mode)
  | .eor sz _ ea => time (if ea.mode = .dn then .eorReg sz else .aluDnMem sz ea.mode)
  | .suba sz ea _ | .adda sz ea _ => time (.aluAn sz.size ea.mode)
  | .cmp sz ea _ => time (.cmp sz ea.mode)
  | .cmpa sz ea _ => time (.cmpa sz.size ea.mode)
  | .subxReg sz _ _ | .addxReg sz _ _ => time (.extendDn sz)
  | .subxMem sz _ _ | .addxMem sz _ _ => time (.extendMem sz)
  | .cmpm sz _ _ => time (.cmpm sz)
  | .exgDD _ _ | .exgAA _ _ | .exgDA _ _ => time .exg
  | .asrMem ea | .aslMem ea | .lsrMem ea | .lslMem ea | .roxrMem ea | .roxlMem ea | .rorMem ea | .rolMem ea =>
    time (.shiftMem ea.mode)
  | .asrImm sz q _ | .aslImm sz q _ | .lsrImm sz q _ | .lslImm sz q _ | .roxrImm sz q _ | .roxlImm sz q _ | .rorImm sz q _
  | .rolImm sz q _ => time (.shiftDn sz (quickValue q))
  | .asrReg sz m _ | .aslReg sz m _ | .lsrReg sz m _ | .lslReg sz m _ | .roxrReg sz m _ | .roxlReg sz m _ | .rorReg sz m _
  | .rolReg sz m _ => time (.shiftDn sz (s.shiftCount m))

/-- The cells by which one memory differs from another. -/
def Memory.changes (old new : Memory) : List Host.Cell :=
  new.filter (fun c => Memory.read old c.1 != c.2) ++
    (old.filter (fun c => Memory.read new c.1 == Config.unwrittenByte)).map (fun c => (c.1, Config.unwrittenByte))

/-- The state with a platform on which every access ends without an error: where nothing answers, or a device does, a read
takes free data. ROM and what answers nothing keep their bytes. Every vector counts as written. -/
def State.obliging (s : State) : State :=
  { s with
    regions := s.regions.map (fun g =>
      { g with
        kind := match g.kind with
          | .absent => .undriven false
          | .device => .undriven true
          | k => k })
    book := { vectors := List.range 256, frames := [] } }

/-- The cells an instruction whose extension words cannot all be fetched may write (R55): those by which memory differs after
it on a platform where it can complete, or, where it ends in an address error, those that are then left old or new. `run` is
the meaning of instructions. -/
def State.wouldWrite (s : State) (run : Instr → State → Host.Outcome State Fault Refusal) (i : Instr) : List Host.Cell :=
  match run i s.obliging with
  | .next t =>
    (Memory.changes s.mem t.mem).filter
      (fun c => t.book.frames.all (fun f => (List.range 14).all (fun k => phys (f.sp + BitVec.ofNat 32 k) != c.1)))
  | _ => []

end Sys2Proof.Machine
end

