-- ==== Sys2Proof/Machine/Fetch.lean ====
section
/-! DEFINITION. Fetching and decoding the instruction at the pc, and what happens where none can be had (20_memory.md R51,
30_encoding.md R80, R94; 60_exceptions.md R402, R414, R441). -/

namespace Sys2Proof.Machine

/-- The word memory holds at an address, no bus cycle made. -/
def State.wordAt (s : State) (a : Long) : Word := BitVec.ofNat 16 (s.peek .w a)

/-- The five words from an address up: as many as the longest instruction has (R80). -/
def State.wordsAt (s : State) (a : Long) : List Word :=
  [s.wordAt a, s.wordAt (a + 2), s.wordAt (a + 4), s.wordAt (a + 6), s.wordAt (a + 8)]

/-- An instruction word: the first word read ahead, of which an error is raised now (R460), or else a read of its own. -/
def State.takeWord (s : State) (a : Long) : Except Stop (Nat × State) :=
  match s.ahead with
  | [] => s.memRead .w a true
  | x :: rest =>
    let t : State := { s with ahead := rest }
    if a.toNat % 2 = 1 then .error (.access { bus := false, addr := a, read := true, program := true } s [])
    else if x = .busError then .error (.access { bus := true, addr := a, read := true, program := true } t [])
    else .ok (s.cycleValue .w a x, t)

/-- The fetch of `n` instruction words from an address up (R51): the words, and the state after them or the error that ended
them. -/
def State.fetchWords (s : State) : Nat → Long → List Word × Except Stop State
  | 0, _ => ([], .ok s)
  | n + 1, a =>
    match s.takeWord a with
    | .error e => ([], .error e)
    | .ok (v, t) => (BitVec.ofNat 16 v :: (t.fetchWords n (a + 2)).1, (t.fetchWords n (a + 2)).2)

/-- An instruction has begun (R424, R430): its operation word is kept and the trace bit sampled. -/
def State.begin (s : State) (op : Word) : State := { s with ir := op, tracePending := s.sr.t }

/-- The bound of GROUP0_ELAPSED (R431) where an operation word cannot be fetched: no instruction takes more (log 23). -/
def fetchBound : Time := { clk := 170, r := 37, w := 32 }

/-- Four free words, the next draws: the extension words that could not be fetched (R55). -/
def State.freeWords (s : State) : List Word := (List.range 4).map (fun k => BitVec.ofNat 16 (Config.freeNat (s.draws + k)))

/-- The instruction its words decode to, or the exception of a word that begins none (R402). -/
def State.runDecoded (run : Instr → State → Host.Outcome State Fault Refusal) (s : State) :
    Parsed Instr → Host.Outcome State Fault Refusal
  | .ok (i, _) => run i s
  | .error .lineA => s.illegalWord 10
  | .error .lineF => s.illegalWord 11
  | .error .illegal => s.illegalWord 4
  | .error .truncated => s.illegalWord 4

/-- The end of an instruction whose extension words cannot all be fetched: `ws` are its first words. Privilege violation comes
before the error (R441). Else the error is raised, and what the instruction may write, its missing words free, is left as R55
says; the 256 draws before those are kept for that. -/
def State.abandonFetch (run : Instr → State → Host.Outcome State Fault Refusal) (ws : List Word) (f : AccessFault) (s : State) :
    Host.Outcome State Fault Refusal :=
  match decode (ws ++ s.freeWords) with
  | .ok (i, _) =>
    if isPrivileged i && !s.sr.s then s.privilegeViolation
    else
      (s.drawn 256).enterGroup0
        { start := s.pc, length := s.irBytes, inException := false, regs := mayWrite i, full := fullTime s i } f
        ((s.drawn 4).wouldWrite run i)
  | .error e => s.runDecoded run (.error e)

/-- What an instruction that leaves the processor running ends with: the reads that replace its words (R51). One that ended
in a refill has made them, and a stopped processor makes none (R363). -/
def refilled : Host.Outcome State Fault Refusal → Host.Outcome State Fault Refusal
  | .next t => .next (if t.run = .running then t.readAhead else t)
  | o => o

/-- Fetch and decode the instruction at the pc, `run` it, and read ahead again. The operation word alone says how many words
follow (R80); they are fetched before any effect (log 9). -/
def State.fetch (s : State) (run : Instr → State → Host.Outcome State Fault Refusal) : Host.Outcome State Fault Refusal :=
  match s.takeWord s.pc with
  | .error e => e.outcome { start := s.pc, length := 2, inException := false, regs := [], full := fetchBound }
  | .ok (v, t) =>
    let op : Word := BitVec.ofNat 16 v
    let s1 := t.begin op
    match decode (op :: (s.wordsAt s.pc).drop 1) with
    | .error e => s1.runDecoded run (.error e)
    | .ok (_, rest) =>
      match s1.fetchWords (4 - rest.length) (s.pc + 2) with
      | (ws, .error (.access f u _)) => u.abandonFetch run (op :: ws) f
      | (_, .error (.fault r)) => .fault r
      | (_, .error (.refuse r)) => .refused r
      | (ws, .ok u) => refilled (u.runDecoded run (decode (op :: ws ++ (s.wordsAt s.pc).drop (5 - rest.length))))

end Sys2Proof.Machine
end

