-- ==== Sys2Proof/Machine/Step.lean ====
section
/-! DEFINITION. One step of the machine (00_scope.md R17, R18): one instruction, or one exception between instructions, or
a step of the stopped or halted state. -/

namespace Sys2Proof.Machine

/-- The step of a processor that is running or stopped, its inputs sampled (R420, R423, R424): first the trace exception of
the last instruction, then an interrupt, then the next instruction. A stopped processor with nothing due adds no time: what
R363 lets a model add for its interrupt input is 0 here, the model's choice (log 38). -/
def State.proceed (s : State) : Host.Outcome State Fault Refusal :=
  if s.tracePending then s.takeTrace
  else if s.interruptDue then s.takeInterrupt
  else if s.run = .stopped then .next { s with level7Edge := false }
  else ({ s with level7Edge := false } : State).fetch exec

/-- One step: the platform's inputs, then reset before all else (R423, R451), then the run state (R33). Each step that finds
the reset pins asserted runs and times the whole reset sequence, which the spec times from their release (R400, R450): the
model's choice (log 36). A halted processor waits for reset (R432): with inputs still to come it idles, else it is stuck
(log 15). -/
def step (s : State) : Host.Outcome State Fault Refusal :=
  let s1 := s.sampled
  if s1.pins.reset then s1.resetSequence
  else if s1.run = .halted then (if s1.schedule = [] then .fault .halted else .next s1)
  else s1.proceed

/-- Words stored in memory from an address up, no bus cycle made. -/
def Memory.placeWords : Memory → Long → List Word → Memory
  | m, _, [] => m
  | m, a, v :: vs =>
    Memory.placeWords
      (Memory.write (Memory.write m (phys a) (BitVec.ofNat 8 (v.toNat / 256))) (phys (a + 1)) (BitVec.ofNat 8 v.toNat))
      (a + 2) vs

/-- The state with the instruction whose bits are `w` at the pc, as the platform that loads a program would leave it,
the words there read ahead (log 5). -/
def State.withFetchWord (s : State) (nbits w : Nat) : State :=
  { s with mem := Memory.placeWords s.mem s.pc (tableWords nbits w), ahead := [.memory, .memory] }

end Sys2Proof.Machine
end

