-- ==== Sys2Proof/Safety.lean ====
section
/-! DEFINITION. The terms the statements are written in: when an access raises no error, what a store leaves in memory, what
an exception entry leaves, and results and flags said with exact integers rather than with the model's own operations. -/

namespace Sys2Proof.Machine

/-! Accesses that raise no error. -/

/-- Memory answers a bus cycle at this address (R9, R50). -/
def State.Answers (s : State) (a : Long) : Prop := s.kindAt (phys a) = .ram ∨ s.kindAt (phys a) = .rom

/-- Memory answers every bus cycle of an access, and the address is one the access may have (R50, R53, R54). -/
def State.CanReach (s : State) (sz : Size) (a : Long) : Prop :=
  (sz = .b ∨ a.toNat % 2 = 0) ∧ s.Answers a ∧ (sz = .l → s.Answers (a + 2))

/-- The memory addresses of `n` bytes from `a` up. -/
def addrs (n : Nat) (a : Long) : List Nat := (List.range n).map (fun k => phys (a + BitVec.ofNat 32 k))

/-- A store that raises no error and does not reach the prefetch window, the pc being past the instruction (R460). -/
def State.CanStore (s : State) (sz : Size) (a : Long) : Prop :=
  s.CanReach sz a ∧ ∀ b, b ∈ addrs sz.bytes a → b ∉ addrs 4 s.pc

/-- An operand that can be read. -/
def State.CanRead (s : State) (sz : Size) : Loc → Prop
  | .mem a _ => s.CanReach sz a
  | _ => True

/-- An operand that can be stored. -/
def State.CanWrite (s : State) (sz : Size) : Loc → Prop
  | .mem a _ => s.CanStore sz a
  | _ => True

/-! Operands. -/

/-- Where the operand of an effective address is, for an instruction at `s.pc` with `n` words before that address. -/
def State.operandAt (s : State) (n : Nat) (sz : Size) (ea : Ea) : Loc := ((s.skip n).locate sz ea).1

/-- The state past `n` words and an effective address: its extension words consumed, its register stepped. -/
def State.past (s : State) (n : Nat) (sz : Size) (ea : Ea) : State := ((s.skip n).locate sz ea).2.settle sz ea

/-- What stands at a location. -/
def State.valueAt (s : State) (sz : Size) : Loc → Nat
  | .d r => lowBits sz.bits (s.dreg r)
  | .a r => lowBits sz.bits (s.areg r)
  | .mem a _ => s.peek sz a
  | .imm v => immValue v

/-- An operand extended to a register (R13): a word with its sign. -/
def extended : Size → Nat → Long
  | .b, v => (BitVec.ofNat 8 v).signExtend 32
  | .w, v => (BitVec.ofNat 16 v).signExtend 32
  | .l, v => BitVec.ofNat 32 v

/-- The memory `m` is that of `s` with the number `v` stored in `n` bytes from `a` up, the most significant first (R52); the
bytes of a bus cycle that ROM answers are as before, and so is every other byte. -/
def Stored (s : State) (m : Memory) (n : Nat) (a : Long) (v : Nat) : Prop :=
  (∀ b, b ∉ addrs n a → Memory.read m b = Memory.read s.mem b) ∧
  ∀ k, k < n → Memory.read m (phys (a + BitVec.ofNat 32 k)) =
    if s.kindAt (phys (a + BitVec.ofNat 32 (k / 2 * 2))) = .rom then Memory.read s.mem (phys (a + BitVec.ofNat 32 k))
    else BitVec.ofNat 8 (v / 256 ^ (n - 1 - k))

/-- `t` is `u` with `v` stored at a location: in a data register the bits above the operand stay. A store to memory is noted in
the model's bookkeeping. -/
def Wrote (u : State) (sz : Size) (l : Loc) (v : Nat) (t : State) : Prop :=
  match l with
  | .d r => t = { u with d := u.d.set r (withLowBits sz.bits (u.dreg r) v) }
  | .a r => t = u.setA r (extended sz v)
  | .mem a _ => t = { u with mem := t.mem, book := t.book } ∧ Stored u t.mem sz.bytes a v
  | .imm _ => t = u

/-! Results and flags with exact integers. -/

/-- The result of an operation with source `s` and destination `d`, of `bits` bits. -/
def exactAlu (op : AluOp) (bits s d : Nat) : Nat :=
  match op with
  | .add => (((d : Int) + s) % 2 ^ bits).toNat
  | .sub => (((d : Int) - s) % 2 ^ bits).toNat
  | .and => d &&& s
  | .or => d ||| s
  | .eor => d ^^^ s

/-- Its flags: X and C are the carry or borrow of the exact sum or difference; V says that the signed result is not the
exact one. A logical operation leaves X and clears V and C. -/
def exactFlags (op : AluOp) (bits s d : Nat) (sr : StatusReg) : StatusReg :=
  let r := exactAlu op bits s d
  { sr with
    x := match op with
      | .add => decide (2 ^ bits ≤ d + s)
      | .sub => decide (d < s)
      | _ => sr.x
    n := decide (signed bits r < 0)
    z := decide (r = 0)
    v := match op with
      | .add => decide (signed bits d + signed bits s ≠ signed bits r)
      | .sub => decide (signed bits d - signed bits s ≠ signed bits r)
      | _ => false
    c := match op with
      | .add => decide (2 ^ bits ≤ d + s)
      | .sub => decide (d < s)
      | _ => false }

/-- The flags of a comparison: those of the subtraction, X left. -/
def compareFlags (bits s d : Nat) (sr : StatusReg) : StatusReg := { exactFlags .sub bits s d sr with x := sr.x }

/-- The flags of a result that is only moved: N and Z from it, V and C cleared, X left. -/
def moveFlags (bits r : Nat) (sr : StatusReg) : StatusReg :=
  { sr with n := decide (2 ^ (bits - 1) ≤ r), z := decide (r = 0), v := false, c := false }

/-- `d + s + X` or `d - s - X` (R341, R342), of `bits` bits. -/
def exactExtend (subtract : Bool) (bits s d : Nat) (x : Bool) : Nat :=
  ((if subtract then (d : Int) - s - x.toNat else (d : Int) + s + x.toNat) % 2 ^ bits).toNat

/-- The flags of ADDX and SUBX: Z is cleared by a result that is not zero and else left. -/
def extendFlags (subtract : Bool) (bits s d : Nat) (sr : StatusReg) : StatusReg :=
  let r := exactExtend subtract bits s d sr.x
  let carry := if subtract then decide (d < s + sr.x.toNat) else decide (2 ^ bits ≤ d + s + sr.x.toNat)
  { sr with
    x := carry
    n := decide (signed bits r < 0)
    z := sr.z && decide (r = 0)
    v := decide (signed bits r ≠
      if subtract then signed bits d - signed bits s - sr.x.toNat else signed bits d + signed bits s + sr.x.toNat)
    c := carry }

/-- The number two packed decimal digits stand for. -/
def decimal (v : Nat) : Nat := v / 16 * 10 + v % 16

/-- What a decimal operation leaves of result `r` and status register `q`, from a status register `sr`: on decimal digits the
digits of `exact` modulo 100, X and C the decimal carry, Z sticky; N and V, and all of it on other digits, may be
anything. I, S and T stay. -/
def DecimalResult (valid : Bool) (exact : Int) (sr : StatusReg) (r : Nat) (q : StatusReg) : Prop :=
  (q.t = sr.t ∧ q.s = sr.s ∧ q.i = sr.i) ∧ r < 256 ∧
  (valid = true → isDecimal r = true ∧ (decimal r : Int) = exact % 100 ∧ q.c = decide (exact < 0 ∨ 100 ≤ exact) ∧
    q.x = q.c ∧ q.z = (sr.z && decide (r = 0)))

/-- One place of a shift or rotate of `bits` bits: operand, X and the bit that left. -/
def shiftOnce (op : ShiftOp) (bits d : Nat) (x : Bool) : Nat × Bool × Bool :=
  let top := d / 2 ^ (bits - 1) % 2
  let bottom := d % 2
  match op with
  | .asl | .lsl => (d * 2 % 2 ^ bits, top == 1, top == 1)
  | .asr => (d / 2 + top * 2 ^ (bits - 1), bottom == 1, bottom == 1)
  | .lsr => (d / 2, bottom == 1, bottom == 1)
  | .rol => (d * 2 % 2 ^ bits + top, x, top == 1)
  | .ror => (d / 2 + bottom * 2 ^ (bits - 1), x, bottom == 1)
  | .roxl => (d * 2 % 2 ^ bits + x.toNat, top == 1, top == 1)
  | .roxr => (d / 2 + x.toNat * 2 ^ (bits - 1), bottom == 1, bottom == 1)

/-- `n` places, one after another: the operand, X, the last bit that left (`c` before any) and whether the operand's sign
changed at some place. -/
def shiftMany (op : ShiftOp) (bits : Nat) : Nat → Nat → Bool → Bool → Bool → Nat × Bool × Bool × Bool
  | 0, d, x, c, v => (d, x, c, v)
  | n + 1, d, x, _, v =>
    let o := shiftOnce op bits d x
    shiftMany op bits n o.1 o.2.1 o.2.2 (v || (d / 2 ^ (bits - 1) % 2 != o.1 / 2 ^ (bits - 1) % 2))

/-- The registers of a MOVEM mask in order of transfer (R320). -/
def maskList (down : Bool) (mask : Word) : List RegRef :=
  ((List.range 16).filter (fun k => mask.getLsbD k)).map
    (fun k =>
      let j := if down then 15 - k else k
      if j < 8 then .d (Fin.ofNat 8 j) else .a (Fin.ofNat 8 j))

/-! Changes of flow and exceptions. -/

/-- The state after a change of flow to an address at which memory answers (R51): the word there and, whatever answers for it,
the next one are read ahead. -/
def State.landAt (s : State) (t : Long) : State := ({ s with pc := t } : State).arrive .memory

/-- Something has written a vector (R454, log 29): a store has reached it, or one of its four bytes is not what an unlisted
byte reads as. -/
def State.VectorSet (s : State) (v : Nat) : Prop :=
  v ∈ s.book.vectors ∨ ∃ b, b ∈ addrs 4 (BitVec.ofNat 32 (4 * v)) ∧ Memory.read s.mem b ≠ Config.unwrittenByte

/-- A frame of `n` bytes can be stacked: they are RAM at even addresses and hold no part of vector `v`, which memory
answers. -/
def State.CanStack (s : State) (n v : Nat) : Prop :=
  s.ssp.toNat % 2 = 0 ∧ (∀ b, b ∈ addrs n (s.ssp - BitVec.ofNat 32 n) → s.kindAt b = .ram) ∧
  s.CanReach .l (BitVec.ofNat 32 (4 * v)) ∧
  ∀ b, b ∈ addrs n (s.ssp - BitVec.ofNat 32 n) → b ∉ addrs 4 (BitVec.ofNat 32 (4 * v))

/-- An exception of R410 can be entered without a further error: its frame can be stacked, and its vector is set and holds an
even address that memory answers. -/
def State.CanEnter (s : State) (v : Nat) : Prop :=
  s.CanStack 6 v ∧ s.VectorSet v ∧ s.CanReach .w (BitVec.ofNat 32 (s.peek .l (BitVec.ofNat 32 (4 * v))))

/-- `t` is the state after `s` has entered an exception through vector `v` (R410): the frame holds the old SR and `saved`,
S is set and T cleared, the mask is `mask`, the pc is what the vector holds and two words are read ahead there; nothing else
changes but the run state, the model's bookkeeping and the time. -/
def Entered (s t : State) (v : Nat) (saved : Long) (mask : BitVec 3) (tm : Time) : Prop :=
  t = (({ s with
      sr := { s.sr with t := false, s := true, i := mask }, ssp := s.ssp - 6, run := .running
      book := s.tracked.stored (addrs 6 (s.ssp - 6)), mem := t.mem } : State).landAt
        (BitVec.ofNat 32 (s.peek .l (BitVec.ofNat 32 (4 * v))))).charge tm ∧
  t.peek .w (s.ssp - 6) = s.sr.toWord.toNat ∧ t.peek .l (s.ssp - 4) = saved.toNat ∧
  ∀ b, b ∉ addrs 6 (s.ssp - 6) → Memory.read t.mem b = Memory.read s.mem b

/-- A bus or address error can be processed without a further error (R430, R432). -/
def State.CanEnterGroup0 (s : State) (v : Nat) : Prop :=
  s.CanStack 14 v ∧ s.VectorSet v ∧ s.CanReach .w (BitVec.ofNat 32 (s.peek .l (BitVec.ofNat 32 (4 * v))))

/-- A free value within a bound. -/
def Time.atMost (t bound : Time) : Prop := t.clk ≤ bound.clk ∧ t.r ≤ bound.r ∧ t.w ≤ bound.w

/-! Invariants. -/

/-- The pc is even, or the processor is halted (R25, R54, R432). -/
def State.PcEven (s : State) : Prop := s.run = .halted ∨ s.pc.toNat % 2 = 0

/-- Memory is in its canonical form. -/
def State.MemoryCanonical (s : State) : Prop := s.mem.wf = true

end Sys2Proof.Machine
end

