-- ==== Sys2Proof/Certificates/Slice0/Obligations.lean ====
section
/-! DEFINITION. The statements for the provers. Each says in its docstring which rules of the spec it formalises. -/

open Sys2Proof Sys2Proof.Machine

/-! The whole machine. -/

/-- R35, R451: what reset leaves where the spec gives it, two words read ahead among it; and both invariants below hold
there. -/
def Obligations.ResetState : Prop :=
  State.reset.sr.s = true ∧ State.reset.sr.t = false ∧ State.reset.sr.i = 7 ∧ State.reset.run = .running ∧
  State.reset.ssp = BitVec.ofNat 32 (State.reset.peek .l 0) ∧ State.reset.pc = BitVec.ofNat 32 (State.reset.peek .l 4) ∧
  State.reset.ahead.length = 2 ∧ State.reset.PcEven ∧ State.reset.MemoryCanonical

/-- R451: the reset pins. S, T and I are set, SSP and pc are read from 0 and 4, two words are read ahead at the pc, the machine
runs; nothing else of the spec's own state is written. That one step with the pins asserted is one whole reset is log 36. -/
def Obligations.ResetSequence : Prop :=
  ∀ s : State, s.sampled.pins.reset = true →
    s.CanReach .l 0 → s.CanReach .l 4 → s.CanReach .w (BitVec.ofNat 32 (s.peek .l 4)) →
    step s = .next ((({ s.sampled with
      sr := { s.sr with s := true, t := false, i := 7 }, ssp := BitVec.ofNat 32 (s.peek .l 0)
      run := .running, tracePending := false, level7Edge := false
      book := { s.book with frames := [] } } : State).landAt (BitVec.ofNat 32 (s.peek .l 4))).charge ⟨40, 6, 0⟩)

/-- R24, R51, R424: where the words at the pc decode, those read ahead are memory's and memory answers the bus cycles of the
others, and nothing else is due, a step is `exec` of the decoded instruction, and the words it consumed are replaced by reads
ahead unless it stops the processor. Around it the step keeps the operation word and samples T. -/
def Obligations.StepRunsDecoded : Prop :=
  ∀ (s : State) (i : Instr) (rest : List Word),
    s.sampled.pins.reset = false → s.run = .running → s.tracePending = false → s.sampled.interruptDue = false →
    decode (s.wordsAt s.pc) = .ok (i, rest) →
    s.pc.toNat % 2 = 0 → (∀ x ∈ s.ahead, x = .memory) →
    (∀ k, k < 5 - rest.length → s.ahead.length ≤ k → s.Answers (s.pc + BitVec.ofNat 32 (2 * k))) →
    step s =
      match exec i { s.sampled with
          ir := s.wordAt s.pc, tracePending := s.sr.t, level7Edge := false, ahead := s.ahead.drop (5 - rest.length) } with
      | .next t => .next (if t.run = .running then t.readAhead else t)
      | .fault f => .fault f
      | .refused f => .refused f

/-- R51, R58, R460: the reads that replace an instruction's words. Within memory they change nothing. At a device address each
uses one of the platform's answers, and where nothing answers, or the platform answers with a bus error, the error is kept,
and is raised by the step that uses the word; the refill of a change of flow makes two of them. Which of two reads comes
first is not said. The read that the count of some instructions shows beyond these uses an answer too; that it is at the
word after the instruction is log 40. -/
def Obligations.ReadAhead : Prop :=
  ∀ (s : State) (x y : BusAnswer) (l : List BusAnswer),
    let device := fun a : Long => s.kindAt (phys a) = .device
    (s.Answers s.pc → s.Answers (s.pc + 2) → (∀ z ∈ s.ahead, z = .memory) → s.ahead.length ≤ 2 →
      s.readAhead = { s with ahead := [.memory, .memory] }) ∧
    (s.ahead = [y] → device (s.pc + 2) → s.answers = x :: l → s.readAhead = { s with answers := l, ahead := [y, x] }) ∧
    (s.ahead = [] → device s.pc → device (s.pc + 2) → s.answers = x :: y :: l →
      ∃ p q, ([p, q] = [x, y] ∨ [p, q] = [y, x]) ∧ s.readAhead = { s with answers := l, ahead := [p, q] }) ∧
    (s.ahead = [y] → s.kindAt (phys (s.pc + 2)) = .absent → s.readAhead = { s with ahead := [y, .busError] }) ∧
    (∀ t : Long, t.toNat % 2 = 0 → device t → device (t + 2) → s.answers = x :: y :: l → x ≠ .busError → y ≠ .busError →
      ∃ p q, ([p, q] = [x, y] ∨ [p, q] = [y, x]) ∧ s.jump t = .ok { s with pc := t, answers := l, ahead := [p, q] }) ∧
    (device s.pc → s.answers = x :: l → s.extraRead = { s with answers := l }) ∧
    (∀ (a : Long) (w : Word), a.toNat % 2 = 0 → s.ahead = .data w :: l →
      s.takeWord a = .ok (w.toNat, { s with ahead := l })) ∧
    (s.sampled.pins.reset = false → s.run = .running → s.tracePending = false → s.sampled.interruptDue = false →
      s.pc.toNat % 2 = 0 → s.ahead = .busError :: l →
      ∃ z p, step s = ({ s.sampled with level7Edge := false, ahead := l } : State).enterGroup0 z
        { bus := true, addr := s.pc, read := true, program := p } [])

/-- R93, R402: a word that begins no instruction raises line A, line F or illegal instruction, saved pc its own address. -/
def Obligations.IllegalWords : Prop :=
  ∀ (s : State) (v : Nat),
    s.sampled.pins.reset = false → s.run = .running → s.tracePending = false → s.sampled.interruptDue = false →
    ((decode (s.wordsAt s.pc) = .error .illegal ∧ v = 4) ∨ (decode (s.wordsAt s.pc) = .error .lineA ∧ v = 10) ∨
      (decode (s.wordsAt s.pc) = .error .lineF ∧ v = 11)) →
    s.mem.wf = true → s.pc.toNat % 2 = 0 → (∀ x ∈ s.ahead, x = .memory) → (s.ahead = [] → s.Answers s.pc) → s.CanEnter v →
    ∃ t, step s = .next t ∧
      Entered { s.sampled with ir := s.wordAt s.pc, level7Edge := false } t v s.pc s.sr.i ⟨34, 4, 3⟩

/-- R420 to R424: what comes between two instructions. A trace exception that is due is entered first; else a request above the
mask, or a level 7 edge, through the vector the acknowledge cycle gives, and the mask becomes its level. -/
def Obligations.BetweenInstructions : Prop :=
  ∀ s : State, s.sampled.pins.reset = false → s.run ≠ .halted → s.mem.wf = true →
    (s.tracePending = true → s.CanEnter 9 →
      ∃ t, step s = .next t ∧ Entered { s.sampled with tracePending := false } t 9 s.pc s.sr.i ⟨34, 4, 3⟩) ∧
    (s.tracePending = false → s.sr.i.toNat < s.sampled.pins.ipl.toNat ∨ (s.sampled.pins.ipl = 7 ∧ s.sampled.level7Edge = true) →
      ∀ v, v = (match s.sampled.pins.iack with
        | .vector n => n.toNat
        | .autovector => 24 + s.sampled.pins.ipl.toNat
        | .busError => 24) →
      s.CanEnter v → ∃ t, step s = .next t ∧
        Entered { s.sampled with level7Edge := false } t v s.pc s.sampled.pins.ipl ⟨44, 5, 3⟩)

/-- R33, R363, R432: a stopped processor with nothing due stays as it is. A bus or address error with an odd SSP halts the
processor, and a halted one does nothing until reset: it stays as it is while inputs come, and is stuck when none will. That
a step of the stopped processor adds no time is log 38, and how a double fault ends log 15. -/
def Obligations.StoppedAndHalted : Prop :=
  ∀ s : State,
    (s.sampled.pins.reset = false → s.run = .stopped → s.tracePending = false → s.sampled.interruptDue = false →
      step s = .next { s.sampled with level7Edge := false }) ∧
    (∀ (x : Abandoned) (f : AccessFault) (pending : List Host.Cell),
      s.ssp.toNat % 2 = 1 → ∃ t, s.enterGroup0 x f pending = .next t ∧ t.run = .halted) ∧
    (s.sampled.pins.reset = false → s.run = .halted →
      (s.sampled.schedule ≠ [] → step s = .next s.sampled) ∧ (s.sampled.schedule = [] → step s = .fault .halted))

/-- R410: exception processing for every exception but reset, bus error and address error; and R454: through a vector that
nothing has written (log 29) it is a fault end, not followed. -/
def Obligations.ExceptionEntry : Prop :=
  ∀ (s : State) (start : Long) (length v : Nat) (saved : Long) (level : Option (BitVec 3)) (tm : Time), s.mem.wf = true →
    (s.CanEnter v →
      ∃ t, s.takeException start length v saved level tm = .next t ∧ Entered s t v saved (level.getD s.sr.i) tm) ∧
    (s.CanStack 6 v → ¬s.VectorSet v → s.takeException start length v saved level tm = .fault .unsetVector)

/-- R430, R431: bus error and address error processing. The frame holds the status word (R/W, I/N and function code in bits
4 to 0), the address of the access, the operation word, the old SR and a pc from instruction start + 2 to + 10. The data
and address registers the abandoned instruction may write are free, the memory it may write is old or new (R55), and no
other register or byte changes. The frame is recorded for RTE (log 27), and a vector that nothing has written is a fault end
(R454, log 29). -/
def Obligations.Group0Entry : Prop :=
  ∀ (s : State) (x : Abandoned) (f : AccessFault) (pending : List Host.Cell),
    let v := if f.bus then 2 else 3
    s.mem.wf = true → (∀ c ∈ pending, c.1 < 2 ^ Config.addrBits ∧ c.1 ∉ addrs 4 (BitVec.ofNat 32 (4 * v))) →
    (s.CanStack 14 v → ¬s.VectorSet v → s.enterGroup0 x f pending = .fault .unsetVector) ∧
    (s.CanEnterGroup0 v →
      ∃ t, s.enterGroup0 x f pending = .next t ∧
        t.sr = { s.sr with s := true, t := false } ∧ t.ssp = s.ssp - 14 ∧ t.run = .running ∧ t.tracePending = false ∧
        { sp := s.ssp - 14, start := x.start, length := x.length, top := 0, kept := List.range 14 } ∈ t.book.frames ∧
        t.pc = BitVec.ofNat 32 (s.peek .l (BitVec.ofNat 32 (4 * v))) ∧
        t.peek .w (s.ssp - 14) % 32 =
          (if f.read then 16 else 0) + (if x.inException then 8 else 0) + (if s.sr.s then 4 else 0) +
            (if f.program then 2 else 1) ∧
        t.peek .l (s.ssp - 12) = f.addr.toNat ∧ t.peek .w (s.ssp - 8) = s.ir.toNat ∧
        t.peek .w (s.ssp - 6) = s.sr.toWord.toNat ∧
        (∃ k, 2 ≤ k ∧ k ≤ 10 ∧ t.peek .l (s.ssp - 4) = (x.start + BitVec.ofNat 32 k).toNat) ∧
        (∀ b, b ∉ addrs 14 (s.ssp - 14) → Memory.read t.mem b = Memory.read s.mem b ∨
          ∃ c ∈ pending, c.1 = b ∧ Memory.read t.mem b = c.2) ∧
        (∀ r, RegRef.d r ∉ x.regs → t.dreg r = s.dreg r) ∧
        (∀ r : Reg, r.val < 7 → RegRef.a r ∉ x.regs → t.areg r = s.areg r) ∧ (RegRef.a 7 ∉ x.regs → t.usp = s.usp) ∧
        ∃ e : Time, e.atMost x.full ∧ t.elapsed = (s.elapsed.add e).add ⟨50, 4, 7⟩)

/-- R54, R402, R9: when an access raises an error. A word or long access, or an instruction fetch, at an odd address makes no
bus cycle and is an address error: no byte is read or written. A byte access may be anywhere, a long at any even address. At an
address that nothing answers it is a bus error; a long fails at the cycle that does, at either where both do (R53, 92 D6).
In a device window the cycle ends as the platform answers, and where no data are driven (log 39) a read takes a free word.
What is abandoned and the function code, where the model chooses them (log 12, 13, 23), are left open; that the failing
cycle's address is the one reported is log 37, how a device window takes its answers log 35. -/
def Obligations.AccessErrors : Prop :=
  ∀ (s : State) (sz : Size) (a : Long) (v : Nat) (program : Bool),
    let absent := fun b : Long => s.kindAt (phys b) = .absent
    let readFails := fun (z : Size) (b : Long) =>
      s.memRead z a program = .error (.access { bus := true, addr := b, read := true, program := program } s [])
    let writeFails := fun (z : Size) (b : Long) =>
      ∃ p cells, s.memWrite z a v = .error (.access { bus := true, addr := b, read := false, program := p } s cells)
    (sz ≠ .b → a.toNat % 2 = 1 →
      s.memRead sz a program = .error (.access { bus := false, addr := a, read := true, program := program } s []) ∧
      ∃ p, s.memWrite sz a v = .error (.access { bus := false, addr := a, read := false, program := p } s [])) ∧
    (s.Answers a → s.memRead .b a program = .ok ((s.byteAt a).toNat, s) ∧
      (phys a ∉ addrs 4 s.pc → ∃ t, s.memWrite .b a v = .ok t)) ∧
    (a.toNat % 2 = 0 → s.Answers a → s.Answers (a + 2) → s.memRead .l a program = .ok (s.peek .l a, s)) ∧
    (sz = .b ∨ a.toNat % 2 = 0 → absent a → (sz = .l → s.Answers (a + 2)) → readFails sz a ∧ writeFails sz a) ∧
    (a.toNat % 2 = 0 → s.Answers a → absent (a + 2) → readFails .l (a + 2) ∧ writeFails .l (a + 2)) ∧
    (a.toNat % 2 = 0 → absent a → absent (a + 2) →
      (∃ b, (b = a ∨ b = a + 2) ∧ readFails .l b) ∧ ∃ b, (b = a ∨ b = a + 2) ∧ writeFails .l b) ∧
    (∀ x rest, a.toNat % 2 = 0 → s.kindAt (phys a) = .device → s.answers = x :: rest →
      s.memRead .w a program =
        match x with
        | .memory => .ok (s.peek .w a, { s with answers := rest })
        | .data w => .ok (w.toNat, { s with answers := rest })
        | .busError =>
          .error (.access { bus := true, addr := a, read := true, program := program } { s with answers := rest } [])) ∧
    (∀ st, a.toNat % 2 = 0 → s.kindAt (phys a) = .undriven st →
      ∃ w : Word, s.memRead .w a program = .ok (w.toNat, s.drawn 1)) ∧
    (s.sampled.pins.reset = false → s.run = .running → s.tracePending = false → s.sampled.interruptDue = false →
      s.pc.toNat % 2 = 1 ∨ (s.ahead = [] ∧ absent s.pc) →
      ∃ x p, step s = ({ s.sampled with level7Edge := false } : State).enterGroup0 x
        { bus := decide (s.pc.toNat % 2 = 0), addr := s.pc, read := true, program := p } [])

/-- R54, R402, R25, R55 in an instruction, by the model's choices of log 10, 12, 14 and 23: processing starts from the state
in which the access failed (the extension words consumed, a pre-decrement done and a post-increment of that operand not),
every register the addressing modes step or the destination names may hold anything, a destination not yet stored is old or
new, and a branch to a target that is odd or that nothing answers fails at the fetch there, the pc loaded. TAS, BCHG, BCLR
and BSET set their flags before the store (R237, R274 to R276): an error of the write alone, which a device window may give
(for the one cycle of TAS: log 32), finds them set. -/
def Obligations.AccessErrorsInInstruction : Prop :=
  ∀ (s : State) (a : Long) (program : Bool) (src dst : Ea) (d : Word),
    let fails := fun b : Long => b.toNat % 2 = 1 ∨ s.kindAt (phys b) = .absent
    let even := fun b : Long => decide (b.toNat % 2 = 0)
    let x : Abandoned :=
      { start := s.pc, length := s.irBytes, inException := false, regs := eaUpdates src ++ eaTargets dst
        full := moveTime .w src.mode dst.mode }
    (s.operandAt 1 .w src = .mem a program → fails a →
      ∃ k pending, (∀ c ∈ pending, ∃ b p, (s.past 1 .w src).operandAt 0 .w dst = .mem b p ∧ c.1 ∈ addrs 2 b) ∧
        exec (.moveW src dst) s = (((s.skip 1).locate .w src).2.drawn k).enterGroup0 x
          { bus := even a, addr := a, read := true, program := program } pending) ∧
    (s.CanRead .w (s.operandAt 1 .w src) → (s.past 1 .w src).operandAt 0 .w dst = .mem a program → fails a →
      exec (.moveW src dst) s = ((s.past 1 .w src).locate .w dst).2.enterGroup0 x
        { bus := even a, addr := a, read := false, program := false } []) ∧
    (let target := s.pc + 2 + d.signExtend 32;
      fails target →
      exec (.bra (.word d)) s = ({ s with pc := target } : State).enterGroup0
        { x with regs := [], full := ⟨10, 2, 0⟩ } { bus := even target, addr := target, read := true, program := true } []) ∧
    ∀ (dn r : Reg) (w : Word) (l : List BusAnswer) (i : Instr) (q : StatusReg),
      (i, q) ∈ [(Instr.tas (.ind r), moveFlags 8 (w.toNat % 256) s.sr)] ++
        [Instr.bchgDn dn (.ind r), .bclrDn dn (.ind r), .bsetDn dn (.ind r)].map
          (fun j => (j, { s.sr with z := !w.toNat.testBit ((s.dreg dn).toNat % 8) })) →
      s.tasForbidden = false → s.kindAt (phys (s.areg r)) = .device → s.answers = .data w :: .busError :: l →
      ∃ y pending, exec i s = ({ s.skip 1 with answers := l, sr := q } : State).enterGroup0 y
        { bus := true, addr := s.areg r, read := false, program := false } pending

/-- R441: each privileged instruction in user state raises privilege violation before any effect, saved pc the address of its
operation word. -/
def Obligations.PrivilegeViolation : Prop :=
  ∀ (s : State) (v : Word) (ea : Ea) (an : Reg) (i : Instr),
    i ∈ [Instr.andiToSr v, .eoriToSr v, .oriToSr v, .moveToSr ea, .moveToUsp an, .moveFromUsp an, .resetDevices, .rte,
      .stop v] →
    s.sr.s = false → s.mem.wf = true → s.CanEnter 8 →
    ∃ t, exec i s = .next t ∧ Entered { s with tracePending := false } t 8 s.pc s.sr.i ⟨34, 4, 3⟩

/-- R440: user state writes CCR only, and reaches no stack pointer but its own: a step that leaves the processor in user state
leaves T, I and SSP as they were. -/
def Obligations.UserStateConfined : Prop :=
  ∀ s t : State, step s = .next t → s.sr.s = false → t.sr.s = false →
    t.sr.t = s.sr.t ∧ t.sr.i = s.sr.i ∧ t.ssp = s.ssp

/-- R25, R54: every step from an even pc leaves an even pc, or a halted processor. -/
def Obligations.StepKeepsPcEven : Prop := ∀ s t : State, s.PcEven → step s = .next t → t.PcEven

/-- Every step keeps memory's canonical form. -/
def Obligations.StepKeepsMemoryCanonical : Prop :=
  ∀ s t : State, s.MemoryCanonical → step s = .next t → t.MemoryCanonical

/-! Encoding. -/

/-- R80 to R92: every well-formed instruction is read back from its words, whatever follows them. -/
def Obligations.DecodeEncode : Prop :=
  ∀ (i : Instr) (rest : List Word), i.wellFormed = true → decode (encode i ++ rest) = .ok (i, rest)

/-- R94, R96: the decoder gives well-formed instructions only, and takes one to five words (R80). -/
def Obligations.DecodeWellFormed : Prop :=
  ∀ (ws rest : List Word) (i : Instr), decode ws = .ok (i, rest) →
    i.wellFormed = true ∧ ∃ used, ws = used ++ rest ∧ 1 ≤ used.length ∧ used.length ≤ 5

/-- R87 to R92: words written out from the encoding tables. -/
def Obligations.DecodeWords : Prop :=
  decode [0x3030, 0x1002] = .ok (.moveW (.index 0 ⟨false, 1, false, 2⟩) (.dn 0), []) ∧
  decode [0x0490, 0x0000, 0x0001] = .ok (.subi (.l 1) (.ind 0), []) ∧
  decode [0x4E56, 0xFFF8] = .ok (.link 6 0xFFF8, []) ∧ decode [0xE2A8] = .ok (.lsrReg .l 1 0, []) ∧
  decode [0x6704] = .ok (.bcc .eq (.byte 4), []) ∧ decode [0xD308] = .ok (.addxMem .b 0 1, [])

/-! Registers, operands, memory. -/

/-- R20, R23: register number 7 is SSP in supervisor state and USP in user state, the other one unchanged; a write of a byte or
word to a data register leaves the bits above it. -/
def Obligations.RegisterWrites : Prop :=
  ∀ (s : State) (v : Long) (sz : Size) (r q : Reg) (n : Nat), n < 2 ^ sz.bits →
    (s.sr.s = true → s.areg 7 = s.ssp ∧ s.setA 7 v = { s with ssp := v }) ∧
    (s.sr.s = false → s.areg 7 = s.usp ∧ s.setA 7 v = { s with usp := v }) ∧
    (s.setA r v).areg r = v ∧ (q ≠ r → (s.setA r v).areg q = s.areg q) ∧
    lowBits sz.bits ((s.setDlow sz r n).dreg r) = n ∧
    ((s.setDlow sz r n).dreg r).toNat / 2 ^ sz.bits = (s.dreg r).toNat / 2 ^ sz.bits ∧
    (q ≠ r → (s.setDlow sz r n).dreg q = s.dreg q)

/-- R124 to R135: where the operand of each mode is, the pc standing at its extension word. -/
def Obligations.OperandPlaces : Prop :=
  ∀ (s : State) (sz : Size) (r : Reg) (d : Word) (x : Index) (l : Long) (v : Imm),
    s.operandAt 0 sz (.dn r) = .d r ∧ s.operandAt 0 sz (.an r) = .a r ∧
    s.operandAt 0 sz (.ind r) = .mem (s.areg r) false ∧ s.operandAt 0 sz (.postInc r) = .mem (s.areg r) false ∧
    s.operandAt 0 sz (.preDec r) =
      .mem (s.areg r - (match sz with | .b => (if r.val = 7 then 2 else 1) | .w => 2 | .l => 4)) false ∧
    s.operandAt 0 sz (.disp r d) = .mem (s.areg r + d.signExtend 32) false ∧
    s.operandAt 0 sz (.index r x) = .mem (s.areg r + s.indexValue x + x.d8.signExtend 32) false ∧
    s.operandAt 0 sz (.absW d) = .mem (d.signExtend 32) false ∧ s.operandAt 0 sz (.absL l) = .mem l false ∧
    s.operandAt 0 sz (.pcDisp d) = .mem (s.pc + d.signExtend 32) true ∧
    s.operandAt 0 sz (.pcIndex x) = .mem (s.pc + s.indexValue x + x.d8.signExtend 32) true ∧
    s.operandAt 0 sz (.imm v) = .imm v ∧
    s.indexValue x = (let w := if x.isAddr then s.areg x.reg else s.dreg x.reg;
      if x.long then w else (w.setWidth 16).signExtend 32)

/-- R59: evaluating an effective address changes the pc, and of the registers only the one that `(An)+` or `-(An)`
steps, by the operand's bytes, 2 for a byte through A7; the operand is at the old address of `(An)+`, the new one of `-(An)`. -/
def Obligations.OperandStep : Prop :=
  ∀ (s : State) (n : Nat) (sz : Size) (ea : Ea),
    s.past n sz ea = { s with
      pc := s.pc + BitVec.ofNat 32 (2 * (n + ea.extWords)), a := (s.past n sz ea).a, usp := (s.past n sz ea).usp
      ssp := (s.past n sz ea).ssp } ∧
    (s.sr.s = true → (s.past n sz ea).usp = s.usp) ∧ (s.sr.s = false → (s.past n sz ea).ssp = s.ssp) ∧
    ∀ r : Reg,
      let inc : Long := match sz with | .b => (if r.val = 7 then 2 else 1) | .w => 2 | .l => 4
      (s.past n sz ea).areg r =
        (if ea = .postInc r then s.areg r + inc else if ea = .preDec r then s.areg r - inc else s.areg r) ∧
      s.operandAt n sz (.postInc r) = .mem (s.areg r) false ∧ s.operandAt n sz (.preDec r) = .mem (s.areg r - inc) false

/-- R9, R31: a byte written to canonical memory is read back, and every other address reads as before. The model notes which
vectors stores reach (log 29). -/
def Obligations.MemoryReadWrite : Prop :=
  ∀ (m : Memory) (a b : Nat) (v : Byte), m.wf = true →
    (Memory.read (Memory.write m a v) b = if b = a then v else Memory.read m b) ∧
    ∀ (s : State) (cells : List Host.Cell) (w : Nat), w < 256 →
      (w ∈ (s.poke cells).book.vectors ↔ w ∈ s.book.vectors ∨ ∃ c ∈ cells, c.1 / 4 = w)

/-- R52: big-endian. A word, an instruction word or a long is read as its bytes say, and a store leaves them so. -/
def Obligations.BigEndian : Prop :=
  ∀ (s t : State) (sz : Size) (a : Long) (v : Nat), s.mem.wf = true → v < 2 ^ sz.bits →
    s.peek .w a = 256 * (s.byteAt a).toNat + (s.byteAt (a + 1)).toNat ∧
    s.peek .l a = 65536 * s.peek .w a + s.peek .w (a + 2) ∧ s.wordAt a = BitVec.ofNat 16 (s.peek .w a) ∧
    (s.CanReach sz a → ∀ program, s.memRead sz a program = .ok (s.peek sz a, s)) ∧
    (s.CanReach sz a → s.memWrite sz a v = .ok t →
      t = { s with mem := t.mem, book := t.book } ∧ Stored s t.mem sz.bytes a v ∧
      ((∀ k, k < sz.bytes → s.kindAt (phys (a + BitVec.ofNat 32 (k / 2 * 2))) ≠ .rom) → t.peek sz a = v))

/-- R460, R65: a store into the four bytes after the storing instruction is refused, and no other one for that. What ROM
answers is no store. -/
def Obligations.PrefetchWindowRefused : Prop :=
  ∀ (s : State) (sz : Size) (a : Long) (v : Nat), s.CanReach sz a →
    (s.memWrite sz a v = .error (.refuse .prefetchWindow) ↔
      ∃ k, k < sz.bytes ∧ s.kindAt (phys (a + BitVec.ofNat 32 (k / 2 * 2))) ≠ .rom ∧
        phys (a + BitVec.ofNat 32 k) ∈ addrs 4 s.pc) ∧
    (s.CanStore sz a → ∃ t, s.memWrite sz a v = .ok t)

/-! Flags. -/

/-- R28: the condition test of each of the sixteen codes. Codes 0 and 1 are no conditions of Bcc: they are BRA and BSR. -/
def Obligations.ConditionTest : Prop :=
  ∀ (q : StatusReg) (d : Disp),
    (Instr.bcc .t d).wellFormed = false ∧ (Instr.bcc .f d).wellFormed = false ∧
    (Instr.bra d).opNat / 256 = 0x60 ∧ (Instr.bsr d).opNat / 256 = 0x61 ∧
    (q.cond (.ofCode 0) = true) ∧ (q.cond (.ofCode 1) = false) ∧ (q.cond (.ofCode 2) = true ↔ q.c = false ∧ q.z = false) ∧
    (q.cond (.ofCode 3) = true ↔ q.c = true ∨ q.z = true) ∧ (q.cond (.ofCode 4) = true ↔ q.c = false) ∧
    (q.cond (.ofCode 5) = true ↔ q.c = true) ∧ (q.cond (.ofCode 6) = true ↔ q.z = false) ∧
    (q.cond (.ofCode 7) = true ↔ q.z = true) ∧ (q.cond (.ofCode 8) = true ↔ q.v = false) ∧
    (q.cond (.ofCode 9) = true ↔ q.v = true) ∧ (q.cond (.ofCode 10) = true ↔ q.n = false) ∧
    (q.cond (.ofCode 11) = true ↔ q.n = true) ∧ (q.cond (.ofCode 12) = true ↔ q.n = q.v) ∧
    (q.cond (.ofCode 13) = true ↔ q.n ≠ q.v) ∧ (q.cond (.ofCode 14) = true ↔ q.z = false ∧ q.n = q.v) ∧
    (q.cond (.ofCode 15) = true ↔ q.z = true ∨ q.n ≠ q.v)

/-- R174: after a comparison the conditions say how `d` stands to `s`, signed and unsigned. -/
def Obligations.CompareConditions : Prop :=
  ∀ (sz : Size) (s d : Nat) (q : StatusReg), s < 2 ^ sz.bits → d < 2 ^ sz.bits →
    let f := flagsCmp sz.bits s d (subResult sz.bits s d) q
    (f.cond .gt = true ↔ signed sz.bits s < signed sz.bits d) ∧ (f.cond .ge = true ↔ signed sz.bits s ≤ signed sz.bits d) ∧
    (f.cond .hi = true ↔ s < d) ∧ (f.cond .cc = true ↔ s ≤ d) ∧ (f.cond .eq = true ↔ s = d) ∧ f.x = q.x

/-- R26, R350: a status register is read back as it was written, the bits that do not exist reading 0. -/
def Obligations.StatusRegisterWord : Prop :=
  ∀ (v : Word) (q : StatusReg),
    (StatusReg.ofNat v.toNat).toWord = v &&& 0xA71F ∧ StatusReg.ofNat q.toWord.toNat = q ∧
    (q.withCcr v.toNat).toWord = (q.toWord &&& 0xFF00) ||| (v &&& 0x001F)

/-- R252 to R259: a shift or rotate by `n` places is `n` shifts or rotates by one place. C is the last bit that left, X
follows it for all but ROL and ROR, V of ASL says whether the sign changed at some place; by no place C is clear, but X for
ROXL and ROXR. -/
def Obligations.ShiftByPlaces : Prop :=
  ∀ (op : ShiftOp) (sz : Size) (n d : Nat) (q : StatusReg), d < 2 ^ sz.bits →
    let m := shiftMany op sz.bits n d q.x (match op with | .roxl => q.x | .roxr => q.x | _ => false) false
    shiftResult op sz.bits n d q =
      (m.1, { q with
        x := m.2.1, n := decide (2 ^ (sz.bits - 1) ≤ m.1), z := decide (m.1 = 0), c := m.2.2.1
        v := match op with | .asl => m.2.2.2 | _ => false })

/-! MOVE (41_move.md). -/

/-- R154: MOVE. -/
def Obligations.MoveResult : Prop :=
  ∀ (s : State) (sz : Size) (src dst : Ea) (i : Instr),
    (sz, i) ∈ [(Size.b, Instr.moveB src dst), (.w, .moveW src dst), (.l, .moveL src dst)] → i.wellFormed = true →
    s.mem.wf = true →
    let l := s.operandAt 1 sz src
    let u := (s.past 1 sz src).past 0 sz dst
    let p := (s.past 1 sz src).operandAt 0 sz dst
    s.CanRead sz l → u.CanWrite sz p →
    ∃ t, exec i s = .next (({ t with sr := moveFlags sz.bits (s.valueAt sz l) s.sr } : State).charge
        (moveTime sz src.mode dst.mode)) ∧
      Wrote u sz p (s.valueAt sz l) t

/-- R155, R172, R188: MOVEA, ADDA and SUBA write all 32 bits of the address register, a word source sign-extended, and no
flag. -/
def Obligations.AddressRegisterResult : Prop :=
  ∀ (s : State) (sz : WL) (src : Ea) (an : Reg), src.ok (Mode.isSource sz.size) sz.size = true →
    s.CanRead sz.size (s.operandAt 1 sz.size src) →
    let u := s.past 1 sz.size src
    let v := extended sz.size (s.valueAt sz.size (s.operandAt 1 sz.size src))
    exec (match sz with | .w => .moveaW src an | .l => .moveaL src an) s =
      .next ((u.setA an v).charge (moveTime sz.size src.mode .an)) ∧
    exec (.adda sz src an) s = .next ((u.setA an (u.areg an + v)).charge (time (.aluAn sz.size src.mode))) ∧
    exec (.suba sz src an) s = .next ((u.setA an (u.areg an - v)).charge (time (.aluAn sz.size src.mode)))

/-! Standard instructions (42_standard.md). -/

/-- R171, R173, R186, R187: ADD, SUB, AND, OR to a data register. -/
def Obligations.AluToRegister : Prop :=
  ∀ (s : State) (sz : Size) (ea : Ea) (dn : Reg) (i : Instr) (op : AluOp),
    (i, op) ∈ [(Instr.addEaDn sz ea dn, AluOp.add), (.subEaDn sz ea dn, .sub), (.andEaDn sz ea dn, .and),
      (.orEaDn sz ea dn, .or)] →
    i.wellFormed = true → s.CanRead sz (s.operandAt 1 sz ea) →
    let v := s.valueAt sz (s.operandAt 1 sz ea)
    let d := lowBits sz.bits (s.dreg dn)
    exec i s = .next (({ s.past 1 sz ea with
      d := s.d.set dn (withLowBits sz.bits (s.dreg dn) (exactAlu op sz.bits v d))
      sr := exactFlags op sz.bits v d s.sr } : State).charge (time (.aluEaDn sz ea.mode)))

/-- R171, R173, R182, R186, R187: ADD, SUB, AND, OR, EOR to memory, and EOR to a data register. -/
def Obligations.AluToEa : Prop :=
  ∀ (s : State) (sz : Size) (ea : Ea) (dn : Reg) (i : Instr) (op : AluOp) (tm : Time),
    (i, op, tm) ∈ [(Instr.addDnEa sz dn ea, AluOp.add, time (.aluDnMem sz ea.mode)),
      (.subDnEa sz dn ea, .sub, time (.aluDnMem sz ea.mode)), (.andDnEa sz dn ea, .and, time (.aluDnMem sz ea.mode)),
      (.orDnEa sz dn ea, .or, time (.aluDnMem sz ea.mode)),
      (.eor sz dn ea, .eor, if ea.mode = .dn then time (.eorReg sz) else time (.aluDnMem sz ea.mode))] →
    i.wellFormed = true → s.mem.wf = true →
    let l := s.operandAt 1 sz ea
    let u := s.past 1 sz ea
    let v := lowBits sz.bits (s.dreg dn)
    s.CanRead sz l → u.CanWrite sz l →
    ∃ t, exec i s = .next (({ t with sr := exactFlags op sz.bits v (s.valueAt sz l) s.sr } : State).charge tm) ∧
      Wrote u sz l (exactAlu op sz.bits v (s.valueAt sz l)) t

/-- R174, R175, R201, R343: CMP, CMPA, CMPI and CMPM set N, Z, V, C from a subtraction and store nothing. CMPA compares 32
bits with the source sign-extended. -/
def Obligations.Compare : Prop :=
  ∀ (s : State) (sz : Size) (wl : WL) (ea : Ea) (r q : Reg) (v : Imm),
    (ea.ok (Mode.isSource sz) sz = true → s.CanRead sz (s.operandAt 1 sz ea) →
      exec (.cmp sz ea r) s = .next (({ s.past 1 sz ea with
        sr := compareFlags sz.bits (s.valueAt sz (s.operandAt 1 sz ea)) (lowBits sz.bits (s.dreg r)) s.sr } : State).charge
        (time (.cmp sz ea.mode)))) ∧
    (ea.ok (Mode.isSource wl.size) wl.size = true → s.CanRead wl.size (s.operandAt 1 wl.size ea) →
      exec (.cmpa wl ea r) s = .next (({ s.past 1 wl.size ea with
        sr := compareFlags 32 (extended wl.size (s.valueAt wl.size (s.operandAt 1 wl.size ea))).toNat
          ((s.past 1 wl.size ea).areg r).toNat s.sr } : State).charge (time (.cmpa wl.size ea.mode)))) ∧
    (ea.ok Mode.isDataAlterable v.size = true →
      let n := if v.size = .l then 3 else 2
      s.CanRead v.size (s.operandAt n v.size ea) →
      exec (.cmpi v ea) s = .next (({ s.past n v.size ea with
        sr := compareFlags v.size.bits (immValue v) (s.valueAt v.size (s.operandAt n v.size ea)) s.sr } : State).charge
        (if ea.mode = .dn then time (.cmpiDn v.size) else time (.cmpiMem v.size ea.mode)))) ∧
    (let u := s.past 1 sz (.postInc r);
      s.CanReach sz (s.areg r) → s.CanReach sz (u.areg q) →
      exec (.cmpm sz r q) s = .next (({ u.past 0 sz (.postInc q) with
        sr := compareFlags sz.bits (s.peek sz (s.areg r)) (s.peek sz (u.areg q)) s.sr } : State).charge (time (.cmpm sz))))

/-- R183, R184, R185: MULU and MULS. The time is 38 + 2n clocks and the source's. -/
def Obligations.Multiply : Prop :=
  ∀ (s : State) (ea : Ea) (dn : Reg), ea.ok Mode.isData .w = true → s.CanRead .w (s.operandAt 1 .w ea) →
    let v := s.valueAt .w (s.operandAt 1 .w ea)
    let d := lowBits 16 (s.dreg dn)
    let u := s.past 1 .w ea
    exec (.mulu ea dn) s = .next (({ u with
      d := s.d.set dn (BitVec.ofNat 32 (d * v)), sr := moveFlags 32 (d * v) s.sr } : State).charge
      (Time.add ⟨38 + 2 * (List.range 16).countP (fun k => v.testBit k), 1, 0⟩ (eaTime ea.mode .w))) ∧
    exec (.muls ea dn) s = .next (({ u with
      d := s.d.set dn (BitVec.ofInt 32 (signed 16 d * signed 16 v))
      sr := { s.sr with
        n := decide (signed 16 d * signed 16 v < 0), z := decide (signed 16 d * signed 16 v = 0), v := false
        c := false } } : State).charge
      (Time.add ⟨38 + 2 * (List.range 16).countP (fun k => (2 * v).testBit (k + 1) != (2 * v).testBit k), 1, 0⟩
        (eaTime ea.mode .w)))

/-- R179, R181, R412: DIVU: quotient and remainder, or V set where the quotient does not fit (N and Z then anything), or zero
divide. -/
def Obligations.DivideUnsigned : Prop :=
  ∀ (s : State) (ea : Ea) (dn : Reg), ea.ok Mode.isData .w = true → s.CanRead .w (s.operandAt 1 .w ea) →
    let v := s.valueAt .w (s.operandAt 1 .w ea)
    let d := (s.dreg dn).toNat
    let u := s.past 1 .w ea
    (v ≠ 0 → d / v ≤ 65535 → ∃ k, 127 ≤ k ∧ k ≤ 140 ∧
      exec (.divu ea dn) s = .next (({ u with
        d := s.d.set dn ((BitVec.ofNat 16 (d % v) ++ BitVec.ofNat 16 (d / v) : BitVec 32))
        sr := { s.sr with n := decide (32768 ≤ d / v), z := decide (d / v = 0), v := false, c := false } } : State).charge
        (Time.add ⟨k, 1, 0⟩ (eaTime ea.mode .w)))) ∧
    (v ≠ 0 → 65535 < d / v → ∃ k n z j, k ≤ 140 ∧
      exec (.divu ea dn) s = .next (({ u with
        sr := { s.sr with n := n, z := z, v := true, c := false }, draws := j } : State).charge
        (Time.add ⟨k, 1, 0⟩ (eaTime ea.mode .w)))) ∧
    (v = 0 → s.mem.wf = true → u.CanEnter 5 → ∃ t, exec (.divu ea dn) s = .next t ∧
      Entered u.readAhead t 5 u.pc s.sr.i (Time.add ⟨42, 5, 3⟩ (eaTime ea.mode .w)))

/-- R178, R181, R412: DIVS: the quotient truncated toward zero and the remainder with the dividend's sign. -/
def Obligations.DivideSigned : Prop :=
  ∀ (s : State) (ea : Ea) (dn : Reg), ea.ok Mode.isData .w = true → s.CanRead .w (s.operandAt 1 .w ea) →
    let v := signed 16 (s.valueAt .w (s.operandAt 1 .w ea))
    let d := (s.dreg dn).toInt
    let u := s.past 1 .w ea
    (v ≠ 0 → ∃ q m : Int, d = q * v + m ∧ m.natAbs < v.natAbs ∧ (m = 0 ∨ (m < 0 ↔ d < 0)) ∧
      (-32768 ≤ q → q ≤ 32767 → ∃ k, 143 ≤ k ∧ k ≤ 158 ∧
        exec (.divs ea dn) s = .next (({ u with
          d := s.d.set dn ((BitVec.ofInt 16 m ++ BitVec.ofInt 16 q : BitVec 32))
          sr := { s.sr with n := decide (q < 0), z := decide (q = 0), v := false, c := false } } : State).charge
          (Time.add ⟨k, 1, 0⟩ (eaTime ea.mode .w)))) ∧
      (q < -32768 ∨ 32767 < q → ∃ k n z j, k ≤ 158 ∧
        exec (.divs ea dn) s = .next (({ u with
          sr := { s.sr with n := n, z := z, v := true, c := false }, draws := j } : State).charge
          (Time.add ⟨k, 1, 0⟩ (eaTime ea.mode .w))))) ∧
    (v = 0 → s.mem.wf = true → u.CanEnter 5 → ∃ t, exec (.divs ea dn) s = .next t ∧
      Entered u.readAhead t 5 u.pc s.sr.i (Time.add ⟨42, 5, 3⟩ (eaTime ea.mode .w)))

/-! Immediate instructions (43_immediate.md). -/

/-- R202, R204, R205, R207, R208: ADDI, ANDI, EORI, ORI, SUBI. -/
def Obligations.ImmediateResult : Prop :=
  ∀ (s : State) (v : Imm) (ea : Ea) (i : Instr) (op : AluOp) (tm : Time),
    (i, op, tm) ∈ [(Instr.addi v ea, AluOp.add, time (.immMem v.size ea.mode)),
      (.subi v ea, .sub, time (.immMem v.size ea.mode)), (.andi v ea, .and, time (.andiMem v.size ea.mode)),
      (.ori v ea, .or, time (.immMem v.size ea.mode)), (.eori v ea, .eor, time (.immMem v.size ea.mode))] →
    i.wellFormed = true → s.mem.wf = true →
    let n := if v.size = .l then 3 else 2
    let l := s.operandAt n v.size ea
    let u := s.past n v.size ea
    s.CanRead v.size l → u.CanWrite v.size l →
    ∃ t, exec i s = .next (({ t with sr := exactFlags op v.size.bits (immValue v) (s.valueAt v.size l) s.sr } : State).charge
        (if ea.mode = .dn then time (.immDn v.size) else tm)) ∧
      Wrote u v.size l (exactAlu op v.size.bits (immValue v) (s.valueAt v.size l)) t

/-- R203, R209: ADDQ and SUBQ of 1 to 8; on an address register all 32 bits and no flag. R206: MOVEQ. -/
def Obligations.QuickResult : Prop :=
  ∀ (s : State) (q : Reg) (sz : Size) (ea : Ea) (i : Instr) (op : AluOp) (b : Byte),
    (i, op) ∈ [(Instr.addq q sz ea, AluOp.add), (.subq q sz ea, .sub)] → i.wellFormed = true →
    let k := if q.val = 0 then 8 else q.val
    let l := s.operandAt 1 sz ea
    let u := s.past 1 sz ea
    (∀ r, ea = .an r → exec i s = .next ((u.setA r
      (if op = .add then s.areg r + BitVec.ofNat 32 k else s.areg r - BitVec.ofNat 32 k)).charge ⟨8, 1, 0⟩)) ∧
    ((∀ r, ea ≠ .an r) → s.mem.wf = true → s.CanRead sz l → u.CanWrite sz l →
      ∃ t, exec i s = .next (({ t with sr := exactFlags op sz.bits k (s.valueAt sz l) s.sr } : State).charge
          (if ea.mode = .dn then time (.quickDn sz) else time (.quickMem sz ea.mode))) ∧
        Wrote u sz l (exactAlu op sz.bits k (s.valueAt sz l)) t) ∧
    encode (.moveq b q) = [BitVec.ofNat 16 (0x7000 + 512 * q.val + b.toNat)] ∧
    exec (.moveq b q) s = .next (({ s with
      pc := s.pc + 2, d := s.d.set q (b.signExtend 32)
      sr := { s.sr with n := b.msb, z := decide (b = 0), v := false, c := false } } : State).charge ⟨4, 1, 0⟩)

/-! Single operand instructions (44_single_operand.md). -/

/-- R231, R233, R234, R235: CLR, NEG, NEGX, NOT. R238: TST, which stores nothing. -/
def Obligations.SingleResult : Prop :=
  ∀ (s : State) (sz : Size) (ea : Ea), ea.ok Mode.isDataAlterable sz = true →
    let l := s.operandAt 1 sz ea
    let u := s.past 1 sz ea
    let d := s.valueAt sz l
    s.CanRead sz l →
    exec (.tst sz ea) s = .next (({ u with sr := moveFlags sz.bits d s.sr } : State).charge (Time.add ⟨4, 1, 0⟩ (eaTime ea.mode sz))) ∧
    ∀ (i : Instr) (r : Nat) (f : StatusReg),
      (i, r, f) ∈ [(Instr.clr sz ea, 0, moveFlags sz.bits 0 s.sr),
        (.neg sz ea, exactAlu .sub sz.bits d 0, exactFlags .sub sz.bits d 0 s.sr),
        (.negx sz ea, exactExtend true sz.bits d 0 s.sr.x, extendFlags true sz.bits d 0 s.sr),
        (.notEa sz ea, d ^^^ (2 ^ sz.bits - 1), moveFlags sz.bits (d ^^^ (2 ^ sz.bits - 1)) s.sr)] →
      s.mem.wf = true → u.CanWrite sz l →
      ∃ t, exec i s = .next (({ t with sr := f } : State).charge
          (if ea.mode = .dn then time (.singleDn sz) else time (.singleMem sz ea.mode))) ∧
        Wrote u sz l r t

/-- R236, R237: Scc stores FF or 00 and no flag; TAS sets bit 7 of its byte and its flags from the byte before. On memory TAS
is refused where the platform forbids it (R462). -/
def Obligations.SetByte : Prop :=
  ∀ (s : State) (cond : Cond) (ea : Ea), ea.ok Mode.isDataAlterable .b = true → s.mem.wf = true →
    let l := s.operandAt 1 .b ea
    let u := s.past 1 .b ea
    (s.tasForbidden = true → ea.mode ≠ .dn → exec (.tas ea) s = .refused .tasForbidden) ∧
    (s.CanRead .b l → u.CanWrite .b l →
      (∃ t, exec (.scc cond ea) s = .next (t.charge
          (if ea.mode = .dn then (if s.sr.cond cond then ⟨6, 1, 0⟩ else ⟨4, 1, 0⟩) else time (.sccMem ea.mode))) ∧
        Wrote u .b l (if s.sr.cond cond then 255 else 0) t) ∧
      (s.tasForbidden = false ∨ ea.mode = .dn →
        ∃ t, exec (.tas ea) s = .next (({ t with sr := moveFlags 8 (s.valueAt .b l) s.sr } : State).charge
            (if ea.mode = .dn then ⟨4, 1, 0⟩ else time (.tasMem ea.mode))) ∧
          Wrote u .b l (s.valueAt .b l ||| 128) t))

/-- R232: NBCD: the ten's complement of the decimal operand, less X. -/
def Obligations.NegateDecimal : Prop :=
  ∀ (s : State) (ea : Ea), (Instr.nbcd ea).wellFormed = true → s.mem.wf = true →
    let l := s.operandAt 1 .b ea
    let u := s.past 1 .b ea
    s.CanRead .b l → u.CanWrite .b l →
    ∃ (t : State) (r : Nat) (f : StatusReg) (j : Nat),
      exec (.nbcd ea) s = .next (({ t with sr := f, draws := j } : State).charge
        (if ea.mode = .dn then ⟨6, 1, 0⟩ else time (.nbcdMem ea.mode))) ∧
      Wrote u .b l r t ∧
      DecimalResult (isDecimal (s.valueAt .b l)) (-(decimal (s.valueAt .b l)) - s.sr.x.toNat) s.sr r f

/-! Shifts and rotates (45_shift_rotate.md). -/

/-- R251, R260: every shift and rotate of a register. The count is 1 to 8 of the field, or a register modulo 64; the time grows
by two clocks a place. -/
def Obligations.ShiftRegister : Prop :=
  ∀ (s : State) (sz : Size) (c dn : Reg) (i : Instr) (op : ShiftOp) (n : Nat),
    (i, op, n) ∈
      (let k := if c.val = 0 then 8 else c.val;
        [(Instr.asrImm sz c dn, ShiftOp.asr, k), (.aslImm sz c dn, .asl, k), (.lsrImm sz c dn, .lsr, k),
          (.lslImm sz c dn, .lsl, k), (.roxrImm sz c dn, .roxr, k), (.roxlImm sz c dn, .roxl, k),
          (.rorImm sz c dn, .ror, k), (.rolImm sz c dn, .rol, k)]) ++
      (let k := (s.dreg c).toNat % 64;
        [(.asrReg sz c dn, .asr, k), (.aslReg sz c dn, .asl, k), (.lsrReg sz c dn, .lsr, k), (.lslReg sz c dn, .lsl, k),
          (.roxrReg sz c dn, .roxr, k), (.roxlReg sz c dn, .roxl, k), (.rorReg sz c dn, .ror, k),
          (.rolReg sz c dn, .rol, k)]) →
    let r := shiftResult op sz.bits n (lowBits sz.bits (s.dreg dn)) s.sr
    exec i s = .next (({ s with
      pc := s.pc + 2, d := s.d.set dn (withLowBits sz.bits (s.dreg dn) r.1), sr := r.2 } : State).charge
      ⟨(if sz = .l then 8 else 6) + 2 * n, 1, 0⟩)

/-- R260: every shift and rotate of memory: a word, by one place. -/
def Obligations.ShiftMemory : Prop :=
  ∀ (s : State) (ea : Ea) (i : Instr) (op : ShiftOp),
    (i, op) ∈ [(Instr.asrMem ea, ShiftOp.asr), (.aslMem ea, .asl), (.lsrMem ea, .lsr), (.lslMem ea, .lsl),
      (.roxrMem ea, .roxr), (.roxlMem ea, .roxl), (.rorMem ea, .ror), (.rolMem ea, .rol)] →
    i.wellFormed = true → s.mem.wf = true →
    let l := s.operandAt 1 .w ea
    let u := s.past 1 .w ea
    let r := shiftResult op 16 1 (s.valueAt .w l) s.sr
    s.CanRead .w l → u.CanWrite .w l →
    ∃ t, exec i s = .next (({ t with sr := r.2 } : State).charge (Time.add ⟨8, 1, 1⟩ (eaTime ea.mode .w))) ∧
      Wrote u .w l r.1 t

/-! Bit manipulation (46_bit_manipulation.md). -/

/-- R271, R272, R274 to R277: BTST, BCHG, BCLR, BSET: Z from the bit before it changes, no other flag; the bit number modulo 32
in a register, modulo 8 in a byte elsewhere. On a register BTST takes 6(1/0) or 10(2/0); BCHG, BCLR and BSET take the
cycles of the table and an even number of clocks, at least four a cycle and at most the cell (R273). -/
def Obligations.BitResult : Prop :=
  ∀ (s : State) (ea : Ea) (dn : Reg) (b : Byte) (i : Instr) (op : BitOp) (n raw : Nat),
    (i, op, n, raw) ∈ [(Instr.btstDn dn ea, BitOp.tst, 1, (s.dreg dn).toNat), (.bchgDn dn ea, .chg, 1, (s.dreg dn).toNat),
      (.bclrDn dn ea, .clr, 1, (s.dreg dn).toNat), (.bsetDn dn ea, .set, 1, (s.dreg dn).toNat),
      (.btstImm b ea, .tst, 2, b.toNat), (.bchgImm b ea, .chg, 2, b.toNat), (.bclrImm b ea, .clr, 2, b.toNat),
      (.bsetImm b ea, .set, 2, b.toNat)] →
    i.wellFormed = true →
    let l := s.operandAt n .b ea
    let u := s.past n .b ea
    let apply := fun (d k : Nat) =>
      match op with | .tst => d | .chg => d ^^^ 2 ^ k | .clr => d - (d &&& 2 ^ k) | .set => d ||| 2 ^ k
    (∀ r, ea = .dn r → ∃ k,
      (op = .tst → k = if n = 2 then 10 else 6) ∧
      (op ≠ .tst → k % 2 = 0 ∧ 4 * n ≤ k ∧ k ≤ (if op = .clr then 10 else 8) + (if n = 2 then 4 else 0)) ∧
      exec i s = .next (({ u with
        d := s.d.set r (BitVec.ofNat 32 (apply (s.dreg r).toNat (raw % 32)))
        sr := { s.sr with z := !(s.dreg r).toNat.testBit (raw % 32) } } : State).charge ⟨k, n, 0⟩)) ∧
    (ea.mode ≠ .dn → s.mem.wf = true → s.CanRead .b l → (op ≠ .tst → u.CanWrite .b l) →
      ∃ t, exec i s = .next (({ t with sr := { s.sr with z := !(s.valueAt .b l).testBit (raw % 8) } } : State).charge
          (if op = .tst then time (.btstMem (n == 2) ea.mode) else time (.bitMem (n == 2) ea.mode))) ∧
        (op = .tst → t = u) ∧ (op ≠ .tst → Wrote u .b l (apply (s.valueAt .b l) (raw % 8)) t))

/-! Branches (47_conditional.md). -/

/-- R291, R292, R294, R295: Bcc, BRA and DBcc: the target is the address after the operation word plus the displacement. DBcc
does nothing where the condition holds; else the low word counts down, and the branch is taken unless it was 0. No flag
changes. Where DBcc expires it reads one word more than its own (log 40). -/
def Obligations.Branch : Prop :=
  ∀ (s : State) (c : Cond) (d : Disp),
    let n := match d with | .byte _ => 1 | .word _ => 2
    let target := s.pc + 2 + (match d with | .byte x => x.signExtend 32 | .word x => x.signExtend 32)
    ((Instr.bcc c d).wellFormed = true →
      (s.CanReach .w target → exec (.bra d) s = .next ((s.landAt target).charge ⟨10, 2, 0⟩)) ∧
      (s.sr.cond c = true → s.CanReach .w target → exec (.bcc c d) s = .next ((s.landAt target).charge ⟨10, 2, 0⟩)) ∧
      (s.sr.cond c = false →
        exec (.bcc c d) s = .next (({ s with pc := s.pc + BitVec.ofNat 32 (2 * n) } : State).charge (time (.bcc (n == 2) false))))) ∧
    ∀ (dn : Reg) (w : Word), d = .word w →
      let k := lowBits 16 (s.dreg dn)
      let counted := fun v : Nat => s.d.set dn (withLowBits 16 (s.dreg dn) v)
      (s.sr.cond c = true → exec (.dbcc c dn w) s = .next (({ s with pc := s.pc + 4 } : State).charge ⟨12, 2, 0⟩)) ∧
      (s.sr.cond c = false → k = 0 →
        exec (.dbcc c dn w) s =
          .next (({ s with pc := s.pc + 4, d := counted 65535 } : State).extraRead.charge ⟨14, 3, 0⟩)) ∧
      (s.sr.cond c = false → k ≠ 0 → s.CanReach .w target →
        exec (.dbcc c dn w) s = .next ((({ s with d := counted (k - 1) } : State).landAt target).charge ⟨10, 2, 0⟩))

/-- R293, R312: BSR and JSR push the address of the next instruction and go to the target, which is computed before the push. -/
def Obligations.Call : Prop :=
  ∀ (s : State) (i : Instr) (n : Nat) (target : Long) (tm : Time),
    ((∃ d, d.ok = true ∧ i = .bsr d ∧ n = (match d with | .byte _ => 1 | .word _ => 2) ∧
        target = s.pc + 2 + (match d with | .byte x => x.signExtend 32 | .word x => x.signExtend 32) ∧ tm = ⟨18, 2, 2⟩) ∨
      ∃ ea p, i = .jsr ea ∧ i.wellFormed = true ∧ n = 1 + ea.extWords ∧ s.operandAt 1 .l ea = .mem target p ∧
        tm = jsrTime ea.mode) →
    s.mem.wf = true →
    let u := s.skip n
    u.CanStore .l (s.sp - 4) → s.CanReach .w target →
    ∃ m k, exec i s = .next ((({ s.setSp (s.sp - 4) with mem := m, book := k } : State).landAt target).charge tm) ∧
      Stored s m 4 (s.sp - 4) u.pc.toNat

/-! JMP, LEA, PEA, MOVEM (48_jmp_jsr_lea_pea_movem.md). -/

/-- R311, R313, R314: JMP goes to the address, LEA loads it into a register and PEA pushes it; no operand is read. In the indexed
modes JMP reads one word more than its own and the refill (R316, log 40). -/
def Obligations.AddressUse : Prop :=
  ∀ (s : State) (ea : Ea) (an : Reg) (a : Long) (p : Bool), ea.ok Mode.isControl .l = true →
    s.operandAt 1 .l ea = .mem a p →
    let u := s.skip (1 + ea.extWords)
    (s.CanReach .w a → exec (.jmp ea) s = .next
      (((if ea.mode = .index ∨ ea.mode = .pcIndex then u.extraRead else u).landAt a).charge (jmpTime ea.mode))) ∧
    exec (.lea ea an) s = .next ((u.setA an a).charge (leaTime ea.mode)) ∧
    (s.mem.wf = true → u.CanStore .l (s.sp - 4) →
      ∃ m k, exec (.pea ea) s = .next (({ u.setSp (s.sp - 4) with mem := m, book := k } : State).charge (peaTime ea.mode)) ∧
        Stored s m 4 (s.sp - 4) a.toNat)

/-- R320, R321, R323: MOVEM memory to registers: ascending addresses, each operand sign-extended to the whole register; one more
word is read; `(An)+` ends past the last operand and overrides a loaded value. -/
def Obligations.MovemLoad : Prop :=
  ∀ (s : State) (sz : WL) (ea : Ea) (mask : Word) (a : Long) (p : Bool),
    (Instr.movemToReg sz ea mask).wellFormed = true → s.operandAt 2 sz.size ea = .mem a p →
    let regs := maskList false mask
    let place := fun k : Nat => a + BitVec.ofNat 32 (sz.size.bytes * k)
    (∀ k, k < regs.length → s.CanReach sz.size (place k)) → s.CanReach .w (place regs.length) →
    ∃ t : State, exec (.movemToReg sz ea mask) s = .next (t.charge (time (.movemToReg sz.size regs.length ea.mode))) ∧
      t = { s with pc := s.pc + BitVec.ofNat 32 (2 * (2 + ea.extWords)), d := t.d, a := t.a, usp := t.usp, ssp := t.ssp } ∧
      (s.sr.s = true → t.usp = s.usp) ∧ (s.sr.s = false → t.ssp = s.ssp) ∧
      (∀ r, ea = .postInc r → t.areg r = place regs.length) ∧
      ∀ g : RegRef, (∀ r, ea = .postInc r → g ≠ .a r) →
        (g ∉ regs → t.reg g = s.reg g) ∧
        ∀ k, regs[k]? = some g → t.reg g = extended sz.size (s.peek sz.size (place k))

/-- R320, R322: MOVEM registers to memory: the operands lie ascending in the order D0 to A7 in either form; with `-(An)` the
register takes the lowest address, and the value stored for it is its value before. -/
def Obligations.MovemStore : Prop :=
  ∀ (s : State) (sz : WL) (ea : Ea) (mask : Word) (a : Long),
    (Instr.movemToMem sz mask ea).wellFormed = true → s.mem.wf = true →
    let down := decide (ea.mode = .preDec)
    let regs := if down then (maskList true mask).reverse else maskList false mask
    let total := BitVec.ofNat 32 (sz.size.bytes * regs.length)
    let place := fun k : Nat => a + BitVec.ofNat 32 (sz.size.bytes * k)
    let u := s.skip (2 + ea.extWords)
    ((∃ r, ea = .preDec r ∧ a = s.areg r - total) ∨ (down = false ∧ ∃ p, s.operandAt 2 sz.size ea = .mem a p)) →
    (∀ k, k < regs.length → u.CanStore sz.size (place k)) →
    ∃ (m : Memory) (c : Bookkeeping), exec (.movemToMem sz mask ea) s =
        .next (({ (match ea with | .preDec r => u.setA r a | _ => u) with mem := m, book := c } : State).charge
          (time (.movemToMem sz.size regs.length ea.mode))) ∧
      (∀ b, (∀ k, k < regs.length → b ∉ addrs sz.size.bytes (place k)) → Memory.read m b = Memory.read s.mem b) ∧
      ∀ k g, regs[k]? = some g → (∀ j, j < sz.size.bytes → s.kindAt (phys (place k + BitVec.ofNat 32 (j / 2 * 2))) ≠ .rom) →
        ({ s with mem := m } : State).peek sz.size (place k) = lowBits sz.size.bits (s.reg g)

/-! Multi-precision (49_multiprecision_misc_movep.md). -/

/-- R341, R342: ADDX and SUBX, on registers and through `-(Ay),-(Ax)`, the source first. -/
def Obligations.ExtendResult : Prop :=
  ∀ (s : State) (sz : Size) (y x : Reg) (sub : Bool),
    (let v := lowBits sz.bits (s.dreg y);
      let d := lowBits sz.bits (s.dreg x);
      exec (if sub then .subxReg sz y x else .addxReg sz y x) s = .next (({ s with
        pc := s.pc + 2, d := s.d.set x (withLowBits sz.bits (s.dreg x) (exactExtend sub sz.bits v d s.sr.x))
        sr := extendFlags sub sz.bits v d s.sr } : State).charge (if sz = .l then ⟨8, 1, 0⟩ else ⟨4, 1, 0⟩))) ∧
    (let u := (s.past 1 sz (.preDec y)).past 0 sz (.preDec x);
      let ys := (s.past 1 sz (.preDec y)).areg y;
      let xd := u.areg x;
      s.mem.wf = true → s.CanReach sz ys → u.CanStore sz xd →
      ∃ m k, exec (if sub then .subxMem sz y x else .addxMem sz y x) s = .next (({ u with
          mem := m, book := k, sr := extendFlags sub sz.bits (s.peek sz ys) (s.peek sz xd) s.sr } : State).charge
          (if sz = .l then ⟨30, 5, 2⟩ else ⟨18, 3, 1⟩)) ∧
        Stored s m sz.bytes xd (exactExtend sub sz.bits (s.peek sz ys) (s.peek sz xd) s.sr.x))

/-- R344, R345: ABCD and SBCD, on registers and through `-(Ay),-(Ax)`. -/
def Obligations.DecimalArithmetic : Prop :=
  ∀ (s : State) (y x : Reg) (sub : Bool),
    let exact := fun v d : Nat =>
      if sub then (decimal d : Int) - decimal v - s.sr.x.toNat else (decimal d : Int) + decimal v + s.sr.x.toNat
    (let v := lowBits 8 (s.dreg y);
      let d := lowBits 8 (s.dreg x);
      ∃ (r : Nat) (f : StatusReg) (j : Nat),
        exec (if sub then .sbcdReg y x else .abcdReg y x) s = .next (({ s with
          pc := s.pc + 2, d := s.d.set x (withLowBits 8 (s.dreg x) r), sr := f, draws := j } : State).charge ⟨6, 1, 0⟩) ∧
        DecimalResult (isDecimal v && isDecimal d) (exact v d) s.sr r f) ∧
    (let u := (s.past 1 .b (.preDec y)).past 0 .b (.preDec x);
      let v := s.peek .b ((s.past 1 .b (.preDec y)).areg y);
      let d := s.peek .b (u.areg x);
      s.mem.wf = true → s.CanReach .b ((s.past 1 .b (.preDec y)).areg y) → u.CanStore .b (u.areg x) →
      ∃ (m : Memory) (k : Bookkeeping) (r : Nat) (f : StatusReg) (j : Nat),
        exec (if sub then .sbcdMem y x else .abcdMem y x) s = .next (({ u with
          mem := m, book := k, sr := f, draws := j } : State).charge ⟨18, 3, 1⟩) ∧
        Stored s m 1 (u.areg x) r ∧ DecimalResult (isDecimal v && isDecimal d) (exact v d) s.sr r f)

/-! Miscellaneous instructions (49_multiprecision_misc_movep.md). -/

/-- R351, R353: ANDI, EORI, ORI to CCR write the five flags and nothing else of SR, in either state; to SR, in supervisor state,
all of it. The third read of the count (R350) may use an answer of the platform or a free value; within memory it changes
nothing. -/
def Obligations.ImmediateToStatus : Prop :=
  ∀ (s : State) (b : Byte) (v : Word) (i : Instr) (w : Word),
    let m : Word := b.setWidth 16
    encode (.andiToCcr b) = [0x023C, m] ∧ encode (.eoriToCcr b) = [0x0A3C, m] ∧ encode (.oriToCcr b) = [0x003C, m] ∧
    ((i, w) ∈ [(Instr.andiToCcr b, s.sr.toWord &&& (0xFF00 ||| m)), (.eoriToCcr b, s.sr.toWord ^^^ (m &&& 0x1F)),
        (.oriToCcr b, s.sr.toWord ||| (m &&& 0x1F))] ∨
      (s.sr.s = true ∧ (i, w) ∈ [(Instr.andiToSr v, s.sr.toWord &&& v), (.eoriToSr v, s.sr.toWord ^^^ v),
        (.oriToSr v, s.sr.toWord ||| v)]) →
      ∃ q l j, exec i s = .next (({ s with pc := s.pc + 4, sr := q, answers := l, draws := j } : State).charge ⟨20, 3, 0⟩) ∧
        q.toWord = w &&& 0xA71F ∧ ((∀ a, s.Answers a) → l = s.answers ∧ j = s.draws))

/-- R354, R355, R356: MOVE to CCR, MOVE to SR in supervisor state, MOVE from SR in either state. -/
def Obligations.MoveStatus : Prop :=
  ∀ (s : State) (ea : Ea),
    let l := s.operandAt 1 .w ea
    let u := s.past 1 .w ea
    let v := BitVec.ofNat 16 (s.valueAt .w l)
    (ea.ok Mode.isData .w = true → s.CanRead .w l →
      (∃ q, exec (.moveToCcr ea) s = .next (({ u with sr := q } : State).charge (Time.add ⟨12, 1, 0⟩ (eaTime ea.mode .w))) ∧
        q.toWord = (s.sr.toWord &&& 0xFF00) ||| (v &&& 0x1F)) ∧
      (s.sr.s = true →
        ∃ q, exec (.moveToSr ea) s = .next (({ u with sr := q } : State).charge (Time.add ⟨12, 1, 0⟩ (eaTime ea.mode .w))) ∧
          q.toWord = v &&& 0xA71F)) ∧
    (ea.ok Mode.isDataAlterable .w = true → s.mem.wf = true → s.CanRead .w l → u.CanWrite .w l →
      ∃ t, exec (.moveFromSr ea) s = .next (t.charge
          (if ea.mode = .dn then ⟨6, 1, 0⟩ else Time.add ⟨8, 1, 1⟩ (eaTime ea.mode .w))) ∧
        Wrote u .w l s.sr.toWord.toNat t)

/-- R357, R358, R364, R361, R362: EXG swaps two whole registers, A7 the active stack pointer; EXT, SWAP, NOP, and RESET in
supervisor state, which changes no processor state. -/
def Obligations.RegisterMisc : Prop :=
  ∀ (s : State) (r x y : Reg),
    let v := s.dreg r
    let e : Word := (v.setWidth 8).signExtend 16
    let l : Long := (v.setWidth 16).signExtend 32
    let w : Long := v.extractLsb' 0 16 ++ v.extractLsb' 16 16
    encode (.extW r) = [BitVec.ofNat 16 (0x4880 + r.val)] ∧ encode (.extL r) = [BitVec.ofNat 16 (0x48C0 + r.val)] ∧
    encode (.swap r) = [BitVec.ofNat 16 (0x4840 + r.val)] ∧ encode .nop = [0x4E71] ∧
    encode (.exgDD x y) = [BitVec.ofNat 16 (0xC140 + 512 * x.val + y.val)] ∧
    encode (.exgAA x y) = [BitVec.ofNat 16 (0xC148 + 512 * x.val + y.val)] ∧
    encode (.exgDA x y) = [BitVec.ofNat 16 (0xC188 + 512 * x.val + y.val)] ∧
    exec (.extW r) s = .next (({ s with
      pc := s.pc + 2, d := s.d.set r (v.extractLsb' 16 16 ++ e)
      sr := { s.sr with n := e.msb, z := decide (e = 0), v := false, c := false } } : State).charge ⟨4, 1, 0⟩) ∧
    exec (.extL r) s = .next (({ s with
      pc := s.pc + 2, d := s.d.set r l
      sr := { s.sr with n := l.msb, z := decide (l = 0), v := false, c := false } } : State).charge ⟨4, 1, 0⟩) ∧
    exec (.swap r) s = .next (({ s with
      pc := s.pc + 2, d := s.d.set r w
      sr := { s.sr with n := w.msb, z := decide (w = 0), v := false, c := false } } : State).charge ⟨4, 1, 0⟩) ∧
    exec .nop s = .next (({ s with pc := s.pc + 2 } : State).charge ⟨4, 1, 0⟩) ∧
    (s.sr.s = true → exec .resetDevices s = .next (({ s with pc := s.pc + 2 } : State).charge ⟨132, 1, 0⟩)) ∧
    exec (.exgDD x y) s = .next (({ s with pc := s.pc + 2, d := (s.d.set x (s.dreg y)).set y (s.dreg x) } : State).charge ⟨6, 1, 0⟩) ∧
    (∃ t : State, exec (.exgAA x y) s = .next (({ t with pc := s.pc + 2 } : State).charge ⟨6, 1, 0⟩) ∧
      t = { s with a := t.a, usp := t.usp, ssp := t.ssp } ∧ (s.sr.s = true → t.usp = s.usp) ∧
      (s.sr.s = false → t.ssp = s.ssp) ∧ t.areg x = s.areg y ∧ t.areg y = s.areg x ∧
      ∀ q, q ≠ x → q ≠ y → t.areg q = s.areg q) ∧
    exec (.exgDA x y) s = .next
      (({ s with pc := s.pc + 2, d := s.d.set x (s.areg y) } : State).setA y (s.dreg x) |>.charge ⟨6, 1, 0⟩)

/-- R359, R360, R373, R374: LINK pushes the register (A7 itself as already decremented), makes it the frame pointer and moves
the stack pointer; UNLK undoes it. RTS pops the pc, RTR the CCR and the pc. -/
def Obligations.FramesAndReturns : Prop :=
  ∀ (s : State) (an : Reg) (d : Word),
    (s.mem.wf = true → (s.skip 2).CanStore .l (s.sp - 4) →
      ∃ m k, exec (.link an d) s = .next (({ ((s.skip 2).setA an (s.sp - 4)).setSp (s.sp - 4 + d.signExtend 32) with
          mem := m, book := k } : State).charge ⟨16, 2, 2⟩) ∧
        Stored s m 4 (s.sp - 4) (if an.val = 7 then s.sp - 4 else s.areg an).toNat) ∧
    (s.CanReach .l (s.areg an) →
      exec (.unlk an) s = .next ((((s.skip 1).setSp (s.areg an + 4)).setA an (BitVec.ofNat 32 (s.peek .l (s.areg an)))).charge
        ⟨12, 3, 0⟩)) ∧
    (s.CanReach .l s.sp → s.CanReach .w (BitVec.ofNat 32 (s.peek .l s.sp)) →
      exec .rts s = .next (((s.setSp (s.sp + 4)).landAt (BitVec.ofNat 32 (s.peek .l s.sp))).charge ⟨16, 4, 0⟩)) ∧
    encode .rtr = [0x4E77] ∧
    (s.CanReach .w s.sp → s.CanReach .l (s.sp + 2) → s.CanReach .w (BitVec.ofNat 32 (s.peek .l (s.sp + 2))) →
      ∃ q, exec .rtr s = .next ((({ s.setSp (s.sp + 6) with sr := q } : State).landAt
          (BitVec.ofNat 32 (s.peek .l (s.sp + 2)))).charge ⟨20, 5, 0⟩) ∧
        q.toWord = (s.sr.toWord &&& 0xFF00) ||| (BitVec.ofNat 16 (s.peek .w s.sp) &&& 0x1F))

/-- R372, R430 (92 D4, 93 U22): RTE in supervisor state takes SR and pc from the supervisor stack. Where it would pop one of the
first 8 bytes of a bus or address error frame it is refused, and so is a return from one cut down by those 8 bytes into the
instruction that faulted. The record of frames is the model's (log 27): a step notes how far SSP has stood above a frame, and
a store takes from a frame the bytes it reaches that SSP has stood above, no others. -/
def Obligations.ReturnFromException : Prop :=
  ∀ s : State,
    let p := BitVec.ofNat 32 (s.peek .l (s.ssp + 2))
    let whole := fun f : Group0Frame => (s.ssp - f.sp).toNat < 8 ∧
      ∃ k ∈ f.kept, k < 8 ∧ (s.ssp - f.sp).toNat ≤ k ∧ k < (s.ssp - f.sp).toNat + 6
    let into := fun f : Group0Frame => f.sp + 8 = s.ssp ∧ (∃ k ∈ f.kept, 8 ≤ k) ∧ (p - f.start).toNat < f.length
    let same := fun f g : Group0Frame => g.sp = f.sp ∧ g.start = f.start ∧ g.length = f.length
    (s.sr.s = true →
      ((∃ f ∈ s.book.frames, whole f) → exec .rte s = .refused .rteFromGroup0Frame) ∧
      ((∀ f ∈ s.book.frames, ¬whole f) → s.CanReach .w s.ssp → s.CanReach .l (s.ssp + 2) →
        ((∃ f ∈ s.book.frames, into f) → exec .rte s = .refused .resumesFaultedInstruction) ∧
        ((∀ f ∈ s.book.frames, ¬into f) → s.CanReach .w p →
          ∃ q, exec .rte s = .next ((({ s with ssp := s.ssp + 6, sr := q } : State).landAt p).charge ⟨20, 5, 0⟩) ∧
            q.toWord = BitVec.ofNat 16 (s.peek .w s.ssp) &&& 0xA71F))) ∧
    (∀ f ∈ s.book.frames, ∃ g ∈ s.sampled.book.frames, same f g ∧ g.kept = f.kept ∧
      (g.top : Int) = max (f.top : Int) (s.ssp - f.sp).toInt) ∧
    ∀ (cells : List Host.Cell) (f : Group0Frame), f ∈ s.book.frames →
      let lost := fun k : Nat => k < f.top ∧ ∃ c ∈ cells, c.1 = phys (f.sp + BitVec.ofNat 32 k)
      (∀ k ∈ f.kept, lost k ∨ ∃ g ∈ (s.poke cells).book.frames, same f g ∧ g.top = f.top ∧ k ∈ g.kept) ∧
      ((∀ k ∈ f.kept, ¬lost k) → f.kept ≠ [] → f ∈ (s.poke cells).book.frames)

/-- R363, R367: STOP, MOVE to USP, MOVE from USP in supervisor state. -/
def Obligations.SupervisorMisc : Prop :=
  ∀ (s : State) (v : Word) (an : Reg), s.sr.s = true →
    (∃ q, exec (.stop v) s = .next (({ s with pc := s.pc + 4, sr := q, run := .stopped } : State).charge ⟨4, 0, 0⟩) ∧
      q.toWord = v &&& 0xA71F) ∧
    exec (.moveToUsp an) s = .next (({ s with pc := s.pc + 2, usp := s.areg an } : State).charge ⟨4, 1, 0⟩) ∧
    exec (.moveFromUsp an) s = .next ((({ s with pc := s.pc + 2 } : State).setA an s.usp).charge ⟨4, 1, 0⟩)

/-- R352: CHK: a value below 0 or above the bound traps with N set or clear, saved pc the next instruction; else only flags
change. Z, V, C (and N where there is no trap) may be anything; X stays. -/
def Obligations.CheckBounds : Prop :=
  ∀ (s : State) (ea : Ea) (dn : Reg), (Instr.chk ea dn).wellFormed = true → s.CanRead .w (s.operandAt 1 .w ea) →
    let bound := signed 16 (s.valueAt .w (s.operandAt 1 .w ea))
    let v := signed 16 (lowBits 16 (s.dreg dn))
    let u := s.past 1 .w ea
    ∃ n z o c j,
      (0 ≤ v → v ≤ bound → exec (.chk ea dn) s = .next (({ u with
        sr := { s.sr with n := n, z := z, v := o, c := c }, draws := j } : State).charge (Time.add ⟨10, 1, 0⟩ (eaTime ea.mode .w)))) ∧
      (v < 0 ∨ bound < v → s.mem.wf = true → u.CanEnter 6 → ∃ t, exec (.chk ea dn) s = .next t ∧
        Entered ({ u with sr := { s.sr with n := decide (v < 0), z := z, v := o, c := c }, draws := j } : State).readAhead t 6 u.pc s.sr.i
          (Time.add ⟨44, 5, 3⟩ (eaTime ea.mode .w)))

/-- R365, R366, R368: TRAP, TRAPV and ILLEGAL enter their exceptions; TRAPV with V clear does nothing. -/
def Obligations.Traps : Prop :=
  ∀ (s : State) (v : Fin 16), s.mem.wf = true →
    encode (.trap v) = [BitVec.ofNat 16 (0x4E40 + v.val)] ∧ encode .trapv = [0x4E76] ∧ encode .illegal = [0x4AFC] ∧
    (s.CanEnter (32 + v.val) →
      ∃ t, exec (.trap v) s = .next t ∧ Entered (s.skip 1) t (32 + v.val) (s.pc + 2) s.sr.i ⟨38, 4, 3⟩) ∧
    (s.sr.v = true → s.CanEnter 7 →
      ∃ t, exec .trapv s = .next t ∧ Entered (s.skip 1) t 7 (s.pc + 2) s.sr.i ⟨34, 4, 3⟩) ∧
    (s.sr.v = false → exec .trapv s = .next ((s.skip 1).charge ⟨4, 1, 0⟩)) ∧
    (s.CanEnter 4 →
      ∃ t, exec .illegal s = .next t ∧ Entered { s with tracePending := false } t 4 s.pc s.sr.i ⟨34, 4, 3⟩)

/-! MOVEP (49_multiprecision_misc_movep.md). -/

/-- R381: MOVEP: every other byte, the most significant at the lowest address; the bytes between are not touched. -/
def Obligations.MovePeripheral : Prop :=
  ∀ (s : State) (sz : WL) (x y : Reg) (d : Word),
    let place := fun k : Nat => s.areg y + d.signExtend 32 + BitVec.ofNat 32 (2 * k)
    let n := sz.size.bytes
    (s.mem.wf = true → (∀ k, k < n → (s.skip 2).CanStore .b (place k)) →
      ∃ m j, exec (.movepToMem sz x y d) s = .next (({ s.skip 2 with mem := m, book := j } : State).charge (time (.movep sz.size true))) ∧
        (∀ b, (∀ k, k < n → b ≠ phys (place k)) → Memory.read m b = Memory.read s.mem b) ∧
        ∀ k, k < n → Memory.read m (phys (place k)) =
          if s.kindAt (phys (place k)) = .rom then Memory.read s.mem (phys (place k))
          else BitVec.ofNat 8 ((s.dreg x).toNat / 256 ^ (n - 1 - k))) ∧
    ((∀ k, k < n → s.CanReach .b (place k)) →
      exec (.movepToReg sz y d x) s = .next (({ s.skip 2 with
        d := s.d.set x (withLowBits sz.size.bits (s.dreg x)
          ((List.range n).foldl (fun v k => 256 * v + (s.byteAt (place k)).toNat) 0)) } : State).charge
        (time (.movep sz.size false))))
end

