-- ==== Sys2Proof/Laws/State.lean ====
section
/-! SUPPORT. One lemma per field per update of the state, so that no later proof unfolds a record update. -/

namespace Sys2Proof.Machine

@[simp] theorem State.setD_d (s : State) (r : Reg) (v : Long) : (s.setD r v).d = s.d.set r v := rfl
@[simp] theorem State.setD_a (s : State) (r : Reg) (v : Long) : (s.setD r v).a = s.a := rfl
@[simp] theorem State.setD_usp (s : State) (r : Reg) (v : Long) : (s.setD r v).usp = s.usp := rfl
@[simp] theorem State.setD_ssp (s : State) (r : Reg) (v : Long) : (s.setD r v).ssp = s.ssp := rfl
@[simp] theorem State.setD_pc (s : State) (r : Reg) (v : Long) : (s.setD r v).pc = s.pc := rfl
@[simp] theorem State.setD_sr (s : State) (r : Reg) (v : Long) : (s.setD r v).sr = s.sr := rfl
@[simp] theorem State.setD_run (s : State) (r : Reg) (v : Long) : (s.setD r v).run = s.run := rfl
@[simp] theorem State.setD_ir (s : State) (r : Reg) (v : Long) : (s.setD r v).ir = s.ir := rfl
@[simp] theorem State.setD_tracePending (s : State) (r : Reg) (v : Long) : (s.setD r v).tracePending = s.tracePending := rfl
@[simp] theorem State.setD_mem (s : State) (r : Reg) (v : Long) : (s.setD r v).mem = s.mem := rfl
@[simp] theorem State.setD_pins (s : State) (r : Reg) (v : Long) : (s.setD r v).pins = s.pins := rfl
@[simp] theorem State.setD_level7Edge (s : State) (r : Reg) (v : Long) : (s.setD r v).level7Edge = s.level7Edge := rfl
@[simp] theorem State.setD_schedule (s : State) (r : Reg) (v : Long) : (s.setD r v).schedule = s.schedule := rfl
@[simp] theorem State.setD_regions (s : State) (r : Reg) (v : Long) : (s.setD r v).regions = s.regions := rfl
@[simp] theorem State.setD_answers (s : State) (r : Reg) (v : Long) : (s.setD r v).answers = s.answers := rfl
@[simp] theorem State.setD_tasForbidden (s : State) (r : Reg) (v : Long) : (s.setD r v).tasForbidden = s.tasForbidden := rfl
@[simp] theorem State.setD_ahead (s : State) (r : Reg) (v : Long) : (s.setD r v).ahead = s.ahead := rfl
@[simp] theorem State.setD_book (s : State) (r : Reg) (v : Long) : (s.setD r v).book = s.book := rfl
@[simp] theorem State.setD_draws (s : State) (r : Reg) (v : Long) : (s.setD r v).draws = s.draws := rfl
@[simp] theorem State.setD_elapsed (s : State) (r : Reg) (v : Long) : (s.setD r v).elapsed = s.elapsed := rfl

@[simp] theorem State.setSr_d (s : State) (q : StatusReg) : (s.setSr q).d = s.d := rfl
@[simp] theorem State.setSr_a (s : State) (q : StatusReg) : (s.setSr q).a = s.a := rfl
@[simp] theorem State.setSr_usp (s : State) (q : StatusReg) : (s.setSr q).usp = s.usp := rfl
@[simp] theorem State.setSr_ssp (s : State) (q : StatusReg) : (s.setSr q).ssp = s.ssp := rfl
@[simp] theorem State.setSr_pc (s : State) (q : StatusReg) : (s.setSr q).pc = s.pc := rfl
@[simp] theorem State.setSr_sr (s : State) (q : StatusReg) : (s.setSr q).sr = q := rfl
@[simp] theorem State.setSr_run (s : State) (q : StatusReg) : (s.setSr q).run = s.run := rfl
@[simp] theorem State.setSr_ir (s : State) (q : StatusReg) : (s.setSr q).ir = s.ir := rfl
@[simp] theorem State.setSr_tracePending (s : State) (q : StatusReg) : (s.setSr q).tracePending = s.tracePending := rfl
@[simp] theorem State.setSr_mem (s : State) (q : StatusReg) : (s.setSr q).mem = s.mem := rfl
@[simp] theorem State.setSr_pins (s : State) (q : StatusReg) : (s.setSr q).pins = s.pins := rfl
@[simp] theorem State.setSr_level7Edge (s : State) (q : StatusReg) : (s.setSr q).level7Edge = s.level7Edge := rfl
@[simp] theorem State.setSr_schedule (s : State) (q : StatusReg) : (s.setSr q).schedule = s.schedule := rfl
@[simp] theorem State.setSr_regions (s : State) (q : StatusReg) : (s.setSr q).regions = s.regions := rfl
@[simp] theorem State.setSr_answers (s : State) (q : StatusReg) : (s.setSr q).answers = s.answers := rfl
@[simp] theorem State.setSr_tasForbidden (s : State) (q : StatusReg) : (s.setSr q).tasForbidden = s.tasForbidden := rfl
@[simp] theorem State.setSr_ahead (s : State) (q : StatusReg) : (s.setSr q).ahead = s.ahead := rfl
@[simp] theorem State.setSr_book (s : State) (q : StatusReg) : (s.setSr q).book = s.book := rfl
@[simp] theorem State.setSr_draws (s : State) (q : StatusReg) : (s.setSr q).draws = s.draws := rfl
@[simp] theorem State.setSr_elapsed (s : State) (q : StatusReg) : (s.setSr q).elapsed = s.elapsed := rfl

@[simp] theorem State.skip_d (s : State) (n : Nat) : (s.skip n).d = s.d := rfl
@[simp] theorem State.skip_a (s : State) (n : Nat) : (s.skip n).a = s.a := rfl
@[simp] theorem State.skip_usp (s : State) (n : Nat) : (s.skip n).usp = s.usp := rfl
@[simp] theorem State.skip_ssp (s : State) (n : Nat) : (s.skip n).ssp = s.ssp := rfl
@[simp] theorem State.skip_pc (s : State) (n : Nat) : (s.skip n).pc = s.pc + BitVec.ofNat 32 (2 * n) := rfl
@[simp] theorem State.skip_sr (s : State) (n : Nat) : (s.skip n).sr = s.sr := rfl
@[simp] theorem State.skip_run (s : State) (n : Nat) : (s.skip n).run = s.run := rfl
@[simp] theorem State.skip_ir (s : State) (n : Nat) : (s.skip n).ir = s.ir := rfl
@[simp] theorem State.skip_tracePending (s : State) (n : Nat) : (s.skip n).tracePending = s.tracePending := rfl
@[simp] theorem State.skip_mem (s : State) (n : Nat) : (s.skip n).mem = s.mem := rfl
@[simp] theorem State.skip_pins (s : State) (n : Nat) : (s.skip n).pins = s.pins := rfl
@[simp] theorem State.skip_level7Edge (s : State) (n : Nat) : (s.skip n).level7Edge = s.level7Edge := rfl
@[simp] theorem State.skip_schedule (s : State) (n : Nat) : (s.skip n).schedule = s.schedule := rfl
@[simp] theorem State.skip_regions (s : State) (n : Nat) : (s.skip n).regions = s.regions := rfl
@[simp] theorem State.skip_answers (s : State) (n : Nat) : (s.skip n).answers = s.answers := rfl
@[simp] theorem State.skip_tasForbidden (s : State) (n : Nat) : (s.skip n).tasForbidden = s.tasForbidden := rfl
@[simp] theorem State.skip_ahead (s : State) (n : Nat) : (s.skip n).ahead = s.ahead := rfl
@[simp] theorem State.skip_book (s : State) (n : Nat) : (s.skip n).book = s.book := rfl
@[simp] theorem State.skip_draws (s : State) (n : Nat) : (s.skip n).draws = s.draws := rfl
@[simp] theorem State.skip_elapsed (s : State) (n : Nat) : (s.skip n).elapsed = s.elapsed := rfl

@[simp] theorem State.charge_d (s : State) (t : Time) : (s.charge t).d = s.d := rfl
@[simp] theorem State.charge_a (s : State) (t : Time) : (s.charge t).a = s.a := rfl
@[simp] theorem State.charge_usp (s : State) (t : Time) : (s.charge t).usp = s.usp := rfl
@[simp] theorem State.charge_ssp (s : State) (t : Time) : (s.charge t).ssp = s.ssp := rfl
@[simp] theorem State.charge_pc (s : State) (t : Time) : (s.charge t).pc = s.pc := rfl
@[simp] theorem State.charge_sr (s : State) (t : Time) : (s.charge t).sr = s.sr := rfl
@[simp] theorem State.charge_run (s : State) (t : Time) : (s.charge t).run = s.run := rfl
@[simp] theorem State.charge_ir (s : State) (t : Time) : (s.charge t).ir = s.ir := rfl
@[simp] theorem State.charge_tracePending (s : State) (t : Time) : (s.charge t).tracePending = s.tracePending := rfl
@[simp] theorem State.charge_mem (s : State) (t : Time) : (s.charge t).mem = s.mem := rfl
@[simp] theorem State.charge_pins (s : State) (t : Time) : (s.charge t).pins = s.pins := rfl
@[simp] theorem State.charge_level7Edge (s : State) (t : Time) : (s.charge t).level7Edge = s.level7Edge := rfl
@[simp] theorem State.charge_schedule (s : State) (t : Time) : (s.charge t).schedule = s.schedule := rfl
@[simp] theorem State.charge_regions (s : State) (t : Time) : (s.charge t).regions = s.regions := rfl
@[simp] theorem State.charge_answers (s : State) (t : Time) : (s.charge t).answers = s.answers := rfl
@[simp] theorem State.charge_tasForbidden (s : State) (t : Time) : (s.charge t).tasForbidden = s.tasForbidden := rfl
@[simp] theorem State.charge_ahead (s : State) (t : Time) : (s.charge t).ahead = s.ahead := rfl
@[simp] theorem State.charge_book (s : State) (t : Time) : (s.charge t).book = s.book := rfl
@[simp] theorem State.charge_draws (s : State) (t : Time) : (s.charge t).draws = s.draws := rfl
@[simp] theorem State.charge_elapsed (s : State) (t : Time) : (s.charge t).elapsed = s.elapsed.add t.withWait := rfl

@[simp] theorem State.drawn_d (s : State) (n : Nat) : (s.drawn n).d = s.d := rfl
@[simp] theorem State.drawn_a (s : State) (n : Nat) : (s.drawn n).a = s.a := rfl
@[simp] theorem State.drawn_usp (s : State) (n : Nat) : (s.drawn n).usp = s.usp := rfl
@[simp] theorem State.drawn_ssp (s : State) (n : Nat) : (s.drawn n).ssp = s.ssp := rfl
@[simp] theorem State.drawn_pc (s : State) (n : Nat) : (s.drawn n).pc = s.pc := rfl
@[simp] theorem State.drawn_sr (s : State) (n : Nat) : (s.drawn n).sr = s.sr := rfl
@[simp] theorem State.drawn_run (s : State) (n : Nat) : (s.drawn n).run = s.run := rfl
@[simp] theorem State.drawn_ir (s : State) (n : Nat) : (s.drawn n).ir = s.ir := rfl
@[simp] theorem State.drawn_tracePending (s : State) (n : Nat) : (s.drawn n).tracePending = s.tracePending := rfl
@[simp] theorem State.drawn_mem (s : State) (n : Nat) : (s.drawn n).mem = s.mem := rfl
@[simp] theorem State.drawn_pins (s : State) (n : Nat) : (s.drawn n).pins = s.pins := rfl
@[simp] theorem State.drawn_level7Edge (s : State) (n : Nat) : (s.drawn n).level7Edge = s.level7Edge := rfl
@[simp] theorem State.drawn_schedule (s : State) (n : Nat) : (s.drawn n).schedule = s.schedule := rfl
@[simp] theorem State.drawn_regions (s : State) (n : Nat) : (s.drawn n).regions = s.regions := rfl
@[simp] theorem State.drawn_answers (s : State) (n : Nat) : (s.drawn n).answers = s.answers := rfl
@[simp] theorem State.drawn_tasForbidden (s : State) (n : Nat) : (s.drawn n).tasForbidden = s.tasForbidden := rfl
@[simp] theorem State.drawn_ahead (s : State) (n : Nat) : (s.drawn n).ahead = s.ahead := rfl
@[simp] theorem State.drawn_book (s : State) (n : Nat) : (s.drawn n).book = s.book := rfl
@[simp] theorem State.drawn_draws (s : State) (n : Nat) : (s.drawn n).draws = s.draws + n := rfl
@[simp] theorem State.drawn_elapsed (s : State) (n : Nat) : (s.drawn n).elapsed = s.elapsed := rfl

@[simp] theorem State.setDlow_d (s : State) (sz : Size) (r : Reg) (v : Nat) : (s.setDlow sz r v).d = s.d.set r (withLowBits sz.bits (s.dreg r) v) := rfl
@[simp] theorem State.setDlow_a (s : State) (sz : Size) (r : Reg) (v : Nat) : (s.setDlow sz r v).a = s.a := rfl
@[simp] theorem State.setDlow_usp (s : State) (sz : Size) (r : Reg) (v : Nat) : (s.setDlow sz r v).usp = s.usp := rfl
@[simp] theorem State.setDlow_ssp (s : State) (sz : Size) (r : Reg) (v : Nat) : (s.setDlow sz r v).ssp = s.ssp := rfl
@[simp] theorem State.setDlow_pc (s : State) (sz : Size) (r : Reg) (v : Nat) : (s.setDlow sz r v).pc = s.pc := rfl
@[simp] theorem State.setDlow_sr (s : State) (sz : Size) (r : Reg) (v : Nat) : (s.setDlow sz r v).sr = s.sr := rfl
@[simp] theorem State.setDlow_run (s : State) (sz : Size) (r : Reg) (v : Nat) : (s.setDlow sz r v).run = s.run := rfl
@[simp] theorem State.setDlow_ir (s : State) (sz : Size) (r : Reg) (v : Nat) : (s.setDlow sz r v).ir = s.ir := rfl
@[simp] theorem State.setDlow_tracePending (s : State) (sz : Size) (r : Reg) (v : Nat) : (s.setDlow sz r v).tracePending = s.tracePending := rfl
@[simp] theorem State.setDlow_mem (s : State) (sz : Size) (r : Reg) (v : Nat) : (s.setDlow sz r v).mem = s.mem := rfl
@[simp] theorem State.setDlow_pins (s : State) (sz : Size) (r : Reg) (v : Nat) : (s.setDlow sz r v).pins = s.pins := rfl
@[simp] theorem State.setDlow_level7Edge (s : State) (sz : Size) (r : Reg) (v : Nat) : (s.setDlow sz r v).level7Edge = s.level7Edge := rfl
@[simp] theorem State.setDlow_schedule (s : State) (sz : Size) (r : Reg) (v : Nat) : (s.setDlow sz r v).schedule = s.schedule := rfl
@[simp] theorem State.setDlow_regions (s : State) (sz : Size) (r : Reg) (v : Nat) : (s.setDlow sz r v).regions = s.regions := rfl
@[simp] theorem State.setDlow_answers (s : State) (sz : Size) (r : Reg) (v : Nat) : (s.setDlow sz r v).answers = s.answers := rfl
@[simp] theorem State.setDlow_tasForbidden (s : State) (sz : Size) (r : Reg) (v : Nat) : (s.setDlow sz r v).tasForbidden = s.tasForbidden := rfl
@[simp] theorem State.setDlow_ahead (s : State) (sz : Size) (r : Reg) (v : Nat) : (s.setDlow sz r v).ahead = s.ahead := rfl
@[simp] theorem State.setDlow_book (s : State) (sz : Size) (r : Reg) (v : Nat) : (s.setDlow sz r v).book = s.book := rfl
@[simp] theorem State.setDlow_draws (s : State) (sz : Size) (r : Reg) (v : Nat) : (s.setDlow sz r v).draws = s.draws := rfl
@[simp] theorem State.setDlow_elapsed (s : State) (sz : Size) (r : Reg) (v : Nat) : (s.setDlow sz r v).elapsed = s.elapsed := rfl

@[simp] theorem State.poke_d (s : State) (cells : List Host.Cell) : (s.poke cells).d = s.d := rfl
@[simp] theorem State.poke_a (s : State) (cells : List Host.Cell) : (s.poke cells).a = s.a := rfl
@[simp] theorem State.poke_usp (s : State) (cells : List Host.Cell) : (s.poke cells).usp = s.usp := rfl
@[simp] theorem State.poke_ssp (s : State) (cells : List Host.Cell) : (s.poke cells).ssp = s.ssp := rfl
@[simp] theorem State.poke_pc (s : State) (cells : List Host.Cell) : (s.poke cells).pc = s.pc := rfl
@[simp] theorem State.poke_sr (s : State) (cells : List Host.Cell) : (s.poke cells).sr = s.sr := rfl
@[simp] theorem State.poke_run (s : State) (cells : List Host.Cell) : (s.poke cells).run = s.run := rfl
@[simp] theorem State.poke_ir (s : State) (cells : List Host.Cell) : (s.poke cells).ir = s.ir := rfl
@[simp] theorem State.poke_tracePending (s : State) (cells : List Host.Cell) : (s.poke cells).tracePending = s.tracePending := rfl
@[simp] theorem State.poke_pins (s : State) (cells : List Host.Cell) : (s.poke cells).pins = s.pins := rfl
@[simp] theorem State.poke_level7Edge (s : State) (cells : List Host.Cell) : (s.poke cells).level7Edge = s.level7Edge := rfl
@[simp] theorem State.poke_schedule (s : State) (cells : List Host.Cell) : (s.poke cells).schedule = s.schedule := rfl
@[simp] theorem State.poke_regions (s : State) (cells : List Host.Cell) : (s.poke cells).regions = s.regions := rfl
@[simp] theorem State.poke_answers (s : State) (cells : List Host.Cell) : (s.poke cells).answers = s.answers := rfl
@[simp] theorem State.poke_tasForbidden (s : State) (cells : List Host.Cell) : (s.poke cells).tasForbidden = s.tasForbidden := rfl
@[simp] theorem State.poke_ahead (s : State) (cells : List Host.Cell) : (s.poke cells).ahead = s.ahead := rfl
@[simp] theorem State.poke_draws (s : State) (cells : List Host.Cell) : (s.poke cells).draws = s.draws := rfl
@[simp] theorem State.poke_elapsed (s : State) (cells : List Host.Cell) : (s.poke cells).elapsed = s.elapsed := rfl

@[simp] theorem State.begin_d (s : State) (op : Word) : (s.begin op).d = s.d := rfl
@[simp] theorem State.begin_a (s : State) (op : Word) : (s.begin op).a = s.a := rfl
@[simp] theorem State.begin_usp (s : State) (op : Word) : (s.begin op).usp = s.usp := rfl
@[simp] theorem State.begin_ssp (s : State) (op : Word) : (s.begin op).ssp = s.ssp := rfl
@[simp] theorem State.begin_pc (s : State) (op : Word) : (s.begin op).pc = s.pc := rfl
@[simp] theorem State.begin_sr (s : State) (op : Word) : (s.begin op).sr = s.sr := rfl
@[simp] theorem State.begin_run (s : State) (op : Word) : (s.begin op).run = s.run := rfl
@[simp] theorem State.begin_ir (s : State) (op : Word) : (s.begin op).ir = op := rfl
@[simp] theorem State.begin_tracePending (s : State) (op : Word) : (s.begin op).tracePending = s.sr.t := rfl
@[simp] theorem State.begin_mem (s : State) (op : Word) : (s.begin op).mem = s.mem := rfl
@[simp] theorem State.begin_pins (s : State) (op : Word) : (s.begin op).pins = s.pins := rfl
@[simp] theorem State.begin_level7Edge (s : State) (op : Word) : (s.begin op).level7Edge = s.level7Edge := rfl
@[simp] theorem State.begin_schedule (s : State) (op : Word) : (s.begin op).schedule = s.schedule := rfl
@[simp] theorem State.begin_regions (s : State) (op : Word) : (s.begin op).regions = s.regions := rfl
@[simp] theorem State.begin_answers (s : State) (op : Word) : (s.begin op).answers = s.answers := rfl
@[simp] theorem State.begin_tasForbidden (s : State) (op : Word) : (s.begin op).tasForbidden = s.tasForbidden := rfl
@[simp] theorem State.begin_ahead (s : State) (op : Word) : (s.begin op).ahead = s.ahead := rfl
@[simp] theorem State.begin_book (s : State) (op : Word) : (s.begin op).book = s.book := rfl
@[simp] theorem State.begin_draws (s : State) (op : Word) : (s.begin op).draws = s.draws := rfl
@[simp] theorem State.begin_elapsed (s : State) (op : Word) : (s.begin op).elapsed = s.elapsed := rfl

/-! The stack pointer and the address registers: one of three fields changes. -/

@[simp] theorem State.setSp_d (s : State) (v : Long) : (s.setSp v).d = s.d := by
  unfold State.setSp
  split <;> rfl
@[simp] theorem State.setSp_a (s : State) (v : Long) : (s.setSp v).a = s.a := by
  unfold State.setSp
  split <;> rfl
@[simp] theorem State.setSp_pc (s : State) (v : Long) : (s.setSp v).pc = s.pc := by
  unfold State.setSp
  split <;> rfl
@[simp] theorem State.setSp_sr (s : State) (v : Long) : (s.setSp v).sr = s.sr := by
  unfold State.setSp
  split <;> rfl
@[simp] theorem State.setSp_run (s : State) (v : Long) : (s.setSp v).run = s.run := by
  unfold State.setSp
  split <;> rfl
@[simp] theorem State.setSp_ir (s : State) (v : Long) : (s.setSp v).ir = s.ir := by
  unfold State.setSp
  split <;> rfl
@[simp] theorem State.setSp_tracePending (s : State) (v : Long) : (s.setSp v).tracePending = s.tracePending := by
  unfold State.setSp
  split <;> rfl
@[simp] theorem State.setSp_mem (s : State) (v : Long) : (s.setSp v).mem = s.mem := by
  unfold State.setSp
  split <;> rfl
@[simp] theorem State.setSp_pins (s : State) (v : Long) : (s.setSp v).pins = s.pins := by
  unfold State.setSp
  split <;> rfl
@[simp] theorem State.setSp_level7Edge (s : State) (v : Long) : (s.setSp v).level7Edge = s.level7Edge := by
  unfold State.setSp
  split <;> rfl
@[simp] theorem State.setSp_schedule (s : State) (v : Long) : (s.setSp v).schedule = s.schedule := by
  unfold State.setSp
  split <;> rfl
@[simp] theorem State.setSp_regions (s : State) (v : Long) : (s.setSp v).regions = s.regions := by
  unfold State.setSp
  split <;> rfl
@[simp] theorem State.setSp_answers (s : State) (v : Long) : (s.setSp v).answers = s.answers := by
  unfold State.setSp
  split <;> rfl
@[simp] theorem State.setSp_tasForbidden (s : State) (v : Long) : (s.setSp v).tasForbidden = s.tasForbidden := by
  unfold State.setSp
  split <;> rfl
@[simp] theorem State.setSp_ahead (s : State) (v : Long) : (s.setSp v).ahead = s.ahead := by
  unfold State.setSp
  split <;> rfl
@[simp] theorem State.setSp_book (s : State) (v : Long) : (s.setSp v).book = s.book := by
  unfold State.setSp
  split <;> rfl
@[simp] theorem State.setSp_draws (s : State) (v : Long) : (s.setSp v).draws = s.draws := by
  unfold State.setSp
  split <;> rfl
@[simp] theorem State.setSp_elapsed (s : State) (v : Long) : (s.setSp v).elapsed = s.elapsed := by
  unfold State.setSp
  split <;> rfl

@[simp] theorem State.setA_d (s : State) (r : Reg) (v : Long) : (s.setA r v).d = s.d := by
  unfold State.setA
  split <;> simp
@[simp] theorem State.setA_pc (s : State) (r : Reg) (v : Long) : (s.setA r v).pc = s.pc := by
  unfold State.setA
  split <;> simp
@[simp] theorem State.setA_sr (s : State) (r : Reg) (v : Long) : (s.setA r v).sr = s.sr := by
  unfold State.setA
  split <;> simp
@[simp] theorem State.setA_run (s : State) (r : Reg) (v : Long) : (s.setA r v).run = s.run := by
  unfold State.setA
  split <;> simp
@[simp] theorem State.setA_ir (s : State) (r : Reg) (v : Long) : (s.setA r v).ir = s.ir := by
  unfold State.setA
  split <;> simp
@[simp] theorem State.setA_tracePending (s : State) (r : Reg) (v : Long) : (s.setA r v).tracePending = s.tracePending := by
  unfold State.setA
  split <;> simp
@[simp] theorem State.setA_mem (s : State) (r : Reg) (v : Long) : (s.setA r v).mem = s.mem := by
  unfold State.setA
  split <;> simp
@[simp] theorem State.setA_pins (s : State) (r : Reg) (v : Long) : (s.setA r v).pins = s.pins := by
  unfold State.setA
  split <;> simp
@[simp] theorem State.setA_level7Edge (s : State) (r : Reg) (v : Long) : (s.setA r v).level7Edge = s.level7Edge := by
  unfold State.setA
  split <;> simp
@[simp] theorem State.setA_schedule (s : State) (r : Reg) (v : Long) : (s.setA r v).schedule = s.schedule := by
  unfold State.setA
  split <;> simp
@[simp] theorem State.setA_regions (s : State) (r : Reg) (v : Long) : (s.setA r v).regions = s.regions := by
  unfold State.setA
  split <;> simp
@[simp] theorem State.setA_answers (s : State) (r : Reg) (v : Long) : (s.setA r v).answers = s.answers := by
  unfold State.setA
  split <;> simp
@[simp] theorem State.setA_tasForbidden (s : State) (r : Reg) (v : Long) : (s.setA r v).tasForbidden = s.tasForbidden := by
  unfold State.setA
  split <;> simp
@[simp] theorem State.setA_ahead (s : State) (r : Reg) (v : Long) : (s.setA r v).ahead = s.ahead := by
  unfold State.setA
  split <;> simp
@[simp] theorem State.setA_book (s : State) (r : Reg) (v : Long) : (s.setA r v).book = s.book := by
  unfold State.setA
  split <;> simp
@[simp] theorem State.setA_draws (s : State) (r : Reg) (v : Long) : (s.setA r v).draws = s.draws := by
  unfold State.setA
  split <;> simp
@[simp] theorem State.setA_elapsed (s : State) (r : Reg) (v : Long) : (s.setA r v).elapsed = s.elapsed := by
  unfold State.setA
  split <;> simp

/-! A step begins with the inputs of the step; the bookkeeping is the model's own. -/

@[simp] theorem State.sampled_d (s : State) : s.sampled.d = s.d := by
  unfold State.sampled State.nextPins
  split <;> rfl
@[simp] theorem State.sampled_a (s : State) : s.sampled.a = s.a := by
  unfold State.sampled State.nextPins
  split <;> rfl
@[simp] theorem State.sampled_usp (s : State) : s.sampled.usp = s.usp := by
  unfold State.sampled State.nextPins
  split <;> rfl
@[simp] theorem State.sampled_ssp (s : State) : s.sampled.ssp = s.ssp := by
  unfold State.sampled State.nextPins
  split <;> rfl
@[simp] theorem State.sampled_pc (s : State) : s.sampled.pc = s.pc := by
  unfold State.sampled State.nextPins
  split <;> rfl
@[simp] theorem State.sampled_sr (s : State) : s.sampled.sr = s.sr := by
  unfold State.sampled State.nextPins
  split <;> rfl
@[simp] theorem State.sampled_run (s : State) : s.sampled.run = s.run := by
  unfold State.sampled State.nextPins
  split <;> rfl
@[simp] theorem State.sampled_ir (s : State) : s.sampled.ir = s.ir := by
  unfold State.sampled State.nextPins
  split <;> rfl
@[simp] theorem State.sampled_tracePending (s : State) : s.sampled.tracePending = s.tracePending := by
  unfold State.sampled State.nextPins
  split <;> rfl
@[simp] theorem State.sampled_mem (s : State) : s.sampled.mem = s.mem := by
  unfold State.sampled State.nextPins
  split <;> rfl
@[simp] theorem State.sampled_regions (s : State) : s.sampled.regions = s.regions := by
  unfold State.sampled State.nextPins
  split <;> rfl
@[simp] theorem State.sampled_answers (s : State) : s.sampled.answers = s.answers := by
  unfold State.sampled State.nextPins
  split <;> rfl
@[simp] theorem State.sampled_tasForbidden (s : State) : s.sampled.tasForbidden = s.tasForbidden := by
  unfold State.sampled State.nextPins
  split <;> rfl
@[simp] theorem State.sampled_ahead (s : State) : s.sampled.ahead = s.ahead := by
  unfold State.sampled State.nextPins
  split <;> rfl
@[simp] theorem State.sampled_book (s : State) : s.sampled.book = s.tracked := by
  unfold State.sampled State.nextPins
  split <;> rfl
@[simp] theorem State.sampled_draws (s : State) : s.sampled.draws = s.draws := by
  unfold State.sampled State.nextPins
  split <;> rfl
@[simp] theorem State.sampled_elapsed (s : State) : s.sampled.elapsed = s.elapsed := by
  unfold State.sampled State.nextPins
  split <;> rfl

end Sys2Proof.Machine
end

