-- ==== Sys2Proof/Laws/Memory.lean ====
section
/-! SUPPORT. Memory: what a read sees after a write, and the canonical form kept by every operation that stores. -/

namespace Sys2Proof.Machine

/-- What the canonical form says of a memory with a first entry. -/
theorem Memory.wfAbove_cons (lo : Option Nat) (k : Nat) (x : Byte) (m : Memory) :
    Memory.wfAbove lo ((k, x) :: m) = true ↔
      (∀ l, lo = some l → l < k) ∧ k < 2 ^ Config.addrBits ∧ x ≠ Config.unwrittenByte ∧ Memory.wfAbove (some k) m = true := by
  cases lo <;> simp [Memory.wfAbove, and_assoc]

/-- A bound may be lowered. -/
theorem Memory.wfAbove_weaken {lo lo' : Option Nat} {m : Memory} (hl : ∀ l, lo' = some l → ∃ j, lo = some j ∧ l ≤ j)
    (h : Memory.wfAbove lo m = true) : Memory.wfAbove lo' m = true := by
  cases m with
  | nil => rfl
  | cons c m =>
    rw [Memory.wfAbove_cons] at *
    refine ⟨fun l hl' => ?_, h.2⟩
    obtain ⟨j, hj, hle⟩ := hl l hl'
    exact lt_of_le_of_lt hle (h.1 j hj)

theorem Memory.wf_of_above {lo : Option Nat} {m : Memory} (h : Memory.wfAbove lo m = true) : m.wf = true :=
  Memory.wfAbove_weaken (by simp) h

/-- At or below the bound nothing is listed. -/
theorem Memory.read_below {m : Memory} {k a : Nat} (h : Memory.wfAbove (some k) m = true) (ha : a ≤ k) :
    Memory.read m a = Config.unwrittenByte := by
  induction m generalizing k with
  | nil => rfl
  | cons c m ih =>
    rw [Memory.wfAbove_cons] at h
    have hk := h.1 k rfl
    rw [Memory.read, if_neg (by omega)]
    exact ih h.2.2.2 (by omega)

/-- A write leaves every other address as it was, whatever the form. -/
theorem Memory.read_write_ne (m : Memory) {a b : Nat} (v : Byte) (h : b ≠ a) :
    Memory.read (Memory.write m a v) b = Memory.read m b := by
  induction m with
  | nil => unfold Memory.write; split <;> simp [Memory.read, Ne.symm h]
  | cons c m ih =>
    obtain ⟨k, x⟩ := c
    unfold Memory.write
    split
    · split
      · rfl
      · simp [Memory.read, Ne.symm h]
    · split
      · subst a
        split <;> simp [Memory.read, Ne.symm h]
      · simp [Memory.read, ih]

/-- A byte written to canonical memory is read back. -/
theorem Memory.read_write_same {lo : Option Nat} {m : Memory} (h : Memory.wfAbove lo m = true) (a : Nat) (v : Byte) :
    Memory.read (Memory.write m a v) a = v := by
  induction m generalizing lo with
  | nil => unfold Memory.write; split <;> simp_all [Memory.read]
  | cons c m ih =>
    obtain ⟨k, x⟩ := c
    rw [Memory.wfAbove_cons] at h
    unfold Memory.write
    split
    · next hlt =>
      split
      · next hv => rw [Memory.read, if_neg (by omega), Memory.read_below h.2.2.2 (by omega), hv]
      · simp [Memory.read]
    · split
      · next hak =>
        subst hak
        split
        · next hv => rw [Memory.read_below h.2.2.2 (le_refl _), hv]
        · simp [Memory.read]
      · next hak => rw [Memory.read, if_neg (by omega)]; exact ih h.2.2.2

/-- A write at a memory address keeps the canonical form. -/
theorem Memory.wfAbove_write {lo : Option Nat} {m : Memory} (h : Memory.wfAbove lo m = true) {a : Nat} (v : Byte)
    (hlo : ∀ l, lo = some l → l < a) (ha : a < 2 ^ Config.addrBits) : Memory.wfAbove lo (Memory.write m a v) = true := by
  induction m generalizing lo with
  | nil =>
    unfold Memory.write
    split
    · rfl
    · exact (Memory.wfAbove_cons _ _ _ _).2 ⟨hlo, ha, by assumption, rfl⟩
  | cons c m ih =>
    obtain ⟨k, x⟩ := c
    have h' := (Memory.wfAbove_cons _ _ _ _).1 h
    unfold Memory.write
    split
    · next hlt =>
      split
      · exact h
      · next hv =>
        exact (Memory.wfAbove_cons _ _ _ _).2 ⟨hlo, ha, hv, (Memory.wfAbove_cons _ _ _ _).2 ⟨by simpa using hlt, h'.2⟩⟩
    · split
      · next hak =>
        subst hak
        split
        · exact Memory.wfAbove_weaken (fun l hl => ⟨_, rfl, le_of_lt (h'.1 l hl)⟩) h'.2.2.2
        · next hv => exact (Memory.wfAbove_cons _ _ _ _).2 ⟨h'.1, h'.2.1, hv, h'.2.2.2⟩
      · next hak hka =>
        exact (Memory.wfAbove_cons _ _ _ _).2 ⟨h'.1, h'.2.1, h'.2.2.1, ih h'.2.2.2 (by simp; omega)⟩

theorem Memory.wf_write {m : Memory} (h : m.wf = true) {a : Nat} (v : Byte) (ha : a < 2 ^ Config.addrBits) :
    (Memory.write m a v).wf = true := Memory.wfAbove_write h v (by simp) ha

theorem phys_lt (a : Long) : phys a < 2 ^ Config.addrBits := Nat.mod_lt _ (by positivity)

/-- The cells of an operand lie at memory addresses. -/
theorem cellsFrom_lt (a : Long) (bs : List Byte) : ∀ c, c ∈ cellsFrom a bs → c.1 < 2 ^ Config.addrBits := by
  induction bs generalizing a with
  | nil => simp [cellsFrom]
  | cons b bs ih =>
    intro c hc
    simp only [cellsFrom, List.mem_cons] at hc
    rcases hc with rfl | hc
    · exact phys_lt a
    · exact ih _ c hc

theorem cellsOf_lt (sz : Size) (a : Long) (v : Nat) : ∀ c, c ∈ cellsOf sz a v → c.1 < 2 ^ Config.addrBits :=
  cellsFrom_lt a _

/-- Writing cells at memory addresses keeps the canonical form. -/
theorem Memory.wf_writes {m : Memory} (h : m.wf = true) (cells : List Host.Cell)
    (hc : ∀ c, c ∈ cells → c.1 < 2 ^ Config.addrBits) :
    Memory.wf (cells.foldl (fun m c => Memory.write m c.1 c.2) m) = true := by
  induction cells generalizing m with
  | nil => exact h
  | cons c cells ih =>
    exact ih (Memory.wf_write h _ (hc _ List.mem_cons_self)) (fun c hc' => hc c (List.mem_cons_of_mem _ hc'))

theorem State.wf_poke {s : State} (h : s.mem.wf = true) (cells : List Host.Cell)
    (hc : ∀ c, c ∈ cells → c.1 < 2 ^ Config.addrBits) : (s.poke cells).mem.wf = true := Memory.wf_writes h cells hc

/-- Placing instruction words keeps the canonical form. -/
theorem Memory.wf_placeWords {m : Memory} (h : m.wf = true) (a : Long) (ws : List Word) :
    (Memory.placeWords m a ws).wf = true := by
  induction ws generalizing m a with
  | nil => exact h
  | cons v vs ih => exact ih (Memory.wf_write (Memory.wf_write h _ (phys_lt _)) _ (phys_lt _)) _

/-- The region of an address depends on the memory map alone. -/
theorem State.kindAt_congr {s t : State} (h : t.regions = s.regions) (a : Nat) : t.kindAt a = s.kindAt a := by
  simp [State.kindAt, h]

/-- Writing cells leaves every address that is not among them. -/
theorem Memory.read_writes_of_not_mem (m : Memory) (cells : List Host.Cell) (b : Nat) (h : ∀ c, c ∈ cells → c.1 ≠ b) :
    Memory.read (cells.foldl (fun m c => Memory.write m c.1 c.2) m) b = Memory.read m b := by
  induction cells generalizing m with
  | nil => rfl
  | cons c cells ih =>
    rw [List.foldl_cons, ih _ (fun c hc => h c (List.mem_cons_of_mem _ hc))]
    exact Memory.read_write_ne _ _ (Ne.symm (h _ List.mem_cons_self))

theorem State.read_poke_of_not_mem (s : State) (cells : List Host.Cell) (b : Nat) (h : ∀ c, c ∈ cells → c.1 ≠ b) :
    Memory.read (s.poke cells).mem b = Memory.read s.mem b := Memory.read_writes_of_not_mem s.mem cells b h

/-- Writing cells at distinct memory addresses into canonical memory: each is read back. -/
theorem Memory.read_writes_of_mem {m : Memory} (hw : m.wf = true) {cells : List Host.Cell}
    (hc : ∀ c, c ∈ cells → c.1 < 2 ^ Config.addrBits) (hd : (cells.map Prod.fst).Nodup) {c : Host.Cell} (h : c ∈ cells) :
    Memory.read (cells.foldl (fun m c => Memory.write m c.1 c.2) m) c.1 = c.2 := by
  induction cells generalizing m with
  | nil => simp at h
  | cons e cells ih =>
    simp only [List.map_cons, List.nodup_cons, List.mem_map, not_exists, not_and] at hd
    rw [List.foldl_cons]
    rcases List.mem_cons.1 h with rfl | h'
    · rw [Memory.read_writes_of_not_mem _ _ _ (fun c hc' e => hd.1 c hc' e)]
      exact Memory.read_write_same hw _ _
    · exact ih (Memory.wf_write hw _ (hc _ List.mem_cons_self)) (fun c hc' => hc c (List.mem_cons_of_mem _ hc')) hd.2 h'

theorem State.read_poke_of_mem {s : State} (hw : s.mem.wf = true) {cells : List Host.Cell}
    (hc : ∀ c, c ∈ cells → c.1 < 2 ^ Config.addrBits) (hd : (cells.map Prod.fst).Nodup) {c : Host.Cell} (h : c ∈ cells) :
    Memory.read (s.poke cells).mem c.1 = c.2 := Memory.read_writes_of_mem hw hc hd h

end Sys2Proof.Machine
end

