-- ==== Sys2Proof/Laws/Access.lean ====
section
/-! SUPPORT. One lemma per shared operation of the bus: what an access, a store, a jump can do. -/

namespace Sys2Proof.Machine

/-! Addresses. -/

/-- Memory sees an address modulo its size. -/
theorem phys_add (a : Long) (k : Nat) : phys (a + BitVec.ofNat 32 k) = (phys a + k) % 16777216 := by
  simp only [phys, Config.addrBits, BitVec.toNat_add, BitVec.toNat_ofNat]
  omega

theorem phys_lt' (a : Long) : phys a < 16777216 := Nat.mod_lt _ (by decide)

/-- The addresses of a few bytes are distinct. -/
theorem phys_add_inj (a : Long) {j k : Nat} (hj : j < 16777216) (hk : k < 16777216)
    (h : phys (a + BitVec.ofNat 32 j) = phys (a + BitVec.ofNat 32 k)) : j = k := by
  rw [phys_add, phys_add] at h
  have := phys_lt' a
  omega

theorem nodup_addrs (n : Nat) (a : Long) (hn : n ≤ 16777216) : (addrs n a).Nodup := by
  refine List.Nodup.map_on (fun x hx y hy h => ?_) List.nodup_range
  simp only [List.mem_range] at hx hy
  exact phys_add_inj a (by omega) (by omega) h

theorem mem_addrs {n : Nat} {a : Long} {b : Nat} : b ∈ addrs n a ↔ ∃ k, k < n ∧ phys (a + BitVec.ofNat 32 k) = b := by
  simp [addrs]

/-- The prefetch window is the four bytes at the pc. -/
theorem inPrefetchWindow_iff (s : State) (b : Nat) : s.inPrefetchWindow b = true ↔ b ∈ addrs 4 s.pc := by
  simp only [State.inPrefetchWindow, addrs, List.range, List.range.loop, List.map, Bool.or_eq_true, beq_iff_eq,
    List.mem_cons, List.not_mem_nil, or_false, or_assoc]
  simp

/-- The cells of an operand are its bytes, the most significant at the lowest address. -/
theorem cellsOf_eq (sz : Size) (a : Long) (v : Nat) :
    cellsOf sz a v = (List.range sz.bytes).map
      (fun k => (phys (a + BitVec.ofNat 32 k), BitVec.ofNat 8 (v / 256 ^ (sz.bytes - 1 - k)))) := by
  cases sz <;> simp [cellsOf, bytesOf, cellsFrom, Size.bytes, List.range, List.range.loop, BitVec.add_assoc]

theorem cellsOf_addrs (sz : Size) (a : Long) (v : Nat) : (cellsOf sz a v).map Prod.fst = addrs sz.bytes a := by
  simp [cellsOf_eq, addrs, Function.comp_def]

/-! Bus cycles. -/

/-- The platform's answers change nothing but what is left of them. -/
theorem answer_state (s : State) : ∃ l k, s.answer.2 = { s with answers := l, draws := k } := by
  unfold State.answer
  split
  · exact ⟨_, s.draws, rfl⟩
  · exact ⟨s.answers, _, rfl⟩

/-- What one bus cycle can do: it ends in an answer or in a bus error. -/
theorem busCycle_cases (s : State) (a : Long) (read program : Bool) (pending : List Host.Cell) :
    ∃ l k, (∃ x, s.busCycle a read program pending = .ok (x, { s with answers := l, draws := k })) ∨
      s.busCycle a read program pending =
        .error (.access { bus := true, addr := a, read := read, program := program } { s with answers := l, draws := k } pending) := by
  unfold State.busCycle
  cases s.kindAt (phys a) with
  | ram => exact ⟨s.answers, s.draws, .inl ⟨_, rfl⟩⟩
  | rom => exact ⟨s.answers, s.draws, .inl ⟨_, rfl⟩⟩
  | absent => exact ⟨s.answers, s.draws, .inr rfl⟩
  | device =>
    obtain ⟨l, k, h⟩ := answer_state s
    refine ⟨l, k, ?_⟩
    rcases h' : s.answer with ⟨x, t⟩
    rw [h'] at h
    cases x
    all_goals simp_all
  | undriven st =>
    cases read
    · exact ⟨s.answers, s.draws, .inl ⟨_, rfl⟩⟩
    · exact ⟨s.answers, s.draws + 1, .inl ⟨_, rfl⟩⟩

/-- A window that drives no data gives a read a free one. -/
theorem busCycle_undriven {s : State} {a : Long} {st : Bool} (h : s.kindAt (phys a) = .undriven st) (program : Bool)
    (pending : List Host.Cell) : s.busCycle a true program pending =
      .ok (.data (BitVec.ofNat 16 (Config.freeNat s.draws)), s.drawn 1) := by
  simp [State.busCycle, h]

theorem busCycle_absent {s : State} {a : Long} (h : s.kindAt (phys a) = .absent) (read program : Bool)
    (pending : List Host.Cell) : s.busCycle a read program pending =
      .error (.access { bus := true, addr := a, read := read, program := program } s pending) := by
  simp [State.busCycle, h]

/-- Memory reads as it is, and takes a write where it is RAM. -/
theorem busCycle_ok {s : State} {a : Long} (h : s.Answers a) (read program : Bool) (pending : List Host.Cell) :
    s.busCycle a read program pending = .ok (if read then .memory else s.mayTake a, s) := by
  unfold State.busCycle State.mayTake
  rcases h with h | h <;> rw [h]
  cases read <;> rfl

/-- What the bus cycles of an access can do: they are all answered, or there is a bus error, or the address is odd. -/
theorem busCycles_cases (s : State) (sz : Size) (a : Long) (read program : Bool) (pending : List Host.Cell) :
    (sz ≠ .b ∧ a.toNat % 2 = 1 ∧ s.busCycles sz a read program pending =
      .error (.access { bus := false, addr := a, read := read, program := program } s [])) ∨
    ((sz = .b ∨ a.toNat % 2 = 0) ∧ ∃ l k,
      (∃ x y, s.busCycles sz a read program pending = .ok (x, y, { s with answers := l, draws := k })) ∨
      ∃ b, s.busCycles sz a read program pending =
        .error (.access { bus := true, addr := b, read := read, program := program } { s with answers := l, draws := k } pending)) := by
  unfold State.busCycles
  by_cases ho : sz ≠ .b ∧ a.toNat % 2 = 1
  · simp [ho]
  · refine .inr ⟨?_, ?_⟩
    · by_cases hb : sz = .b
      · exact .inl hb
      · exact .inr ((Nat.mod_two_eq_zero_or_one _).resolve_right (fun h => ho ⟨hb, h⟩))
    rw [if_neg ho]
    obtain ⟨l, k, ⟨x, h⟩ | h⟩ := busCycle_cases s a read program pending <;> rw [h]
    · by_cases hl : sz = .l
      · simp only [hl, if_true]
        obtain ⟨l', k', ⟨y, h'⟩ | h'⟩ := busCycle_cases { s with answers := l, draws := k } (a + 2) read program pending <;> rw [h']
        · exact ⟨l', k', .inl ⟨x, y, rfl⟩⟩
        · exact ⟨l', k', .inr ⟨_, rfl⟩⟩
      · exact ⟨l, k, .inl ⟨x, x, by simp [hl]⟩⟩
    · exact ⟨l, k, .inr ⟨_, rfl⟩⟩

theorem even_of_reach {s : State} {sz : Size} {a : Long} (h : s.CanReach sz a) : ¬(sz ≠ .b ∧ a.toNat % 2 = 1) := by
  rintro ⟨h1, h2⟩
  rcases h.1 with h | h
  · exact h1 h
  · omega

theorem busCycles_ok {s : State} {sz : Size} {a : Long} (h : s.CanReach sz a) (read program : Bool)
    (pending : List Host.Cell) : s.busCycles sz a read program pending =
      .ok (if read then .memory else s.mayTake a,
        if read then .memory else if sz = .l then s.mayTake (a + 2) else s.mayTake a, s) := by
  unfold State.busCycles
  rw [if_neg (even_of_reach h), busCycle_ok h.2.1]
  by_cases hl : sz = .l
  · simp only [hl, if_true]
    rw [busCycle_ok (h.2.2 hl)]
  · simp [hl]

theorem busCycles_odd {s : State} {sz : Size} {a : Long} (hb : sz ≠ .b) (ho : a.toNat % 2 = 1) (read program : Bool)
    (pending : List Host.Cell) : s.busCycles sz a read program pending =
      .error (.access { bus := false, addr := a, read := read, program := program } s []) := by
  unfold State.busCycles
  rw [if_pos ⟨hb, ho⟩]

/-- Reachability depends on the memory map alone. -/
theorem CanReach_congr {s t : State} (h : t.regions = s.regions) (sz : Size) (a : Long) : t.CanReach sz a ↔ s.CanReach sz a := by
  simp [State.CanReach, State.Answers, State.kindAt_congr h]

/-- A byte or word depends on memory alone. -/
theorem peek_congr {s t : State} (h : t.mem = s.mem) (sz : Size) (a : Long) : t.peek sz a = s.peek sz a := by
  cases sz <;> simp [State.peek, State.byteAt, h]

/-- A long is its two words. -/
theorem peek_long (s : State) (a : Long) : s.peek .l a = 65536 * s.peek .w a + s.peek .w (a + 2) := by
  have h : a + 2 + 1 = a + 3 := by rw [BitVec.add_assoc]; rfl
  simp only [State.peek, h]
  omega

theorem memRead_ok {s : State} {sz : Size} {a : Long} (h : s.CanReach sz a) (program : Bool) :
    s.memRead sz a program = .ok (s.peek sz a, s) := by
  cases sz <;> simp [State.memRead, busCycles_ok h, State.answeredValue, State.cycleValue, peek_long]

/-- What a read can do: it gives a number, or it ends in a bus or address error; the state is as before but for what is left
of the platform's answers. -/
theorem memRead_cases (s : State) (sz : Size) (a : Long) (program : Bool) :
    ∃ l k, (∃ v, s.memRead sz a program = .ok (v, { s with answers := l, draws := k })) ∨
      ∃ f, s.memRead sz a program = .error (.access f { s with answers := l, draws := k } []) := by
  unfold State.memRead
  rcases busCycles_cases s sz a true program [] with ⟨_, _, h⟩ | ⟨_, l, k, ⟨x, y, h⟩ | ⟨b, h⟩⟩ <;> rw [h]
  · exact ⟨s.answers, s.draws, .inr ⟨_, rfl⟩⟩
  · exact ⟨l, k, .inl ⟨_, rfl⟩⟩
  · exact ⟨l, k, .inr ⟨_, rfl⟩⟩

/-- A number read from memory has the operand's width. -/
theorem peek_lt (s : State) (sz : Size) (a : Long) : s.peek sz a < 2 ^ sz.bits := by
  cases sz <;> simp only [State.peek, Size.bits]
  · exact (s.byteAt a).isLt
  · have h1 := (s.byteAt a).isLt
    have h2 := (s.byteAt (a + 1)).isLt
    omega
  · have h1 := (s.byteAt a).isLt
    have h2 := (s.byteAt (a + 1)).isLt
    have h3 := (s.byteAt (a + 2)).isLt
    have h4 := (s.byteAt (a + 3)).isLt
    omega

/-! Stores. -/

/-- The two words of a long cover its cells. -/
theorem cellsOf_long (a : Long) (v : Nat) : cellsOf .w a (v / 65536) ++ cellsOf .w (a + 2) v = cellsOf .l a v := by
  have h : a + 2 + 1 = a + 3 := by rw [BitVec.add_assoc]; rfl
  have h1 : a + 1 + 1 = a + 2 := by rw [BitVec.add_assoc]; rfl
  simp only [cellsOf, bytesOf, cellsFrom, Nat.div_div_eq_div_mul, h1, h]
  rfl

/-- A store changes no cell but those of the operand. -/
theorem answeredCells_sublist (sz : Size) (a : Long) (v : Nat) (x y : BusAnswer) :
    (answeredCells sz a v x y).Sublist (cellsOf sz a v) := by
  cases sz with
  | l =>
    rw [← cellsOf_long]
    exact List.Sublist.append (by split <;> simp) (by split <;> simp)
  | b => simp only [answeredCells]; split <;> simp
  | w => simp only [answeredCells]; split <;> simp

theorem mayCells_sublist (s : State) (sz : Size) (a : Long) (v : Nat) : (s.mayCells sz a v).Sublist (cellsOf sz a v) := by
  unfold State.mayCells
  split
  · simp
  · exact answeredCells_sublist _ _ _ _ _

theorem mayCells_congr {s t : State} (h : t.regions = s.regions) (sz : Size) (a : Long) (v : Nat) :
    t.mayCells sz a v = s.mayCells sz a v := by
  simp [State.mayCells, State.mayTake, State.kindAt_congr h]

/-- Where RAM takes the whole store, all its cells change. -/
theorem mayCells_ram {s : State} {sz : Size} {a : Long} (he : sz = .b ∨ a.toNat % 2 = 0)
    (h : ∀ b, b ∈ addrs sz.bytes a → s.kindAt b = .ram) (v : Nat) : s.mayCells sz a v = cellsOf sz a v := by
  have hk : ∀ k, k < sz.bytes → s.mayTake (a + BitVec.ofNat 32 k) = .memory := fun k hk => by
    simp [State.mayTake, h _ (mem_addrs.2 ⟨k, hk, rfl⟩)]
  have h0 := hk 0 (by cases sz <;> decide)
  simp only [BitVec.add_zero] at h0
  rw [State.mayCells, if_neg (by rintro ⟨h1, h2⟩; rcases he with h | h <;> simp_all)]
  cases sz with
  | b => simp [answeredCells, h0]
  | w => simp [answeredCells, h0]
  | l =>
    have h2 := hk 2 (by decide)
    change s.mayTake (a + 2) = _ at h2
    simp only [answeredCells, h0, h2, if_true, cellsOf_long]

theorem writeCycles_ok {s : State} {sz : Size} {a : Long} (h : s.CanReach sz a) (v : Nat) (pending : List Host.Cell) :
    s.writeCycles sz a v pending = .ok (s.mayCells sz a v, s) := by
  unfold State.writeCycles State.mayCells
  rw [busCycles_ok h, if_neg (even_of_reach h)]
  cases sz <;> simp [answeredCells]

/-- What the bus cycles of a write can do. -/
theorem writeCycles_cases (s : State) (sz : Size) (a : Long) (v : Nat) (pending : List Host.Cell) :
    ∃ l k, (∃ cells, (∀ c, c ∈ cells → c ∈ cellsOf sz a v) ∧
        s.writeCycles sz a v pending = .ok (cells, { s with answers := l, draws := k })) ∨
      ∃ f p, (p = pending ∨ p = []) ∧
        s.writeCycles sz a v pending = .error (.access f { s with answers := l, draws := k } p) := by
  unfold State.writeCycles
  rcases busCycles_cases s sz a false false pending with ⟨_, _, h⟩ | ⟨_, l, k, ⟨x, y, h⟩ | ⟨b, h⟩⟩ <;> rw [h]
  · exact ⟨s.answers, s.draws, .inr ⟨_, _, .inr rfl, rfl⟩⟩
  · exact ⟨l, k, .inl ⟨_, fun c hc => (answeredCells_sublist _ _ _ _ _).subset hc, rfl⟩⟩
  · exact ⟨l, k, .inr ⟨_, _, .inl rfl, rfl⟩⟩

theorem storeCells_ok {s : State} {cells : List Host.Cell} (h : ∀ b, b ∈ cells.map Prod.fst → b ∉ addrs 4 s.pc) :
    s.storeCells cells = .ok (s.poke cells) := by
  unfold State.storeCells
  rw [if_neg]
  simp only [List.any_eq_true, inPrefetchWindow_iff, not_exists, not_and]
  exact fun c hc => h _ (List.mem_map_of_mem hc)

theorem memWrite_ok {s : State} {sz : Size} {a : Long} (h : s.CanStore sz a) (v : Nat) :
    s.memWrite sz a v = .ok (s.poke (s.mayCells sz a v)) := by
  unfold State.memWrite
  rw [writeCycles_ok h.1]
  refine storeCells_ok (fun b hb => h.2 b ?_)
  obtain ⟨c, hc, rfl⟩ := List.mem_map.1 hb
  rw [← cellsOf_addrs sz a v]
  exact List.mem_map_of_mem ((mayCells_sublist _ _ _ _).subset hc)

/-- A list of stores that memory takes: the cells of each, in order. -/
theorem writeAll_ok {s : State} {sz : Size} {stores : List (Long × Nat)} (h : ∀ p, p ∈ stores → s.CanReach sz p.1)
    (pending : List Host.Cell) :
    s.writeAll sz pending stores = .ok (stores.flatMap (fun p => s.mayCells sz p.1 p.2), s) := by
  induction stores with
  | nil => rfl
  | cons p rest ih =>
    rw [State.writeAll, writeCycles_ok (h p List.mem_cons_self)]
    simp [ih (fun q hq => h q (List.mem_cons_of_mem _ hq))]

theorem storeAll_ok {s : State} {sz : Size} {stores : List (Long × Nat)} (h : ∀ p, p ∈ stores → s.CanStore sz p.1) :
    s.storeAll sz stores = .ok (s.poke (stores.flatMap (fun p => s.mayCells sz p.1 p.2))) := by
  unfold State.storeAll
  rw [writeAll_ok (fun p hp => (h p hp).1)]
  refine storeCells_ok (fun b hb => ?_)
  obtain ⟨c, hc, rfl⟩ := List.mem_map.1 hb
  obtain ⟨p, hp, hc⟩ := List.mem_flatMap.1 hc
  refine (h p hp).2 _ ?_
  rw [← cellsOf_addrs sz p.1 p.2]
  exact List.mem_map_of_mem ((mayCells_sublist _ _ _ _).subset hc)

/-- A cell a store may change lies in a bus cycle that ROM does not answer. -/
theorem of_mem_mayCells {s : State} {sz : Size} {a : Long} {v : Nat} {c : Host.Cell} (h : c ∈ s.mayCells sz a v) :
    ∃ k, k < sz.bytes ∧ c.1 = phys (a + BitVec.ofNat 32 k) ∧ s.kindAt (phys (a + BitVec.ofNat 32 (k / 2 * 2))) ≠ .rom := by
  have hk : ∀ b, s.mayTake b = .memory → s.kindAt (phys b) ≠ .rom := fun b hb e => by simp [State.mayTake, e] at hb
  have w : ∀ b v, c ∈ (if s.mayTake b = .memory then cellsOf .w b v else []) →
      ∃ k, k < 2 ∧ c.1 = phys (b + BitVec.ofNat 32 k) ∧ s.kindAt (phys b) ≠ .rom := by
    intro b v hc
    split at hc
    · next hm =>
      have : c.1 ∈ addrs 2 b := (cellsOf_addrs .w b v) ▸ List.mem_map_of_mem hc
      obtain ⟨k, hk', e⟩ := mem_addrs.1 this
      exact ⟨k, hk', e.symm, hk b hm⟩
    · simp at hc
  unfold State.mayCells at h
  split at h
  · simp at h
  cases sz with
  | b =>
    simp only [answeredCells] at h
    split at h
    · next hm =>
      simp only [cellsOf, bytesOf, cellsFrom, List.mem_singleton] at h
      exact ⟨0, by decide, by simp [h], by simpa using hk a hm⟩
    · simp at h
  | w =>
    obtain ⟨k, hk', e, hr⟩ := w a v h
    exact ⟨k, hk', e, by rw [Nat.div_eq_of_lt hk']; simpa using hr⟩
  | l =>
    simp only [answeredCells, List.mem_append] at h
    rcases h with h | h
    · obtain ⟨k, hk', e, hr⟩ := w _ _ h
      exact ⟨k, by simp only [Size.bytes]; omega, e, by rw [Nat.div_eq_of_lt hk']; simpa using hr⟩
    · obtain ⟨k, hk', e, hr⟩ := w _ _ h
      refine ⟨2 + k, by simp only [Size.bytes]; omega, ?_, ?_⟩
      · rw [e, BitVec.add_assoc, BitVec.ofNat_add]
        rfl
      · rw [show (2 + k) / 2 * 2 = 2 by omega]
        exact hr

/-- Every byte of a store but those of a bus cycle that ROM answers is a cell of it. -/
theorem mem_mayCells {s : State} {sz : Size} {a : Long} (h : s.CanReach sz a) (v : Nat) {k : Nat} (hk : k < sz.bytes)
    (hr : s.kindAt (phys (a + BitVec.ofNat 32 (k / 2 * 2))) ≠ .rom) :
    (phys (a + BitVec.ofNat 32 k), BitVec.ofNat 8 (v / 256 ^ (sz.bytes - 1 - k))) ∈ s.mayCells sz a v := by
  have ht : ∀ b, s.Answers b → s.kindAt (phys b) ≠ .rom → s.mayTake b = .memory := fun b hb hn => by
    rcases hb with hb | hb
    · simp [State.mayTake, hb]
    · exact absurd hb hn
  have hm : ∀ sz a v, k < sz.bytes →
      (phys (a + BitVec.ofNat 32 k), BitVec.ofNat 8 (v / 256 ^ (sz.bytes - 1 - k))) ∈ cellsOf sz a v := fun sz a v hk => by
    rw [cellsOf_eq]
    exact List.mem_map.2 ⟨k, List.mem_range.2 hk, rfl⟩
  rw [State.mayCells, if_neg (even_of_reach h)]
  by_cases h2 : k < 2
  · rw [Nat.div_eq_of_lt h2] at hr
    simp only [Nat.zero_mul, BitVec.add_zero] at hr
    have h0 := ht a h.2.1 hr
    cases sz with
    | b => simpa [answeredCells, h0] using hm .b a v hk
    | w => simpa [answeredCells, h0] using hm .w a v hk
    | l =>
      simp only [answeredCells, h0, if_true, List.mem_append]
      left
      have := hm .w a (v / 65536) h2
      rw [Nat.div_div_eq_div_mul, show 65536 * 256 ^ (Size.bytes .w - 1 - k) = 256 ^ (Size.bytes .l - 1 - k) by
        interval_cases k <;> rfl] at this
      exact this
  · cases sz with
    | b => simp only [Size.bytes] at hk; omega
    | w => simp only [Size.bytes] at hk; omega
    | l =>
      simp only [Size.bytes] at hk
      rw [show k / 2 * 2 = 2 by omega] at hr
      have h0 := ht (a + 2) (h.2.2 rfl) hr
      simp only [answeredCells, h0, if_true, List.mem_append]
      right
      rw [cellsOf_eq]
      refine List.mem_map.2 ⟨k - 2, List.mem_range.2 (by simp only [Size.bytes]; omega), ?_⟩
      rw [BitVec.add_assoc, show (2 : Long) + BitVec.ofNat 32 (k - 2) = BitVec.ofNat 32 k by
        interval_cases k <;> rfl]
      interval_cases k <;> rfl

/-- What storing an operand leaves in memory. -/
theorem Stored_poke {s : State} (hw : s.mem.wf = true) {sz : Size} {a : Long} (h : s.CanReach sz a) (v : Nat) :
    Stored s (s.poke (s.mayCells sz a v)).mem sz.bytes a v := by
  have hnd : ((s.mayCells sz a v).map Prod.fst).Nodup := by
    refine List.Nodup.sublist ((mayCells_sublist s sz a v).map Prod.fst) ?_
    rw [cellsOf_addrs]
    exact nodup_addrs _ _ (by cases sz <;> decide)
  refine ⟨fun b hb => State.read_poke_of_not_mem _ _ _ (fun c hc e => hb ?_), fun k hk => ?_⟩
  · obtain ⟨k, hk, e', _⟩ := of_mem_mayCells hc
    exact mem_addrs.2 ⟨k, hk, by rw [← e', e]⟩
  · split
    · next hr =>
      refine State.read_poke_of_not_mem _ _ _ (fun c hc e => ?_)
      obtain ⟨j, hj, e', hn⟩ := of_mem_mayCells hc
      have hb : sz.bytes < 16777216 := by cases sz <;> decide
      have := phys_add_inj a (by omega) (by omega) (e'.symm.trans e)
      exact hn (this ▸ hr)
    · next hr =>
      exact State.read_poke_of_mem hw (fun c hc => cellsOf_lt sz a v c ((mayCells_sublist _ _ _ _).subset hc)) hnd
        (mem_mayCells h v hk hr)

/-- The state after a store: memory as `Stored` says, the bookkeeping brought up to date, all else as before. -/
theorem poke_eq (s : State) (cells : List Host.Cell) :
    s.poke cells = { s with mem := (s.poke cells).mem, book := (s.poke cells).book } := rfl

/-! Reading ahead. -/

/-- A read ahead changes what is left of the platform's answers and the free values drawn, nothing else. -/
theorem lookAhead_eq (s : State) (a : Long) : ∃ x l k, s.lookAhead a = (x, { s with answers := l, draws := k }) := by
  unfold State.lookAhead
  obtain ⟨l, k, ⟨x, h⟩ | h⟩ := busCycle_cases s a true true [] <;> rw [h]
  · exact ⟨x, l, k, rfl⟩
  · exact ⟨.busError, l, k, rfl⟩

/-- Where memory answers, it changes nothing. -/
theorem lookAhead_ok {s : State} {a : Long} (h : s.Answers a) : s.lookAhead a = (.memory, s) := by
  rw [State.lookAhead, busCycle_ok h]
  rfl

/-- Where nothing answers, the error is kept. -/
theorem lookAhead_absent {s : State} {a : Long} (h : s.kindAt (phys a) = .absent) : s.lookAhead a = (.busError, s) := by
  rw [State.lookAhead, busCycle_absent h]

/-- In a device window it uses an answer, and an error is kept. -/
theorem lookAhead_device {s : State} {a : Long} {x : BusAnswer} {l : List BusAnswer} (h : s.kindAt (phys a) = .device)
    (hx : s.answers = x :: l) : s.lookAhead a = (x, { s with answers := l }) := by
  unfold State.lookAhead State.busCycle
  rw [h]
  simp only [State.answer, hx]
  cases x <;> rfl

theorem extraRead_eq (s : State) : ∃ l k, s.extraRead = { s with answers := l, draws := k } := by
  obtain ⟨x, l, k, h⟩ := lookAhead_eq s s.pc
  exact ⟨l, k, by rw [State.extraRead, h]⟩

theorem arrive_eq (s : State) (x : BusAnswer) : ∃ l k q, s.arrive x = { s with answers := l, draws := k, ahead := q } := by
  obtain ⟨y, l, k, h⟩ := lookAhead_eq s (s.pc + 2)
  exact ⟨l, k, [x, y], by rw [State.arrive, h]⟩

theorem landAt_eq (s : State) (t : Long) :
    ∃ l k q, s.landAt t = { s with pc := t, answers := l, draws := k, ahead := q } := arrive_eq _ _

theorem readAhead_eq (s : State) : ∃ l k q, s.readAhead = { s with answers := l, draws := k, ahead := q } := by
  unfold State.readAhead
  split
  · obtain ⟨x, l, k, h⟩ := lookAhead_eq s s.pc
    obtain ⟨y, l', k', h'⟩ := lookAhead_eq { s with answers := l, draws := k } (s.pc + 2)
    exact ⟨l', k', [x, y], by simp only [h, h']⟩
  · next x _ =>
    obtain ⟨y, l, k, h⟩ := lookAhead_eq s (s.pc + 2)
    exact ⟨l, k, [x, y], by rw [h]⟩
  · exact ⟨s.answers, s.draws, s.ahead, rfl⟩

/-- After them two words are read ahead. -/
theorem readAhead_length {s : State} (h : s.ahead.length ≤ 2) : s.readAhead.ahead.length = 2 := by
  unfold State.readAhead
  split
  · rfl
  · rfl
  · rcases h' : s.ahead with _ | ⟨x, _ | ⟨y, _ | ⟨z, l⟩⟩⟩ <;> simp_all

/-- Where memory answers, the words read ahead again are memory's. -/
theorem readAhead_ok {s : State} (h0 : s.Answers s.pc) (h2 : s.Answers (s.pc + 2)) (ha : ∀ x, x ∈ s.ahead → x = .memory)
    (hl : s.ahead.length ≤ 2) : s.readAhead = { s with ahead := [.memory, .memory] } := by
  unfold State.readAhead
  rcases h' : s.ahead with _ | ⟨x, _ | ⟨y, _ | ⟨z, l⟩⟩⟩
  · simp only [lookAhead_ok h0, lookAhead_ok h2]
  · have hx : x = .memory := ha x (by simp [h'])
    simp only [lookAhead_ok h2, hx]
  · have hx : x = .memory := ha x (by simp [h'])
    have hy : y = .memory := ha y (by simp [h'])
    subst hx hy
    simp only []
    rw [← h']
  · simp [h'] at hl

theorem extraRead_ok {s : State} (h : s.Answers s.pc) : s.extraRead = s := by rw [State.extraRead, lookAhead_ok h]

/-- A change of flow within memory. -/
theorem landAt_ok {s : State} {t : Long} (h : s.Answers (t + 2)) :
    s.landAt t = { s with pc := t, ahead := [.memory, .memory] } := by
  have h' : ({ s with pc := t } : State).Answers (t + 2) := by simpa [State.Answers, State.kindAt] using h
  rw [State.landAt, State.arrive, lookAhead_ok h']

/-! Jumps. -/

theorem jump_ok {s : State} {t : Long} (h : s.CanReach .w t) : s.jump t = .ok (s.landAt t) := by
  unfold State.jump
  rw [busCycles_ok ((CanReach_congr (by rfl) _ _).2 h)]
  rfl

/-- What a jump can do: the pc is loaded, and the word at an even target is read, or the read ends in an error. -/
theorem jump_cases (s : State) (t : Long) :
    ∃ l k, (t.toNat % 2 = 0 ∧ ∃ x, s.jump t = .ok (({ s with pc := t, answers := l, draws := k } : State).arrive x)) ∨
      ∃ f, s.jump t = .error (.access f { s with pc := t, answers := l, draws := k } []) := by
  unfold State.jump
  rcases busCycles_cases { s with pc := t } .w t true true [] with ⟨_, _, h⟩ | ⟨he, l, k, ⟨x, y, h⟩ | ⟨b, h⟩⟩ <;> rw [h]
  · exact ⟨s.answers, s.draws, .inr ⟨_, rfl⟩⟩
  · exact ⟨l, k, .inl ⟨by simpa using he, x, rfl⟩⟩
  · exact ⟨l, k, .inr ⟨_, rfl⟩⟩

/-! Vectors. -/

/-- A vector in memory counts as unset exactly where nothing has written it. -/
theorem vectorUnset_iff {s : State} {v : Nat} (h : s.CanReach .l (BitVec.ofNat 32 (4 * v))) :
    s.vectorUnset v = true ↔ ¬s.VectorSet v := by
  have hm : ∀ a, s.Answers a → s.inMemory a = true := fun a ha => by
    simpa [State.inMemory, State.Answers] using ha
  have hc : ∀ P : Nat → Prop, (∀ c, c ∈ cellsOf .l (BitVec.ofNat 32 (4 * v)) 0 → P c.1) ↔
      ∀ b, b ∈ addrs 4 (BitVec.ofNat 32 (4 * v)) → P b := fun P => by
    rw [← show _ = addrs 4 _ from cellsOf_addrs .l (BitVec.ofNat 32 (4 * v)) 0]
    simp
  have h4 := hc (fun b => Memory.read s.mem b = Config.unwrittenByte)
  simp only [State.vectorUnset, hm _ h.2.1, hm _ (h.2.2 rfl), Bool.and_true, Bool.and_eq_true, Bool.not_eq_true',
    List.all_eq_true, beq_iff_eq, State.VectorSet, not_or, not_exists, not_and, not_not, h4]
  simp

theorem followVector_ok {s : State} {v : Nat} (h : s.CanReach .l (BitVec.ofNat 32 (4 * v)))
    (ht : s.CanReach .w (BitVec.ofNat 32 (s.peek .l (BitVec.ofNat 32 (4 * v))))) :
    s.followVector v = .ok (s.landAt (BitVec.ofNat 32 (s.peek .l (BitVec.ofNat 32 (4 * v))))) := by
  rw [State.followVector, memRead_ok h]
  exact jump_ok ht

/-- Control goes where a set vector says. -/
theorem toVector_ok {s : State} {v : Nat} (h : s.CanReach .l (BitVec.ofNat 32 (4 * v))) (hv : s.VectorSet v)
    (ht : s.CanReach .w (BitVec.ofNat 32 (s.peek .l (BitVec.ofNat 32 (4 * v))))) :
    s.toVector v = .ok (s.landAt (BitVec.ofNat 32 (s.peek .l (BitVec.ofNat 32 (4 * v))))) := by
  rw [State.toVector, if_neg (fun e => (vectorUnset_iff h).1 e hv), followVector_ok h ht]

/-- Through one that nothing has written it does not go. -/
theorem toVector_unset {s : State} {v : Nat} (h : s.CanReach .l (BitVec.ofNat 32 (4 * v))) (hv : ¬s.VectorSet v) :
    s.toVector v = .error (.fault .unsetVector) := by
  rw [State.toVector, if_pos ((vectorUnset_iff h).2 hv)]

/-! The stack. -/

theorem push_ok {s : State} {sz : Size} (h : (s.setSp (s.sp - BitVec.ofNat 32 sz.bytes)).CanStore sz (s.sp - BitVec.ofNat 32 sz.bytes))
    (v : Nat) : s.push sz v = .ok ((s.setSp (s.sp - BitVec.ofNat 32 sz.bytes)).poke
      ((s.setSp (s.sp - BitVec.ofNat 32 sz.bytes)).mayCells sz (s.sp - BitVec.ofNat 32 sz.bytes) v)) :=
  memWrite_ok h v

theorem pop_ok {s : State} {sz : Size} (h : s.CanReach sz s.sp) :
    s.pop sz = .ok (s.peek sz s.sp, s.setSp (s.sp + BitVec.ofNat 32 sz.bytes)) := by
  simp [State.pop, memRead_ok h]

/-! Reading an operand after a store. -/

/-- No wait states are configured. -/
theorem charge_withWait (t : Time) : t.withWait = t := by simp [Time.withWait, Config.wait]

/-- A word from its two bytes. -/
theorem peek_w_of {t : State} {a : Long} {v : Nat} (h0 : t.byteAt a = BitVec.ofNat 8 (v / 256)) (h1 : t.byteAt (a + 1) = BitVec.ofNat 8 v) (hv : v < 65536) : t.peek .w a = v := by
  show 256 * (t.byteAt a).toNat + (t.byteAt (a + 1)).toNat = v
  rw [h0, h1]; simp only [BitVec.toNat_ofNat]; omega

/-- A long from its four bytes. -/
theorem peek_l_of {t : State} {a : Long} {v : Nat} (h0 : t.byteAt a = BitVec.ofNat 8 (v / 16777216)) (h1 : t.byteAt (a + 1) = BitVec.ofNat 8 (v / 65536)) (h2 : t.byteAt (a + 2) = BitVec.ofNat 8 (v / 256)) (h3 : t.byteAt (a + 3) = BitVec.ofNat 8 v) (hv : v < 4294967296) : t.peek .l a = v := by
  show 16777216 * (t.byteAt a).toNat + 65536 * (t.byteAt (a + 1)).toNat + 256 * (t.byteAt (a + 2)).toNat + (t.byteAt (a + 3)).toNat = v
  rw [h0, h1, h2, h3]; simp only [BitVec.toNat_ofNat]; omega

/-- A store marks the vectors it reaches as written, and no other. -/
theorem poke_vectors (s : State) (cells : List Host.Cell) {v : Nat} (hv : v < 256) :
    v ∈ (s.poke cells).book.vectors ↔ v ∈ s.book.vectors ∨ ∃ c, c ∈ cells ∧ c.1 / 4 = v := by
  simp only [State.poke, Bookkeeping.stored]
  split
  · simp [hv]
  · next h =>
    refine ⟨.inl, ?_⟩
    rintro (h' | ⟨c, hc, e⟩)
    · exact h'
    · exact absurd (List.any_eq_true.2 ⟨c.1, List.mem_map_of_mem hc, by simp; omega⟩) h

/-- Storing cells elsewhere does not change an operand. -/
theorem peek_poke_of_disjoint (s : State) (cells : List Host.Cell) (sz : Size) (a : Long) (h : ∀ b, b ∈ addrs sz.bytes a → b ∉ cells.map Prod.fst) :
   (s.poke cells).peek sz a = s.peek sz a := by
  have key : ∀ k, k < sz.bytes → (s.poke cells).byteAt (a + BitVec.ofNat 32 k) = s.byteAt (a + BitVec.ofNat 32 k) := by
    intro k hk
    unfold State.byteAt
    apply State.read_poke_of_not_mem
    intro c hc e
    exact h _ (mem_addrs.2 ⟨k, hk, rfl⟩) (by rw [← e]; exact List.mem_map_of_mem hc)
  cases sz
  · have := key 0 (by decide); simp at this; simp [State.peek, this]
  · have h0 := key 0 (by decide); have h1 := key 1 (by decide); simp at h0 h1; simp [State.peek, h0, h1]
  · have h0 := key 0 (by decide); have h1 := key 1 (by decide);have h2 := key 2 (by decide); have h3 := key 3 (by decide); simp at h0 h1 h2 h3; simp [State.peek, h0, h1, h2, h3]

end Sys2Proof.Machine
end

