-- ==== Sys2Proof/Laws/ReadAhead.lean ====
section
/-! SUPPORT. One lemma per field for the reads made ahead: they change what is left of the platform's answers, the free
values drawn and the words read ahead, nothing else. -/

namespace Sys2Proof.Machine

@[simp] theorem State.extraRead_d (s : State) : s.extraRead.d = s.d := by
  obtain ⟨l, k, h⟩ := extraRead_eq s
  rw [h]
@[simp] theorem State.extraRead_a (s : State) : s.extraRead.a = s.a := by
  obtain ⟨l, k, h⟩ := extraRead_eq s
  rw [h]
@[simp] theorem State.extraRead_usp (s : State) : s.extraRead.usp = s.usp := by
  obtain ⟨l, k, h⟩ := extraRead_eq s
  rw [h]
@[simp] theorem State.extraRead_ssp (s : State) : s.extraRead.ssp = s.ssp := by
  obtain ⟨l, k, h⟩ := extraRead_eq s
  rw [h]
@[simp] theorem State.extraRead_pc (s : State) : s.extraRead.pc = s.pc := by
  obtain ⟨l, k, h⟩ := extraRead_eq s
  rw [h]
@[simp] theorem State.extraRead_sr (s : State) : s.extraRead.sr = s.sr := by
  obtain ⟨l, k, h⟩ := extraRead_eq s
  rw [h]
@[simp] theorem State.extraRead_run (s : State) : s.extraRead.run = s.run := by
  obtain ⟨l, k, h⟩ := extraRead_eq s
  rw [h]
@[simp] theorem State.extraRead_ir (s : State) : s.extraRead.ir = s.ir := by
  obtain ⟨l, k, h⟩ := extraRead_eq s
  rw [h]
@[simp] theorem State.extraRead_tracePending (s : State) : s.extraRead.tracePending = s.tracePending := by
  obtain ⟨l, k, h⟩ := extraRead_eq s
  rw [h]
@[simp] theorem State.extraRead_mem (s : State) : s.extraRead.mem = s.mem := by
  obtain ⟨l, k, h⟩ := extraRead_eq s
  rw [h]
@[simp] theorem State.extraRead_pins (s : State) : s.extraRead.pins = s.pins := by
  obtain ⟨l, k, h⟩ := extraRead_eq s
  rw [h]
@[simp] theorem State.extraRead_level7Edge (s : State) : s.extraRead.level7Edge = s.level7Edge := by
  obtain ⟨l, k, h⟩ := extraRead_eq s
  rw [h]
@[simp] theorem State.extraRead_schedule (s : State) : s.extraRead.schedule = s.schedule := by
  obtain ⟨l, k, h⟩ := extraRead_eq s
  rw [h]
@[simp] theorem State.extraRead_regions (s : State) : s.extraRead.regions = s.regions := by
  obtain ⟨l, k, h⟩ := extraRead_eq s
  rw [h]
@[simp] theorem State.extraRead_tasForbidden (s : State) : s.extraRead.tasForbidden = s.tasForbidden := by
  obtain ⟨l, k, h⟩ := extraRead_eq s
  rw [h]
@[simp] theorem State.extraRead_ahead (s : State) : s.extraRead.ahead = s.ahead := by
  obtain ⟨l, k, h⟩ := extraRead_eq s
  rw [h]
@[simp] theorem State.extraRead_book (s : State) : s.extraRead.book = s.book := by
  obtain ⟨l, k, h⟩ := extraRead_eq s
  rw [h]
@[simp] theorem State.extraRead_elapsed (s : State) : s.extraRead.elapsed = s.elapsed := by
  obtain ⟨l, k, h⟩ := extraRead_eq s
  rw [h]

@[simp] theorem State.readAhead_d (s : State) : s.readAhead.d = s.d := by
  obtain ⟨l, k, q, h⟩ := readAhead_eq s
  rw [h]
@[simp] theorem State.readAhead_a (s : State) : s.readAhead.a = s.a := by
  obtain ⟨l, k, q, h⟩ := readAhead_eq s
  rw [h]
@[simp] theorem State.readAhead_usp (s : State) : s.readAhead.usp = s.usp := by
  obtain ⟨l, k, q, h⟩ := readAhead_eq s
  rw [h]
@[simp] theorem State.readAhead_ssp (s : State) : s.readAhead.ssp = s.ssp := by
  obtain ⟨l, k, q, h⟩ := readAhead_eq s
  rw [h]
@[simp] theorem State.readAhead_pc (s : State) : s.readAhead.pc = s.pc := by
  obtain ⟨l, k, q, h⟩ := readAhead_eq s
  rw [h]
@[simp] theorem State.readAhead_sr (s : State) : s.readAhead.sr = s.sr := by
  obtain ⟨l, k, q, h⟩ := readAhead_eq s
  rw [h]
@[simp] theorem State.readAhead_run (s : State) : s.readAhead.run = s.run := by
  obtain ⟨l, k, q, h⟩ := readAhead_eq s
  rw [h]
@[simp] theorem State.readAhead_ir (s : State) : s.readAhead.ir = s.ir := by
  obtain ⟨l, k, q, h⟩ := readAhead_eq s
  rw [h]
@[simp] theorem State.readAhead_tracePending (s : State) : s.readAhead.tracePending = s.tracePending := by
  obtain ⟨l, k, q, h⟩ := readAhead_eq s
  rw [h]
@[simp] theorem State.readAhead_mem (s : State) : s.readAhead.mem = s.mem := by
  obtain ⟨l, k, q, h⟩ := readAhead_eq s
  rw [h]
@[simp] theorem State.readAhead_pins (s : State) : s.readAhead.pins = s.pins := by
  obtain ⟨l, k, q, h⟩ := readAhead_eq s
  rw [h]
@[simp] theorem State.readAhead_level7Edge (s : State) : s.readAhead.level7Edge = s.level7Edge := by
  obtain ⟨l, k, q, h⟩ := readAhead_eq s
  rw [h]
@[simp] theorem State.readAhead_schedule (s : State) : s.readAhead.schedule = s.schedule := by
  obtain ⟨l, k, q, h⟩ := readAhead_eq s
  rw [h]
@[simp] theorem State.readAhead_regions (s : State) : s.readAhead.regions = s.regions := by
  obtain ⟨l, k, q, h⟩ := readAhead_eq s
  rw [h]
@[simp] theorem State.readAhead_tasForbidden (s : State) : s.readAhead.tasForbidden = s.tasForbidden := by
  obtain ⟨l, k, q, h⟩ := readAhead_eq s
  rw [h]
@[simp] theorem State.readAhead_book (s : State) : s.readAhead.book = s.book := by
  obtain ⟨l, k, q, h⟩ := readAhead_eq s
  rw [h]
@[simp] theorem State.readAhead_elapsed (s : State) : s.readAhead.elapsed = s.elapsed := by
  obtain ⟨l, k, q, h⟩ := readAhead_eq s
  rw [h]

@[simp] theorem State.arrive_d (s : State) (x : BusAnswer) : (s.arrive x).d = s.d := by
  obtain ⟨l, k, q, h⟩ := arrive_eq s x
  rw [h]
@[simp] theorem State.arrive_a (s : State) (x : BusAnswer) : (s.arrive x).a = s.a := by
  obtain ⟨l, k, q, h⟩ := arrive_eq s x
  rw [h]
@[simp] theorem State.arrive_usp (s : State) (x : BusAnswer) : (s.arrive x).usp = s.usp := by
  obtain ⟨l, k, q, h⟩ := arrive_eq s x
  rw [h]
@[simp] theorem State.arrive_ssp (s : State) (x : BusAnswer) : (s.arrive x).ssp = s.ssp := by
  obtain ⟨l, k, q, h⟩ := arrive_eq s x
  rw [h]
@[simp] theorem State.arrive_pc (s : State) (x : BusAnswer) : (s.arrive x).pc = s.pc := by
  obtain ⟨l, k, q, h⟩ := arrive_eq s x
  rw [h]
@[simp] theorem State.arrive_sr (s : State) (x : BusAnswer) : (s.arrive x).sr = s.sr := by
  obtain ⟨l, k, q, h⟩ := arrive_eq s x
  rw [h]
@[simp] theorem State.arrive_run (s : State) (x : BusAnswer) : (s.arrive x).run = s.run := by
  obtain ⟨l, k, q, h⟩ := arrive_eq s x
  rw [h]
@[simp] theorem State.arrive_ir (s : State) (x : BusAnswer) : (s.arrive x).ir = s.ir := by
  obtain ⟨l, k, q, h⟩ := arrive_eq s x
  rw [h]
@[simp] theorem State.arrive_tracePending (s : State) (x : BusAnswer) : (s.arrive x).tracePending = s.tracePending := by
  obtain ⟨l, k, q, h⟩ := arrive_eq s x
  rw [h]
@[simp] theorem State.arrive_mem (s : State) (x : BusAnswer) : (s.arrive x).mem = s.mem := by
  obtain ⟨l, k, q, h⟩ := arrive_eq s x
  rw [h]
@[simp] theorem State.arrive_pins (s : State) (x : BusAnswer) : (s.arrive x).pins = s.pins := by
  obtain ⟨l, k, q, h⟩ := arrive_eq s x
  rw [h]
@[simp] theorem State.arrive_level7Edge (s : State) (x : BusAnswer) : (s.arrive x).level7Edge = s.level7Edge := by
  obtain ⟨l, k, q, h⟩ := arrive_eq s x
  rw [h]
@[simp] theorem State.arrive_schedule (s : State) (x : BusAnswer) : (s.arrive x).schedule = s.schedule := by
  obtain ⟨l, k, q, h⟩ := arrive_eq s x
  rw [h]
@[simp] theorem State.arrive_regions (s : State) (x : BusAnswer) : (s.arrive x).regions = s.regions := by
  obtain ⟨l, k, q, h⟩ := arrive_eq s x
  rw [h]
@[simp] theorem State.arrive_tasForbidden (s : State) (x : BusAnswer) : (s.arrive x).tasForbidden = s.tasForbidden := by
  obtain ⟨l, k, q, h⟩ := arrive_eq s x
  rw [h]
@[simp] theorem State.arrive_book (s : State) (x : BusAnswer) : (s.arrive x).book = s.book := by
  obtain ⟨l, k, q, h⟩ := arrive_eq s x
  rw [h]
@[simp] theorem State.arrive_elapsed (s : State) (x : BusAnswer) : (s.arrive x).elapsed = s.elapsed := by
  obtain ⟨l, k, q, h⟩ := arrive_eq s x
  rw [h]

@[simp] theorem State.landAt_d (s : State) (t : Long) : (s.landAt t).d = s.d := by
  obtain ⟨l, k, q, h⟩ := landAt_eq s t
  rw [h]
@[simp] theorem State.landAt_a (s : State) (t : Long) : (s.landAt t).a = s.a := by
  obtain ⟨l, k, q, h⟩ := landAt_eq s t
  rw [h]
@[simp] theorem State.landAt_usp (s : State) (t : Long) : (s.landAt t).usp = s.usp := by
  obtain ⟨l, k, q, h⟩ := landAt_eq s t
  rw [h]
@[simp] theorem State.landAt_ssp (s : State) (t : Long) : (s.landAt t).ssp = s.ssp := by
  obtain ⟨l, k, q, h⟩ := landAt_eq s t
  rw [h]
@[simp] theorem State.landAt_pc (s : State) (t : Long) : (s.landAt t).pc = t := by
  obtain ⟨l, k, q, h⟩ := landAt_eq s t
  rw [h]
@[simp] theorem State.landAt_sr (s : State) (t : Long) : (s.landAt t).sr = s.sr := by
  obtain ⟨l, k, q, h⟩ := landAt_eq s t
  rw [h]
@[simp] theorem State.landAt_run (s : State) (t : Long) : (s.landAt t).run = s.run := by
  obtain ⟨l, k, q, h⟩ := landAt_eq s t
  rw [h]
@[simp] theorem State.landAt_ir (s : State) (t : Long) : (s.landAt t).ir = s.ir := by
  obtain ⟨l, k, q, h⟩ := landAt_eq s t
  rw [h]
@[simp] theorem State.landAt_tracePending (s : State) (t : Long) : (s.landAt t).tracePending = s.tracePending := by
  obtain ⟨l, k, q, h⟩ := landAt_eq s t
  rw [h]
@[simp] theorem State.landAt_mem (s : State) (t : Long) : (s.landAt t).mem = s.mem := by
  obtain ⟨l, k, q, h⟩ := landAt_eq s t
  rw [h]
@[simp] theorem State.landAt_pins (s : State) (t : Long) : (s.landAt t).pins = s.pins := by
  obtain ⟨l, k, q, h⟩ := landAt_eq s t
  rw [h]
@[simp] theorem State.landAt_level7Edge (s : State) (t : Long) : (s.landAt t).level7Edge = s.level7Edge := by
  obtain ⟨l, k, q, h⟩ := landAt_eq s t
  rw [h]
@[simp] theorem State.landAt_schedule (s : State) (t : Long) : (s.landAt t).schedule = s.schedule := by
  obtain ⟨l, k, q, h⟩ := landAt_eq s t
  rw [h]
@[simp] theorem State.landAt_regions (s : State) (t : Long) : (s.landAt t).regions = s.regions := by
  obtain ⟨l, k, q, h⟩ := landAt_eq s t
  rw [h]
@[simp] theorem State.landAt_tasForbidden (s : State) (t : Long) : (s.landAt t).tasForbidden = s.tasForbidden := by
  obtain ⟨l, k, q, h⟩ := landAt_eq s t
  rw [h]
@[simp] theorem State.landAt_book (s : State) (t : Long) : (s.landAt t).book = s.book := by
  obtain ⟨l, k, q, h⟩ := landAt_eq s t
  rw [h]
@[simp] theorem State.landAt_elapsed (s : State) (t : Long) : (s.landAt t).elapsed = s.elapsed := by
  obtain ⟨l, k, q, h⟩ := landAt_eq s t
  rw [h]

end Sys2Proof.Machine
end

