-- ==== Sys2Proof/Laws/Operands.lean ====
section
/-! SUPPORT. One lemma per shared operation of the operands: what evaluating an effective address, reading and storing can do. -/

namespace Sys2Proof.Machine

/-! Evaluating an effective address changes an address register and the pc, nothing else. -/

@[simp] theorem locate_d (s : State) (sz : Size) (ea : Ea) : (s.locate sz ea).2.d = s.d := by cases ea <;> simp [State.locate]
@[simp] theorem settle_d (s : State) (sz : Size) (ea : Ea) : (s.settle sz ea).d = s.d := by cases ea <;> simp [State.settle]
@[simp] theorem past_d (s : State) (n : Nat) (sz : Size) (ea : Ea) : (s.past n sz ea).d = s.d := by simp [State.past]
@[simp] theorem locate_sr (s : State) (sz : Size) (ea : Ea) : (s.locate sz ea).2.sr = s.sr := by cases ea <;> simp [State.locate]
@[simp] theorem settle_sr (s : State) (sz : Size) (ea : Ea) : (s.settle sz ea).sr = s.sr := by cases ea <;> simp [State.settle]
@[simp] theorem past_sr (s : State) (n : Nat) (sz : Size) (ea : Ea) : (s.past n sz ea).sr = s.sr := by simp [State.past]
@[simp] theorem locate_run (s : State) (sz : Size) (ea : Ea) : (s.locate sz ea).2.run = s.run := by cases ea <;> simp [State.locate]
@[simp] theorem settle_run (s : State) (sz : Size) (ea : Ea) : (s.settle sz ea).run = s.run := by cases ea <;> simp [State.settle]
@[simp] theorem past_run (s : State) (n : Nat) (sz : Size) (ea : Ea) : (s.past n sz ea).run = s.run := by simp [State.past]
@[simp] theorem locate_ir (s : State) (sz : Size) (ea : Ea) : (s.locate sz ea).2.ir = s.ir := by cases ea <;> simp [State.locate]
@[simp] theorem settle_ir (s : State) (sz : Size) (ea : Ea) : (s.settle sz ea).ir = s.ir := by cases ea <;> simp [State.settle]
@[simp] theorem past_ir (s : State) (n : Nat) (sz : Size) (ea : Ea) : (s.past n sz ea).ir = s.ir := by simp [State.past]
@[simp] theorem locate_tracePending (s : State) (sz : Size) (ea : Ea) : (s.locate sz ea).2.tracePending = s.tracePending := by cases ea <;> simp [State.locate]
@[simp] theorem settle_tracePending (s : State) (sz : Size) (ea : Ea) : (s.settle sz ea).tracePending = s.tracePending := by cases ea <;> simp [State.settle]
@[simp] theorem past_tracePending (s : State) (n : Nat) (sz : Size) (ea : Ea) : (s.past n sz ea).tracePending = s.tracePending := by simp [State.past]
@[simp] theorem locate_mem (s : State) (sz : Size) (ea : Ea) : (s.locate sz ea).2.mem = s.mem := by cases ea <;> simp [State.locate]
@[simp] theorem settle_mem (s : State) (sz : Size) (ea : Ea) : (s.settle sz ea).mem = s.mem := by cases ea <;> simp [State.settle]
@[simp] theorem past_mem (s : State) (n : Nat) (sz : Size) (ea : Ea) : (s.past n sz ea).mem = s.mem := by simp [State.past]
@[simp] theorem locate_pins (s : State) (sz : Size) (ea : Ea) : (s.locate sz ea).2.pins = s.pins := by cases ea <;> simp [State.locate]
@[simp] theorem settle_pins (s : State) (sz : Size) (ea : Ea) : (s.settle sz ea).pins = s.pins := by cases ea <;> simp [State.settle]
@[simp] theorem past_pins (s : State) (n : Nat) (sz : Size) (ea : Ea) : (s.past n sz ea).pins = s.pins := by simp [State.past]
@[simp] theorem locate_level7Edge (s : State) (sz : Size) (ea : Ea) : (s.locate sz ea).2.level7Edge = s.level7Edge := by cases ea <;> simp [State.locate]
@[simp] theorem settle_level7Edge (s : State) (sz : Size) (ea : Ea) : (s.settle sz ea).level7Edge = s.level7Edge := by cases ea <;> simp [State.settle]
@[simp] theorem past_level7Edge (s : State) (n : Nat) (sz : Size) (ea : Ea) : (s.past n sz ea).level7Edge = s.level7Edge := by simp [State.past]
@[simp] theorem locate_schedule (s : State) (sz : Size) (ea : Ea) : (s.locate sz ea).2.schedule = s.schedule := by cases ea <;> simp [State.locate]
@[simp] theorem settle_schedule (s : State) (sz : Size) (ea : Ea) : (s.settle sz ea).schedule = s.schedule := by cases ea <;> simp [State.settle]
@[simp] theorem past_schedule (s : State) (n : Nat) (sz : Size) (ea : Ea) : (s.past n sz ea).schedule = s.schedule := by simp [State.past]
@[simp] theorem locate_regions (s : State) (sz : Size) (ea : Ea) : (s.locate sz ea).2.regions = s.regions := by cases ea <;> simp [State.locate]
@[simp] theorem settle_regions (s : State) (sz : Size) (ea : Ea) : (s.settle sz ea).regions = s.regions := by cases ea <;> simp [State.settle]
@[simp] theorem past_regions (s : State) (n : Nat) (sz : Size) (ea : Ea) : (s.past n sz ea).regions = s.regions := by simp [State.past]
@[simp] theorem locate_answers (s : State) (sz : Size) (ea : Ea) : (s.locate sz ea).2.answers = s.answers := by cases ea <;> simp [State.locate]
@[simp] theorem settle_answers (s : State) (sz : Size) (ea : Ea) : (s.settle sz ea).answers = s.answers := by cases ea <;> simp [State.settle]
@[simp] theorem past_answers (s : State) (n : Nat) (sz : Size) (ea : Ea) : (s.past n sz ea).answers = s.answers := by simp [State.past]
@[simp] theorem locate_tasForbidden (s : State) (sz : Size) (ea : Ea) : (s.locate sz ea).2.tasForbidden = s.tasForbidden := by cases ea <;> simp [State.locate]
@[simp] theorem settle_tasForbidden (s : State) (sz : Size) (ea : Ea) : (s.settle sz ea).tasForbidden = s.tasForbidden := by cases ea <;> simp [State.settle]
@[simp] theorem past_tasForbidden (s : State) (n : Nat) (sz : Size) (ea : Ea) : (s.past n sz ea).tasForbidden = s.tasForbidden := by simp [State.past]
@[simp] theorem locate_ahead (s : State) (sz : Size) (ea : Ea) : (s.locate sz ea).2.ahead = s.ahead := by cases ea <;> simp [State.locate]
@[simp] theorem settle_ahead (s : State) (sz : Size) (ea : Ea) : (s.settle sz ea).ahead = s.ahead := by cases ea <;> simp [State.settle]
@[simp] theorem past_ahead (s : State) (n : Nat) (sz : Size) (ea : Ea) : (s.past n sz ea).ahead = s.ahead := by simp [State.past]
@[simp] theorem locate_book (s : State) (sz : Size) (ea : Ea) : (s.locate sz ea).2.book = s.book := by cases ea <;> simp [State.locate]
@[simp] theorem settle_book (s : State) (sz : Size) (ea : Ea) : (s.settle sz ea).book = s.book := by cases ea <;> simp [State.settle]
@[simp] theorem past_book (s : State) (n : Nat) (sz : Size) (ea : Ea) : (s.past n sz ea).book = s.book := by simp [State.past]
@[simp] theorem locate_draws (s : State) (sz : Size) (ea : Ea) : (s.locate sz ea).2.draws = s.draws := by cases ea <;> simp [State.locate]
@[simp] theorem settle_draws (s : State) (sz : Size) (ea : Ea) : (s.settle sz ea).draws = s.draws := by cases ea <;> simp [State.settle]
@[simp] theorem past_draws (s : State) (n : Nat) (sz : Size) (ea : Ea) : (s.past n sz ea).draws = s.draws := by simp [State.past]
@[simp] theorem locate_elapsed (s : State) (sz : Size) (ea : Ea) : (s.locate sz ea).2.elapsed = s.elapsed := by cases ea <;> simp [State.locate]
@[simp] theorem settle_elapsed (s : State) (sz : Size) (ea : Ea) : (s.settle sz ea).elapsed = s.elapsed := by cases ea <;> simp [State.settle]
@[simp] theorem past_elapsed (s : State) (n : Nat) (sz : Size) (ea : Ea) : (s.past n sz ea).elapsed = s.elapsed := by simp [State.past]

@[simp] theorem settle_pc (s : State) (sz : Size) (ea : Ea) : (s.settle sz ea).pc = s.pc := by cases ea <;> simp [State.settle]

@[simp] theorem dreg_of_d {s t : State} (h : t.d = s.d) (r : Reg) : t.dreg r = s.dreg r := by simp [State.dreg, h]

/-- The value at a location does not change while memory and the registers do not. -/
theorem valueAt_locate (s : State) (sz : Size) (ea : Ea) :
    (s.locate sz ea).2.valueAt sz (s.locate sz ea).1 = s.valueAt sz (s.locate sz ea).1 := by
  cases ea <;> first | rfl | exact peek_congr (State.setA_mem _ _ _) _ _

theorem valueAt_skip (s : State) (n : Nat) (sz : Size) (l : Loc) : (s.skip n).valueAt sz l = s.valueAt sz l := by
  cases l <;> rfl

/-- Whether an operand can be read depends on the memory map alone. -/
theorem CanRead_congr {s t : State} (h : t.regions = s.regions) (sz : Size) (l : Loc) : t.CanRead sz l ↔ s.CanRead sz l := by
  cases l <;> simp [State.CanRead, CanReach_congr h]

/-- Whether an operand can be stored depends on the memory map and the pc. -/
theorem CanWrite_congr {s t : State} (h : t.regions = s.regions) (hp : t.pc = s.pc) (sz : Size) (l : Loc) :
    t.CanWrite sz l ↔ s.CanWrite sz l := by
  cases l <;> simp [State.CanWrite, State.CanStore, CanReach_congr h, hp]

theorem readLoc_ok {s : State} {sz : Size} {l : Loc} (h : s.CanRead sz l) : s.readLoc sz l = .ok (s.valueAt sz l, s) := by
  cases l with
  | mem a p => exact memRead_ok h p
  | d r => rfl
  | a r => rfl
  | imm v => rfl

/-- Reading an operand that can be read: its value, its place, and the state past it. -/
theorem readEa_ok {s : State} {n : Nat} {sz : Size} {ea : Ea} (h : s.CanRead sz (s.operandAt n sz ea)) :
    (s.skip n).readEa sz ea =
      .ok { value := s.valueAt sz (s.operandAt n sz ea), loc := s.operandAt n sz ea, state := s.past n sz ea } := by
  unfold State.readEa
  have h' : ((s.skip n).locate sz ea).2.CanRead sz ((s.skip n).locate sz ea).1 := (CanRead_congr (by simp) _ _).2 h
  simp only [readLoc_ok h', valueAt_locate, valueAt_skip]
  rfl

/-- Storing at a location that can be stored: a data register or memory. -/
theorem writeLoc_ok {u : State} {sz : Size} {l : Loc} (hw : u.mem.wf = true) (h : u.CanWrite sz l) (v : Nat)
    (hl : ∀ r, l ≠ .a r) : ∃ t, u.writeLoc sz v l = .ok t ∧ Wrote u sz l v t := by
  cases l with
  | d r => exact ⟨_, rfl, rfl⟩
  | a r => exact absurd rfl (hl r)
  | imm v => exact ⟨_, rfl, rfl⟩
  | mem a p =>
    refine ⟨_, memWrite_ok h v, ?_, Stored_poke hw h.1 _⟩
    exact poke_eq _ _

/-- The place of an operand that is no address register. -/
theorem locate_ne_a {ea : Ea} (h : ea.mode ≠ .an) (s : State) (sz : Size) (r : Reg) : (s.locate sz ea).1 ≠ .a r := by
  cases ea <;> simp_all [State.locate, Ea.mode]

/-- Storing at a location does not look at the status register, but for the stack pointer it makes A7. -/
theorem writeLoc_setSr {u t : State} {sz : Size} {l : Loc} (h : u.CanWrite sz l) (hl : ∀ r, l ≠ .a r) (v : Nat)
    (q : StatusReg) (ht : u.writeLoc sz v l = .ok t) : (u.setSr q).writeLoc sz v l = .ok (t.setSr q) := by
  cases l with
  | d r => cases ht; rfl
  | a r => exact absurd rfl (hl r)
  | imm v => cases ht; rfl
  | mem a p =>
    simp only [State.writeLoc] at ht ⊢
    rw [memWrite_ok h] at ht
    cases ht
    exact memWrite_ok (s := u.setSr q) h v

/-- An access that succeeds leaves nothing pending. -/
@[simp] theorem orPending_ok {α : Type} (cells : State → List Host.Cell) (v : α) :
    orPending cells (.ok v : Except Stop α) = .ok v := rfl

/-- One that fails leaves the location it was for old or new as well. -/
@[simp] theorem orPending_access {α : Type} (cells : State → List Host.Cell) (f : AccessFault) (s : State)
    (pending : List Host.Cell) :
    orPending cells (.error (.access f s pending) : Except Stop α) = .error (.access f (s.drawn 2) (pending ++ cells s)) := rfl

/-- A read, a computation and a store back, where all of it can be done. -/
theorem modifyEa_ok {s : State} {n : Nat} {sz : Size} {ea : Ea} (hw : s.mem.wf = true) (ha : ea.mode ≠ .an)
    (hr : s.CanRead sz (s.operandAt n sz ea)) (hs : (s.past n sz ea).CanWrite sz (s.operandAt n sz ea))
    (g : Nat → StatusReg → Nat × StatusReg) :
    ∃ t, (s.skip n).modifyEa sz ea g = .ok (t.setSr (g (s.valueAt sz (s.operandAt n sz ea)) s.sr).2) ∧
      Wrote (s.past n sz ea) sz (s.operandAt n sz ea) (g (s.valueAt sz (s.operandAt n sz ea)) s.sr).1 t := by
  obtain ⟨t, ht, hW⟩ := writeLoc_ok (u := s.past n sz ea) (by simpa using hw) hs
    (g (s.valueAt sz (s.operandAt n sz ea)) s.sr).1 (locate_ne_a ha _ _)
  refine ⟨t, ?_, hW⟩
  simp only [State.modifyEa, readEa_ok hr, orPending_ok, bind, Except.bind, past_sr, ht]

/-- Where all of it can be done, it makes no difference that the flags are set before the store. -/
theorem testAndModifyEa_ok {s : State} {n : Nat} {sz : Size} {ea : Ea} (hw : s.mem.wf = true) (ha : ea.mode ≠ .an)
    (hr : s.CanRead sz (s.operandAt n sz ea)) (hs : (s.past n sz ea).CanWrite sz (s.operandAt n sz ea))
    (g : Nat → StatusReg → Nat × StatusReg) :
    ∃ t, (s.skip n).testAndModifyEa sz ea g = .ok (t.setSr (g (s.valueAt sz (s.operandAt n sz ea)) s.sr).2) ∧
      Wrote (s.past n sz ea) sz (s.operandAt n sz ea) (g (s.valueAt sz (s.operandAt n sz ea)) s.sr).1 t := by
  obtain ⟨t, ht, hW⟩ := writeLoc_ok (u := s.past n sz ea) (by simpa using hw) hs
    (g (s.valueAt sz (s.operandAt n sz ea)) s.sr).1 (locate_ne_a ha _ _)
  refine ⟨t, ?_, hW⟩
  simp only [State.testAndModifyEa, readEa_ok hr, orPending_ok, bind, Except.bind, past_sr]
  exact writeLoc_setSr hs (locate_ne_a ha _ _) _ _ ht

/-- A read and a computation of flags. -/
theorem testEa_ok {s : State} {n : Nat} {sz : Size} {ea : Ea} (hr : s.CanRead sz (s.operandAt n sz ea))
    (g : Nat → StatusReg → StatusReg) :
    (s.skip n).testEa sz ea g = .ok ((s.past n sz ea).setSr (g (s.valueAt sz (s.operandAt n sz ea)) s.sr)) := by
  simp only [State.testEa, readEa_ok hr, bind, Except.bind, past_sr]

/-- How an instruction that completes ends. -/
theorem finish_ok (s0 : State) (t : Time) (regs : List RegRef) (s : State) : s0.finish t regs (.ok s) = .next (s.charge t) := rfl

theorem privileged_supervisor {s : State} (h : s.sr.s = true) (e : Host.Outcome State Fault Refusal) : s.privileged e = e := by
  simp [State.privileged, h]

theorem privileged_user {s : State} (h : s.sr.s = false) (e : Host.Outcome State Fault Refusal) :
    s.privileged e = s.privilegeViolation := by simp [State.privileged, h]

/-- An operand has the width of its operation. -/
theorem valueAt_lt {s : State} {n : Nat} {sz : Size} {ea : Ea} (h : ea.sizeOk sz = true) :
    s.valueAt sz (s.operandAt n sz ea) < 2 ^ sz.bits := by
  cases ea <;> simp [State.operandAt, State.locate, State.valueAt, lowBits, peek_lt, Nat.mod_lt]
  case imm v => cases v <;> cases sz <;> simp_all [Ea.sizeOk, Imm.size, immValue, Size.bits] <;> exact BitVec.isLt _

/-! Fetching. -/

/-- An instruction word: one read ahead from memory, or one that memory answers now. -/
theorem takeWord_ok {s : State} {a : Long} (he : a.toNat % 2 = 0) (ha : ∀ x, x ∈ s.ahead → x = .memory)
    (h : s.ahead = [] → s.Answers a) : s.takeWord a = .ok (s.peek .w a, { s with ahead := s.ahead.drop 1 }) := by
  unfold State.takeWord
  rcases h' : s.ahead with _ | ⟨x, rest⟩
  · simp only [List.drop_nil]
    rw [memRead_ok ⟨.inr he, h h', by simp⟩, ← h']
  · have hx : x = .memory := ha x (by simp [h'])
    simp [he, hx, State.cycleValue]

/-- The words from an address up. -/
theorem fetchWords_ok {s : State} {n : Nat} {a : Long} (he : a.toNat % 2 = 0) (ha : ∀ x, x ∈ s.ahead → x = .memory)
    (h : ∀ k, k < n → s.ahead.length ≤ k → s.Answers (a + BitVec.ofNat 32 (2 * k))) :
    s.fetchWords n a =
      ((List.range n).map (fun k => s.wordAt (a + BitVec.ofNat 32 (2 * k))), .ok { s with ahead := s.ahead.drop n }) := by
  induction n generalizing a s with
  | zero => rfl
  | succ n ih =>
    have h0 : s.ahead = [] → s.Answers a := fun e => by simpa using h 0 (by omega) (by simp [e])
    have hs : ∀ k, a + 2 + BitVec.ofNat 32 (2 * k) = a + BitVec.ofNat 32 (2 * (k + 1)) := fun k => by
      rw [BitVec.add_assoc, Nat.mul_add, Nat.add_comm, BitVec.ofNat_add]
      rfl
    have he' : (a + 2).toNat % 2 = 0 := by
      rw [BitVec.toNat_add, show (2 : Long).toNat = 2 from rfl]
      omega
    rw [State.fetchWords, takeWord_ok he ha h0, List.range_succ_eq_map]
    have ih' := ih (s := { s with ahead := s.ahead.drop 1 }) he' (fun x hx => ha x (List.drop_subset _ _ hx))
      (fun k hk hl => hs k ▸ h (k + 1) (by omega) (by simp only [List.length_drop] at hl; omega))
    simp only [ih', hs, List.map_cons, List.map_map, List.drop_drop]
    simp [State.wordAt, Function.comp_def, State.peek, State.byteAt, Nat.add_comm]

/-- Where the words at the pc decode and memory answers the bus cycles of those not read ahead, the decoded instruction
runs, and the words it consumed are replaced. -/
theorem fetch_ok {s : State} {i : Instr} {rest : List Word} (run : Instr → State → Host.Outcome State Fault Refusal)
    (hd : decode (s.wordsAt s.pc) = .ok (i, rest)) (he : s.pc.toNat % 2 = 0) (ha : ∀ x, x ∈ s.ahead → x = .memory)
    (h : ∀ k, k < 5 - rest.length → s.ahead.length ≤ k → s.Answers (s.pc + BitVec.ofNat 32 (2 * k)))
    (h5 : rest.length < 5) :
    s.fetch run = refilled (run i { s.begin (s.wordAt s.pc) with ahead := s.ahead.drop (5 - rest.length) }) := by
  have h0 : s.ahead = [] → s.Answers s.pc := fun e => by simpa using h 0 (by omega) (by simp [e])
  have hs : ∀ k, s.pc + 2 + BitVec.ofNat 32 (2 * k) = s.pc + BitVec.ofNat 32 (2 * (k + 1)) := fun k => by
    rw [BitVec.add_assoc, Nat.mul_add, Nat.add_comm, BitVec.ofNat_add]
    rfl
  have he' : (s.pc + 2).toNat % 2 = 0 := by
    rw [BitVec.toNat_add, show (2 : Long).toNat = 2 from rfl]
    omega
  have hw : (({ s with ahead := s.ahead.drop 1 } : State).begin (s.wordAt s.pc)).fetchWords (4 - rest.length) (s.pc + 2) =
      ((s.wordsAt s.pc).tail.take (4 - rest.length),
        .ok { s.begin (s.wordAt s.pc) with ahead := s.ahead.drop (5 - rest.length) }) := by
    rw [fetchWords_ok he' (fun x hx => ha x (List.drop_subset _ _ hx))
      (fun k hk hl => hs k ▸ h (k + 1) (by omega)
        (by simp only [State.begin_ahead, List.length_drop] at hl; omega))]
    have : ∀ n, n ≤ 4 → (List.range n).map (fun k =>
        (({ s with ahead := s.ahead.drop 1 } : State).begin (s.wordAt s.pc)).wordAt
          (s.pc + 2 + BitVec.ofNat 32 (2 * k))) = (s.wordsAt s.pc).tail.take n := by
      intro n hn
      interval_cases n <;>
        simp [List.range, List.range.loop, State.wordsAt, BitVec.add_assoc, State.wordAt, State.begin, State.peek, State.byteAt]
    rw [this _ (by omega)]
    simp only [State.begin, List.drop_drop]
    rw [show 1 + (4 - rest.length) = 5 - rest.length by omega]
  have hl : s.wordAt s.pc :: (s.wordsAt s.pc).drop 1 = s.wordsAt s.pc := rfl
  have ha' : s.wordAt s.pc :: (s.wordsAt s.pc).tail.take (4 - rest.length) ++ (s.wordsAt s.pc).drop (5 - rest.length) =
      s.wordsAt s.pc := by
    rw [show 5 - rest.length = (4 - rest.length) + 1 by omega, ← List.drop_tail]
    simp only [List.cons_append, List.take_append_drop]
    rfl
  unfold State.fetch
  rw [takeWord_ok he ha h0]
  simp only [show BitVec.ofNat 16 (s.peek .w s.pc) = s.wordAt s.pc from rfl, hl, hd, hw, ha']
  rfl

/-- The step of a running processor with nothing due. -/
theorem step_running {s : State} (h1 : s.sampled.pins.reset = false) (h2 : s.run = .running) (h3 : s.tracePending = false)
    (h4 : s.sampled.interruptDue = false) : step s = ({ s.sampled with level7Edge := false } : State).fetch exec := by
  have h2' : s.sampled.run = .running := (State.sampled_run s).trans h2
  have h3' : s.sampled.tracePending = false := (State.sampled_tracePending s).trans h3
  unfold step State.proceed
  simp only [h1, h2', h3', h4, Bool.false_eq_true, reduceCtorEq, if_false]

/-- One whose instruction words cannot begin: the error of the first. -/
theorem fetch_error {s t : State} {f : AccessFault} {p : List Host.Cell}
    (run : Instr → State → Host.Outcome State Fault Refusal) (h : s.takeWord s.pc = .error (.access f t p)) :
    s.fetch run = t.enterGroup0 { start := s.pc, length := 2, inException := false, regs := [], full := fetchBound } f p := by
  rw [State.fetch, h]
  rfl

end Sys2Proof.Machine
end

