-- ==== Sys2Proof/Laws/Arithmetic.lean ====
section
/-! SUPPORT. Results and flags: the model's operations against exact integers. -/

namespace Sys2Proof.Machine

/-- The top bit is set from half the range up. -/
theorem msb_eq (bits r : Nat) (hb : 0 < bits) (h : r < 2 ^ bits) : msb bits r = decide (2 ^ (bits - 1) ≤ r) := by
  obtain ⟨b, rfl⟩ : ∃ b, bits = b + 1 := ⟨bits - 1, by omega⟩
  have hp : 0 < 2 ^ b := Nat.two_pow_pos b
  simp only [msb, Nat.add_sub_cancel]
  rw [Nat.pow_succ] at h
  by_cases hle : 2 ^ b ≤ r
  · have : r / 2 ^ b = 1 := by
      apply Nat.div_eq_of_lt_le <;> omega
    simp [this, hle]
  · have : r / 2 ^ b = 0 := Nat.div_eq_of_lt (by omega)
    simp [this, hle]

/-- Two ways to test for zero. -/
theorem beq_decide (r : Nat) : (r == 0) = decide (r = 0) := rfl

/-- The top bit is the sign. -/
theorem msb_neg (bits r : Nat) (h : r < 2 ^ bits) : msb bits r = decide (signed bits r < 0) := by
  have hh : (r : Int) < 2 ^ bits := by exact_mod_cast h
  simp only [signed]
  by_cases hm : msb bits r = true
  · simp only [hm, if_true]; symm; simp; omega
  · simp only [Bool.not_eq_true] at hm; simp [hm]

/-- The flags of a logical operation or a move. -/
theorem flagsLogic_eq (bits r : Nat) (hb : 0 < bits) (h : r < 2 ^ bits) (sr : StatusReg) : flagsLogic bits r sr = moveFlags bits r sr := by
  simp [flagsLogic, moveFlags, msb_eq bits r hb h, beq_decide]

/-- The result of a two-operand operation is the exact one, cut to its width. -/
theorem aluResult_fst (op : AluOp) (sz : Size) (s d : Nat) (sr : StatusReg) (hs : s < 2 ^ sz.bits) (hd : d < 2 ^ sz.bits) :
    (aluResult op sz.bits s d sr).1 = exactAlu op sz.bits s d := by
  cases op <;> simp only [aluResult, exactAlu, addResult, subResult, trunc]
  · cases sz <;> simp only [Size.bits] at * <;> omega
  · cases sz <;> simp only [Size.bits] at * <;> omega

/-- The exact result, cut, has the width of the operation. -/
theorem exactAlu_lt (op : AluOp) (sz : Size) (s d : Nat) (hs : s < 2 ^ sz.bits) (hd : d < 2 ^ sz.bits) : exactAlu op sz.bits s d < 2 ^ sz.bits := by
  cases op <;> simp only [exactAlu]
  · cases sz <;> simp only [Size.bits] at * <;> omega
  · cases sz <;> simp only [Size.bits] at * <;> omega
  · exact lt_of_le_of_lt Nat.and_le_left hd
  · exact Nat.or_lt_two_pow hd hs
  · exact Nat.xor_lt_two_pow hd hs

/-- Its flags are the exact ones. -/
theorem aluResult_snd (op : AluOp) (sz : Size) (s d : Nat) (sr : StatusReg) (hs : s < 2 ^ sz.bits) (hd : d < 2 ^ sz.bits) :
    (aluResult op sz.bits s d sr).2 = exactFlags op sz.bits s d sr := by
  have hb : 0 < sz.bits := by cases sz <;> decide
  have hr := exactAlu_lt op sz s d hs hd
  have h1 := aluResult_fst op sz s d sr hs hd
  cases op
  all_goals
    simp only [aluResult] at *
    rw [h1]
    simp only [exactFlags]
  · simp only [flagsAdd, msb_neg _ _ hr, beq_decide]
    congr 1
    rw [← msb_neg _ _ hr]
    cases sz <;> simp only [Size.bits] at * <;> simp only [msb, signed, exactAlu] at * <;> rw [Bool.eq_iff_iff] <;> simp <;> split <;> split <;> split <;> omega
  · simp only [flagsSub, flagsCmp, msb_neg _ _ hr, beq_decide]
    congr 1
    rw [← msb_neg _ _ hr]
    cases sz <;> simp only [Size.bits] at * <;> simp only [msb, signed, exactAlu] at * <;> rw [Bool.eq_iff_iff] <;> simp <;> split <;> split <;> split <;> omega
  · simp [flagsLogic, msb_neg _ _ hr, beq_decide]
  · simp [flagsLogic, msb_neg _ _ hr, beq_decide]
  · simp [flagsLogic, msb_neg _ _ hr, beq_decide]

/-- An allowed effective address has an immediate of the right size. -/
theorem ok_sizeOk {cls : Mode → Bool} {sz : Size} {ea : Ea} (h : Ea.ok cls sz ea = true) : ea.sizeOk sz = true := by
  simp [Ea.ok] at h; exact h.2
/-- An allowed effective address is of the class asked for. -/
theorem ok_cls {cls : Mode → Bool} {sz : Size} {ea : Ea} (h : Ea.ok cls sz ea = true) : cls ea.mode = true := by
  simp [Ea.ok] at h; exact h.1
/-- The low part of a data register has its width. -/
theorem dlow_lt (s : State) (sz : Size) (r : Reg) : s.dlow sz r < 2 ^ sz.bits := Nat.mod_lt _ (Nat.two_pow_pos _)

/-- A write to a data register as a record update. -/
theorem withLowBits_d (u s : State) (h : u.d = s.d) (sz : Size) (dn : Reg) (v : Nat) : u.setDlow sz dn v = { u with d := s.d.set dn (withLowBits sz.bits (s.dreg dn) v) } := by
  simp [State.setDlow, State.setD, State.dreg, h]

/-- A class that leaves out address registers. -/
theorem ne_an {cls : Mode → Bool} (h1 : cls .an = false) {ea : Ea} (h2 : cls ea.mode = true) : ea.mode ≠ .an := by
    intro h; rw [h] at h2; simp [h1] at h2

/-- Every size has bits. -/
theorem bits_pos (sz : Size) : 0 < sz.bits := by cases sz <;> decide

/-- Storing to an effective address that can be stored to: the state past it, the operand stored. -/
theorem writeEa_ok {u : State} {sz : Size} {ea : Ea} (hm : u.mem.wf = true) (ha : ea.mode ≠ .an) (hw : (u.past 0 sz ea).CanWrite sz (u.operandAt 0 sz ea)) (v : Nat) :
   ∃ t, u.writeEa sz ea v = .ok t ∧ Wrote (u.past 0 sz ea) sz (u.operandAt 0 sz ea) v t := by
  have e0 : u.skip 0 = u := by simp [State.skip]
  simp only [State.past, State.operandAt, e0] at *
  unfold State.writeEa
  obtain ⟨t, h1, h2⟩ := writeLoc_ok (u := (u.locate sz ea).2) (by simpa using hm) ((CanWrite_congr (by simp) (by simp) _ _).1 hw) v (locate_ne_a ha _ _)
  simp only [h1]
  refine ⟨_, rfl, ?_⟩
  cases ea with
  | postInc r =>
    simp only [State.locate, State.settle, Wrote] at *
    obtain ⟨h2, h3⟩ := h2
    generalize hM : t.mem = M at h2 h3
    generalize t.book = K at h2
    subst h2
    refine ⟨?_, ?_⟩
    · unfold State.setA State.setSp State.areg State.sp; split <;> (try split) <;> simp_all
    · simp only [State.setA_mem]
      exact ⟨by simpa using h3.1, by intro k hk; rw [State.kindAt_congr (s := u) (by simp)]; simpa using h3.2 k hk⟩
  | _ => exact h2

/-- The signed value of a number, as bit vectors have it. -/
theorem signed_toInt (b v : Nat) (hb : 0 < b) (h : v < 2 ^ b) : signed b v = (BitVec.ofNat b v).toInt := by
  have hp : 2 ^ b = 2 * 2 ^ (b - 1) := by rw [← pow_succ']; congr 1; omega
  have hh : (2 : Int) ^ b = 2 * 2 ^ (b - 1) := by exact_mod_cast hp
  rw [BitVec.toInt_eq_toNat_cond, BitVec.toNat_ofNat, Nat.mod_eq_of_lt h]
  simp only [signed, msb_eq b v hb h, decide_eq_true_eq]
  by_cases hc : 2 ^ (b - 1) ≤ v
  · rw [if_pos hc, if_neg (by omega)]; push_cast; rfl
  · rw [if_neg hc, if_pos (by omega)]

/-- Sign extension to a register. -/
theorem sext_extended (sz : Size) (v : Nat) (h : v < 2 ^ sz.bits) : sext32 sz.bits v = extended sz v := by
  unfold sext32
  rw [signed_toInt _ _ (bits_pos sz) h]
  cases sz
  · rfl
  · rfl
  · exact BitVec.ofInt_toInt

/-- The flags of a comparison are the exact ones. -/
theorem cmp_eq (sz : Size) (v d : Nat) (hv : v < 2 ^ sz.bits) (hd : d < 2 ^ sz.bits) (sr : StatusReg) :
   flagsCmp sz.bits v d (subResult sz.bits v d) sr = compareFlags sz.bits v d sr := by
  have := aluResult_snd .sub sz v d sr hv hd
  simp only [compareFlags, ← this, aluResult, flagsSub]
  rfl

/-- The low part of a register has its width. -/
theorem lowBits_lt (bits : Nat) (x : Long) : lowBits bits x < 2 ^ bits := Nat.mod_lt _ (Nat.two_pow_pos _)

end Sys2Proof.Machine
end

