-- ==== Sys2Proof/Laws/PerInstr.lean ====
section
/-! SUPPORT. The statement made of every instruction: its encoding has one to five words (30_encoding.md R80). -/

namespace Sys2Proof.Laws

/-- An effective address takes at most two words. -/
theorem ea_words_length (ea : Ea) : ea.words.length ≤ 2 := by
  cases ea <;> simp [Ea.words, wordsOfLong]
  case imm v => cases v <;> simp [Imm.words, wordsOfLong]

/-- An immediate takes at most two words. -/
theorem imm_words_length (v : Imm) : v.words.length ≤ 2 := by cases v <;> simp [Imm.words, wordsOfLong]

/-- A displacement takes at most one word. -/
theorem disp_words_length (d : Disp) : d.words.length ≤ 1 := by cases d <;> simp [Disp.words]

/-- The extension words are at most four. -/
theorem extension_length (i : Instr) : i.extension.length ≤ 4 := by
  have he := ea_words_length
  have hv := imm_words_length
  have hd := disp_words_length
  cases i
  all_goals simp only [Instr.extension, List.length_cons, List.length_nil, List.length_append]
  all_goals first
    | omega
    | exact Nat.le_trans (he _) (by decide)
    | exact Nat.le_trans (hd _) (by decide)
    | exact Nat.succ_le_succ (Nat.le_trans (he _) (by decide))
    | exact Nat.add_le_add (hv _) (he _)
    | exact Nat.add_le_add (he _) (he _)

/-- One to five words (R80). -/
def EncodeLength.Statement (i : Instr) : Prop := 1 ≤ (encode i).length ∧ (encode i).length ≤ 5

/-- What the lemmas below cite. -/
theorem encode_length (i : Instr) : EncodeLength.Statement i :=
  ⟨Nat.le_add_left 1 _, Nat.succ_le_succ (extension_length i)⟩

theorem EncodeLength.oriToCcr (v : Byte) : EncodeLength.Statement (.oriToCcr v) := encode_length _

theorem EncodeLength.oriToSr (v : Word) : EncodeLength.Statement (.oriToSr v) := encode_length _

theorem EncodeLength.andiToCcr (v : Byte) : EncodeLength.Statement (.andiToCcr v) := encode_length _

theorem EncodeLength.andiToSr (v : Word) : EncodeLength.Statement (.andiToSr v) := encode_length _

theorem EncodeLength.eoriToCcr (v : Byte) : EncodeLength.Statement (.eoriToCcr v) := encode_length _

theorem EncodeLength.eoriToSr (v : Word) : EncodeLength.Statement (.eoriToSr v) := encode_length _

theorem EncodeLength.movepToReg (sz : WL) (ay : Reg) (d16 : Word) (dx : Reg) : EncodeLength.Statement (.movepToReg sz ay d16 dx) := encode_length _

theorem EncodeLength.movepToMem (sz : WL) (dx : Reg) (ay : Reg) (d16 : Word) : EncodeLength.Statement (.movepToMem sz dx ay d16) := encode_length _

theorem EncodeLength.btstDn (dn : Reg) (ea : Ea) : EncodeLength.Statement (.btstDn dn ea) := encode_length _

theorem EncodeLength.bchgDn (dn : Reg) (ea : Ea) : EncodeLength.Statement (.bchgDn dn ea) := encode_length _

theorem EncodeLength.bclrDn (dn : Reg) (ea : Ea) : EncodeLength.Statement (.bclrDn dn ea) := encode_length _

theorem EncodeLength.bsetDn (dn : Reg) (ea : Ea) : EncodeLength.Statement (.bsetDn dn ea) := encode_length _

theorem EncodeLength.btstImm (bit : Byte) (ea : Ea) : EncodeLength.Statement (.btstImm bit ea) := encode_length _

theorem EncodeLength.bchgImm (bit : Byte) (ea : Ea) : EncodeLength.Statement (.bchgImm bit ea) := encode_length _

theorem EncodeLength.bclrImm (bit : Byte) (ea : Ea) : EncodeLength.Statement (.bclrImm bit ea) := encode_length _

theorem EncodeLength.bsetImm (bit : Byte) (ea : Ea) : EncodeLength.Statement (.bsetImm bit ea) := encode_length _

theorem EncodeLength.ori (v : Imm) (ea : Ea) : EncodeLength.Statement (.ori v ea) := encode_length _

theorem EncodeLength.andi (v : Imm) (ea : Ea) : EncodeLength.Statement (.andi v ea) := encode_length _

theorem EncodeLength.subi (v : Imm) (ea : Ea) : EncodeLength.Statement (.subi v ea) := encode_length _

theorem EncodeLength.addi (v : Imm) (ea : Ea) : EncodeLength.Statement (.addi v ea) := encode_length _

theorem EncodeLength.eori (v : Imm) (ea : Ea) : EncodeLength.Statement (.eori v ea) := encode_length _

theorem EncodeLength.cmpi (v : Imm) (ea : Ea) : EncodeLength.Statement (.cmpi v ea) := encode_length _

theorem EncodeLength.moveaW (src : Ea) (an : Reg) : EncodeLength.Statement (.moveaW src an) := encode_length _

theorem EncodeLength.moveaL (src : Ea) (an : Reg) : EncodeLength.Statement (.moveaL src an) := encode_length _

theorem EncodeLength.moveB (src dst : Ea) : EncodeLength.Statement (.moveB src dst) := encode_length _

theorem EncodeLength.moveW (src dst : Ea) : EncodeLength.Statement (.moveW src dst) := encode_length _

theorem EncodeLength.moveL (src dst : Ea) : EncodeLength.Statement (.moveL src dst) := encode_length _

theorem EncodeLength.resetDevices : EncodeLength.Statement .resetDevices := encode_length _

theorem EncodeLength.nop : EncodeLength.Statement .nop := encode_length _

theorem EncodeLength.stop (v : Word) : EncodeLength.Statement (.stop v) := encode_length _

theorem EncodeLength.rte : EncodeLength.Statement .rte := encode_length _

theorem EncodeLength.rts : EncodeLength.Statement .rts := encode_length _

theorem EncodeLength.trapv : EncodeLength.Statement .trapv := encode_length _

theorem EncodeLength.rtr : EncodeLength.Statement .rtr := encode_length _

theorem EncodeLength.illegal : EncodeLength.Statement .illegal := encode_length _

theorem EncodeLength.trap (v : Fin 16) : EncodeLength.Statement (.trap v) := encode_length _

theorem EncodeLength.link (an : Reg) (d16 : Word) : EncodeLength.Statement (.link an d16) := encode_length _

theorem EncodeLength.unlk (an : Reg) : EncodeLength.Statement (.unlk an) := encode_length _

theorem EncodeLength.moveToUsp (an : Reg) : EncodeLength.Statement (.moveToUsp an) := encode_length _

theorem EncodeLength.moveFromUsp (an : Reg) : EncodeLength.Statement (.moveFromUsp an) := encode_length _

theorem EncodeLength.swap (dn : Reg) : EncodeLength.Statement (.swap dn) := encode_length _

theorem EncodeLength.extW (dn : Reg) : EncodeLength.Statement (.extW dn) := encode_length _

theorem EncodeLength.extL (dn : Reg) : EncodeLength.Statement (.extL dn) := encode_length _

theorem EncodeLength.moveFromSr (ea : Ea) : EncodeLength.Statement (.moveFromSr ea) := encode_length _

theorem EncodeLength.moveToCcr (ea : Ea) : EncodeLength.Statement (.moveToCcr ea) := encode_length _

theorem EncodeLength.moveToSr (ea : Ea) : EncodeLength.Statement (.moveToSr ea) := encode_length _

theorem EncodeLength.tas (ea : Ea) : EncodeLength.Statement (.tas ea) := encode_length _

theorem EncodeLength.chk (ea : Ea) (dn : Reg) : EncodeLength.Statement (.chk ea dn) := encode_length _

theorem EncodeLength.lea (ea : Ea) (an : Reg) : EncodeLength.Statement (.lea ea an) := encode_length _

theorem EncodeLength.nbcd (ea : Ea) : EncodeLength.Statement (.nbcd ea) := encode_length _

theorem EncodeLength.pea (ea : Ea) : EncodeLength.Statement (.pea ea) := encode_length _

theorem EncodeLength.movemToMem (sz : WL) (mask : Word) (ea : Ea) : EncodeLength.Statement (.movemToMem sz mask ea) := encode_length _

theorem EncodeLength.movemToReg (sz : WL) (ea : Ea) (mask : Word) : EncodeLength.Statement (.movemToReg sz ea mask) := encode_length _

theorem EncodeLength.jsr (ea : Ea) : EncodeLength.Statement (.jsr ea) := encode_length _

theorem EncodeLength.jmp (ea : Ea) : EncodeLength.Statement (.jmp ea) := encode_length _

theorem EncodeLength.negx (sz : Size) (ea : Ea) : EncodeLength.Statement (.negx sz ea) := encode_length _

theorem EncodeLength.clr (sz : Size) (ea : Ea) : EncodeLength.Statement (.clr sz ea) := encode_length _

theorem EncodeLength.neg (sz : Size) (ea : Ea) : EncodeLength.Statement (.neg sz ea) := encode_length _

theorem EncodeLength.notEa (sz : Size) (ea : Ea) : EncodeLength.Statement (.notEa sz ea) := encode_length _

theorem EncodeLength.tst (sz : Size) (ea : Ea) : EncodeLength.Statement (.tst sz ea) := encode_length _

theorem EncodeLength.dbcc (cond : Cond) (dn : Reg) (d16 : Word) : EncodeLength.Statement (.dbcc cond dn d16) := encode_length _

theorem EncodeLength.scc (cond : Cond) (ea : Ea) : EncodeLength.Statement (.scc cond ea) := encode_length _

theorem EncodeLength.addq (q : Reg) (sz : Size) (ea : Ea) : EncodeLength.Statement (.addq q sz ea) := encode_length _

theorem EncodeLength.subq (q : Reg) (sz : Size) (ea : Ea) : EncodeLength.Statement (.subq q sz ea) := encode_length _

theorem EncodeLength.bra (d : Disp) : EncodeLength.Statement (.bra d) := encode_length _

theorem EncodeLength.bsr (d : Disp) : EncodeLength.Statement (.bsr d) := encode_length _

theorem EncodeLength.bcc (cond : Cond) (d : Disp) : EncodeLength.Statement (.bcc cond d) := encode_length _

theorem EncodeLength.moveq (v : Byte) (dn : Reg) : EncodeLength.Statement (.moveq v dn) := encode_length _

theorem EncodeLength.divu (ea : Ea) (dn : Reg) : EncodeLength.Statement (.divu ea dn) := encode_length _

theorem EncodeLength.divs (ea : Ea) (dn : Reg) : EncodeLength.Statement (.divs ea dn) := encode_length _

theorem EncodeLength.sbcdReg (dy dx : Reg) : EncodeLength.Statement (.sbcdReg dy dx) := encode_length _

theorem EncodeLength.sbcdMem (ay ax : Reg) : EncodeLength.Statement (.sbcdMem ay ax) := encode_length _

theorem EncodeLength.orEaDn (sz : Size) (ea : Ea) (dn : Reg) : EncodeLength.Statement (.orEaDn sz ea dn) := encode_length _

theorem EncodeLength.orDnEa (sz : Size) (dn : Reg) (ea : Ea) : EncodeLength.Statement (.orDnEa sz dn ea) := encode_length _

theorem EncodeLength.suba (sz : WL) (ea : Ea) (an : Reg) : EncodeLength.Statement (.suba sz ea an) := encode_length _

theorem EncodeLength.subxReg (sz : Size) (dy dx : Reg) : EncodeLength.Statement (.subxReg sz dy dx) := encode_length _

theorem EncodeLength.subxMem (sz : Size) (ay ax : Reg) : EncodeLength.Statement (.subxMem sz ay ax) := encode_length _

theorem EncodeLength.subEaDn (sz : Size) (ea : Ea) (dn : Reg) : EncodeLength.Statement (.subEaDn sz ea dn) := encode_length _

theorem EncodeLength.subDnEa (sz : Size) (dn : Reg) (ea : Ea) : EncodeLength.Statement (.subDnEa sz dn ea) := encode_length _

theorem EncodeLength.cmpa (sz : WL) (ea : Ea) (an : Reg) : EncodeLength.Statement (.cmpa sz ea an) := encode_length _

theorem EncodeLength.cmpm (sz : Size) (ay ax : Reg) : EncodeLength.Statement (.cmpm sz ay ax) := encode_length _

theorem EncodeLength.cmp (sz : Size) (ea : Ea) (dn : Reg) : EncodeLength.Statement (.cmp sz ea dn) := encode_length _

theorem EncodeLength.eor (sz : Size) (dn : Reg) (ea : Ea) : EncodeLength.Statement (.eor sz dn ea) := encode_length _

theorem EncodeLength.mulu (ea : Ea) (dn : Reg) : EncodeLength.Statement (.mulu ea dn) := encode_length _

theorem EncodeLength.muls (ea : Ea) (dn : Reg) : EncodeLength.Statement (.muls ea dn) := encode_length _

theorem EncodeLength.abcdReg (dy dx : Reg) : EncodeLength.Statement (.abcdReg dy dx) := encode_length _

theorem EncodeLength.abcdMem (ay ax : Reg) : EncodeLength.Statement (.abcdMem ay ax) := encode_length _

theorem EncodeLength.exgDD (dx dy : Reg) : EncodeLength.Statement (.exgDD dx dy) := encode_length _

theorem EncodeLength.exgAA (ax ay : Reg) : EncodeLength.Statement (.exgAA ax ay) := encode_length _

theorem EncodeLength.exgDA (dx ay : Reg) : EncodeLength.Statement (.exgDA dx ay) := encode_length _

theorem EncodeLength.andEaDn (sz : Size) (ea : Ea) (dn : Reg) : EncodeLength.Statement (.andEaDn sz ea dn) := encode_length _

theorem EncodeLength.andDnEa (sz : Size) (dn : Reg) (ea : Ea) : EncodeLength.Statement (.andDnEa sz dn ea) := encode_length _

theorem EncodeLength.adda (sz : WL) (ea : Ea) (an : Reg) : EncodeLength.Statement (.adda sz ea an) := encode_length _

theorem EncodeLength.addxReg (sz : Size) (dy dx : Reg) : EncodeLength.Statement (.addxReg sz dy dx) := encode_length _

theorem EncodeLength.addxMem (sz : Size) (ay ax : Reg) : EncodeLength.Statement (.addxMem sz ay ax) := encode_length _

theorem EncodeLength.addEaDn (sz : Size) (ea : Ea) (dn : Reg) : EncodeLength.Statement (.addEaDn sz ea dn) := encode_length _

theorem EncodeLength.addDnEa (sz : Size) (dn : Reg) (ea : Ea) : EncodeLength.Statement (.addDnEa sz dn ea) := encode_length _

theorem EncodeLength.asrMem (ea : Ea) : EncodeLength.Statement (.asrMem ea) := encode_length _

theorem EncodeLength.aslMem (ea : Ea) : EncodeLength.Statement (.aslMem ea) := encode_length _

theorem EncodeLength.lsrMem (ea : Ea) : EncodeLength.Statement (.lsrMem ea) := encode_length _

theorem EncodeLength.lslMem (ea : Ea) : EncodeLength.Statement (.lslMem ea) := encode_length _

theorem EncodeLength.roxrMem (ea : Ea) : EncodeLength.Statement (.roxrMem ea) := encode_length _

theorem EncodeLength.roxlMem (ea : Ea) : EncodeLength.Statement (.roxlMem ea) := encode_length _

theorem EncodeLength.rorMem (ea : Ea) : EncodeLength.Statement (.rorMem ea) := encode_length _

theorem EncodeLength.rolMem (ea : Ea) : EncodeLength.Statement (.rolMem ea) := encode_length _

theorem EncodeLength.asrImm (sz : Size) (cnt dn : Reg) : EncodeLength.Statement (.asrImm sz cnt dn) := encode_length _

theorem EncodeLength.asrReg (sz : Size) (dm dn : Reg) : EncodeLength.Statement (.asrReg sz dm dn) := encode_length _

theorem EncodeLength.aslImm (sz : Size) (cnt dn : Reg) : EncodeLength.Statement (.aslImm sz cnt dn) := encode_length _

theorem EncodeLength.aslReg (sz : Size) (dm dn : Reg) : EncodeLength.Statement (.aslReg sz dm dn) := encode_length _

theorem EncodeLength.lsrImm (sz : Size) (cnt dn : Reg) : EncodeLength.Statement (.lsrImm sz cnt dn) := encode_length _

theorem EncodeLength.lsrReg (sz : Size) (dm dn : Reg) : EncodeLength.Statement (.lsrReg sz dm dn) := encode_length _

theorem EncodeLength.lslImm (sz : Size) (cnt dn : Reg) : EncodeLength.Statement (.lslImm sz cnt dn) := encode_length _

theorem EncodeLength.lslReg (sz : Size) (dm dn : Reg) : EncodeLength.Statement (.lslReg sz dm dn) := encode_length _

theorem EncodeLength.roxrImm (sz : Size) (cnt dn : Reg) : EncodeLength.Statement (.roxrImm sz cnt dn) := encode_length _

theorem EncodeLength.roxrReg (sz : Size) (dm dn : Reg) : EncodeLength.Statement (.roxrReg sz dm dn) := encode_length _

theorem EncodeLength.roxlImm (sz : Size) (cnt dn : Reg) : EncodeLength.Statement (.roxlImm sz cnt dn) := encode_length _

theorem EncodeLength.roxlReg (sz : Size) (dm dn : Reg) : EncodeLength.Statement (.roxlReg sz dm dn) := encode_length _

theorem EncodeLength.rorImm (sz : Size) (cnt dn : Reg) : EncodeLength.Statement (.rorImm sz cnt dn) := encode_length _

theorem EncodeLength.rorReg (sz : Size) (dm dn : Reg) : EncodeLength.Statement (.rorReg sz dm dn) := encode_length _

theorem EncodeLength.rolImm (sz : Size) (cnt dn : Reg) : EncodeLength.Statement (.rolImm sz cnt dn) := encode_length _

theorem EncodeLength.rolReg (sz : Size) (dm dn : Reg) : EncodeLength.Statement (.rolReg sz dm dn) := encode_length _

end Sys2Proof.Laws
end

