-- ==== Sys2Proof/Tests/Slice0.lean ====
section
/-! SUPPORT. Tests. Decoding: words written out by hand from 30_encoding.md R80 to R92. Steps: the vectors of
95_test_vectors.md, whose results are the spec's. Witnesses of the statements' hypotheses stand at the end. -/

namespace Sys2Proof.Tests

open Sys2Proof.Machine

/-! The checks of WellFormed, each with a term it refuses. -/

theorem test_wf_data : Instr.wellFormed (.orEaDn .w (.an 0) 1) = false := by decide
theorem test_wf_dataAlterable : Instr.wellFormed (.clr .w (.pcDisp 4)) = false := by decide
theorem test_wf_memoryAlterable : Instr.wellFormed (.addDnEa .w 0 (.dn 1)) = false := by decide
theorem test_wf_control : Instr.wellFormed (.lea (.postInc 0) 1) = false := by decide
theorem test_wf_byteAn : Instr.wellFormed (.moveB (.an 0) (.dn 1)) = false := by decide
theorem test_wf_quickByteAn : Instr.wellFormed (.addq 1 .b (.an 0)) = false := by decide
theorem test_wf_movemDest : Instr.wellFormed (.movemToMem .w 1 (.postInc 0)) = false := by decide
theorem test_wf_movemSource : Instr.wellFormed (.movemToReg .w (.preDec 0) 1) = false := by decide
theorem test_wf_btstStatic : Instr.wellFormed (.btstImm 1 (.imm (.b 0))) = false := by decide
theorem test_wf_immSize : Instr.wellFormed (.addEaDn .w (.imm (.l 0)) 1) = false := by decide
theorem test_wf_zeroByteDisp : Instr.wellFormed (.bra (.byte 0)) = false := by decide
theorem test_wf_branchCond : Instr.wellFormed (.bcc .f (.word 4)) = false := by decide

/-! Decoding. -/

/-- The instruction that words stand for, where nothing is left over. -/
def reads (ws : List Word) : Option Instr :=
  match decode ws with
  | .ok (i, []) => some i
  | _ => none

def allRead (l : List (List Word × Instr)) : Bool := l.all (fun p => reads p.1 == some p.2)

theorem test_decode_bits_and_status : allRead
  [([0x003C, 0x001F], .oriToCcr 0x1F), ([0x007C, 0x0700], .oriToSr 0x0700), ([0x023C, 0x00EF], .andiToCcr 0xEF),
   ([0x027C, 0xFFFF], .andiToSr 0xFFFF), ([0x0A3C, 0x0004], .eoriToCcr 4), ([0x0A7C, 0x2000], .eoriToSr 0x2000),
   ([0x0108, 0x0000], .movepToReg .w 0 0 0), ([0x0B4E, 0x0010], .movepToReg .l 6 0x10 5),
   ([0x01C8, 0x0000], .movepToMem .l 0 0 0), ([0x0389, 0xFFFE], .movepToMem .w 1 1 0xFFFE),
   ([0x0910], .btstDn 4 (.ind 0)), ([0x0340], .bchgDn 1 (.dn 0)), ([0x0799], .bclrDn 3 (.postInc 1)),
   ([0x03D0], .bsetDn 1 (.ind 0)), ([0x0800, 0x001F], .btstImm 31 (.dn 0)), ([0x0868, 0x0007, 0x0010], .bchgImm 7 (.disp 0 0x10)),
   ([0x0880, 0x0000], .bclrImm 0 (.dn 0)), ([0x08F8, 0x0003, 0x4000], .bsetImm 3 (.absW 0x4000))] = true := by decide
theorem test_decode_immediate : allRead
  [([0x0000, 0x0012], .ori (.b 0x12) (.dn 0)), ([0x0251, 0x00FF], .andi (.w 0xFF) (.ind 1)),
   ([0x0482, 0x0001, 0x0002], .subi (.l 0x10002) (.dn 2)), ([0x065B, 0x1234], .addi (.w 0x1234) (.postInc 3)),
   ([0x0A24, 0x0055], .eori (.b 0x55) (.preDec 4)), ([0x0CB9, 0x8000, 0x0000, 0x0012, 0x3456], .cmpi (.l 0x80000000) (.absL 0x123456))] = true := by decide
theorem test_decode_move : allRead
  [([0x3040], .moveaW (.dn 0) 0), ([0x2E7C, 0x0000, 0x8000], .moveaL (.imm (.l 0x8000)) 7), ([0x1200], .moveB (.dn 0) (.dn 1)),
   ([0x1F3C, 0x0012], .moveB (.imm (.b 0x12)) (.preDec 7)), ([0x3318], .moveW (.postInc 0) (.preDec 1)),
   ([0x3030, 0x1002], .moveW (.index 0 ⟨false, 1, false, 2⟩) (.dn 0)), ([0x303A, 0x0002], .moveW (.pcDisp 2) (.dn 0)),
   ([0x23FB, 0xA8FE, 0x00FF, 0x0004], .moveL (.pcIndex ⟨true, 2, true, 0xFE⟩) (.absL 0xFF0004)), ([0x22D8], .moveL (.postInc 0) (.postInc 1))] = true := by decide
theorem test_decode_line4_fixed : allRead
  [([0x4E70], .resetDevices), ([0x4E71], .nop), ([0x4E72, 0x2000], .stop 0x2000), ([0x4E73], .rte), ([0x4E75], .rts),
   ([0x4E76], .trapv), ([0x4E77], .rtr), ([0x4AFC], .illegal), ([0x4E4A], .trap 10), ([0x4E56, 0xFFF8], .link 6 0xFFF8),
   ([0x4E5E], .unlk 6), ([0x4E60], .moveToUsp 0), ([0x4E6B], .moveFromUsp 3), ([0x4845], .swap 5), ([0x4886], .extW 6),
   ([0x48C1], .extL 1), ([0x40E7], .moveFromSr (.preDec 7)), ([0x44C0], .moveToCcr (.dn 0)), ([0x46FC, 0x0000], .moveToSr (.imm (.w 0))),
   ([0x4AD0], .tas (.ind 0))] = true := by decide
theorem test_decode_line4_ea : allRead
  [([0x41BC, 0x0064], .chk (.imm (.w 100)) 0), ([0x43F0, 0x0004], .lea (.index 0 ⟨false, 0, false, 4⟩) 1),
   ([0x4821], .nbcd (.preDec 1)), ([0x4850], .pea (.ind 0)), ([0x48E7, 0xC080], .movemToMem .l 0xC080 (.preDec 7)),
   ([0x4890, 0x0003], .movemToMem .w 3 (.ind 0)), ([0x4CDF, 0x0103], .movemToReg .l (.postInc 7) 0x0103),
   ([0x4C90, 0x0201], .movemToReg .w (.ind 0) 0x0201), ([0x4EBA, 0x0004], .jsr (.pcDisp 4)), ([0x4EF9, 0x0001, 0x0000], .jmp (.absL 0x10000)),
   ([0x4080], .negx .l (.dn 0)), ([0x4250], .clr .w (.ind 0)), ([0x4400], .neg .b (.dn 0)), ([0x4668, 0x0008], .notEa .w (.disp 0 8)),
   ([0x4A80], .tst .l (.dn 0))] = true := by decide
theorem test_decode_lines_5_6_7 : allRead
  [([0x51C9, 0xFFFC], .dbcc .f 1 0xFFFC), ([0x57C0], .scc .eq (.dn 0)), ([0x5048], .addq 0 .w (.an 0)), ([0x5348], .subq 1 .w (.an 0)),
   ([0x6006], .bra (.byte 6)), ([0x6000, 0x0100], .bra (.word 0x100)), ([0x6108], .bsr (.byte 8)), ([0x6704], .bcc .eq (.byte 4)),
   ([0x6600, 0x0100], .bcc .ne (.word 0x100)), ([0x70FF], .moveq 0xFF 0)] = true := by decide
theorem test_decode_lines_8_9_B : allRead
  [([0x80FC, 0x000A], .divu (.imm (.w 10)) 0), ([0x81FC, 0xFFFE], .divs (.imm (.w 0xFFFE)) 0), ([0x8101], .sbcdReg 1 0),
   ([0x850B], .sbcdMem 3 2), ([0x8441], .orEaDn .w (.dn 1) 2), ([0x8791], .orDnEa .l 3 (.ind 1)), ([0x97C2], .suba .l (.dn 2) 3),
   ([0x92CA], .suba .w (.an 2) 1), ([0x9141], .subxReg .w 1 0), ([0x9388], .subxMem .l 0 1), ([0x9219], .subEaDn .b (.postInc 1) 1),
   ([0x91A1], .subDnEa .l 0 (.preDec 1)), ([0xB0C0], .cmpa .w (.dn 0) 0), ([0xB308], .cmpm .b 0 1), ([0xB041], .cmp .w (.dn 1) 0),
   ([0xB181], .eor .l 0 (.dn 1))] = true := by decide
theorem test_decode_lines_C_D : allRead
  [([0xC0C1], .mulu (.dn 1) 0), ([0xC1FC, 0xFFFF], .muls (.imm (.w 0xFFFF)) 0), ([0xC101], .abcdReg 1 0), ([0xC50B], .abcdMem 3 2),
   ([0xC342], .exgDD 1 2), ([0xC34A], .exgAA 1 2), ([0xC188], .exgDA 0 0), ([0xC081], .andEaDn .l (.dn 1) 0),
   ([0xC310], .andDnEa .b 1 (.ind 0)), ([0xD0C0], .adda .w (.dn 0) 0), ([0xD182], .addxReg .l 2 0), ([0xD308], .addxMem .b 0 1),
   ([0xD058], .addEaDn .w (.postInc 0) 0), ([0xD368, 0x0002], .addDnEa .w 1 (.disp 0 2))] = true := by decide
theorem test_decode_shift_1 : allRead
  [([0xE0D0], .asrMem (.ind 0)), ([0xE1D0], .aslMem (.ind 0)), ([0xE2D0], .lsrMem (.ind 0)), ([0xE3D0], .lslMem (.ind 0)),
   ([0xE4D0], .roxrMem (.ind 0)), ([0xE5D0], .roxlMem (.ind 0)), ([0xE6D0], .rorMem (.ind 0)), ([0xE7D0], .rolMem (.ind 0)),
   ([0xE040], .asrImm .w 0 0), ([0xE2A1], .asrReg .l 1 1), ([0xE300], .aslImm .b 1 0), ([0xE363], .aslReg .w 1 3), ([0xE489], .lsrImm .l 2 1),
   ([0xE2A8], .lsrReg .l 1 0), ([0xE508], .lslImm .b 2 0), ([0xE76A], .lslReg .w 3 2)] = true := by decide
theorem test_decode_shift_2 : allRead
  [([0xE250], .roxrImm .w 1 0), ([0xE8B4], .roxrReg .l 4 4), ([0xE715], .roxlImm .b 3 5), ([0xE177], .roxlReg .w 0 7), ([0xEE9A], .rorImm .l 7 2),
   ([0xE23B], .rorReg .b 1 3), ([0xE159], .rolImm .w 0 1), ([0xE338], .rolReg .b 1 0)] = true := by decide

/-- Words that begin no instruction: line A, line F, an illegal one (R94). -/
theorem test_decode_none : [0xA000, 0xF123, 0x4AFB, 0x0040 + 0x3B].map (fun w => reads [w, 0, 0, 0, 0]) = [none, none, none, none] := by
  decide

/-! Steps. -/

/-- A supervisor state with words at 1000, SSP 8000, no time elapsed. -/
def prog (ws : List Word) : State :=
  { State.reset with pc := 0x1000, ssp := 0x8000, elapsed := Time.zero, mem := Memory.placeWords [] 0x1000 ws }

def State.put (s : State) (sz : Size) (a : Long) (v : Nat) : State := s.poke (cellsOf sz a v)

def flags (s : State) (v : Nat) : State := s.setSr (s.sr.withCcr v)

/-- What `f` sees after one step. -/
def after {α : Type} (s : State) (f : State → α) : Option α :=
  match step s with
  | .next t => some (f t)
  | _ => none

theorem test_move_b :
    after ((prog [0x1200]).setD 0 0x123456FF |>.setD 1 0xAAAAAAAA) (fun s => (s.d[1], s.sr.ccr, s.elapsed)) = some (0xAAAAAAFF, 8, ⟨4, 1, 0⟩) := by decide

theorem test_move_w_mem :
    after (((prog [0x3318]).setA 0 0x2000).setA 1 0x3000) (fun s => (s.peek .w 0x2FFE, s.a[0], s.a[1], s.sr.ccr, s.elapsed)) = some (0, 0x2002, 0x2FFE, 4, ⟨12, 2, 1⟩) := by decide

theorem test_move_l_mem :
    after (State.put (((prog [0x22D8]).setA 0 0x2000).setA 1 0x3000) .l 0x2000 0x80000001) (fun s => (s.peek .l 0x3000, s.a[0], s.a[1], s.sr.ccr, s.elapsed)) = some (0x80000001, 0x2004, 0x3004, 8, ⟨20, 3, 2⟩) := by decide

theorem test_move_b_a7 :
    after (State.put (prog [0x1F3C, 0x0012]) .b 0x7FFF 0x77) (fun s => (s.peek .b 0x7FFE, s.peek .b 0x7FFF, s.ssp, s.elapsed)) = some (0x12, 0x77, 0x7FFE, ⟨12, 2, 1⟩) := by decide

theorem test_movea_w :
    after ((prog [0x3040]).setD 0 0xFFFE) (fun s => (s.a[0], s.sr.ccr, s.elapsed)) = some (0xFFFFFFFE, 0, ⟨4, 1, 0⟩) := by decide

theorem test_move_index :
    after (State.put (((prog [0x3030, 0x1002]).setA 0 0x2000).setD 1 0x1234FFFE) .w 0x2000 0xBEEF) (fun s => (s.dlow .w 0, s.elapsed)) = some (0xBEEF, ⟨14, 3, 0⟩) := by decide

theorem test_add_w :
    after (State.put (((prog [0xD058]).setD 0 0x1235).setA 0 0x2000) .w 0x2000 0x7000) (fun s => (s.dlow .w 0, s.sr.ccr, s.elapsed)) = some (0x8235, 0x0A, ⟨8, 2, 0⟩) := by decide

theorem test_add_l :
    after (((prog [0xD283]).setD 1 0xFFFFFFFF).setD 3 1) (fun s => (s.d[1], s.sr.ccr, s.elapsed)) = some (0, 0x15, ⟨8, 1, 0⟩) := by decide

theorem test_sub_l_mem :
    after (((prog [0x91A1]).setD 0 1).setA 1 0x3004) (fun s => (s.peek .l 0x3000, s.a[1], s.sr.ccr, s.elapsed)) = some (0xFFFFFFFF, 0x3000, 0x19, ⟨22, 3, 2⟩) := by decide

theorem test_cmp_w_overflow :
    after (flags (((prog [0xB041]).setD 0 0x8000).setD 1 1) 16) (fun s => (s.d[0], s.sr.ccr, s.elapsed)) = some (0x8000, 0x12, ⟨4, 1, 0⟩) := by decide

theorem test_cmp_w_borrow :
    after (((prog [0xB041]).setD 0 1).setD 1 2) (fun s => (s.d[0], s.sr.ccr)) = some (1, 9) := by decide

theorem test_cmpa_w :
    after (((prog [0xB0C0]).setA 0 0xFFFFFFFF).setD 0 0xFFFF) (fun s => (s.a[0], s.sr.ccr, s.elapsed)) = some (0xFFFFFFFF, 4, ⟨6, 1, 0⟩) := by decide

theorem test_adda_w :
    after (flags (((prog [0xD0C0]).setA 0 0x1000).setD 0 0xFFFF) 31) (fun s => (s.a[0], s.sr.ccr, s.elapsed)) = some (0xFFF, 31, ⟨8, 1, 0⟩) := by decide

theorem test_and_l :
    after (((prog [0xC081]).setD 0 0xFF00FF00).setD 1 0x0FF00FF0) (fun s => (s.d[0], s.sr.ccr, s.elapsed)) = some (0x0F000F00, 0, ⟨8, 1, 0⟩) := by decide

theorem test_eor_l :
    after (((prog [0xB181]).setD 0 0x12345678).setD 1 0x12345678) (fun s => (s.d[1], s.sr.ccr, s.elapsed)) = some (0, 4, ⟨8, 1, 0⟩) := by decide

theorem test_mulu :
    after (((prog [0xC0C1]).setD 0 0x1234FFFF).setD 1 0xFFFF) (fun s => (s.d[0], s.sr.ccr, s.elapsed)) = some (0xFFFE0001, 8, ⟨70, 1, 0⟩) := by decide

theorem test_muls :
    after ((prog [0xC1FC, 0xFFFF]).setD 0 1) (fun s => (s.d[0], s.sr.ccr, s.elapsed)) = some (0xFFFFFFFF, 8, ⟨44, 2, 0⟩) := by decide

theorem test_mulu_zero :
    after ((prog [0xC0FC, 0x0000]).setD 0 77) (fun s => (s.d[0], s.sr.ccr, s.elapsed)) = some (0, 4, ⟨42, 2, 0⟩) := by decide

theorem test_divu :
    after ((prog [0x80FC, 0x000A]).setD 0 0x67) (fun s => (s.d[0], s.sr.ccr, s.elapsed.r)) = some (0x3000A, 0, 2) := by decide

theorem test_divs :
    after ((prog [0x81FC, 0xFFFE]).setD 0 0xFFFFFFF9) (fun s => (s.d[0], s.sr.ccr, s.elapsed.r)) = some (0xFFFF0003, 0, 2) := by decide

theorem test_divu_overflow :
    after ((prog [0x80FC, 0x0001]).setD 0 0x10000) (fun s => (s.d[0], s.sr.v, s.sr.c)) = some (0x10000, true, false) := by decide

theorem test_divs_zero :
    after (State.put ((prog [0x81FC, 0x0000]).setD 0 9) .l 0x14 0x5000) (fun s => (s.d[0], s.pc, s.peek .l 0x7FFC, s.ssp, s.elapsed)) = some (9, 0x5000, 0x1004, 0x7FFA, ⟨46, 6, 3⟩) := by decide

theorem test_addi_w :
    after ((prog [0x0640, 0x0001]).setD 0 0x7FFF) (fun s => (s.d[0], s.sr.ccr, s.elapsed)) = some (0x8000, 0x0A, ⟨8, 2, 0⟩) := by decide

theorem test_subi_l :
    after (State.put ((prog [0x0490, 0x0000, 0x0001]).setA 0 0x2000) .l 0x2000 0x10000) (fun s => (s.peek .l 0x2000, s.sr.ccr, s.elapsed)) = some (0xFFFF, 0, ⟨28, 5, 2⟩) := by decide

theorem test_cmpi_b :
    after (flags ((prog [0x0C00, 0x0001]).setD 0 0) 16) (fun s => (s.d[0], s.sr.ccr, s.elapsed)) = some (0, 0x19, ⟨8, 2, 0⟩) := by decide

theorem test_andi_l :
    after (State.put ((prog [0x0290, 0x0000, 0xFFFF]).setA 0 0x2000) .l 0x2000 0x12345678) (fun s => (s.peek .l 0x2000, s.sr.ccr, s.elapsed)) = some (0x5678, 0, ⟨28, 5, 1⟩) := by decide

theorem test_addq_an :
    after (flags ((prog [0x5088]).setA 0 0xFFFFFFF8) 3) (fun s => (s.a[0], s.sr.ccr, s.elapsed)) = some (0, 3, ⟨8, 1, 0⟩) := by decide

theorem test_subq_an :
    after ((prog [0x5348]).setA 0 0x10000) (fun s => (s.a[0], s.sr.ccr, s.elapsed)) = some (0xFFFF, 0, ⟨8, 1, 0⟩) := by decide

theorem test_addq_dn :
    after ((prog [0x5240]).setD 0 0x1234FFFF) (fun s => (s.d[0], s.sr.ccr, s.elapsed)) = some (0x12340000, 0x15, ⟨4, 1, 0⟩) := by decide

theorem test_moveq :
    after (prog [0x70FF]) (fun s => (s.d[0], s.sr.ccr, s.elapsed)) = some (0xFFFFFFFF, 8, ⟨4, 1, 0⟩) := by decide

theorem test_clr_w :
    after (State.put ((prog [0x4250]).setA 0 0x2000) .w 0x2000 0xFFFF) (fun s => (s.peek .w 0x2000, s.sr.ccr, s.elapsed)) = some (0, 4, ⟨12, 2, 1⟩) := by decide

theorem test_neg_b_min :
    after ((prog [0x4400]).setD 0 0x80) (fun s => (s.d[0], s.sr.ccr, s.elapsed)) = some (0x80, 0x1B, ⟨4, 1, 0⟩) := by decide

theorem test_neg_b_zero :
    after (flags ((prog [0x4400]).setD 0 0) 0x1B) (fun s => (s.d[0], s.sr.ccr)) = some (0, 4) := by decide

theorem test_negx_l :
    after (flags ((prog [0x4080]).setD 0 0) 0x14) (fun s => (s.d[0], s.sr.ccr, s.elapsed)) = some (0xFFFFFFFF, 0x19, ⟨6, 1, 0⟩) := by decide

theorem test_nbcd :
    after ((prog [0x4800]).setD 0 0x25) (fun s => (s.d[0], s.sr.c, s.sr.x, s.sr.z, s.elapsed)) = some (0x75, true, true, false, ⟨6, 1, 0⟩) := by decide

theorem test_seq_true :
    after (flags ((prog [0x57C0]).setD 0 0) 4) (fun s => (s.d[0], s.sr.ccr, s.elapsed)) = some (0xFF, 4, ⟨6, 1, 0⟩) := by decide

theorem test_seq_false :
    after ((prog [0x57C0]).setD 0 0x1FF) (fun s => (s.d[0], s.elapsed)) = some (0x100, ⟨4, 1, 0⟩) := by decide

theorem test_tas :
    after ((prog [0x4AD0]).setA 0 0x2000) (fun s => (s.peek .b 0x2000, s.sr.ccr, s.elapsed)) = some (0x80, 4, ⟨14, 2, 1⟩) := by decide

theorem test_tst_l :
    after ((prog [0x4A80]).setD 0 0x80000000) (fun s => (s.sr.ccr, s.elapsed)) = some (8, ⟨4, 1, 0⟩) := by decide

theorem test_asl_b :
    after ((prog [0xE300]).setD 0 0x40) (fun s => (s.d[0], s.sr.ccr, s.elapsed)) = some (0x80, 0x0A, ⟨8, 1, 0⟩) := by decide

theorem test_asr_w :
    after ((prog [0xE040]).setD 0 0x8000) (fun s => (s.d[0], s.sr.ccr, s.elapsed)) = some (0xFF80, 8, ⟨22, 1, 0⟩) := by decide

theorem test_lsr_l_none :
    after (flags (((prog [0xE2A8]).setD 1 0).setD 0 0x80000000) 16) (fun s => (s.d[0], s.sr.ccr, s.elapsed)) = some (0x80000000, 0x18, ⟨8, 1, 0⟩) := by decide

theorem test_lsr_l_all :
    after (((prog [0xE2A8]).setD 1 0x21).setD 0 0xFFFFFFFF) (fun s => (s.d[0], s.sr.ccr, s.elapsed)) = some (0, 4, ⟨74, 1, 0⟩) := by decide

theorem test_rol_b :
    after (((prog [0xE338]).setD 1 0x10).setD 0 0x81) (fun s => (s.d[0], s.sr.ccr, s.elapsed)) = some (0x81, 9, ⟨38, 1, 0⟩) := by decide

theorem test_roxr_w :
    after ((prog [0xE250]).setD 0 1) (fun s => (s.d[0], s.sr.ccr, s.elapsed)) = some (0, 0x15, ⟨8, 1, 0⟩) := by decide

theorem test_lsl_mem :
    after (State.put ((prog [0xE3D0]).setA 0 0x2000) .w 0x2000 0xC000) (fun s => (s.peek .w 0x2000, s.sr.ccr, s.elapsed)) = some (0x8000, 0x19, ⟨12, 2, 1⟩) := by decide

theorem test_btst_31 :
    after (flags ((prog [0x0800, 0x001F]).setD 0 0x80000000) 31) (fun s => (s.d[0], s.sr.ccr, s.elapsed)) = some (0x80000000, 27, ⟨10, 2, 0⟩) := by decide

theorem test_btst_32 :
    after (flags ((prog [0x0800, 0x0020]).setD 0 1) 4) (fun s => (s.sr.ccr)) = some (0) := by decide

theorem test_bset_mem :
    after (((prog [0x03D0]).setD 1 15).setA 0 0x2000) (fun s => (s.peek .b 0x2000, s.sr.ccr, s.elapsed)) = some (0x80, 4, ⟨12, 2, 1⟩) := by decide

theorem test_bclr :
    after ((prog [0x0880, 0x0000]).setD 0 1) (fun s => (s.d[0], s.sr.ccr, s.elapsed.r)) = some (0, 0, 2) := by decide

theorem test_bchg :
    after (((prog [0x0340]).setD 1 31).setD 0 0) (fun s => (s.d[0], s.sr.ccr, s.elapsed.r)) = some (0x80000000, 4, 1) := by decide

theorem test_beq_taken :
    after (flags (prog [0x6704]) 4) (fun s => (s.pc, s.elapsed)) = some (0x1006, ⟨10, 2, 0⟩) := by decide

theorem test_bne_w_not_taken :
    after (flags (prog [0x6600, 0x0100]) 4) (fun s => (s.pc, s.elapsed)) = some (0x1004, ⟨12, 1, 0⟩) := by decide

theorem test_bsr_w :
    after (prog [0x6100, 0x00FE]) (fun s => (s.peek .l 0x7FFC, s.ssp, s.pc, s.elapsed)) = some (0x1004, 0x7FFC, 0x1100, ⟨18, 2, 2⟩) := by decide

theorem test_dbra_expired :
    after ((prog [0x51C9, 0xFFFC]).setD 1 0x50000) (fun s => (s.d[1], s.pc, s.elapsed)) = some (0x5FFFF, 0x1004, ⟨14, 3, 0⟩) := by decide

theorem test_dbeq_true :
    after (flags ((prog [0x57C9, 0xFFFC]).setD 1 5) 4) (fun s => (s.d[1], s.pc, s.elapsed)) = some (5, 0x1004, ⟨12, 2, 0⟩) := by decide

theorem test_jmp :
    after ((prog [0x4ED0]).setA 0 0x2000) (fun s => (s.pc, s.elapsed)) = some (0x2000, ⟨8, 2, 0⟩) := by decide

theorem test_jsr :
    after (prog [0x4EBA, 0x0004]) (fun s => (s.pc, s.peek .l 0x7FFC, s.ssp, s.elapsed)) = some (0x1006, 0x1004, 0x7FFC, ⟨18, 2, 2⟩) := by decide

theorem test_lea :
    after (((prog [0x43F0, 0x0004]).setA 0 0x1000).setD 0 0xFFFC) (fun s => (s.a[1], s.sr.ccr, s.elapsed)) = some (0x1000, 0, ⟨12, 2, 0⟩) := by decide

theorem test_pea :
    after ((prog [0x4850]).setA 0 0x12345678) (fun s => (s.peek .l 0x7FFC, s.ssp, s.elapsed)) = some (0x12345678, 0x7FFC, ⟨12, 1, 2⟩) := by decide

theorem test_movem_store :
    after (((((prog [0x48E7, 0xC080]).setA 7 0x1000).setD 0 0x11111111).setD 1 0x22222222).setA 0 0x33333333) (fun s => (s.peek .l 0xFF4, s.peek .l 0xFF8, s.peek .l 0xFFC, s.ssp, s.elapsed)) = some (0x11111111, 0x22222222, 0x33333333, 0xFF4, ⟨32, 2, 6⟩) := by decide

theorem test_movem_load :
    after (State.put ((prog [0x4C90, 0x0201]).setA 0 0x2000) .l 0x2000 0x80007FFF) (fun s => (s.d[0], s.a[1], s.a[0], s.elapsed)) = some (0xFFFF8000, 0x7FFF, 0x2000, ⟨20, 5, 0⟩) := by decide

theorem test_movem_load_pop :
    after (State.put ((prog [0x4CDF, 0x0103]).setA 7 0xFF4) .l 0xFFC 0x33333333) (fun s => (s.a[0], s.ssp, s.elapsed)) = some (0x33333333, 0x1000, ⟨36, 9, 0⟩) := by decide

theorem test_addx_l :
    after (flags (((prog [0xD182]).setD 0 0xFFFFFFFF).setD 2 0) 0x14) (fun s => (s.d[0], s.sr.ccr, s.elapsed)) = some (0, 0x15, ⟨8, 1, 0⟩) := by decide

theorem test_addx_mem :
    after (flags (State.put (State.put (((prog [0xD308]).setA 0 0x2001).setA 1 0x3001) .b 0x2000 0xFF) .b 0x3000 1) 4) (fun s => (s.peek .b 0x3000, s.a[0], s.a[1], s.sr.ccr, s.elapsed)) = some (0, 0x2000, 0x3000, 0x15, ⟨18, 3, 1⟩) := by decide

theorem test_subx_w :
    after (flags (((prog [0x9141]).setD 0 0).setD 1 0) 0x14) (fun s => (s.d[0], s.sr.ccr, s.elapsed)) = some (0xFFFF, 0x19, ⟨4, 1, 0⟩) := by decide

theorem test_cmpm_b :
    after (State.put (State.put (((prog [0xB308]).setA 0 0x2000).setA 1 0x3000) .b 0x2000 5) .b 0x3000 5) (fun s => (s.a[0], s.a[1], s.sr.ccr, s.elapsed)) = some (0x2001, 0x3001, 4, ⟨12, 3, 0⟩) := by decide

theorem test_abcd :
    after (flags (((prog [0xC101]).setD 0 0x99).setD 1 1) 4) (fun s => (s.d[0], s.sr.c, s.sr.x, s.sr.z, s.elapsed)) = some (0, true, true, true, ⟨6, 1, 0⟩) := by decide

theorem test_sbcd :
    after (((prog [0x8101]).setD 0 0).setD 1 1) (fun s => (s.d[0], s.sr.c, s.sr.x, s.sr.z, s.elapsed)) = some (0x99, true, true, false, ⟨6, 1, 0⟩) := by decide

theorem test_chk_no_trap :
    after ((prog [0x41BC, 0x0064]).setD 0 0x64) (fun s => (s.pc, s.elapsed)) = some (0x1004, ⟨14, 2, 0⟩) := by decide

theorem test_exg :
    after (((prog [0xC188]).setD 0 1).setA 0 2) (fun s => (s.d[0], s.a[0], s.elapsed)) = some (2, 1, ⟨6, 1, 0⟩) := by decide

theorem test_ext_w :
    after ((prog [0x4880]).setD 0 0x12340080) (fun s => (s.d[0], s.sr.ccr)) = some (0x1234FF80, 8) := by decide

theorem test_ext_l :
    after ((prog [0x48C0]).setD 0 0x12347FFF) (fun s => (s.d[0], s.sr.ccr, s.elapsed)) = some (0x7FFF, 0, ⟨4, 1, 0⟩) := by decide

theorem test_swap :
    after ((prog [0x4840]).setD 0 0x18000) (fun s => (s.d[0], s.sr.ccr, s.elapsed)) = some (0x80000001, 8, ⟨4, 1, 0⟩) := by decide

theorem test_link :
    after ((prog [0x4E56, 0xFFF8]).setA 6 0x1111) (fun s => (s.peek .l 0x7FFC, s.a[6], s.ssp, s.elapsed)) = some (0x1111, 0x7FFC, 0x7FF4, ⟨16, 2, 2⟩) := by decide

theorem test_unlk :
    after (State.put (((prog [0x4E5E]).setA 6 0x7FFC).setA 7 0x7FF4) .l 0x7FFC 0x1111) (fun s => (s.ssp, s.a[6], s.elapsed)) = some (0x8000, 0x1111, ⟨12, 3, 0⟩) := by decide

theorem test_move_from_sr :
    after ({ (prog [0x40C0]) with sr := StatusReg.ofNat 0x704 }) (fun s => (s.dlow .w 0, s.elapsed)) = some (0x704, ⟨6, 1, 0⟩) := by decide

theorem test_move_to_ccr :
    after ((prog [0x44C0]).setD 0 0xFFFF) (fun s => (s.sr.toWord, s.elapsed)) = some (0x271F, ⟨12, 1, 0⟩) := by decide

theorem test_move_usp_user :
    after (State.put { (prog [0x4E68]) with sr := StatusReg.ofNat 0 } .l 0x20 0x5000) (fun s => (s.pc, s.peek .l 0x7FFC, s.a[0], s.sr.toWord, s.elapsed)) = some (0x5000, 0x1000, 0xA000, 0x2000, ⟨34, 4, 3⟩) := by decide

theorem test_ori_sr :
    after ({ (prog [0x007C, 0x0700]) with sr := StatusReg.ofNat 0x2000 }) (fun s => (s.sr.toWord, s.elapsed)) = some (0x2700, ⟨20, 3, 0⟩) := by decide

theorem test_andi_sr :
    after (prog [0x027C, 0xFFFF]) (fun s => (s.sr.toWord)) = some (0x2700) := by decide

theorem test_trapv_no :
    after (prog [0x4E76]) (fun s => (s.pc, s.elapsed)) = some (0x1002, ⟨4, 1, 0⟩) := by decide

theorem test_trapv_yes :
    after (State.put (flags (prog [0x4E76]) 2) .l 0x1C 0x5000) (fun s => (s.pc, s.peek .l 0x7FFC, s.elapsed)) = some (0x5000, 0x1002, ⟨34, 4, 3⟩) := by decide

theorem test_illegal :
    after (State.put (prog [0x4AFC]) .l 0x10 0x5000) (fun s => (s.pc, s.peek .l 0x7FFC, s.elapsed)) = some (0x5000, 0x1000, ⟨34, 4, 3⟩) := by decide

theorem test_line_a :
    after (State.put (prog [0xA000]) .l 0x28 0x5000) (fun s => (s.pc, s.peek .l 0x7FFC, s.elapsed)) = some (0x5000, 0x1000, ⟨34, 4, 3⟩) := by decide

theorem test_stop :
    after (prog [0x4E72, 0x2000]) (fun s => (s.sr.toWord, s.run, s.pc, s.elapsed)) = some (0x2000, .stopped, 0x1004, ⟨4, 0, 0⟩) := by decide

theorem test_movep_store :
    after (((prog [0x01C8, 0x0000]).setD 0 0x12345678).setA 0 0x2001) (fun s => (s.mem.filter (fun c => 0x2000 ≤ c.1), s.elapsed)) = some ([(0x2001, 0x12), (0x2003, 0x34), (0x2005, 0x56), (0x2007, 0x78)], ⟨24, 2, 4⟩) := by decide

theorem test_movep_load :
    after (State.put ((prog [0x0108, 0x0000]).setA 0 0x2000 |>.setD 0 0x11112222) .l 0x2000 0xAB00CD00) (fun s => (s.d[0], s.elapsed)) = some (0x1111ABCD, ⟨16, 4, 0⟩) := by decide

theorem test_trap :
    after (State.put { (prog [0x4E40]) with sr := StatusReg.ofNat 4, usp := 0x6000 } .l 0x80 0x5000) (fun s => (s.peek .w 0x7FFA, s.peek .l 0x7FFC, s.ssp, s.sr.toWord, s.pc, s.elapsed)) = some (4, 0x1002, 0x7FFA, 0x2004, 0x5000, ⟨38, 4, 3⟩) := by decide

theorem test_interrupt :
    after (State.put { (prog [0x4E71]) with sr := StatusReg.ofNat 0x2200, pins := ⟨3, .autovector, false⟩ } .l 0x6C 0x4000) (fun s => (s.peek .w 0x7FFA, s.peek .l 0x7FFC, s.sr.toWord, s.pc, s.elapsed)) = some (0x2200, 0x1000, 0x2300, 0x4000, ⟨44, 5, 3⟩) := by decide

theorem test_interrupt_masked :
    after ({ (prog [0x4E71]) with sr := StatusReg.ofNat 0x2300, pins := ⟨3, .autovector, false⟩ }) (fun s => (s.pc, s.sr.toWord)) = some (0x1002, 0x2300) := by decide

theorem test_interrupt_level7 :
    after (State.put { (prog [0x4E71]) with schedule := [⟨7, .autovector, false⟩] } .l 0x7C 0x4000) (fun s => (s.pc, s.sr.toWord, s.level7Edge)) = some (0x4000, 0x2700, false) := by decide

theorem test_traced_nop :
    after ({ (prog [0x4E71]) with sr := StatusReg.ofNat 0xA000 }) (fun s => (s.pc, s.tracePending)) = some (0x1002, true) := by decide

theorem test_trace_taken :
    after (State.put { (prog []) with sr := StatusReg.ofNat 0xA000, tracePending := true } .l 0x24 0x5000) (fun s => (s.peek .w 0x7FFA, s.peek .l 0x7FFC, s.sr.toWord, s.pc, s.elapsed)) = some (0xA000, 0x1000, 0x2000, 0x5000, ⟨34, 4, 3⟩) := by decide

theorem test_rte :
    after (State.put (State.put { (prog [0x4E73]) with ssp := 0x7FFA } .w 0x7FFA 4) .l 0x7FFC 0x2002) (fun s => (s.sr.toWord, s.pc, s.ssp, s.elapsed)) = some (4, 0x2002, 0x8000, ⟨20, 5, 0⟩) := by decide

theorem test_rte_user :
    after (State.put { (prog [0x4E73]) with sr := StatusReg.ofNat 0 } .l 0x20 0x5000) (fun s => (s.pc, s.elapsed)) = some (0x5000, ⟨34, 4, 3⟩) := by decide

theorem test_double_fault :
    after ({ (prog [0x4E40]) with ssp := 0x7FFF }) (fun s => (s.run)) = some (.halted) := by decide

theorem test_reset_pins :
    after (State.put (State.put { (prog []) with pins := ⟨0, .autovector, true⟩, sr := StatusReg.ofNat 4 } .l 0 0x8000) .l 4 0x1000) (fun s => (s.ssp, s.pc, s.sr.toWord, s.elapsed)) = some (0x8000, 0x1000, 0x2704, ⟨40, 6, 0⟩) := by decide

theorem test_rtr :
    after (State.put (State.put { (prog [0x4E77]) with ssp := 0x7FFA } .w 0x7FFA 0xFFFF) .l 0x7FFC 0x2002) (fun s => (s.sr.toWord, s.pc, s.ssp, s.elapsed)) = some (0x271F, 0x2002, 0x8000, ⟨20, 5, 0⟩) := by decide

theorem test_rts :
    after (State.put { (prog [0x4E75]) with ssp := 0x7FFC } .l 0x7FFC 0x2002) (fun s => (s.pc, s.ssp, s.elapsed)) = some (0x2002, 0x8000, ⟨16, 4, 0⟩) := by decide

/-- An exception through a vector that nothing has written (R454, D19). -/
theorem test_unset_vector : (match step (prog [0x4E40]) with | .fault .unsetVector => true | _ => false) = true := by decide

theorem test_device_read :
    after ({ (prog [0x3010]).setA 0 0x4000 with regions := [⟨0x4000, 2, .device⟩, ⟨0x5001, 2, .rom⟩], answers := [.data 0xBEEF, .busError] }) (fun s => (s.dlow .w 0, s.answers)) = some (0xBEEF, [.busError]) := by decide

theorem test_rom_write :
    after ({ (prog [0x3080]).setA 0 0x5002 with regions := [⟨0x4000, 2, .device⟩, ⟨0x5001, 2, .rom⟩] }) (fun s => (s.peek .w 0x5002, s.pc)) = some (0, 0x1002) := by decide

theorem test_vector_zero :
    after ((State.put (prog [0x4E40]) .l 0x80 0)) (fun s => (s.pc, s.peek .l 0x7FFC)) = some (0, 0x1002) := by decide

theorem test_read_ahead_device :
    after ({ (prog [0x4E71]) with regions := [⟨0x1004, 2, .device⟩], ahead := [.memory, .memory], answers := [.busError, .data 7] }) (fun s => (s.pc, s.ahead, s.answers)) = some (0x1002, [.memory, .busError], [.data 7]) := by decide

theorem test_jump_device :
    after ((prog [0x4EF8, 0x4000]).setA 0 0 |> fun s => { s with regions := [⟨0x4000, 4, .device⟩], answers := [.data 0x4E71, .busError, .memory] }) (fun s => (s.pc, s.ahead, s.answers)) = some (0x4000, [.data 0x4E71, .busError], [.memory]) := by decide

theorem test_ahead_data :
    after ({ (prog [0x4E71]) with ahead := [.data 0x7005, .memory] }) (fun s => (s.d[0], s.pc)) = some (5, 0x1002) := by decide

/-- A byte at 4000 of which the platform answers the read and not the write. -/
def readOnce (s : State) : State :=
  { s.setA 0 0x4000 with regions := [⟨0x4000, 2, .device⟩], answers := [.data 0x80, .busError] }

/-- R237 sets the flags before the store: an error of the store alone finds them set. -/
theorem test_flags_before_store :
    (match ((readOnce (prog [0x4AD0])).skip 1).testAndModifyEa .b (.ind 0) (fun d sr => (d ||| 128, flagsLogic 8 d sr)) with
      | .error (.access f t _) => some (t.sr.ccr, f.addr, f.read, t.answers)
      | _ => none) = some (8, 0x4000, false, []) := by decide

theorem test_frame_kept_after_switch :
    after ({ (prog [0x4E71]) with ssp := 0x9000, book := ⟨[], [⟨0x8000, 0x1000, 2, 0, [0, 13]⟩]⟩ }) (fun s => (s.book.frames)) = some ([⟨0x8000, 0x1000, 2, 0x1000, [0, 13]⟩]) := by decide

theorem test_frame_stored_over :
    after ({ (prog [0x4267]) with ssp := 0x8010, book := ⟨[], [⟨0x8000, 0x1000, 2, 0, [0, 13]⟩, ⟨0x800E, 0, 0, 0, [0, 1]⟩, ⟨0x800E, 0, 0, 0, [0, 2]⟩]⟩ }) (fun s => (s.book.frames.map Group0Frame.kept)) = some ([[0, 13], [2]]) := by decide

/-- From a frame that SSP has stood above, not stored over since (R430, 93 U22). -/
theorem test_rte_after_switch :
    (match step { (prog [0x4E73]) with book := ⟨[], [⟨0x8000, 0x1000, 2, 0x1000, List.range 14⟩]⟩ } with
      | .refused .rteFromGroup0Frame => true
      | _ => false) = true := by decide

theorem test_undriven_window :
    after ({ (prog [0x3080]).setA 0 0x4000 |>.setD 0 7 with regions := [⟨0x4000, 2, .undriven true⟩] }) (fun s => (s.peek .w 0x4000)) = some (7) := by decide

/-! Witnesses: a state and operands that meet all hypotheses of a statement (or of one of its clauses, at a boundary of its
range). Every address is RAM in them but where they say otherwise. -/

/-- An operand's address is one an access of this size may have. -/
def placed (sz : Size) : Loc → Bool
  | .mem a _ => sz == .b || a.toNat % 2 == 0
  | _ => true

/-- No byte of the operand lies in the four bytes after the pc. -/
def clear (s : State) (sz : Size) : Loc → Bool
  | .mem a _ => (addrs sz.bytes a).all (fun b => !(addrs 4 s.pc).contains b)
  | _ => true

theorem reach_of {s : State} (h : s.regions = []) {sz : Size} {a : Long} (ha : placed sz (.mem a false) = true) :
    s.CanReach sz a := by
  have k (b : Nat) : s.kindAt b = .ram := by simp [State.kindAt, h]
  exact ⟨by simpa [placed] using ha, .inl (k _), fun _ => .inl (k _)⟩

theorem read_of {s : State} (h : s.regions = []) {sz : Size} {l : Loc} (hl : placed sz l = true) : s.CanRead sz l := by
  cases l with
  | mem a p => exact reach_of h hl
  | _ => trivial

theorem store_of {s : State} (h : s.regions = []) {sz : Size} {a : Long} (ha : placed sz (.mem a false) = true)
    (hc : clear s sz (.mem a false) = true) : s.CanStore sz a :=
  ⟨reach_of h ha, by simpa [clear] using hc⟩

theorem write_of {s : State} (h : s.regions = []) {sz : Size} {l : Loc} (hl : placed sz l = true) (hc : clear s sz l = true) :
    s.CanWrite sz l := by
  cases l with
  | mem a p => exact store_of h hl hc
  | _ => trivial

/-- Something has written the vector. -/
def vectored (s : State) (v : Nat) : Bool :=
  s.book.vectors.contains v || (addrs 4 (BitVec.ofNat 32 (4 * v))).any (fun b => Memory.read s.mem b != Config.unwrittenByte)

theorem set_of {s : State} {v : Nat} (h : vectored s v = true) : s.VectorSet v := by
  simpa [vectored, State.VectorSet] using h

theorem unset_of {s : State} {v : Nat} (h : vectored s v = false) : ¬s.VectorSet v := by
  simpa [vectored, State.VectorSet] using h

theorem stack_of {s : State} (h : s.regions = []) {n v : Nat} (hs : s.ssp.toNat % 2 = 0)
    (hd : (addrs n (s.ssp - BitVec.ofNat 32 n)).all (fun b => !(addrs 4 (BitVec.ofNat 32 (4 * v))).contains b) = true)
    (hv : placed .l (.mem (BitVec.ofNat 32 (4 * v)) false) = true) : s.CanStack n v :=
  ⟨hs, fun _ _ => by simp [State.kindAt, h], reach_of h hv, by simpa using hd⟩

theorem enter_of {s : State} (h : s.regions = []) {v : Nat} (hs : s.ssp.toNat % 2 = 0)
    (hd : (addrs 6 (s.ssp - BitVec.ofNat 32 6)).all (fun b => !(addrs 4 (BitVec.ofNat 32 (4 * v))).contains b) = true)
    (hv : placed .l (.mem (BitVec.ofNat 32 (4 * v)) false) = true) (hw : vectored s v = true)
    (ht : placed .w (.mem (BitVec.ofNat 32 (s.peek .l (BitVec.ofNat 32 (4 * v)))) false) = true) : s.CanEnter v :=
  ⟨stack_of h hs hd hv, set_of hw, reach_of h ht⟩

theorem enterGroup0_of {s : State} (h : s.regions = []) {v : Nat} (hs : s.ssp.toNat % 2 = 0)
    (hd : (addrs 14 (s.ssp - BitVec.ofNat 32 14)).all (fun b => !(addrs 4 (BitVec.ofNat 32 (4 * v))).contains b) = true)
    (hv : placed .l (.mem (BitVec.ofNat 32 (4 * v)) false) = true) (hw : vectored s v = true)
    (ht : placed .w (.mem (BitVec.ofNat 32 (s.peek .l (BitVec.ofNat 32 (4 * v)))) false) = true) : s.CanEnterGroup0 v :=
  ⟨stack_of h hs hd hv, set_of hw, reach_of h ht⟩

/-- The vectors the witnesses take, each set to 1000. -/
def withVectors (s : State) : State :=
  { s with
    mem := [2, 3, 4, 5, 6, 7, 8, 9, 10, 11, 24, 25, 31, 32, 47, 255].map (fun v : Nat => (4 * v + 2, (0x10 : Byte))) ++ s.mem }

/-- Supervisor state, A0 2000, A1 3000, D0 and D1 small. -/
def ws : State := { withVectors (prog []) with
  d := #v[7, 1, 0, 0, 0, 0, 0, 0], a := #v[0x2000, 0x3000, 0, 0, 0, 0, 0] }

/-- The same in user state. -/
def wu : State := { ws with sr := { ws.sr with s := false } }

theorem of_after {α : Type} {s : State} {f : State → α} {x : α} (h : after s f = some x) : ∃ t, step s = .next t ∧ f t = x := by
  unfold after at h
  split at h
  · exact ⟨_, by assumption, Option.some.inj h⟩
  · cases h

theorem witness_UserStateConfined : wu.sr.s = false ∧ ∃ t, step wu = .next t ∧ t.sr.s = false :=
  ⟨rfl, of_after (f := fun t => t.sr.s) (by decide)⟩

theorem witness_StepKeepsPcEven : (prog [0x6004]).PcEven ∧ ∃ t, step (prog [0x6004]) = .next t ∧ t.pc = 0x1006 :=
  ⟨.inr (by decide), of_after (f := fun t => t.pc) (by decide)⟩

theorem witness_StepKeepsMemoryCanonical : ((prog [0x3080]).setA 0 0x2000).MemoryCanonical ∧
    ∃ t, step ((prog [0x3080]).setA 0 0x2000) = .next t ∧ t.peek .w 0x2000 = 0xD00 :=
  ⟨by unfold State.MemoryCanonical; decide, of_after (f := fun t => t.peek .w 0x2000) (by decide)⟩

theorem witness_ResetSequence :
    { ws with pins := ⟨0, .autovector, true⟩ : State }.sampled.pins.reset = true ∧
    ws.CanReach .l 0 ∧
    ws.CanReach .l 4 ∧
    ws.CanReach .w (BitVec.ofNat 32 (ws.peek .l 4)) :=
  ⟨by decide, reach_of rfl (by decide), reach_of rfl (by decide), reach_of rfl (by decide)⟩

theorem witness_StepRunsDecoded :
    (prog [0x1200]).sampled.pins.reset = false ∧
    (prog [0x1200]).run = .running ∧
    (prog [0x1200]).tracePending = false ∧
    (prog [0x1200]).sampled.interruptDue = false ∧
    decode ((prog [0x1200]).wordsAt (prog [0x1200]).pc) = .ok (.moveB (.dn 0) (.dn 1), [0, 0, 0, 0]) ∧
    (prog [0x1200]).pc.toNat % 2 = 0 ∧
    (∀ x ∈ (prog [0x1200]).ahead, x = .memory) ∧
    (∀ k, k < 5 - 4 → (prog [0x1200]).ahead.length ≤ k → (prog [0x1200]).Answers ((prog [0x1200]).pc + BitVec.ofNat 32 (2 * k))) :=
  ⟨by decide, by decide, by decide, by decide, by decide, by decide, by decide, by unfold State.Answers; decide⟩

theorem witness_StepRunsDecoded_five_words :
    (prog [0x0CB9, 0x8000, 0x0000, 0x0012, 0x3456]).sampled.pins.reset = false ∧
    (prog [0x0CB9, 0x8000, 0x0000, 0x0012, 0x3456]).run = .running ∧
    (prog [0x0CB9, 0x8000, 0x0000, 0x0012, 0x3456]).tracePending = false ∧
    (prog [0x0CB9, 0x8000, 0x0000, 0x0012, 0x3456]).sampled.interruptDue = false ∧
    decode ((prog [0x0CB9, 0x8000, 0x0000, 0x0012, 0x3456]).wordsAt (prog [0x0CB9, 0x8000, 0x0000, 0x0012, 0x3456]).pc) = .ok (.cmpi (.l 0x80000000) (.absL 0x123456), []) ∧
    (prog [0x0CB9, 0x8000, 0x0000, 0x0012, 0x3456]).pc.toNat % 2 = 0 ∧
    (∀ x ∈ (prog [0x0CB9, 0x8000, 0x0000, 0x0012, 0x3456]).ahead, x = .memory) ∧
    (∀ k, k < 5 - 0 → (prog [0x0CB9, 0x8000, 0x0000, 0x0012, 0x3456]).ahead.length ≤ k → (prog [0x0CB9, 0x8000, 0x0000, 0x0012, 0x3456]).Answers ((prog [0x0CB9, 0x8000, 0x0000, 0x0012, 0x3456]).pc + BitVec.ofNat 32 (2 * k))) :=
  ⟨by decide, by decide, by decide, by decide, by decide, by decide, by decide, by unfold State.Answers; decide⟩

theorem witness_ReadAhead_memory :
    ws.Answers ws.pc ∧
    ws.Answers (ws.pc + 2) ∧
    (∀ z ∈ ({ ws with ahead := [.memory], answers := [], regions := [] } : State).ahead, z = .memory) ∧
    ({ ws with ahead := [.memory], answers := [], regions := [] } : State).ahead.length ≤ 2 :=
  ⟨.inl rfl, .inl rfl, by decide, by decide⟩

theorem witness_ReadAhead_device :
    ({ ws with ahead := [.memory], answers := [.busError], regions := [⟨0x1000, 8, .device⟩] } : State).ahead = [.memory] ∧
    ({ ws with ahead := [.memory], answers := [.busError], regions := [⟨0x1000, 8, .device⟩] } : State).kindAt (phys (({ ws with ahead := [.memory], answers := [.busError], regions := [⟨0x1000, 8, .device⟩] } : State).pc + 2)) = .device ∧
    ({ ws with ahead := [.memory], answers := [.busError], regions := [⟨0x1000, 8, .device⟩] } : State).answers = .busError :: [] :=
  by decide

theorem witness_ReadAhead_device_both :
    ({ ws with ahead := [], answers := [.data 1, .busError], regions := [⟨0x1000, 8, .device⟩] } : State).ahead = [] ∧
    ({ ws with ahead := [], answers := [.data 1, .busError], regions := [⟨0x1000, 8, .device⟩] } : State).kindAt (phys ({ ws with ahead := [], answers := [.data 1, .busError], regions := [⟨0x1000, 8, .device⟩] } : State).pc) = .device ∧
    ({ ws with ahead := [], answers := [.data 1, .busError], regions := [⟨0x1000, 8, .device⟩] } : State).kindAt (phys (({ ws with ahead := [], answers := [.data 1, .busError], regions := [⟨0x1000, 8, .device⟩] } : State).pc + 2)) = .device ∧
    ({ ws with ahead := [], answers := [.data 1, .busError], regions := [⟨0x1000, 8, .device⟩] } : State).answers = .data 1 :: .busError :: [] :=
  by decide

theorem witness_ReadAhead_absent :
    ({ ws with ahead := [.memory], answers := [], regions := [⟨0x1002, 2, .absent⟩] } : State).ahead = [.memory] ∧
    ({ ws with ahead := [.memory], answers := [], regions := [⟨0x1002, 2, .absent⟩] } : State).kindAt (phys (({ ws with ahead := [.memory], answers := [], regions := [⟨0x1002, 2, .absent⟩] } : State).pc + 2)) = .absent :=
  by decide

theorem witness_ReadAhead_jump :
    (0x1004 : Long).toNat % 2 = 0 ∧
    ({ ws with ahead := [], answers := [.data 1, .memory], regions := [⟨0x1000, 8, .device⟩] } : State).kindAt (phys 0x1004) = .device ∧
    ({ ws with ahead := [], answers := [.data 1, .memory], regions := [⟨0x1000, 8, .device⟩] } : State).kindAt (phys (0x1004 + 2)) = .device ∧
    ({ ws with ahead := [], answers := [.data 1, .memory], regions := [⟨0x1000, 8, .device⟩] } : State).answers = .data 1 :: .memory :: [] ∧
    BusAnswer.data 1 ≠ .busError ∧
    BusAnswer.memory ≠ .busError :=
  by decide

theorem witness_ReadAhead_data :
    (0x1000 : Long).toNat % 2 = 0 ∧
    ({ ws with ahead := [.data 0x4E71, .memory], answers := [], regions := [] } : State).ahead = .data 0x4E71 :: [.memory] :=
  by decide

theorem witness_ReadAhead_error :
    ({ ws with ahead := [.busError, .memory], answers := [], regions := [] } : State).sampled.pins.reset = false ∧
    ({ ws with ahead := [.busError, .memory], answers := [], regions := [] } : State).run = .running ∧
    ({ ws with ahead := [.busError, .memory], answers := [], regions := [] } : State).tracePending = false ∧
    ({ ws with ahead := [.busError, .memory], answers := [], regions := [] } : State).sampled.interruptDue = false ∧
    ({ ws with ahead := [.busError, .memory], answers := [], regions := [] } : State).pc.toNat % 2 = 0 ∧
    ({ ws with ahead := [.busError, .memory], answers := [], regions := [] } : State).ahead = .busError :: [.memory] :=
  by decide

theorem witness_IllegalWords_illegal :
    (withVectors (prog [0x4AFB])).sampled.pins.reset = false ∧
    (withVectors (prog [0x4AFB])).run = .running ∧
    (withVectors (prog [0x4AFB])).tracePending = false ∧
    (withVectors (prog [0x4AFB])).sampled.interruptDue = false ∧
    decode ((withVectors (prog [0x4AFB])).wordsAt (withVectors (prog [0x4AFB])).pc) = .error .illegal ∧
    (withVectors (prog [0x4AFB])).mem.wf = true ∧
    (withVectors (prog [0x4AFB])).pc.toNat % 2 = 0 ∧
    (∀ x ∈ (withVectors (prog [0x4AFB])).ahead, x = .memory) ∧
    ((withVectors (prog [0x4AFB])).ahead = [] → (withVectors (prog [0x4AFB])).Answers (withVectors (prog [0x4AFB])).pc) ∧
    (withVectors (prog [0x4AFB])).CanEnter 4 :=
  ⟨by decide, by decide, by decide, by decide, by decide, by decide, by decide, by decide, (by intro h; cases h), enter_of rfl (by decide) (by decide) (by decide) (by decide) (by decide)⟩

theorem witness_IllegalWords_lineA :
    (withVectors (prog [0xA000])).sampled.pins.reset = false ∧
    (withVectors (prog [0xA000])).run = .running ∧
    (withVectors (prog [0xA000])).tracePending = false ∧
    (withVectors (prog [0xA000])).sampled.interruptDue = false ∧
    decode ((withVectors (prog [0xA000])).wordsAt (withVectors (prog [0xA000])).pc) = .error .lineA ∧
    (withVectors (prog [0xA000])).mem.wf = true ∧
    (withVectors (prog [0xA000])).pc.toNat % 2 = 0 ∧
    (∀ x ∈ (withVectors (prog [0xA000])).ahead, x = .memory) ∧
    ((withVectors (prog [0xA000])).ahead = [] → (withVectors (prog [0xA000])).Answers (withVectors (prog [0xA000])).pc) ∧
    (withVectors (prog [0xA000])).CanEnter 10 :=
  ⟨by decide, by decide, by decide, by decide, by decide, by decide, by decide, by decide, (by intro h; cases h), enter_of rfl (by decide) (by decide) (by decide) (by decide) (by decide)⟩

theorem witness_IllegalWords_lineF :
    (withVectors (prog [0xFFFF])).sampled.pins.reset = false ∧
    (withVectors (prog [0xFFFF])).run = .running ∧
    (withVectors (prog [0xFFFF])).tracePending = false ∧
    (withVectors (prog [0xFFFF])).sampled.interruptDue = false ∧
    decode ((withVectors (prog [0xFFFF])).wordsAt (withVectors (prog [0xFFFF])).pc) = .error .lineF ∧
    (withVectors (prog [0xFFFF])).mem.wf = true ∧
    (withVectors (prog [0xFFFF])).pc.toNat % 2 = 0 ∧
    (∀ x ∈ (withVectors (prog [0xFFFF])).ahead, x = .memory) ∧
    ((withVectors (prog [0xFFFF])).ahead = [] → (withVectors (prog [0xFFFF])).Answers (withVectors (prog [0xFFFF])).pc) ∧
    (withVectors (prog [0xFFFF])).CanEnter 11 :=
  ⟨by decide, by decide, by decide, by decide, by decide, by decide, by decide, by decide, (by intro h; cases h), enter_of rfl (by decide) (by decide) (by decide) (by decide) (by decide)⟩

theorem witness_BetweenInstructions_trace :
    ({ ws with tracePending := true } : State).sampled.pins.reset = false ∧
    ({ ws with tracePending := true } : State).run ≠ .halted ∧
    ({ ws with tracePending := true } : State).mem.wf = true ∧
    ({ ws with tracePending := true } : State).tracePending = true ∧
    ({ ws with tracePending := true } : State).CanEnter 9 :=
  ⟨by decide, by decide, by decide, by decide, enter_of rfl (by decide) (by decide) (by decide) (by decide) (by decide)⟩

theorem witness_BetweenInstructions_level1 :
    ({ ws with pins := ⟨1, .autovector, false⟩, sr := { ws.sr with i := 0 }, level7Edge := false } : State).sampled.pins.reset = false ∧
    ({ ws with pins := ⟨1, .autovector, false⟩, sr := { ws.sr with i := 0 }, level7Edge := false } : State).run ≠ .halted ∧
    ({ ws with pins := ⟨1, .autovector, false⟩, sr := { ws.sr with i := 0 }, level7Edge := false } : State).mem.wf = true ∧
    ({ ws with pins := ⟨1, .autovector, false⟩, sr := { ws.sr with i := 0 }, level7Edge := false } : State).tracePending = false ∧
    (({ ws with pins := ⟨1, .autovector, false⟩, sr := { ws.sr with i := 0 }, level7Edge := false } : State).sr.i.toNat < ({ ws with pins := ⟨1, .autovector, false⟩, sr := { ws.sr with i := 0 }, level7Edge := false } : State).sampled.pins.ipl.toNat ∨ (({ ws with pins := ⟨1, .autovector, false⟩, sr := { ws.sr with i := 0 }, level7Edge := false } : State).sampled.pins.ipl = 7 ∧ ({ ws with pins := ⟨1, .autovector, false⟩, sr := { ws.sr with i := 0 }, level7Edge := false } : State).sampled.level7Edge = true)) ∧
    25 = (match ({ ws with pins := ⟨1, .autovector, false⟩, sr := { ws.sr with i := 0 }, level7Edge := false } : State).sampled.pins.iack with | .vector n => n.toNat | .autovector => 24 + ({ ws with pins := ⟨1, .autovector, false⟩, sr := { ws.sr with i := 0 }, level7Edge := false } : State).sampled.pins.ipl.toNat | .busError => 24) ∧
    ({ ws with pins := ⟨1, .autovector, false⟩, sr := { ws.sr with i := 0 }, level7Edge := false } : State).CanEnter 25 :=
  ⟨by decide, by decide, by decide, by decide, by decide, by decide, enter_of rfl (by decide) (by decide) (by decide) (by decide) (by decide)⟩

theorem witness_BetweenInstructions_vector :
    ({ ws with pins := ⟨6, .vector 255, false⟩, sr := { ws.sr with i := 5 }, level7Edge := false } : State).sampled.pins.reset = false ∧
    ({ ws with pins := ⟨6, .vector 255, false⟩, sr := { ws.sr with i := 5 }, level7Edge := false } : State).run ≠ .halted ∧
    ({ ws with pins := ⟨6, .vector 255, false⟩, sr := { ws.sr with i := 5 }, level7Edge := false } : State).mem.wf = true ∧
    ({ ws with pins := ⟨6, .vector 255, false⟩, sr := { ws.sr with i := 5 }, level7Edge := false } : State).tracePending = false ∧
    (({ ws with pins := ⟨6, .vector 255, false⟩, sr := { ws.sr with i := 5 }, level7Edge := false } : State).sr.i.toNat < ({ ws with pins := ⟨6, .vector 255, false⟩, sr := { ws.sr with i := 5 }, level7Edge := false } : State).sampled.pins.ipl.toNat ∨ (({ ws with pins := ⟨6, .vector 255, false⟩, sr := { ws.sr with i := 5 }, level7Edge := false } : State).sampled.pins.ipl = 7 ∧ ({ ws with pins := ⟨6, .vector 255, false⟩, sr := { ws.sr with i := 5 }, level7Edge := false } : State).sampled.level7Edge = true)) ∧
    255 = (match ({ ws with pins := ⟨6, .vector 255, false⟩, sr := { ws.sr with i := 5 }, level7Edge := false } : State).sampled.pins.iack with | .vector n => n.toNat | .autovector => 24 + ({ ws with pins := ⟨6, .vector 255, false⟩, sr := { ws.sr with i := 5 }, level7Edge := false } : State).sampled.pins.ipl.toNat | .busError => 24) ∧
    ({ ws with pins := ⟨6, .vector 255, false⟩, sr := { ws.sr with i := 5 }, level7Edge := false } : State).CanEnter 255 :=
  ⟨by decide, by decide, by decide, by decide, by decide, by decide, enter_of rfl (by decide) (by decide) (by decide) (by decide) (by decide)⟩

theorem witness_BetweenInstructions_spurious :
    ({ ws with pins := ⟨2, .busError, false⟩, sr := { ws.sr with i := 1 }, level7Edge := false } : State).sampled.pins.reset = false ∧
    ({ ws with pins := ⟨2, .busError, false⟩, sr := { ws.sr with i := 1 }, level7Edge := false } : State).run ≠ .halted ∧
    ({ ws with pins := ⟨2, .busError, false⟩, sr := { ws.sr with i := 1 }, level7Edge := false } : State).mem.wf = true ∧
    ({ ws with pins := ⟨2, .busError, false⟩, sr := { ws.sr with i := 1 }, level7Edge := false } : State).tracePending = false ∧
    (({ ws with pins := ⟨2, .busError, false⟩, sr := { ws.sr with i := 1 }, level7Edge := false } : State).sr.i.toNat < ({ ws with pins := ⟨2, .busError, false⟩, sr := { ws.sr with i := 1 }, level7Edge := false } : State).sampled.pins.ipl.toNat ∨ (({ ws with pins := ⟨2, .busError, false⟩, sr := { ws.sr with i := 1 }, level7Edge := false } : State).sampled.pins.ipl = 7 ∧ ({ ws with pins := ⟨2, .busError, false⟩, sr := { ws.sr with i := 1 }, level7Edge := false } : State).sampled.level7Edge = true)) ∧
    24 = (match ({ ws with pins := ⟨2, .busError, false⟩, sr := { ws.sr with i := 1 }, level7Edge := false } : State).sampled.pins.iack with | .vector n => n.toNat | .autovector => 24 + ({ ws with pins := ⟨2, .busError, false⟩, sr := { ws.sr with i := 1 }, level7Edge := false } : State).sampled.pins.ipl.toNat | .busError => 24) ∧
    ({ ws with pins := ⟨2, .busError, false⟩, sr := { ws.sr with i := 1 }, level7Edge := false } : State).CanEnter 24 :=
  ⟨by decide, by decide, by decide, by decide, by decide, by decide, enter_of rfl (by decide) (by decide) (by decide) (by decide) (by decide)⟩

theorem witness_BetweenInstructions_level7_edge :
    ({ ws with pins := ⟨7, .autovector, false⟩, sr := { ws.sr with i := 7 }, level7Edge := true } : State).sampled.pins.reset = false ∧
    ({ ws with pins := ⟨7, .autovector, false⟩, sr := { ws.sr with i := 7 }, level7Edge := true } : State).run ≠ .halted ∧
    ({ ws with pins := ⟨7, .autovector, false⟩, sr := { ws.sr with i := 7 }, level7Edge := true } : State).mem.wf = true ∧
    ({ ws with pins := ⟨7, .autovector, false⟩, sr := { ws.sr with i := 7 }, level7Edge := true } : State).tracePending = false ∧
    (({ ws with pins := ⟨7, .autovector, false⟩, sr := { ws.sr with i := 7 }, level7Edge := true } : State).sr.i.toNat < ({ ws with pins := ⟨7, .autovector, false⟩, sr := { ws.sr with i := 7 }, level7Edge := true } : State).sampled.pins.ipl.toNat ∨ (({ ws with pins := ⟨7, .autovector, false⟩, sr := { ws.sr with i := 7 }, level7Edge := true } : State).sampled.pins.ipl = 7 ∧ ({ ws with pins := ⟨7, .autovector, false⟩, sr := { ws.sr with i := 7 }, level7Edge := true } : State).sampled.level7Edge = true)) ∧
    31 = (match ({ ws with pins := ⟨7, .autovector, false⟩, sr := { ws.sr with i := 7 }, level7Edge := true } : State).sampled.pins.iack with | .vector n => n.toNat | .autovector => 24 + ({ ws with pins := ⟨7, .autovector, false⟩, sr := { ws.sr with i := 7 }, level7Edge := true } : State).sampled.pins.ipl.toNat | .busError => 24) ∧
    ({ ws with pins := ⟨7, .autovector, false⟩, sr := { ws.sr with i := 7 }, level7Edge := true } : State).CanEnter 31 :=
  ⟨by decide, by decide, by decide, by decide, by decide, by decide, enter_of rfl (by decide) (by decide) (by decide) (by decide) (by decide)⟩

theorem witness_StoppedAndHalted_stopped :
    ({ ws with run := .stopped } : State).sampled.pins.reset = false ∧
    ({ ws with run := .stopped } : State).run = .stopped ∧
    ({ ws with run := .stopped } : State).tracePending = false ∧
    ({ ws with run := .stopped } : State).sampled.interruptDue = false :=
  by decide

theorem witness_StoppedAndHalted_double :
    ({ ws with ssp := 0x7FFF } : State).ssp.toNat % 2 = 1 :=
  by decide

theorem witness_StoppedAndHalted_halted :
    ({ ws with run := .halted } : State).sampled.pins.reset = false ∧
    ({ ws with run := .halted } : State).run = .halted ∧
    ({ ws with run := .halted } : State).sampled.schedule = [] :=
  by decide

theorem witness_StoppedAndHalted_waiting :
    ({ ws with run := .halted, schedule := [ws.pins, ws.pins] } : State).sampled.pins.reset = false ∧
    ({ ws with run := .halted, schedule := [ws.pins, ws.pins] } : State).run = .halted ∧
    ({ ws with run := .halted, schedule := [ws.pins, ws.pins] } : State).sampled.schedule ≠ [] :=
  by decide

theorem witness_ExceptionEntry :
    ws.mem.wf = true ∧
    ws.CanEnter 5 :=
  ⟨by decide, enter_of rfl (by decide) (by decide) (by decide) (by decide) (by decide)⟩

theorem witness_ExceptionEntry_unset :
    ws.mem.wf = true ∧
    ws.CanStack 6 33 ∧
    ¬ws.VectorSet 33 :=
  ⟨by decide, stack_of rfl (by decide) (by decide) (by decide), unset_of (by decide)⟩

theorem witness_Group0Entry_bus :
    ws.mem.wf = true ∧
    (∀ c ∈ ([(0x2000, 1)] : List Host.Cell), c.1 < 2 ^ Config.addrBits ∧ c.1 ∉ addrs 4 (BitVec.ofNat 32 (4 * 2))) ∧
    ws.CanEnterGroup0 2 ∧
    RegRef.d 0 ∉ [RegRef.d 1] :=
  ⟨by decide, by decide, enterGroup0_of rfl (by decide) (by decide) (by decide) (by decide) (by decide), by decide⟩

theorem witness_Group0Entry_address :
    ws.mem.wf = true ∧
    (∀ c ∈ ([] : List Host.Cell), c.1 < 2 ^ Config.addrBits ∧ c.1 ∉ addrs 4 (BitVec.ofNat 32 (4 * 3))) ∧
    ws.CanEnterGroup0 3 ∧
    RegRef.a 7 ∉ [RegRef.a 6] :=
  ⟨by decide, by decide, enterGroup0_of rfl (by decide) (by decide) (by decide) (by decide) (by decide), by decide⟩

theorem witness_Group0Entry_unset :
    (prog []).mem.wf = true ∧
    (∀ c ∈ ([] : List Host.Cell), c.1 < 2 ^ Config.addrBits ∧ c.1 ∉ addrs 4 (BitVec.ofNat 32 (4 * 2))) ∧
    (prog []).CanStack 14 2 ∧
    ¬(prog []).VectorSet 2 :=
  ⟨by decide, by decide, stack_of rfl (by decide) (by decide) (by decide), unset_of (by decide)⟩

theorem witness_AccessErrors_odd :
    Size.w ≠ .b ∧
    (1 : Long).toNat % 2 = 1 :=
  by decide

theorem witness_AccessErrors_byte :
    ws.Answers 0xFFFFFF :=
  .inl rfl

theorem witness_AccessErrors_fetch :
    ({ ws with pc := 0x1001 } : State).sampled.pins.reset = false ∧
    ({ ws with pc := 0x1001 } : State).run = .running ∧
    ({ ws with pc := 0x1001 } : State).tracePending = false ∧
    ({ ws with pc := 0x1001 } : State).sampled.interruptDue = false ∧
    (({ ws with pc := 0x1001 } : State).pc.toNat % 2 = 1 ∨ (({ ws with pc := 0x1001 } : State).ahead = [] ∧ ({ ws with pc := 0x1001 } : State).kindAt (phys ({ ws with pc := 0x1001 } : State).pc) = .absent)) :=
  by decide

theorem witness_AccessErrors_fetch_absent :
    ({ ws with regions := [⟨0x1000, 0x1000, .absent⟩, ⟨0x2002, 2, .absent⟩, ⟨0x4000, 2, .device⟩, ⟨0x5000, 2, .undriven true⟩], answers := [.busError], ahead := [] } : State).sampled.pins.reset = false ∧
    ({ ws with regions := [⟨0x1000, 0x1000, .absent⟩, ⟨0x2002, 2, .absent⟩, ⟨0x4000, 2, .device⟩, ⟨0x5000, 2, .undriven true⟩], answers := [.busError], ahead := [] } : State).run = .running ∧
    ({ ws with regions := [⟨0x1000, 0x1000, .absent⟩, ⟨0x2002, 2, .absent⟩, ⟨0x4000, 2, .device⟩, ⟨0x5000, 2, .undriven true⟩], answers := [.busError], ahead := [] } : State).tracePending = false ∧
    ({ ws with regions := [⟨0x1000, 0x1000, .absent⟩, ⟨0x2002, 2, .absent⟩, ⟨0x4000, 2, .device⟩, ⟨0x5000, 2, .undriven true⟩], answers := [.busError], ahead := [] } : State).sampled.interruptDue = false ∧
    (({ ws with regions := [⟨0x1000, 0x1000, .absent⟩, ⟨0x2002, 2, .absent⟩, ⟨0x4000, 2, .device⟩, ⟨0x5000, 2, .undriven true⟩], answers := [.busError], ahead := [] } : State).pc.toNat % 2 = 1 ∨ (({ ws with regions := [⟨0x1000, 0x1000, .absent⟩, ⟨0x2002, 2, .absent⟩, ⟨0x4000, 2, .device⟩, ⟨0x5000, 2, .undriven true⟩], answers := [.busError], ahead := [] } : State).ahead = [] ∧ ({ ws with regions := [⟨0x1000, 0x1000, .absent⟩, ⟨0x2002, 2, .absent⟩, ⟨0x4000, 2, .device⟩, ⟨0x5000, 2, .undriven true⟩], answers := [.busError], ahead := [] } : State).kindAt (phys ({ ws with regions := [⟨0x1000, 0x1000, .absent⟩, ⟨0x2002, 2, .absent⟩, ⟨0x4000, 2, .device⟩, ⟨0x5000, 2, .undriven true⟩], answers := [.busError], ahead := [] } : State).pc) = .absent)) :=
  by decide

theorem witness_AccessErrors_long :
    (0x2002 : Long).toNat % 2 = 0 ∧
    ws.Answers 0x2002 ∧
    ws.Answers (0x2002 + 2) ∧
    phys (0x2002 : Long) ∉ addrs 4 ws.pc :=
  ⟨by decide, .inl rfl, .inl rfl, by decide⟩

theorem witness_AccessErrors_absent :
    (Size.l = .b ∨ (0x1FFE : Long).toNat % 2 = 0) ∧
    ({ ws with regions := [⟨0x1000, 0x1000, .absent⟩, ⟨0x2002, 2, .absent⟩, ⟨0x4000, 2, .device⟩, ⟨0x5000, 2, .undriven true⟩], answers := [.busError], ahead := [] } : State).kindAt (phys 0x1FFE) = .absent ∧
    (Size.l = .l → ({ ws with regions := [⟨0x1000, 0x1000, .absent⟩, ⟨0x2002, 2, .absent⟩, ⟨0x4000, 2, .device⟩, ⟨0x5000, 2, .undriven true⟩], answers := [.busError], ahead := [] } : State).Answers (0x1FFE + 2)) :=
  ⟨by decide, by decide, (fun _ => .inl rfl)⟩

theorem witness_AccessErrors_both :
    (0x1FFC : Long).toNat % 2 = 0 ∧
    ({ ws with regions := [⟨0x1000, 0x1000, .absent⟩, ⟨0x2002, 2, .absent⟩, ⟨0x4000, 2, .device⟩, ⟨0x5000, 2, .undriven true⟩], answers := [.busError], ahead := [] } : State).kindAt (phys 0x1FFC) = .absent ∧
    ({ ws with regions := [⟨0x1000, 0x1000, .absent⟩, ⟨0x2002, 2, .absent⟩, ⟨0x4000, 2, .device⟩, ⟨0x5000, 2, .undriven true⟩], answers := [.busError], ahead := [] } : State).kindAt (phys (0x1FFC + 2)) = .absent :=
  by decide

theorem witness_AccessErrors_undriven :
    (0x5000 : Long).toNat % 2 = 0 ∧
    ({ ws with regions := [⟨0x1000, 0x1000, .absent⟩, ⟨0x2002, 2, .absent⟩, ⟨0x4000, 2, .device⟩, ⟨0x5000, 2, .undriven true⟩], answers := [.busError], ahead := [] } : State).kindAt (phys 0x5000) = .undriven true :=
  by decide

theorem witness_AccessErrors_second_word :
    (0x2000 : Long).toNat % 2 = 0 ∧
    ({ ws with regions := [⟨0x1000, 0x1000, .absent⟩, ⟨0x2002, 2, .absent⟩, ⟨0x4000, 2, .device⟩, ⟨0x5000, 2, .undriven true⟩], answers := [.busError], ahead := [] } : State).Answers 0x2000 ∧
    ({ ws with regions := [⟨0x1000, 0x1000, .absent⟩, ⟨0x2002, 2, .absent⟩, ⟨0x4000, 2, .device⟩, ⟨0x5000, 2, .undriven true⟩], answers := [.busError], ahead := [] } : State).kindAt (phys (0x2000 + 2)) = .absent :=
  ⟨by decide, .inl rfl, by decide⟩

theorem witness_AccessErrors_device :
    (0x4000 : Long).toNat % 2 = 0 ∧
    ({ ws with regions := [⟨0x1000, 0x1000, .absent⟩, ⟨0x2002, 2, .absent⟩, ⟨0x4000, 2, .device⟩, ⟨0x5000, 2, .undriven true⟩], answers := [.busError], ahead := [] } : State).kindAt (phys 0x4000) = .device ∧
    ({ ws with regions := [⟨0x1000, 0x1000, .absent⟩, ⟨0x2002, 2, .absent⟩, ⟨0x4000, 2, .device⟩, ⟨0x5000, 2, .undriven true⟩], answers := [.busError], ahead := [] } : State).answers = BusAnswer.busError :: [] :=
  by decide

theorem witness_AccessErrorsInInstruction_odd_source :
    (ws.setA 0 0x2001).operandAt 1 .w (.ind 0) = .mem 0x2001 false ∧
    ((0x2001 : Long).toNat % 2 = 1 ∨ (ws.setA 0 0x2001).kindAt (phys (0x2001)) = .absent) :=
  by decide

theorem witness_AccessErrorsInInstruction_absent_source :
    (({ ws with regions := [⟨0x1000, 0x1000, .absent⟩, ⟨0x2002, 2, .absent⟩, ⟨0x4000, 2, .device⟩, ⟨0x5000, 2, .undriven true⟩], answers := [.busError], ahead := [] } : State).setA 0 0x2002).operandAt 1 .w (.ind 0) = .mem 0x2002 false ∧
    ((0x2002 : Long).toNat % 2 = 1 ∨ (({ ws with regions := [⟨0x1000, 0x1000, .absent⟩, ⟨0x2002, 2, .absent⟩, ⟨0x4000, 2, .device⟩, ⟨0x5000, 2, .undriven true⟩], answers := [.busError], ahead := [] } : State).setA 0 0x2002).kindAt (phys (0x2002)) = .absent) :=
  by decide

theorem witness_AccessErrorsInInstruction_destination :
    (({ ws with regions := [⟨0x1000, 0x1000, .absent⟩, ⟨0x2002, 2, .absent⟩, ⟨0x4000, 2, .device⟩, ⟨0x5000, 2, .undriven true⟩], answers := [.busError], ahead := [] } : State).setA 0 0x2002).CanRead .w ((({ ws with regions := [⟨0x1000, 0x1000, .absent⟩, ⟨0x2002, 2, .absent⟩, ⟨0x4000, 2, .device⟩, ⟨0x5000, 2, .undriven true⟩], answers := [.busError], ahead := [] } : State).setA 0 0x2002).operandAt 1 .w (.dn 0)) ∧
    ((({ ws with regions := [⟨0x1000, 0x1000, .absent⟩, ⟨0x2002, 2, .absent⟩, ⟨0x4000, 2, .device⟩, ⟨0x5000, 2, .undriven true⟩], answers := [.busError], ahead := [] } : State).setA 0 0x2002).past 1 .w (.dn 0)).operandAt 0 .w (.ind 0) = .mem 0x2002 false ∧
    ((0x2002 : Long).toNat % 2 = 1 ∨ (({ ws with regions := [⟨0x1000, 0x1000, .absent⟩, ⟨0x2002, 2, .absent⟩, ⟨0x4000, 2, .device⟩, ⟨0x5000, 2, .undriven true⟩], answers := [.busError], ahead := [] } : State).setA 0 0x2002).kindAt (phys (0x2002)) = .absent) :=
  ⟨trivial, by decide, by decide⟩

theorem witness_AccessErrorsInInstruction_flags :
    (Instr.bsetDn 1 (.ind 0), ({ ({ ws with regions := [⟨0x2000, 2, .device⟩], answers := [.data 0, .busError] } : State).sr with z := !(0 : Word).toNat.testBit ((({ ws with regions := [⟨0x2000, 2, .device⟩], answers := [.data 0, .busError] } : State).dreg 1).toNat % 8) } : StatusReg)) ∈ [(Instr.tas (.ind 0), moveFlags 8 ((0 : Word).toNat % 256) ({ ws with regions := [⟨0x2000, 2, .device⟩], answers := [.data 0, .busError] } : State).sr)] ++ [Instr.bchgDn 1 (.ind 0), .bclrDn 1 (.ind 0), .bsetDn 1 (.ind 0)].map (fun j => (j, { ({ ws with regions := [⟨0x2000, 2, .device⟩], answers := [.data 0, .busError] } : State).sr with z := !(0 : Word).toNat.testBit ((({ ws with regions := [⟨0x2000, 2, .device⟩], answers := [.data 0, .busError] } : State).dreg 1).toNat % 8) })) ∧
    ({ ws with regions := [⟨0x2000, 2, .device⟩], answers := [.data 0, .busError] } : State).tasForbidden = false ∧
    ({ ws with regions := [⟨0x2000, 2, .device⟩], answers := [.data 0, .busError] } : State).kindAt (phys (({ ws with regions := [⟨0x2000, 2, .device⟩], answers := [.data 0, .busError] } : State).areg 0)) = .device ∧
    ({ ws with regions := [⟨0x2000, 2, .device⟩], answers := [.data 0, .busError] } : State).answers = .data 0 :: .busError :: [] :=
  by decide

theorem witness_AccessErrorsInInstruction_branch :
    ((ws.pc + 2 + (0xFFFF : Word).signExtend 32 : Long).toNat % 2 = 1 ∨ ws.kindAt (phys (ws.pc + 2 + (0xFFFF : Word).signExtend 32)) = .absent) :=
  by decide

theorem witness_PrivilegeViolation :
    [Instr.andiToSr 0, .eoriToSr 0, .oriToSr 0, .moveToSr (.dn 0), .moveToUsp 0, .moveFromUsp 0, .resetDevices, .rte, .stop 0].all (fun i => decide (i ∈ [Instr.andiToSr 0, .eoriToSr 0, .oriToSr 0, .moveToSr (.dn 0), .moveToUsp 0, .moveFromUsp 0, .resetDevices, .rte, .stop 0])) = true ∧
    wu.sr.s = false ∧
    wu.mem.wf = true ∧
    wu.CanEnter 8 :=
  ⟨by decide, by decide, by decide, enter_of rfl (by decide) (by decide) (by decide) (by decide) (by decide)⟩

theorem witness_DecodeEncode :
    (Instr.moveL (.imm (.l 0x80000000)) (.absL 0xFFFFFFFF)).wellFormed = true :=
  by decide

theorem witness_DecodeWellFormed :
    decode [0x4E71, 0x1234] = .ok (.nop, [0x1234]) :=
  by decide

theorem witness_RegisterWrites :
    (255 : Nat) < 2 ^ Size.bits .b ∧
    ws.sr.s = true ∧
    wu.sr.s = false ∧
    (1 : Reg) ≠ 7 :=
  by decide

theorem witness_OperandStep :
    ws.sr.s = true ∧
    wu.sr.s = false :=
  by decide

theorem witness_MemoryReadWrite :
    Memory.wf [(5, 1)] = true ∧
    (6 : Nat) ≠ 5 :=
  by decide

theorem witness_BigEndian :
    ws.mem.wf = true ∧
    (0xFFFFFFFF : Nat) < 2 ^ Size.bits .l ∧
    (∃ t, ws.memWrite .l 0x2000 0xFFFFFFFF = .ok t) ∧
    (∀ k, k < Size.bytes .l → ws.kindAt (phys ((0x2000 : Long) + BitVec.ofNat 32 (k / 2 * 2))) ≠ .rom) :=
  ⟨by decide, by decide, ⟨_, rfl⟩, (fun _ _ h => by cases h)⟩

theorem witness_PrefetchWindowRefused_in :
    ws.CanReach .l 0xFFE ∧
    (2 < Size.bytes .l ∧ ws.kindAt (phys ((0xFFE : Long) + BitVec.ofNat 32 (2 / 2 * 2))) ≠ .rom ∧ phys ((0xFFE : Long) + BitVec.ofNat 32 2) ∈ addrs 4 ws.pc) :=
  ⟨reach_of rfl (by decide), by decide⟩

theorem witness_PrefetchWindowRefused_below :
    ws.CanStore .l 0xFFC :=
  store_of rfl (by decide) (by decide)

theorem witness_PrefetchWindowRefused_above :
    ws.CanStore .b 0x1004 :=
  store_of rfl (by decide) (by decide)

theorem witness_CompareConditions :
    (0 : Nat) < 2 ^ Size.bits .b ∧
    (255 : Nat) < 2 ^ Size.bits .b :=
  by decide

theorem witness_ShiftByPlaces :
    (0xFFFFFFFF : Nat) < 2 ^ Size.bits .l :=
  by decide

theorem witness_MoveResult_memory :
    (Size.w, Instr.moveW (.postInc 0) (.preDec 0)) ∈ [(Size.b, Instr.moveB (.postInc 0) (.preDec 0)), (.w, .moveW (.postInc 0) (.preDec 0)), (.l, .moveL (.postInc 0) (.preDec 0))] ∧
    (Instr.moveW (.postInc 0) (.preDec 0)).wellFormed = true ∧
    ws.mem.wf = true ∧
    ws.CanRead .w (ws.operandAt 1 .w (.postInc 0)) ∧
    ((ws.past 1 .w (.postInc 0)).past 0 .w (.preDec 0)).CanWrite .w ((ws.past 1 .w (.postInc 0)).operandAt 0 .w (.preDec 0)) :=
  ⟨by decide, by decide, by decide, read_of rfl (by decide), write_of rfl (by decide) (by decide)⟩

theorem witness_MoveResult_register :
    (Size.b, Instr.moveB (.imm (.b 0x80)) (.dn 1)) ∈ [(Size.b, Instr.moveB (.imm (.b 0x80)) (.dn 1)), (.w, .moveW (.imm (.b 0x80)) (.dn 1)), (.l, .moveL (.imm (.b 0x80)) (.dn 1))] ∧
    (Instr.moveB (.imm (.b 0x80)) (.dn 1)).wellFormed = true ∧
    ws.mem.wf = true ∧
    ws.CanRead .b (ws.operandAt 1 .b (.imm (.b 0x80))) ∧
    ((ws.past 1 .b (.imm (.b 0x80))).past 0 .b (.dn 1)).CanWrite .b ((ws.past 1 .b (.imm (.b 0x80))).operandAt 0 .b (.dn 1)) :=
  ⟨by decide, by decide, by decide, read_of rfl (by decide), write_of rfl (by decide) (by decide)⟩

theorem witness_MoveResult_long :
    (Size.l, Instr.moveL (.an 0) (.absL 0x4000)) ∈ [(Size.b, Instr.moveB (.an 0) (.absL 0x4000)), (.w, .moveW (.an 0) (.absL 0x4000)), (.l, .moveL (.an 0) (.absL 0x4000))] ∧
    (Instr.moveL (.an 0) (.absL 0x4000)).wellFormed = true ∧
    ws.mem.wf = true ∧
    ws.CanRead .l (ws.operandAt 1 .l (.an 0)) ∧
    ((ws.past 1 .l (.an 0)).past 0 .l (.absL 0x4000)).CanWrite .l ((ws.past 1 .l (.an 0)).operandAt 0 .l (.absL 0x4000)) :=
  ⟨by decide, by decide, by decide, read_of rfl (by decide), write_of rfl (by decide) (by decide)⟩

theorem witness_AddressRegisterResult :
    (Ea.postInc 0).ok (Mode.isSource WL.w.size) WL.w.size = true ∧
    ws.CanRead .w (ws.operandAt 1 .w (.postInc 0)) :=
  ⟨by decide, read_of rfl (by decide)⟩

theorem witness_AluToRegister :
    (Instr.subEaDn .b (.postInc 0) 1, AluOp.sub) ∈ [(Instr.addEaDn .b (.postInc 0) 1, AluOp.add), (.subEaDn .b (.postInc 0) 1, .sub), (.andEaDn .b (.postInc 0) 1, .and), (.orEaDn .b (.postInc 0) 1, .or)] ∧
    (Instr.subEaDn .b (.postInc 0) 1).wellFormed = true ∧
    ws.CanRead .b (ws.operandAt 1 .b (.postInc 0)) :=
  ⟨by decide, by decide, read_of rfl (by decide)⟩

theorem witness_AluToEa_memory :
    (Instr.addDnEa .l 1 (.ind 0), AluOp.add, (time (.aluDnMem .l .ind))) ∈ [(Instr.addDnEa .l 1 (.ind 0), AluOp.add, time (.aluDnMem .l (Ea.mode (.ind 0)))), (.subDnEa .l 1 (.ind 0), .sub, time (.aluDnMem .l (Ea.mode (.ind 0)))), (.andDnEa .l 1 (.ind 0), .and, time (.aluDnMem .l (Ea.mode (.ind 0)))), (.orDnEa .l 1 (.ind 0), .or, time (.aluDnMem .l (Ea.mode (.ind 0)))), (.eor .l 1 (.ind 0), .eor, if Ea.mode (.ind 0) = .dn then time (.eorReg .l) else time (.aluDnMem .l (Ea.mode (.ind 0))))] ∧
    (Instr.addDnEa .l 1 (.ind 0)).wellFormed = true ∧
    ws.mem.wf = true ∧
    ws.CanRead .l (ws.operandAt 1 .l (.ind 0)) ∧
    (ws.past 1 .l (.ind 0)).CanWrite .l (ws.operandAt 1 .l (.ind 0)) :=
  ⟨by decide, by decide, by decide, read_of rfl (by decide), write_of rfl (by decide) (by decide)⟩

theorem witness_AluToEa_register :
    (Instr.eor .l 1 (.dn 0), AluOp.eor, (if (Ea.dn 0).mode = .dn then time (.eorReg .l) else time (.aluDnMem .l .dn))) ∈ [(Instr.addDnEa .l 1 (.dn 0), AluOp.add, time (.aluDnMem .l (Ea.mode (.dn 0)))), (.subDnEa .l 1 (.dn 0), .sub, time (.aluDnMem .l (Ea.mode (.dn 0)))), (.andDnEa .l 1 (.dn 0), .and, time (.aluDnMem .l (Ea.mode (.dn 0)))), (.orDnEa .l 1 (.dn 0), .or, time (.aluDnMem .l (Ea.mode (.dn 0)))), (.eor .l 1 (.dn 0), .eor, if Ea.mode (.dn 0) = .dn then time (.eorReg .l) else time (.aluDnMem .l (Ea.mode (.dn 0))))] ∧
    (Instr.eor .l 1 (.dn 0)).wellFormed = true ∧
    ws.mem.wf = true ∧
    ws.CanRead .l (ws.operandAt 1 .l (.dn 0)) ∧
    (ws.past 1 .l (.dn 0)).CanWrite .l (ws.operandAt 1 .l (.dn 0)) :=
  ⟨by decide, by decide, by decide, read_of rfl (by decide), write_of rfl (by decide) (by decide)⟩

theorem witness_Compare_cmp :
    (Ea.ind 0).ok (Mode.isSource .l) .l = true ∧
    ws.CanRead .l (ws.operandAt 1 .l (.ind 0)) :=
  ⟨by decide, read_of rfl (by decide)⟩

theorem witness_Compare_cmpa :
    (Ea.an 0).ok (Mode.isSource WL.w.size) WL.w.size = true ∧
    ws.CanRead .w (ws.operandAt 1 .w (.an 0)) :=
  ⟨by decide, read_of rfl (by decide)⟩

theorem witness_Compare_cmpi :
    (Ea.absW 0x4000).ok Mode.isDataAlterable (Imm.l 1).size = true ∧
    ws.CanRead .l (ws.operandAt 3 .l (.absW 0x4000)) :=
  ⟨by decide, read_of rfl (by decide)⟩

theorem witness_Compare_cmpm :
    ws.CanReach .w (ws.areg 0) ∧
    (ws.past 1 .w (.postInc 0)).CanReach .w ((ws.past 1 .w (.postInc 0)).areg 1) :=
  ⟨reach_of rfl (by decide), reach_of rfl (by decide)⟩

theorem witness_Multiply :
    (Ea.imm (.w 0xFFFF)).ok Mode.isData .w = true ∧
    ws.CanRead .w (ws.operandAt 1 .w (.imm (.w 0xFFFF))) :=
  ⟨by decide, read_of rfl (by decide)⟩

theorem witness_DivideUnsigned_fits :
    (Ea.imm (.w 1)).ok Mode.isData .w = true ∧
    (ws.setD 0 0xFFFF).CanRead .w ((ws.setD 0 0xFFFF).operandAt 1 .w (.imm (.w 1))) ∧
    (ws.setD 0 0xFFFF).valueAt .w ((ws.setD 0 0xFFFF).operandAt 1 .w (.imm (.w 1))) ≠ 0 ∧
    ((ws.setD 0 0xFFFF).dreg 0).toNat / (ws.setD 0 0xFFFF).valueAt .w ((ws.setD 0 0xFFFF).operandAt 1 .w (.imm (.w 1))) ≤ 65535 :=
  ⟨by decide, read_of rfl (by decide), by decide, by decide⟩

theorem witness_DivideUnsigned_overflows :
    (Ea.imm (.w 1)).ok Mode.isData .w = true ∧
    (ws.setD 0 0x10000).CanRead .w ((ws.setD 0 0x10000).operandAt 1 .w (.imm (.w 1))) ∧
    (ws.setD 0 0x10000).valueAt .w ((ws.setD 0 0x10000).operandAt 1 .w (.imm (.w 1))) ≠ 0 ∧
    65535 < ((ws.setD 0 0x10000).dreg 0).toNat / (ws.setD 0 0x10000).valueAt .w ((ws.setD 0 0x10000).operandAt 1 .w (.imm (.w 1))) :=
  ⟨by decide, read_of rfl (by decide), by decide, by decide⟩

theorem witness_DivideUnsigned_zero :
    (Ea.imm (.w 0)).ok Mode.isData .w = true ∧
    (ws.setD 0 0x10000).CanRead .w ((ws.setD 0 0x10000).operandAt 1 .w (.imm (.w 0))) ∧
    (ws.setD 0 0x10000).valueAt .w ((ws.setD 0 0x10000).operandAt 1 .w (.imm (.w 0))) = 0 ∧
    (ws.setD 0 0x10000).mem.wf = true ∧
    ((ws.setD 0 0x10000).past 1 .w (.imm (.w 0))).CanEnter 5 :=
  ⟨by decide, read_of rfl (by decide), by decide, by decide, enter_of rfl (by decide) (by decide) (by decide) (by decide) (by decide)⟩

theorem witness_DivideSigned_least :
    (Ea.imm (.w 1)).ok Mode.isData .w = true ∧
    (ws.setD 0 0xFFFF8000).CanRead .w ((ws.setD 0 0xFFFF8000).operandAt 1 .w (.imm (.w 1))) ∧
    signed 16 ((ws.setD 0 0xFFFF8000).valueAt .w ((ws.setD 0 0xFFFF8000).operandAt 1 .w (.imm (.w 1)))) ≠ 0 ∧
    (((ws.setD 0 0xFFFF8000).dreg 0).toInt = (-32768 : Int) * signed 16 ((ws.setD 0 0xFFFF8000).valueAt .w ((ws.setD 0 0xFFFF8000).operandAt 1 .w (.imm (.w 1)))) + 0 ∧ (0 : Int).natAbs < (signed 16 ((ws.setD 0 0xFFFF8000).valueAt .w ((ws.setD 0 0xFFFF8000).operandAt 1 .w (.imm (.w 1))))).natAbs) ∧
    ((-32768 : Int) ≤ -32768 ∧ (-32768 : Int) ≤ 32767) :=
  ⟨by decide, read_of rfl (by decide), by decide, by decide, by decide⟩

theorem witness_DivideSigned_greatest :
    (Ea.imm (.w 65535)).ok Mode.isData .w = true ∧
    (ws.setD 0 0xFFFF8001).CanRead .w ((ws.setD 0 0xFFFF8001).operandAt 1 .w (.imm (.w 65535))) ∧
    signed 16 ((ws.setD 0 0xFFFF8001).valueAt .w ((ws.setD 0 0xFFFF8001).operandAt 1 .w (.imm (.w 65535)))) ≠ 0 ∧
    (((ws.setD 0 0xFFFF8001).dreg 0).toInt = (32767 : Int) * signed 16 ((ws.setD 0 0xFFFF8001).valueAt .w ((ws.setD 0 0xFFFF8001).operandAt 1 .w (.imm (.w 65535)))) + 0 ∧ (0 : Int).natAbs < (signed 16 ((ws.setD 0 0xFFFF8001).valueAt .w ((ws.setD 0 0xFFFF8001).operandAt 1 .w (.imm (.w 65535))))).natAbs) ∧
    ((-32768 : Int) ≤ 32767 ∧ (32767 : Int) ≤ 32767) :=
  ⟨by decide, read_of rfl (by decide), by decide, by decide, by decide⟩

theorem witness_DivideSigned_below :
    (Ea.imm (.w 1)).ok Mode.isData .w = true ∧
    (ws.setD 0 0xFFFF7FFF).CanRead .w ((ws.setD 0 0xFFFF7FFF).operandAt 1 .w (.imm (.w 1))) ∧
    signed 16 ((ws.setD 0 0xFFFF7FFF).valueAt .w ((ws.setD 0 0xFFFF7FFF).operandAt 1 .w (.imm (.w 1)))) ≠ 0 ∧
    (((ws.setD 0 0xFFFF7FFF).dreg 0).toInt = (-32769 : Int) * signed 16 ((ws.setD 0 0xFFFF7FFF).valueAt .w ((ws.setD 0 0xFFFF7FFF).operandAt 1 .w (.imm (.w 1)))) + 0 ∧ (0 : Int).natAbs < (signed 16 ((ws.setD 0 0xFFFF7FFF).valueAt .w ((ws.setD 0 0xFFFF7FFF).operandAt 1 .w (.imm (.w 1))))).natAbs) ∧
    (-32769 : Int) < -32768 :=
  ⟨by decide, read_of rfl (by decide), by decide, by decide, by decide⟩

theorem witness_DivideSigned_above :
    (Ea.imm (.w 1)).ok Mode.isData .w = true ∧
    (ws.setD 0 0x8000).CanRead .w ((ws.setD 0 0x8000).operandAt 1 .w (.imm (.w 1))) ∧
    signed 16 ((ws.setD 0 0x8000).valueAt .w ((ws.setD 0 0x8000).operandAt 1 .w (.imm (.w 1)))) ≠ 0 ∧
    (((ws.setD 0 0x8000).dreg 0).toInt = (32768 : Int) * signed 16 ((ws.setD 0 0x8000).valueAt .w ((ws.setD 0 0x8000).operandAt 1 .w (.imm (.w 1)))) + 0 ∧ (0 : Int).natAbs < (signed 16 ((ws.setD 0 0x8000).valueAt .w ((ws.setD 0 0x8000).operandAt 1 .w (.imm (.w 1))))).natAbs) ∧
    (32767 : Int) < 32768 :=
  ⟨by decide, read_of rfl (by decide), by decide, by decide, by decide⟩

theorem witness_DivideSigned_zero :
    (Ea.imm (.w 0)).ok Mode.isData .w = true ∧
    (ws.setD 0 0x8000).CanRead .w ((ws.setD 0 0x8000).operandAt 1 .w (.imm (.w 0))) ∧
    signed 16 ((ws.setD 0 0x8000).valueAt .w ((ws.setD 0 0x8000).operandAt 1 .w (.imm (.w 0)))) = 0 ∧
    (ws.setD 0 0x8000).mem.wf = true ∧
    ((ws.setD 0 0x8000).past 1 .w (.imm (.w 0))).CanEnter 5 :=
  ⟨by decide, read_of rfl (by decide), by decide, by decide, enter_of rfl (by decide) (by decide) (by decide) (by decide) (by decide)⟩

theorem witness_ImmediateResult_register :
    (Instr.eori (.b 0xFF) (.dn 1), AluOp.eor, time (.immMem (Imm.size (.b 0xFF)) (Ea.mode (.dn 1)))) ∈ [(Instr.addi (.b 0xFF) (.dn 1), AluOp.add, time (.immMem (Imm.size (.b 0xFF)) (Ea.mode (.dn 1)))), (.subi (.b 0xFF) (.dn 1), .sub, time (.immMem (Imm.size (.b 0xFF)) (Ea.mode (.dn 1)))), (.andi (.b 0xFF) (.dn 1), .and, time (.andiMem (Imm.size (.b 0xFF)) (Ea.mode (.dn 1)))), (.ori (.b 0xFF) (.dn 1), .or, time (.immMem (Imm.size (.b 0xFF)) (Ea.mode (.dn 1)))), (.eori (.b 0xFF) (.dn 1), .eor, time (.immMem (Imm.size (.b 0xFF)) (Ea.mode (.dn 1))))] ∧
    (Instr.eori (.b 0xFF) (.dn 1)).wellFormed = true ∧
    ws.mem.wf = true ∧
    ws.CanRead .b (ws.operandAt 2 .b (.dn 1)) ∧
    (ws.past 2 .b (.dn 1)).CanWrite .b (ws.operandAt 2 .b (.dn 1)) :=
  ⟨by decide, by decide, by decide, read_of rfl (by decide), write_of rfl (by decide) (by decide)⟩

theorem witness_ImmediateResult_memory :
    (Instr.eori (.l 0x80000000) (.ind 0), AluOp.eor, time (.immMem (Imm.size (.l 0x80000000)) (Ea.mode (.ind 0)))) ∈ [(Instr.addi (.l 0x80000000) (.ind 0), AluOp.add, time (.immMem (Imm.size (.l 0x80000000)) (Ea.mode (.ind 0)))), (.subi (.l 0x80000000) (.ind 0), .sub, time (.immMem (Imm.size (.l 0x80000000)) (Ea.mode (.ind 0)))), (.andi (.l 0x80000000) (.ind 0), .and, time (.andiMem (Imm.size (.l 0x80000000)) (Ea.mode (.ind 0)))), (.ori (.l 0x80000000) (.ind 0), .or, time (.immMem (Imm.size (.l 0x80000000)) (Ea.mode (.ind 0)))), (.eori (.l 0x80000000) (.ind 0), .eor, time (.immMem (Imm.size (.l 0x80000000)) (Ea.mode (.ind 0))))] ∧
    (Instr.eori (.l 0x80000000) (.ind 0)).wellFormed = true ∧
    ws.mem.wf = true ∧
    ws.CanRead .l (ws.operandAt 3 .l (.ind 0)) ∧
    (ws.past 3 .l (.ind 0)).CanWrite .l (ws.operandAt 3 .l (.ind 0)) :=
  ⟨by decide, by decide, by decide, read_of rfl (by decide), write_of rfl (by decide) (by decide)⟩

theorem witness_QuickResult_address :
    (Instr.subq 7 .w (.an 7), AluOp.sub) ∈ [(Instr.addq 7 .w (.an 7), AluOp.add), (.subq 7 .w (.an 7), .sub)] ∧
    (Instr.subq 7 .w (.an 7)).wellFormed = true ∧
    (∃ r, Ea.an 7 = .an r) :=
  ⟨by decide, by decide, ⟨_, rfl⟩⟩

theorem witness_QuickResult_eight :
    (Instr.addq 0 .b (.dn 1), AluOp.add) ∈ [(Instr.addq 0 .b (.dn 1), AluOp.add), (.subq 0 .b (.dn 1), .sub)] ∧
    (Instr.addq 0 .b (.dn 1)).wellFormed = true ∧
    (∀ r, Ea.dn 1 ≠ .an r) ∧
    ws.mem.wf = true ∧
    ws.CanRead .b (ws.operandAt 1 .b (.dn 1)) ∧
    (ws.past 1 .b (.dn 1)).CanWrite .b (ws.operandAt 1 .b (.dn 1)) :=
  ⟨by decide, by decide, (by intro _ h; cases h), by decide, read_of rfl (by decide), write_of rfl (by decide) (by decide)⟩

theorem witness_QuickResult_memory :
    (Instr.subq 1 .l (.preDec 0), AluOp.sub) ∈ [(Instr.addq 1 .l (.preDec 0), AluOp.add), (.subq 1 .l (.preDec 0), .sub)] ∧
    (Instr.subq 1 .l (.preDec 0)).wellFormed = true ∧
    (∀ r, Ea.preDec 0 ≠ .an r) ∧
    ws.mem.wf = true ∧
    ws.CanRead .l (ws.operandAt 1 .l (.preDec 0)) ∧
    (ws.past 1 .l (.preDec 0)).CanWrite .l (ws.operandAt 1 .l (.preDec 0)) :=
  ⟨by decide, by decide, (by intro _ h; cases h), by decide, read_of rfl (by decide), write_of rfl (by decide) (by decide)⟩

theorem witness_SingleResult_register :
    (Ea.dn 0).ok Mode.isDataAlterable .b = true ∧
    ws.CanRead .b (ws.operandAt 1 .b (.dn 0)) ∧
    (Instr.clr .b (.dn 0), 0, moveFlags (Size.bits .b) 0 ws.sr) ∈ [(Instr.clr .b (.dn 0), 0, moveFlags (Size.bits .b) 0 ws.sr)] ∧
    ws.mem.wf = true ∧
    (ws.past 1 .b (.dn 0)).CanWrite .b (ws.operandAt 1 .b (.dn 0)) :=
  ⟨by decide, read_of rfl (by decide), by decide, by decide, write_of rfl (by decide) (by decide)⟩

theorem witness_SingleResult_memory :
    (Ea.postInc 7).ok Mode.isDataAlterable .l = true ∧
    ws.CanRead .l (ws.operandAt 1 .l (.postInc 7)) ∧
    (Instr.clr .l (.postInc 7), 0, moveFlags (Size.bits .l) 0 ws.sr) ∈ [(Instr.clr .l (.postInc 7), 0, moveFlags (Size.bits .l) 0 ws.sr)] ∧
    ws.mem.wf = true ∧
    (ws.past 1 .l (.postInc 7)).CanWrite .l (ws.operandAt 1 .l (.postInc 7)) :=
  ⟨by decide, read_of rfl (by decide), by decide, by decide, write_of rfl (by decide) (by decide)⟩

theorem witness_SetByte_forbidden :
    (Ea.ind 0).ok Mode.isDataAlterable .b = true ∧
    ({ ws with tasForbidden := true } : State).mem.wf = true ∧
    ({ ws with tasForbidden := true } : State).tasForbidden = true ∧
    (Ea.ind 0).mode ≠ .dn :=
  by decide

theorem witness_SetByte_memory :
    (Ea.absL 0xFFFFFF).ok Mode.isDataAlterable .b = true ∧
    ws.mem.wf = true ∧
    ws.CanRead .b (ws.operandAt 1 .b (.absL 0xFFFFFF)) ∧
    (ws.past 1 .b (.absL 0xFFFFFF)).CanWrite .b (ws.operandAt 1 .b (.absL 0xFFFFFF)) ∧
    ws.tasForbidden = false :=
  ⟨by decide, by decide, read_of rfl (by decide), write_of rfl (by decide) (by decide), by decide⟩

theorem witness_SetByte_register :
    (Ea.dn 0).ok Mode.isDataAlterable .b = true ∧
    ({ ws with tasForbidden := true } : State).mem.wf = true ∧
    ({ ws with tasForbidden := true } : State).CanRead .b (({ ws with tasForbidden := true } : State).operandAt 1 .b (.dn 0)) ∧
    (({ ws with tasForbidden := true } : State).past 1 .b (.dn 0)).CanWrite .b (({ ws with tasForbidden := true } : State).operandAt 1 .b (.dn 0)) ∧
    (Ea.dn 0).mode = .dn :=
  ⟨by decide, by decide, read_of rfl (by decide), write_of rfl (by decide) (by decide), by decide⟩

theorem witness_NegateDecimal_register :
    (Instr.nbcd (.dn 0)).wellFormed = true ∧
    ws.mem.wf = true ∧
    ws.CanRead .b (ws.operandAt 1 .b (.dn 0)) ∧
    (ws.past 1 .b (.dn 0)).CanWrite .b (ws.operandAt 1 .b (.dn 0)) ∧
    isDecimal (ws.valueAt .b (ws.operandAt 1 .b (.dn 0))) = true :=
  ⟨by decide, by decide, read_of rfl (by decide), write_of rfl (by decide) (by decide), by decide⟩

theorem witness_NegateDecimal_memory :
    (Instr.nbcd (.ind 0)).wellFormed = true ∧
    ws.mem.wf = true ∧
    ws.CanRead .b (ws.operandAt 1 .b (.ind 0)) ∧
    (ws.past 1 .b (.ind 0)).CanWrite .b (ws.operandAt 1 .b (.ind 0)) ∧
    isDecimal (ws.valueAt .b (ws.operandAt 1 .b (.ind 0))) = true :=
  ⟨by decide, by decide, read_of rfl (by decide), write_of rfl (by decide) (by decide), by decide⟩

theorem witness_ShiftRegister_eight :
    (Instr.roxlImm .b 0 1, ShiftOp.roxl, 8) ∈ (let k := if (0 : Reg).val = 0 then 8 else (0 : Reg).val; [(Instr.asrImm .b 0 1, ShiftOp.asr, k), (.aslImm .b 0 1, .asl, k), (.lsrImm .b 0 1, .lsr, k), (.lslImm .b 0 1, .lsl, k), (.roxrImm .b 0 1, .roxr, k), (.roxlImm .b 0 1, .roxl, k), (.rorImm .b 0 1, .ror, k), (.rolImm .b 0 1, .rol, k)]) :=
  by decide

theorem witness_ShiftRegister_none :
    (Instr.aslReg .l 0 1, ShiftOp.asl, 0) ∈ (let k := ((ws.setD 0 64).dreg 0).toNat % 64; [(Instr.asrReg .l 0 1, ShiftOp.asr, k), (.aslReg .l 0 1, .asl, k), (.lsrReg .l 0 1, .lsr, k), (.lslReg .l 0 1, .lsl, k), (.roxrReg .l 0 1, .roxr, k), (.roxlReg .l 0 1, .roxl, k), (.rorReg .l 0 1, .ror, k), (.rolReg .l 0 1, .rol, k)]) :=
  by decide

theorem witness_ShiftRegister_most :
    (Instr.aslReg .l 0 1, ShiftOp.asl, 63) ∈ (let k := ((ws.setD 0 63).dreg 0).toNat % 64; [(Instr.asrReg .l 0 1, ShiftOp.asr, k), (.aslReg .l 0 1, .asl, k), (.lsrReg .l 0 1, .lsr, k), (.lslReg .l 0 1, .lsl, k), (.roxrReg .l 0 1, .roxr, k), (.roxlReg .l 0 1, .roxl, k), (.rorReg .l 0 1, .ror, k), (.rolReg .l 0 1, .rol, k)]) :=
  by decide

theorem witness_ShiftMemory :
    (Instr.roxrMem (.ind 0), ShiftOp.roxr) ∈ [(Instr.asrMem (.ind 0), ShiftOp.asr), (.aslMem (.ind 0), .asl), (.lsrMem (.ind 0), .lsr), (.lslMem (.ind 0), .lsl), (.roxrMem (.ind 0), .roxr), (.roxlMem (.ind 0), .roxl), (.rorMem (.ind 0), .ror), (.rolMem (.ind 0), .rol)] ∧
    (Instr.roxrMem (.ind 0)).wellFormed = true ∧
    ws.mem.wf = true ∧
    ws.CanRead .w (ws.operandAt 1 .w (.ind 0)) ∧
    (ws.past 1 .w (.ind 0)).CanWrite .w (ws.operandAt 1 .w (.ind 0)) :=
  ⟨by decide, by decide, by decide, read_of rfl (by decide), write_of rfl (by decide) (by decide)⟩

theorem witness_BitResult_register :
    ((.bclrImm 32 (.dn 0), .clr, 2, 32) : Instr × BitOp × Nat × Nat) ∈ [(.btstDn 1 (.dn 0), .tst, 1, (ws.dreg 1).toNat), (.bchgDn 1 (.dn 0), .chg, 1, (ws.dreg 1).toNat), (.bclrDn 1 (.dn 0), .clr, 1, (ws.dreg 1).toNat), (.bsetDn 1 (.dn 0), .set, 1, (ws.dreg 1).toNat), (.btstImm 32 (.dn 0), .tst, 2, BitVec.toNat (32 : Byte)), (.bchgImm 32 (.dn 0), .chg, 2, BitVec.toNat (32 : Byte)), (.bclrImm 32 (.dn 0), .clr, 2, BitVec.toNat (32 : Byte)), (.bsetImm 32 (.dn 0), .set, 2, BitVec.toNat (32 : Byte))] ∧
    (Instr.bclrImm 32 (.dn 0)).wellFormed = true ∧
    (∃ r, Ea.dn 0 = .dn r) :=
  ⟨by decide, by decide, ⟨_, rfl⟩⟩

theorem witness_BitResult_memory :
    ((.bsetImm 8 (.ind 0), .set, 2, 8) : Instr × BitOp × Nat × Nat) ∈ [(.btstDn 1 (.ind 0), .tst, 1, (ws.dreg 1).toNat), (.bchgDn 1 (.ind 0), .chg, 1, (ws.dreg 1).toNat), (.bclrDn 1 (.ind 0), .clr, 1, (ws.dreg 1).toNat), (.bsetDn 1 (.ind 0), .set, 1, (ws.dreg 1).toNat), (.btstImm 8 (.ind 0), .tst, 2, BitVec.toNat (8 : Byte)), (.bchgImm 8 (.ind 0), .chg, 2, BitVec.toNat (8 : Byte)), (.bclrImm 8 (.ind 0), .clr, 2, BitVec.toNat (8 : Byte)), (.bsetImm 8 (.ind 0), .set, 2, BitVec.toNat (8 : Byte))] ∧
    (Instr.bsetImm 8 (.ind 0)).wellFormed = true ∧
    (Ea.ind 0).mode ≠ .dn ∧
    ws.mem.wf = true ∧
    ws.CanRead .b (ws.operandAt 2 .b (.ind 0)) ∧
    (ws.past 2 .b (.ind 0)).CanWrite .b (ws.operandAt 2 .b (.ind 0)) :=
  ⟨by decide, by decide, by decide, by decide, read_of rfl (by decide), write_of rfl (by decide) (by decide)⟩

theorem witness_BitResult_test :
    ((.btstDn 1 (.imm (.b 2)), .tst, 1, 1) : Instr × BitOp × Nat × Nat) ∈ [(.btstDn 1 (.imm (.b 2)), .tst, 1, (ws.dreg 1).toNat), (.bchgDn 1 (.imm (.b 2)), .chg, 1, (ws.dreg 1).toNat), (.bclrDn 1 (.imm (.b 2)), .clr, 1, (ws.dreg 1).toNat), (.bsetDn 1 (.imm (.b 2)), .set, 1, (ws.dreg 1).toNat), (.btstImm 8 (.imm (.b 2)), .tst, 2, BitVec.toNat (8 : Byte)), (.bchgImm 8 (.imm (.b 2)), .chg, 2, BitVec.toNat (8 : Byte)), (.bclrImm 8 (.imm (.b 2)), .clr, 2, BitVec.toNat (8 : Byte)), (.bsetImm 8 (.imm (.b 2)), .set, 2, BitVec.toNat (8 : Byte))] ∧
    (Instr.btstDn 1 (.imm (.b 2))).wellFormed = true ∧
    (Ea.imm (.b 2)).mode ≠ .dn ∧
    ws.mem.wf = true ∧
    ws.CanRead .b (ws.operandAt 1 .b (.imm (.b 2))) :=
  ⟨by decide, by decide, by decide, by decide, read_of rfl (by decide)⟩

theorem witness_Branch_taken :
    (Instr.bcc .ne (.byte 0x80)).wellFormed = true ∧
    ws.sr.cond .ne = true ∧
    ws.CanReach .w (ws.pc + 2 + (0x80 : Byte).signExtend 32) :=
  ⟨by decide, by decide, reach_of rfl (by decide)⟩

theorem witness_Branch_not_taken :
    (Instr.bcc .eq (.word 0)).wellFormed = true ∧
    ws.sr.cond .eq = false :=
  by decide

theorem witness_Branch_dbcc_holds :
    ws.sr.cond .t = true :=
  by decide

theorem witness_Branch_dbcc_expired :
    ws.sr.cond .f = false ∧
    lowBits 16 (ws.dreg 2) = 0 :=
  by decide

theorem witness_Branch_dbcc_taken :
    ws.sr.cond .f = false ∧
    lowBits 16 (ws.dreg 1) ≠ 0 ∧
    ws.CanReach .w (ws.pc + 2 + (0xFFFC : Word).signExtend 32) :=
  ⟨by decide, by decide, reach_of rfl (by decide)⟩

theorem witness_Call_bsr :
    (Disp.byte 2).ok = true ∧
    ws.mem.wf = true ∧
    (ws.skip 1).CanStore .l (ws.sp - 4) ∧
    ws.CanReach .w (ws.pc + 2 + (2 : Byte).signExtend 32) :=
  ⟨by decide, by decide, store_of rfl (by decide) (by decide), reach_of rfl (by decide)⟩

theorem witness_Call_jsr :
    (Instr.jsr (.ind 0)).wellFormed = true ∧
    ws.operandAt 1 .l (.ind 0) = .mem 0x2000 false ∧
    ws.mem.wf = true ∧
    (ws.skip 1).CanStore .l (ws.sp - 4) ∧
    ws.CanReach .w 0x2000 :=
  ⟨by decide, by decide, by decide, store_of rfl (by decide) (by decide), reach_of rfl (by decide)⟩

theorem witness_AddressUse :
    (Ea.ind 0).ok Mode.isControl .l = true ∧
    ws.operandAt 1 .l (.ind 0) = .mem 0x2000 false ∧
    ws.CanReach .w 0x2000 ∧
    ws.mem.wf = true ∧
    (ws.skip 1).CanStore .l (ws.sp - 4) :=
  ⟨by decide, by decide, reach_of rfl (by decide), by decide, store_of rfl (by decide) (by decide)⟩

theorem witness_MovemLoad :
    (Instr.movemToReg .w (.postInc 0) 0x8101).wellFormed = true ∧
    ws.operandAt 2 .w (.postInc 0) = .mem 0x2000 false ∧
    (∀ k, k < (maskList false 0x8101).length → ws.CanReach .w (0x2000 + BitVec.ofNat 32 (2 * k))) ∧
    ws.CanReach .w (0x2000 + BitVec.ofNat 32 (2 * (maskList false 0x8101).length)) :=
  ⟨by decide, by decide, by unfold State.CanReach State.Answers; decide, reach_of rfl (by decide)⟩

theorem witness_MovemLoad_none :
    (Instr.movemToReg .l (.ind 0) 0).wellFormed = true ∧
    ws.operandAt 2 .l (.ind 0) = .mem 0x2000 false ∧
    (maskList false 0).length = 0 ∧
    ws.CanReach .w 0x2000 :=
  ⟨by decide, by decide, by decide, reach_of rfl (by decide)⟩

theorem witness_MovemStore_preDec :
    (Instr.movemToMem .l 0xC080 (.preDec 0)).wellFormed = true ∧
    ws.mem.wf = true ∧
    (0x1FF4 : Long) = ws.areg 0 - BitVec.ofNat 32 (Size.bytes .l * (maskList true 0xC080).reverse.length) ∧
    (∀ k, k < (maskList true 0xC080).reverse.length → (ws.skip 2).CanStore .l (0x1FF4 + BitVec.ofNat 32 (4 * k))) :=
  ⟨by decide, by decide, by decide, by unfold State.CanStore State.CanReach State.Answers; decide⟩

theorem witness_MovemStore_control :
    (Instr.movemToMem .w 0x8001 (.ind 1)).wellFormed = true ∧
    ws.mem.wf = true ∧
    (decide ((Ea.ind 1).mode = .preDec) = false ∧ ws.operandAt 2 .w (.ind 1) = .mem 0x3000 false) ∧
    (∀ k, k < (maskList false 0x8001).length → (ws.skip 2).CanStore .w (0x3000 + BitVec.ofNat 32 (2 * k))) :=
  ⟨by decide, by decide, by decide, by unfold State.CanStore State.CanReach State.Answers; decide⟩

theorem witness_ExtendResult :
    ws.mem.wf = true ∧
    ws.CanReach .l ((ws.past 1 .l (.preDec 0)).areg 0) ∧
    ((ws.past 1 .l (.preDec 0)).past 0 .l (.preDec 1)).CanStore .l (((ws.past 1 .l (.preDec 0)).past 0 .l (.preDec 1)).areg 1) :=
  ⟨by decide, reach_of rfl (by decide), store_of rfl (by decide) (by decide)⟩

theorem witness_DecimalArithmetic :
    ws.mem.wf = true ∧
    ws.CanReach .b ((ws.past 1 .b (.preDec 0)).areg 0) ∧
    ((ws.past 1 .b (.preDec 0)).past 0 .b (.preDec 1)).CanStore .b (((ws.past 1 .b (.preDec 0)).past 0 .b (.preDec 1)).areg 1) ∧
    (isDecimal (lowBits 8 (ws.dreg 0)) && isDecimal (lowBits 8 (ws.dreg 1))) = true :=
  ⟨by decide, reach_of rfl (by decide), store_of rfl (by decide) (by decide), by decide⟩

theorem witness_ImmediateToStatus_ccr :
    (Instr.eoriToCcr 0xFF, wu.sr.toWord ^^^ ((0xFF : Byte).setWidth 16 &&& 0x1F)) ∈ [(Instr.andiToCcr 0xFF, wu.sr.toWord &&& (0xFF00 ||| (0xFF : Byte).setWidth 16)), (.eoriToCcr 0xFF, wu.sr.toWord ^^^ ((0xFF : Byte).setWidth 16 &&& 0x1F)), (.oriToCcr 0xFF, wu.sr.toWord ||| ((0xFF : Byte).setWidth 16 &&& 0x1F))] :=
  by decide

theorem witness_ImmediateToStatus_sr :
    ws.sr.s = true ∧
    (Instr.oriToSr 0xFFFF, ws.sr.toWord ||| 0xFFFF) ∈ [(Instr.andiToSr 0xFFFF, ws.sr.toWord &&& 0xFFFF), (.eoriToSr 0xFFFF, ws.sr.toWord ^^^ 0xFFFF), (.oriToSr 0xFFFF, ws.sr.toWord ||| 0xFFFF)] :=
  by decide

theorem witness_ImmediateToStatus_memory :
    (∀ a, ws.Answers a) :=
  (fun _ => .inl rfl)

theorem witness_MoveStatus_to :
    (Ea.imm (.w 0xFFFF)).ok Mode.isData .w = true ∧
    ws.CanRead .w (ws.operandAt 1 .w (.imm (.w 0xFFFF))) ∧
    ws.sr.s = true :=
  ⟨by decide, read_of rfl (by decide), by decide⟩

theorem witness_MoveStatus_from :
    (Ea.preDec 0).ok Mode.isDataAlterable .w = true ∧
    wu.mem.wf = true ∧
    wu.CanRead .w (wu.operandAt 1 .w (.preDec 0)) ∧
    (wu.past 1 .w (.preDec 0)).CanWrite .w (wu.operandAt 1 .w (.preDec 0)) :=
  ⟨by decide, by decide, read_of rfl (by decide), write_of rfl (by decide) (by decide)⟩

theorem witness_RegisterMisc :
    ws.sr.s = true ∧
    wu.sr.s = false ∧
    (2 : Reg) ≠ 0 ∧
    (2 : Reg) ≠ 7 :=
  by decide

theorem witness_FramesAndReturns_link :
    ws.mem.wf = true ∧
    (ws.skip 2).CanStore .l (ws.sp - 4) :=
  ⟨by decide, store_of rfl (by decide) (by decide)⟩

theorem witness_FramesAndReturns_unlk :
    ws.CanReach .l (ws.areg 7) :=
  reach_of rfl (by decide)

theorem witness_FramesAndReturns_rts :
    ws.CanReach .l ws.sp ∧
    ws.CanReach .w (BitVec.ofNat 32 (ws.peek .l ws.sp)) :=
  ⟨reach_of rfl (by decide), reach_of rfl (by decide)⟩

theorem witness_FramesAndReturns_rtr :
    ws.CanReach .w ws.sp ∧
    ws.CanReach .l (ws.sp + 2) ∧
    ws.CanReach .w (BitVec.ofNat 32 (ws.peek .l (ws.sp + 2))) :=
  ⟨reach_of rfl (by decide), reach_of rfl (by decide), reach_of rfl (by decide)⟩

theorem witness_ReturnFromException_frame :
    ({ ws with book := { vectors := [], frames := [⟨0x8000, 0x2000, 2, 0, List.range 14⟩] } } : State).sr.s = true ∧
    (∃ f ∈ ({ ws with book := { vectors := [], frames := [⟨0x8000, 0x2000, 2, 0, List.range 14⟩] } } : State).book.frames, (({ ws with book := { vectors := [], frames := [⟨0x8000, 0x2000, 2, 0, List.range 14⟩] } } : State).ssp - f.sp).toNat < 8 ∧ f.kept.any (fun k => decide (k < 8 ∧ (({ ws with book := { vectors := [], frames := [⟨0x8000, 0x2000, 2, 0, List.range 14⟩] } } : State).ssp - f.sp).toNat ≤ k ∧ k < (({ ws with book := { vectors := [], frames := [⟨0x8000, 0x2000, 2, 0, List.range 14⟩] } } : State).ssp - f.sp).toNat + 6)) = true) :=
  by decide

theorem witness_ReturnFromException_partly_cut :
    ({ ws with book := { vectors := [], frames := [⟨0x7FFA, 0x2000, 2, 6, List.range 14⟩] } } : State).sr.s = true ∧
    (∃ f ∈ ({ ws with book := { vectors := [], frames := [⟨0x7FFA, 0x2000, 2, 6, List.range 14⟩] } } : State).book.frames, (({ ws with book := { vectors := [], frames := [⟨0x7FFA, 0x2000, 2, 6, List.range 14⟩] } } : State).ssp - f.sp).toNat < 8 ∧ f.kept.any (fun k => decide (k < 8 ∧ (({ ws with book := { vectors := [], frames := [⟨0x7FFA, 0x2000, 2, 6, List.range 14⟩] } } : State).ssp - f.sp).toNat ≤ k ∧ k < (({ ws with book := { vectors := [], frames := [⟨0x7FFA, 0x2000, 2, 6, List.range 14⟩] } } : State).ssp - f.sp).toNat + 6)) = true) :=
  by decide

theorem witness_ReturnFromException_switched :
    ({ ws with book := { vectors := [], frames := [⟨0x8000, 0x2000, 2, 64, List.range 14⟩] } } : State).sr.s = true ∧
    (∃ f ∈ ({ ws with book := { vectors := [], frames := [⟨0x8000, 0x2000, 2, 64, List.range 14⟩] } } : State).book.frames, (({ ws with book := { vectors := [], frames := [⟨0x8000, 0x2000, 2, 64, List.range 14⟩] } } : State).ssp - f.sp).toNat < 8 ∧ f.kept.any (fun k => decide (k < 8 ∧ (({ ws with book := { vectors := [], frames := [⟨0x8000, 0x2000, 2, 64, List.range 14⟩] } } : State).ssp - f.sp).toNat ≤ k ∧ k < (({ ws with book := { vectors := [], frames := [⟨0x8000, 0x2000, 2, 64, List.range 14⟩] } } : State).ssp - f.sp).toNat + 6)) = true) :=
  by decide

theorem witness_ReturnFromException_resumes :
    ({ ws with book := { vectors := [], frames := [⟨0x7FF8, 0, 1, 8, [8, 13]⟩] } } : State).sr.s = true ∧
    (∀ f ∈ ({ ws with book := { vectors := [], frames := [⟨0x7FF8, 0, 1, 8, [8, 13]⟩] } } : State).book.frames, ¬((({ ws with book := { vectors := [], frames := [⟨0x7FF8, 0, 1, 8, [8, 13]⟩] } } : State).ssp - f.sp).toNat < 8 ∧ f.kept.any (fun k => decide (k < 8 ∧ (({ ws with book := { vectors := [], frames := [⟨0x7FF8, 0, 1, 8, [8, 13]⟩] } } : State).ssp - f.sp).toNat ≤ k ∧ k < (({ ws with book := { vectors := [], frames := [⟨0x7FF8, 0, 1, 8, [8, 13]⟩] } } : State).ssp - f.sp).toNat + 6)) = true)) ∧
    ({ ws with book := { vectors := [], frames := [⟨0x7FF8, 0, 1, 8, [8, 13]⟩] } } : State).CanReach .w ({ ws with book := { vectors := [], frames := [⟨0x7FF8, 0, 1, 8, [8, 13]⟩] } } : State).ssp ∧
    ({ ws with book := { vectors := [], frames := [⟨0x7FF8, 0, 1, 8, [8, 13]⟩] } } : State).CanReach .l (({ ws with book := { vectors := [], frames := [⟨0x7FF8, 0, 1, 8, [8, 13]⟩] } } : State).ssp + 2) ∧
    (∃ f ∈ ({ ws with book := { vectors := [], frames := [⟨0x7FF8, 0, 1, 8, [8, 13]⟩] } } : State).book.frames, f.sp + 8 = ({ ws with book := { vectors := [], frames := [⟨0x7FF8, 0, 1, 8, [8, 13]⟩] } } : State).ssp ∧ f.kept.any (fun k => decide (8 ≤ k)) = true ∧ (BitVec.ofNat 32 (({ ws with book := { vectors := [], frames := [⟨0x7FF8, 0, 1, 8, [8, 13]⟩] } } : State).peek .l (({ ws with book := { vectors := [], frames := [⟨0x7FF8, 0, 1, 8, [8, 13]⟩] } } : State).ssp + 2)) - f.start).toNat < f.length) ∧
    ({ ws with book := { vectors := [], frames := [⟨0x7FF8, 0, 1, 8, [8, 13]⟩] } } : State).CanReach .w (BitVec.ofNat 32 (({ ws with book := { vectors := [], frames := [⟨0x7FF8, 0, 1, 8, [8, 13]⟩] } } : State).peek .l (({ ws with book := { vectors := [], frames := [⟨0x7FF8, 0, 1, 8, [8, 13]⟩] } } : State).ssp + 2))) :=
  ⟨by decide, by decide, reach_of rfl (by decide), reach_of rfl (by decide), by decide, reach_of rfl (by decide)⟩

theorem witness_ReturnFromException_next :
    ({ ws with book := { vectors := [], frames := [⟨0x7FF8, 0, 0, 8, List.range 14⟩] } } : State).sr.s = true ∧
    (∀ f ∈ ({ ws with book := { vectors := [], frames := [⟨0x7FF8, 0, 0, 8, List.range 14⟩] } } : State).book.frames, ¬((({ ws with book := { vectors := [], frames := [⟨0x7FF8, 0, 0, 8, List.range 14⟩] } } : State).ssp - f.sp).toNat < 8 ∧ f.kept.any (fun k => decide (k < 8 ∧ (({ ws with book := { vectors := [], frames := [⟨0x7FF8, 0, 0, 8, List.range 14⟩] } } : State).ssp - f.sp).toNat ≤ k ∧ k < (({ ws with book := { vectors := [], frames := [⟨0x7FF8, 0, 0, 8, List.range 14⟩] } } : State).ssp - f.sp).toNat + 6)) = true)) ∧
    ({ ws with book := { vectors := [], frames := [⟨0x7FF8, 0, 0, 8, List.range 14⟩] } } : State).CanReach .w ({ ws with book := { vectors := [], frames := [⟨0x7FF8, 0, 0, 8, List.range 14⟩] } } : State).ssp ∧
    ({ ws with book := { vectors := [], frames := [⟨0x7FF8, 0, 0, 8, List.range 14⟩] } } : State).CanReach .l (({ ws with book := { vectors := [], frames := [⟨0x7FF8, 0, 0, 8, List.range 14⟩] } } : State).ssp + 2) ∧
    (∀ f ∈ ({ ws with book := { vectors := [], frames := [⟨0x7FF8, 0, 0, 8, List.range 14⟩] } } : State).book.frames, ¬(f.sp + 8 = ({ ws with book := { vectors := [], frames := [⟨0x7FF8, 0, 0, 8, List.range 14⟩] } } : State).ssp ∧ f.kept.any (fun k => decide (8 ≤ k)) = true ∧ (BitVec.ofNat 32 (({ ws with book := { vectors := [], frames := [⟨0x7FF8, 0, 0, 8, List.range 14⟩] } } : State).peek .l (({ ws with book := { vectors := [], frames := [⟨0x7FF8, 0, 0, 8, List.range 14⟩] } } : State).ssp + 2)) - f.start).toNat < f.length)) ∧
    ({ ws with book := { vectors := [], frames := [⟨0x7FF8, 0, 0, 8, List.range 14⟩] } } : State).CanReach .w (BitVec.ofNat 32 (({ ws with book := { vectors := [], frames := [⟨0x7FF8, 0, 0, 8, List.range 14⟩] } } : State).peek .l (({ ws with book := { vectors := [], frames := [⟨0x7FF8, 0, 0, 8, List.range 14⟩] } } : State).ssp + 2))) :=
  ⟨by decide, by decide, reach_of rfl (by decide), reach_of rfl (by decide), by decide, reach_of rfl (by decide)⟩

theorem witness_ReturnFromException_stored :
    ⟨0x7FF8, 0, 0, 8, List.range 14⟩ ∈ ({ ws with book := { vectors := [], frames := [⟨0x7FF8, 0, 0, 8, List.range 14⟩] } } : State).book.frames ∧
    (List.range 14).filter (fun k : Nat => decide (k < 8) && [((0x7FF8 : Nat), (1 : Byte))].any (fun c => c.1 == phys (0x7FF8 + BitVec.ofNat 32 k))) = [0] :=
  by decide

theorem witness_SupervisorMisc :
    ws.sr.s = true :=
  by decide

theorem witness_CheckBounds_within :
    (Instr.chk (.imm (.w 100)) 0).wellFormed = true ∧
    (ws.setD 0 100).CanRead .w ((ws.setD 0 100).operandAt 1 .w (.imm (.w 100))) ∧
    0 ≤ signed 16 (lowBits 16 ((ws.setD 0 100).dreg 0)) ∧
    signed 16 (lowBits 16 ((ws.setD 0 100).dreg 0)) ≤ signed 16 ((ws.setD 0 100).valueAt .w ((ws.setD 0 100).operandAt 1 .w (.imm (.w 100)))) :=
  ⟨by decide, read_of rfl (by decide), by decide, by decide⟩

theorem witness_CheckBounds_least :
    (Instr.chk (.imm (.w 100)) 0).wellFormed = true ∧
    (ws.setD 0 0).CanRead .w ((ws.setD 0 0).operandAt 1 .w (.imm (.w 100))) ∧
    0 ≤ signed 16 (lowBits 16 ((ws.setD 0 0).dreg 0)) ∧
    signed 16 (lowBits 16 ((ws.setD 0 0).dreg 0)) ≤ signed 16 ((ws.setD 0 0).valueAt .w ((ws.setD 0 0).operandAt 1 .w (.imm (.w 100)))) :=
  ⟨by decide, read_of rfl (by decide), by decide, by decide⟩

theorem witness_CheckBounds_above :
    (Instr.chk (.imm (.w 100)) 0).wellFormed = true ∧
    (ws.setD 0 101).CanRead .w ((ws.setD 0 101).operandAt 1 .w (.imm (.w 100))) ∧
    signed 16 ((ws.setD 0 101).valueAt .w ((ws.setD 0 101).operandAt 1 .w (.imm (.w 100)))) < signed 16 (lowBits 16 ((ws.setD 0 101).dreg 0)) ∧
    (ws.setD 0 101).mem.wf = true ∧
    ((ws.setD 0 101).past 1 .w (.imm (.w 100))).CanEnter 6 :=
  ⟨by decide, read_of rfl (by decide), by decide, by decide, enter_of rfl (by decide) (by decide) (by decide) (by decide) (by decide)⟩

theorem witness_CheckBounds_below :
    (Instr.chk (.imm (.w 100)) 0).wellFormed = true ∧
    (ws.setD 0 0xFFFF).CanRead .w ((ws.setD 0 0xFFFF).operandAt 1 .w (.imm (.w 100))) ∧
    signed 16 (lowBits 16 ((ws.setD 0 0xFFFF).dreg 0)) < 0 ∧
    (ws.setD 0 0xFFFF).mem.wf = true ∧
    ((ws.setD 0 0xFFFF).past 1 .w (.imm (.w 100))).CanEnter 6 :=
  ⟨by decide, read_of rfl (by decide), by decide, by decide, enter_of rfl (by decide) (by decide) (by decide) (by decide) (by decide)⟩

theorem witness_Traps :
    ws.mem.wf = true ∧
    ws.CanEnter 32 ∧
    ws.CanEnter 47 ∧
    ws.CanEnter 4 ∧
    ws.sr.v = false :=
  ⟨by decide, enter_of rfl (by decide) (by decide) (by decide) (by decide) (by decide), enter_of rfl (by decide) (by decide) (by decide) (by decide) (by decide), enter_of rfl (by decide) (by decide) (by decide) (by decide) (by decide), by decide⟩

theorem witness_Traps_overflow :
    ({ ws with sr := { ws.sr with v := true } } : State).mem.wf = true ∧
    ({ ws with sr := { ws.sr with v := true } } : State).sr.v = true ∧
    ({ ws with sr := { ws.sr with v := true } } : State).CanEnter 7 :=
  ⟨by decide, by decide, enter_of rfl (by decide) (by decide) (by decide) (by decide) (by decide)⟩

theorem witness_MovePeripheral :
    ws.mem.wf = true ∧
    (∀ k, k < Size.bytes .l → (ws.skip 2).CanStore .b (ws.areg 0 + (0xFFFF : Word).signExtend 32 + BitVec.ofNat 32 (2 * k))) ∧
    (∀ k, k < Size.bytes .l → ws.CanReach .b (ws.areg 0 + (0xFFFF : Word).signExtend 32 + BitVec.ofNat 32 (2 * k))) :=
  ⟨by decide, by unfold State.CanStore State.CanReach State.Answers; decide, by unfold State.CanReach State.Answers; decide⟩


end Sys2Proof.Tests
end

/-! The condition test of R28: what each condition says of the flags, and the operation words of BRA and BSR, which stand
where the codes of T and F would. -/

namespace Sys2Proof

/-- The displacement of a branch stays in the low byte of the operation word, so the byte above it is the code alone. -/
theorem Disp.field_lt (d : Disp) : d.field < 256 := by
  cases d with
  | byte d => exact d.isLt
  | word _ => exact Nat.zero_lt_succ _

theorem Instr.opNat_bra (d : Disp) : (Instr.bra d).opNat = 0x6000 + d.field := rfl

theorem Instr.opNat_bsr (d : Disp) : (Instr.bsr d).opNat = 0x6100 + d.field := rfl

theorem Instr.opNat_bra_div (d : Disp) : (Instr.bra d).opNat / 256 = 0x60 := by
  have hd := d.field_lt
  rw [opNat_bra]
  omega

theorem Instr.opNat_bsr_div (d : Disp) : (Instr.bsr d).opNat / 256 = 0x61 := by
  have hd := d.field_lt
  rw [opNat_bsr]
  omega

theorem Instr.wellFormed_bcc (c : Cond) (d : Disp) : (Instr.bcc c d).wellFormed = (c.isBranch && d.ok) := rfl

/-- T and F are no conditions of Bcc, whatever the displacement. -/
theorem Instr.wellFormed_bcc_of_not_isBranch {c : Cond} (hc : c.isBranch = false) (d : Disp) :
    (Instr.bcc c d).wellFormed = false := by
  rw [wellFormed_bcc, hc, Bool.false_and]

end Sys2Proof

namespace Sys2Proof.Machine

section Conditions

variable (q : StatusReg)

@[simp] theorem StatusReg.cond_t : q.cond .t = true := rfl

@[simp] theorem StatusReg.cond_f : q.cond .f = false := rfl

@[simp] theorem StatusReg.cond_hi_iff : q.cond .hi = true ↔ q.c = false ∧ q.z = false := by simp [StatusReg.cond]

@[simp] theorem StatusReg.cond_ls_iff : q.cond .ls = true ↔ q.c = true ∨ q.z = true := by simp [StatusReg.cond]

@[simp] theorem StatusReg.cond_cc_iff : q.cond .cc = true ↔ q.c = false := by simp [StatusReg.cond]

@[simp] theorem StatusReg.cond_cs_iff : q.cond .cs = true ↔ q.c = true := Iff.rfl

@[simp] theorem StatusReg.cond_ne_iff : q.cond .ne = true ↔ q.z = false := by simp [StatusReg.cond]

@[simp] theorem StatusReg.cond_eq_iff : q.cond .eq = true ↔ q.z = true := Iff.rfl

@[simp] theorem StatusReg.cond_vc_iff : q.cond .vc = true ↔ q.v = false := by simp [StatusReg.cond]

@[simp] theorem StatusReg.cond_vs_iff : q.cond .vs = true ↔ q.v = true := Iff.rfl

@[simp] theorem StatusReg.cond_pl_iff : q.cond .pl = true ↔ q.n = false := by simp [StatusReg.cond]

@[simp] theorem StatusReg.cond_mi_iff : q.cond .mi = true ↔ q.n = true := Iff.rfl

@[simp] theorem StatusReg.cond_ge_iff : q.cond .ge = true ↔ q.n = q.v := by simp [StatusReg.cond]

@[simp] theorem StatusReg.cond_lt_iff : q.cond .lt = true ↔ q.n ≠ q.v := by simp [StatusReg.cond]

@[simp] theorem StatusReg.cond_gt_iff : q.cond .gt = true ↔ q.z = false ∧ q.n = q.v := by simp [StatusReg.cond]

@[simp] theorem StatusReg.cond_le_iff : q.cond .le = true ↔ q.z = true ∨ q.n ≠ q.v := by simp [StatusReg.cond]

end Conditions

/-- Settles O25: `Cond.ofCode` of each numeral computes to its condition, whose own lemma says the rest. -/
theorem conditionTest : Obligations.ConditionTest := fun q d =>
  ⟨Instr.wellFormed_bcc_of_not_isBranch rfl d, Instr.wellFormed_bcc_of_not_isBranch rfl d, Instr.opNat_bra_div d,
    Instr.opNat_bsr_div d,
    q.cond_t, q.cond_f, q.cond_hi_iff, q.cond_ls_iff, q.cond_cc_iff, q.cond_cs_iff, q.cond_ne_iff, q.cond_eq_iff,
    q.cond_vc_iff, q.cond_vs_iff, q.cond_pl_iff, q.cond_mi_iff, q.cond_ge_iff, q.cond_lt_iff, q.cond_gt_iff, q.cond_le_iff⟩

end Sys2Proof.Machine

/-! Multiplication (R183, R184, R185): the count `n` of its time, and a product written back as a two's complement number. -/

namespace Sys2Proof.Machine

/-! After a multiplication V and C are clear, so BVS and BCS are not taken (R28). Elaborated here, in order, this also derives
the equations of `StatusReg.cond` once: the queued proofs of the condition test would else each hold a thread while they wait
for them, more threads together than the check's limit on memory allows. -/
example (bits r : Nat) (q : StatusReg) :
    (flagsLogic bits r q).cond .vs = false ∧ (flagsLogic bits r q).cond .cs = false := by
  simp [flagsLogic, StatusReg.cond]

/-- The ones below place `k`, counted place by place. -/
theorem onesBelow_eq_countP (k v : Nat) : onesBelow k v = (List.range k).countP (fun i => v.testBit i) := by
  induction k generalizing v with
  | zero => rfl
  | succ k ih =>
    have low : v % 2 = if v.testBit 0 then 1 else 0 := by
      rw [Nat.testBit_zero]
      rcases Nat.mod_two_eq_zero_or_one v with h | h <;> simp [h]
    have rest : (fun i => (v / 2).testBit i) = (fun i => v.testBit i) ∘ Nat.succ :=
      funext fun i => (Nat.testBit_succ v i).symm
    rw [onesBelow, ih, List.range_succ_eq_map, List.countP_cons, List.countP_map, ← rest, low, Nat.add_comm]

theorem muluCount_eq_countP (v : Nat) : muluCount v = (List.range 16).countP (fun k => v.testBit k) := onesBelow_eq_countP 16 v

/-- Adjacent bits of the source with a zero appended differ exactly where it differs from the source itself. -/
theorem testBit_double_xor_self (v k : Nat) : (2 * v ^^^ v).testBit k = ((2 * v).testBit (k + 1) != (2 * v).testBit k) := by
  have shifted : (2 * v).testBit (k + 1) = v.testBit k := by
    rw [Nat.testBit_succ, Nat.mul_div_cancel_left v Nat.two_pos]
  rw [Nat.testBit_xor, shifted, Bool.xor_comm, Bool.bne_eq_xor]

theorem mulsCount_eq_countP (v : Nat) :
    mulsCount v = (List.range 16).countP (fun k => (2 * v).testBit (k + 1) != (2 * v).testBit k) := by
  simp only [mulsCount, onesBelow_eq_countP, testBit_double_xor_self]

/-- The time of a multiplication: a word source has the byte and word column. -/
theorem time_mul (n : Nat) (m : Mode) : time (.mul n m) = Time.add ⟨38 + 2 * n, 1, 0⟩ (eaTime m .w) := rfl

theorem ofSigned_eq_toNat_ofInt (bits : Nat) (z : Int) : ofSigned bits z = (BitVec.ofInt bits z).toNat := by
  rw [ofSigned, BitVec.toNat_ofInt]
  norm_cast

/-- Writing a number in two's complement is what `BitVec.ofInt` does. -/
theorem ofNat_ofSigned (bits : Nat) (z : Int) : BitVec.ofNat bits (ofSigned bits z) = BitVec.ofInt bits z := by
  rw [ofSigned_eq_toNat_ofInt, BitVec.ofNat_toNat, BitVec.setWidth_eq]

theorem ofSigned_lt (bits : Nat) (z : Int) : ofSigned bits z < 2 ^ bits := by
  rw [ofSigned_eq_toNat_ofInt]
  exact BitVec.isLt _

/-- A number in range is read back as it was written. -/
theorem signed_ofSigned {bits : Nat} (hb : 0 < bits) {z : Int} (hl : -2 ^ (bits - 1) ≤ z) (hu : z < 2 ^ (bits - 1)) :
    signed bits (ofSigned bits z) = z := by
  rw [signed_toInt bits _ hb (ofSigned_lt bits z), ofNat_ofSigned, BitVec.toInt_ofInt_eq_self hb hl hu]

/-- A result in range is zero when the number is, and negative when the number is. -/
theorem flagsLogic_ofSigned {bits : Nat} (hb : 0 < bits) {z : Int} (hl : -2 ^ (bits - 1) ≤ z) (hu : z < 2 ^ (bits - 1))
    (sr : StatusReg) :
    flagsLogic bits (ofSigned bits z) sr = { sr with n := decide (z < 0), z := decide (z = 0), v := false, c := false } := by
  have back : signed bits (ofSigned bits z) = z := signed_ofSigned hb hl hu
  have zero : ofSigned bits z = 0 ↔ z = 0 := by
    constructor
    · intro h
      rw [h] at back
      simpa [signed, msb] using back.symm
    · rintro rfl
      simp [ofSigned]
  rw [flagsLogic, msb_neg bits _ (ofSigned_lt bits z), back, beq_decide, decide_eq_decide.2 zero]

theorem abs_signed_word_le {v : Nat} (h : v < 2 ^ 16) : |signed 16 v| ≤ 2 ^ 15 := by
  rw [signed_toInt 16 v (by decide) h, abs_le]
  exact ⟨BitVec.le_toInt _, (BitVec.toInt_lt).le⟩

/-- The product of two signed words has at most 31 bits, sign included: `-32768 * -32768` is its greatest magnitude. -/
theorem abs_signed_mul_le {d v : Nat} (hd : d < 2 ^ 16) (hv : v < 2 ^ 16) : |signed 16 d * signed 16 v| ≤ 2 ^ 30 := by
  calc |signed 16 d * signed 16 v| = |signed 16 d| * |signed 16 v| := abs_mul _ _
    _ ≤ 2 ^ 15 * 2 ^ 15 := mul_le_mul (abs_signed_word_le hd) (abs_signed_word_le hv) (abs_nonneg _) (by decide)
    _ = 2 ^ 30 := by decide

/-- The flags of a product of signed words are those of the exact product, which a long always holds. -/
theorem flagsLogic_signed_mul {d v : Nat} (hd : d < 2 ^ 16) (hv : v < 2 ^ 16) (sr : StatusReg) :
    flagsLogic 32 (ofSigned 32 (signed 16 d * signed 16 v)) sr =
      { sr with
        n := decide (signed 16 d * signed 16 v < 0), z := decide (signed 16 d * signed 16 v = 0), v := false
        c := false } := by
  obtain ⟨hl, hu⟩ := abs_le.1 (abs_signed_mul_le hd hv)
  exact flagsLogic_ofSigned (by decide) (by omega) (by omega) sr

/-- The product of two unsigned words fits in a long. -/
theorem word_mul_lt {d v : Nat} (hd : d < 2 ^ 16) (hv : v < 2 ^ 16) : d * v < 2 ^ 32 :=
  calc d * v < 2 ^ 16 * 2 ^ 16 := Nat.mul_lt_mul'' hd hv
    _ = 2 ^ 32 := by decide

section Execution

variable {s : State} {ea : Ea} (hr : s.CanRead .w (s.operandAt 1 .w ea)) (dn : Reg)
include hr

/-- MULU of a source that can be read, before its flags and its count are said with exact numbers. -/
theorem exec_mulu_of_canRead :
    exec (.mulu ea dn) s =
      .next ((((s.past 1 .w ea).setD dn (BitVec.ofNat 32 (lowBits 16 (s.dreg dn) * s.valueAt .w (s.operandAt 1 .w ea)))).setSr
        (flagsLogic 32 (lowBits 16 (s.dreg dn) * s.valueAt .w (s.operandAt 1 .w ea)) s.sr)).charge
        (time (.mul (muluCount (s.valueAt .w (s.operandAt 1 .w ea))) ea.mode))) := by
  have arm : exec (.mulu ea dn) s = execMulu ea dn s := rfl
  rw [arm, execMulu, readEa_ok hr]
  simp only [State.dlow, Size.bits, past_sr, dreg_of_d (past_d s 1 .w ea)]

/-- MULS of a source that can be read, likewise. -/
theorem exec_muls_of_canRead :
    exec (.muls ea dn) s =
      .next ((((s.past 1 .w ea).setD dn (BitVec.ofNat 32 (ofSigned 32
          (signed 16 (lowBits 16 (s.dreg dn)) * signed 16 (s.valueAt .w (s.operandAt 1 .w ea)))))).setSr
        (flagsLogic 32 (ofSigned 32
          (signed 16 (lowBits 16 (s.dreg dn)) * signed 16 (s.valueAt .w (s.operandAt 1 .w ea)))) s.sr)).charge
        (time (.mul (mulsCount (s.valueAt .w (s.operandAt 1 .w ea))) ea.mode))) := by
  have arm : exec (.muls ea dn) s = execMuls ea dn s := rfl
  rw [arm, execMuls, readEa_ok hr]
  simp only [State.dlow, Size.bits, past_sr, dreg_of_d (past_d s 1 .w ea)]

end Execution

/-- Settles O34: both products fit in 32 bits, so the flags of the stored result are those of the exact product. -/
theorem multiply : Obligations.Multiply := by
  intro s ea dn hok hr v d u
  have hd : d < 2 ^ 16 := lowBits_lt 16 (s.dreg dn)
  have hv : v < 2 ^ 16 := valueAt_lt (sz := .w) (ok_sizeOk hok)
  constructor
  · rw [exec_mulu_of_canRead hr, flagsLogic_eq 32 _ (by decide) (word_mul_lt hd hv), muluCount_eq_countP, time_mul,
      State.setD, past_d]
    rfl
  · rw [exec_muls_of_canRead hr, ofNat_ofSigned, flagsLogic_signed_mul hd hv,
      mulsCount_eq_countP, time_mul, State.setD, past_d]
    rfl

end Sys2Proof.Machine

/-! ADDQ, SUBQ (R203, R209) and MOVEQ (R206): a small immediate held in the operation word. -/

namespace Sys2Proof.Machine

/-- The immediate of ADDQ and SUBQ, 1 to 8, fits every operand size. -/
theorem quickValue_lt (q : Reg) (sz : Size) : quickValue q < 2 ^ sz.bits := by
  have hq : quickValue q < 2 ^ 8 := by
    have := q.isLt
    unfold quickValue
    split <;> omega
  have hsz : 2 ^ 8 ≤ 2 ^ sz.bits := Nat.pow_le_pow_right Nat.two_pos (by cases sz <;> decide)
  exact lt_of_lt_of_le hq hsz

/-- An effective address that is no address register has another mode than `An`. -/
theorem mode_ne_an_of_ne {ea : Ea} (ha : ∀ r, ea ≠ .an r) : ea.mode ≠ .an := by
  cases ea with
  | an r => exact absurd rfl (ha r)
  | _ => simp [Ea.mode]

section Quick

variable (op : AluOp) (q : Reg) (sz : Size) (s : State)

theorem exec_addq (ea : Ea) : exec (.addq q sz ea) s = quickEa .add q sz ea s := rfl

theorem exec_subq (ea : Ea) : exec (.subq q sz ea) s = quickEa .sub q sz ea s := rfl

/-- On an address register all 32 bits are changed, whatever the size, and no flag. -/
theorem quickEa_an (r : Reg) :
    quickEa op q sz (.an r) s = .next (((s.past 1 sz (.an r)).setA r
      (if op = .sub then s.areg r - BitVec.ofNat 32 (quickValue q) else s.areg r + BitVec.ofNat 32 (quickValue q))).charge
      ⟨8, 1, 0⟩) := rfl

/-- Elsewhere the operand is read, changed by the operation with its flags, and stored back. -/
theorem quickEa_eq_modifyEa {ea : Ea} (ha : ∀ r, ea ≠ .an r) :
    quickEa op q sz ea s = s.finish (if ea.mode = .dn then time (.quickDn sz) else time (.quickMem sz ea.mode)) (eaTargets ea)
      ((s.skip 1).modifyEa sz ea (aluResult op sz.bits (quickValue q))) := by
  cases ea with
  | an r => exact absurd rfl (ha r)
  | _ => rfl

end Quick

/-- Where the operand can be read and stored, the result and the flags are the exact ones. -/
theorem quickEa_ok {op : AluOp} {q : Reg} {sz : Size} {s : State} {ea : Ea} (hok : ea.sizeOk sz = true)
    (ha : ∀ r, ea ≠ .an r) (hm : s.mem.wf = true) (hr : s.CanRead sz (s.operandAt 1 sz ea))
    (hw : (s.past 1 sz ea).CanWrite sz (s.operandAt 1 sz ea)) :
    ∃ t, quickEa op q sz ea s =
        .next ((t.setSr (exactFlags op sz.bits (quickValue q) (s.valueAt sz (s.operandAt 1 sz ea)) s.sr)).charge
          (if ea.mode = .dn then time (.quickDn sz) else time (.quickMem sz ea.mode))) ∧
      Wrote (s.past 1 sz ea) sz (s.operandAt 1 sz ea)
        (exactAlu op sz.bits (quickValue q) (s.valueAt sz (s.operandAt 1 sz ea))) t := by
  have hv : s.valueAt sz (s.operandAt 1 sz ea) < 2 ^ sz.bits := valueAt_lt hok
  obtain ⟨t, ht, hW⟩ := modifyEa_ok hm (mode_ne_an_of_ne ha) hr hw (aluResult op sz.bits (quickValue q))
  rw [aluResult_snd op sz _ _ _ (quickValue_lt q sz) hv] at ht
  rw [aluResult_fst op sz _ _ _ (quickValue_lt q sz) hv] at hW
  exact ⟨t, by rw [quickEa_eq_modifyEa op q sz s ha, ht, finish_ok], hW⟩

section Moveq

variable (b : Byte)

/-- MOVEQ has one word: its register above the byte it loads. -/
theorem encode_moveq (q : Reg) : encode (.moveq b q) = [BitVec.ofNat 16 (0x7000 + 512 * q.val + b.toNat)] := by
  rw [Nat.mul_comm 512]
  rfl

/-- The extended byte is zero when the byte is. -/
theorem disp8_eq_zero_iff : disp8 b = 0 ↔ b = 0 := by
  have hi : (disp8 b).toInt = b.toInt := BitVec.toInt_signExtend_of_le (by decide)
  rw [← BitVec.toInt_inj, hi, ← BitVec.toInt_inj]
  rfl

/-- The extended byte is negative when the byte is. -/
theorem msb_disp8 : msb 32 (disp8 b).toNat = b.msb := by
  have hs : (disp8 b).msb = b.msb := by simp [disp8, BitVec.msb_signExtend]
  rw [msb_eq 32 _ (by decide) (disp8 b).isLt, ← hs, BitVec.msb_eq_decide]

/-- N and Z of the 32 bits MOVEQ loads are those of its byte. -/
theorem flagsLogic_disp8 (sr : StatusReg) :
    flagsLogic 32 (disp8 b).toNat sr = { sr with n := b.msb, z := decide (b = 0), v := false, c := false } := by
  have hz : (disp8 b).toNat = 0 ↔ b = 0 := by
    rw [← disp8_eq_zero_iff, BitVec.toNat_eq]
    rfl
  rw [flagsLogic, msb_disp8, beq_decide, decide_eq_decide.2 hz]

theorem exec_moveq (q : Reg) (s : State) :
    exec (.moveq b q) s =
      .next ((((s.skip 1).setD q (disp8 b)).setSr (flagsLogic 32 (disp8 b).toNat s.sr)).charge ⟨4, 1, 0⟩) := rfl

end Moveq

/-- Settles O38: ADDQ and SUBQ are one operation with two signs, on an address register and elsewhere; MOVEQ sets the flags of
its byte, which extending it keeps. -/
theorem quickResult : Obligations.QuickResult := by
  intro s q sz ea i op b hi hok k l u
  have hrun : exec i s = quickEa op q sz ea s ∧ (op = .add ∨ op = .sub) ∧ ea.sizeOk sz = true := by
    simp only [List.mem_cons, List.not_mem_nil, or_false, Prod.mk.injEq] at hi
    obtain ⟨rfl, rfl⟩ | ⟨rfl, rfl⟩ := hi
    · exact ⟨exec_addq q sz s ea, .inl rfl, ok_sizeOk hok⟩
    · exact ⟨exec_subq q sz s ea, .inr rfl, ok_sizeOk hok⟩
  obtain ⟨hexec, hop, hsize⟩ := hrun
  refine ⟨?address, ?elsewhere, encode_moveq b q, ?moveq⟩
  case address =>
    rintro r rfl
    rw [hexec, quickEa_an]
    obtain rfl | rfl := hop <;> rfl
  case elsewhere =>
    intro ha hm hr hw
    rw [hexec]
    exact quickEa_ok hsize ha hm hr hw
  case moveq =>
    rw [exec_moveq, flagsLogic_disp8]
    rfl

end Sys2Proof.Machine

/-! The status register as a word, bit by bit (R26), and ANDI, EORI, ORI to CCR and SR (R351, R353). -/

namespace Sys2Proof.Machine

section StatusWord

/-- The bits of the status register by place (R26); the places of the bits that do not exist, and all above, are clear. -/
def StatusReg.bit (q : StatusReg) : Nat → Bool
  | 0 => q.c
  | 1 => q.v
  | 2 => q.z
  | 3 => q.n
  | 4 => q.x
  | 8 => q.i[0]
  | 9 => q.i[1]
  | 10 => q.i[2]
  | 13 => q.s
  | 15 => q.t
  | _ => false

theorem testBit_of_div_mod {n k : Nat} {b : Bool} (h : n / 2 ^ k % 2 = b.toNat) : n.testBit k = b := by
  rw [Nat.testBit_eq_decide_div_mod_eq, h]
  cases b <;> rfl

theorem toNat_getElem_mask (i : BitVec 3) {k : Nat} (hk : k < 3) : i[k].toNat = i.toNat / 2 ^ k % 2 := by
  rw [BitVec.getElem_eq_testBit_toNat, Nat.toNat_testBit]

theorem StatusReg.ccr_lt (q : StatusReg) : q.ccr < 32 := by
  have hx := Bool.toNat_le q.x
  have hn := Bool.toNat_le q.n
  have hz := Bool.toNat_le q.z
  have hv := Bool.toNat_le q.v
  have hc := Bool.toNat_le q.c
  rw [ccr]
  omega

theorem StatusReg.getLsbD_toWord (q : StatusReg) {k : Nat} (hk : k < 16) : q.toWord.getLsbD k = q.bit k := by
  have hi := q.i.isLt
  have hx := Bool.toNat_le q.x
  have hn := Bool.toNat_le q.n
  have hz := Bool.toNat_le q.z
  have hv := Bool.toNat_le q.v
  have hc := Bool.toNat_le q.c
  have hs := Bool.toNat_le q.s
  have ht := Bool.toNat_le q.t
  rw [toWord, ccr, BitVec.getLsbD_ofNat, decide_eq_true hk, Bool.true_and]
  apply testBit_of_div_mod
  interval_cases k <;> simp only [bit, toNat_getElem_mask, Bool.toNat_false] <;> omega

/-- Words are equal to a status register's where each of its bits is. -/
theorem StatusReg.toWord_eq_of_bit {q : StatusReg} {w : Word} (h : ∀ k, k < 16 → q.bit k = w.getLsbD k) : q.toWord = w :=
  BitVec.eq_of_getLsbD_eq fun k hk => (q.getLsbD_toWord hk).trans (h k hk)

/-- CCR is the low five bits of SR. -/
theorem StatusReg.ofNat_ccr (q : StatusReg) : BitVec.ofNat 16 q.ccr = q.toWord &&& 0x1F := by
  have h := q.ccr_lt
  have hlow : q.toWord.toNat % 2 ^ 5 = q.ccr := by
    rw [toWord, BitVec.toNat_ofNat]
    omega
  apply BitVec.eq_of_toNat_eq
  rw [BitVec.toNat_and, BitVec.toNat_ofNat, Nat.mod_eq_of_lt (by omega), ← hlow, ← Nat.and_two_pow_sub_one_eq_mod]
  rfl

theorem bitAt_eq_testBit (v k : Nat) : bitAt v k = v.testBit k := by
  rw [bitAt, Nat.testBit_eq_decide_div_mod_eq]
  rfl

theorem getElem_ofNat_mask (v : Nat) {k : Nat} (hk : k < 3) : (BitVec.ofNat 3 (v / 256))[k] = v.testBit (k + 8) := by
  rw [← BitVec.getLsbD_eq_getElem hk, BitVec.getLsbD_ofNat, decide_eq_true hk, Bool.true_and]
  exact Nat.testBit_div_two_pow (n := 8) v k

/-- A write of SR takes from a number the bits that exist (SR_MASK, R350). -/
theorem StatusReg.toWord_ofNat (v : Nat) : (StatusReg.ofNat v).toWord = BitVec.ofNat 16 v &&& 0xA71F := by
  refine toWord_eq_of_bit fun k hk => ?_
  rw [BitVec.getLsbD_and, BitVec.getLsbD_ofNat]
  interval_cases k <;> simp [bit, StatusReg.ofNat, bitAt_eq_testBit, getElem_ofNat_mask]

theorem StatusReg.toWord_ofNat_toNat (w : Word) : (StatusReg.ofNat w.toNat).toWord = w &&& 0xA71F := by
  rw [toWord_ofNat, BitVec.ofNat_toNat, BitVec.setWidth_eq]

/-- A write of CCR takes the five flags from a number and leaves the upper byte (CCR_MASK, R350). -/
theorem StatusReg.toWord_withCcr (q : StatusReg) (v : Nat) :
    (q.withCcr v).toWord = (q.toWord &&& 0xFF00) ||| (BitVec.ofNat 16 v &&& 0x1F) := by
  refine toWord_eq_of_bit fun k hk => ?_
  rw [BitVec.getLsbD_or, BitVec.getLsbD_and, BitVec.getLsbD_and, q.getLsbD_toWord hk, BitVec.getLsbD_ofNat]
  interval_cases k <;> simp [bit, withCcr, bitAt_eq_testBit]

/-- The three logical operations with a byte on CCR, as operations on the word of SR: what the byte leaves out stays. -/
theorem StatusReg.toWord_withCcr_and (q : StatusReg) (b : Byte) :
    (q.withCcr (q.ccr &&& b.toNat)).toWord = (q.toWord &&& (0xFF00 ||| b.setWidth 16)) &&& 0xA71F := by
  rw [toWord_withCcr, BitVec.ofNat_and, ofNat_ccr, BitVec.ofNat_toNat]
  refine BitVec.eq_of_getLsbD_eq fun k hk => ?_
  simp only [BitVec.getLsbD_or, BitVec.getLsbD_and, q.getLsbD_toWord hk]
  interval_cases k <;> simp [bit]

theorem StatusReg.toWord_withCcr_xor (q : StatusReg) (b : Byte) :
    (q.withCcr (q.ccr ^^^ b.toNat)).toWord = (q.toWord ^^^ (b.setWidth 16 &&& 0x1F)) &&& 0xA71F := by
  rw [toWord_withCcr, BitVec.ofNat_xor, ofNat_ccr, BitVec.ofNat_toNat]
  refine BitVec.eq_of_getLsbD_eq fun k hk => ?_
  simp only [BitVec.getLsbD_or, BitVec.getLsbD_and, BitVec.getLsbD_xor, q.getLsbD_toWord hk]
  interval_cases k <;> simp [bit]

theorem StatusReg.toWord_withCcr_or (q : StatusReg) (b : Byte) :
    (q.withCcr (q.ccr ||| b.toNat)).toWord = (q.toWord ||| (b.setWidth 16 &&& 0x1F)) &&& 0xA71F := by
  rw [toWord_withCcr, BitVec.ofNat_or, ofNat_ccr, BitVec.ofNat_toNat]
  refine BitVec.eq_of_getLsbD_eq fun k hk => ?_
  simp only [BitVec.getLsbD_or, BitVec.getLsbD_and, q.getLsbD_toWord hk]
  interval_cases k <;> simp [bit]

end StatusWord

/-! ANDI, EORI, ORI to CCR and SR (R351, R353). -/

theorem wordOfByte_eq_setWidth (b : Byte) : wordOfByte b = b.setWidth 16 := BitVec.ofNat_toNat 16 b

section ImmediateStatus

variable (s : State) (b : Byte) (v : Word)

theorem encode_andiToCcr : encode (.andiToCcr b) = [0x023C, b.setWidth 16] := by
  rw [← wordOfByte_eq_setWidth]
  rfl

theorem encode_eoriToCcr : encode (.eoriToCcr b) = [0x0A3C, b.setWidth 16] := by
  rw [← wordOfByte_eq_setWidth]
  rfl

theorem encode_oriToCcr : encode (.oriToCcr b) = [0x003C, b.setWidth 16] := by
  rw [← wordOfByte_eq_setWidth]
  rfl

/-- The third read of the count uses up what the platform answers it with, and nothing where memory answers. -/
theorem extraRead_skip : ∃ l j, (s.skip 2).extraRead = { s with pc := s.pc + 4, answers := l, draws := j } ∧
    ((∀ a, s.Answers a) → l = s.answers ∧ j = s.draws) := by
  obtain ⟨l, j, h⟩ := extraRead_eq (s.skip 2)
  refine ⟨l, j, h, fun ha => ?_⟩
  have hs : (s.skip 2).extraRead = s.skip 2 := extraRead_ok (ha _)
  rw [hs] at h
  exact ⟨(congrArg State.answers h).symm, (congrArg State.draws h).symm⟩

/-- `i` writes `q` to the status register in 20(3/0), its two words and one more having been read. -/
def WritesStatus (i : Instr) (q : StatusReg) : Prop :=
  ∃ l j, exec i s = .next (({ s with pc := s.pc + 4, sr := q, answers := l, draws := j } : State).charge ⟨20, 3, 0⟩) ∧
    ((∀ a, s.Answers a) → l = s.answers ∧ j = s.draws)

variable {s} {i : Instr} {g : Nat → Nat → Nat}

theorem writesStatus_of_immCcr (h : exec i s = immCcr g b s) : WritesStatus s i (s.sr.withCcr (g s.sr.ccr b.toNat)) := by
  obtain ⟨l, j, hx, ha⟩ := extraRead_skip s
  exact ⟨l, j, by rw [h, immCcr, hx]; rfl, ha⟩

theorem writesStatus_of_immSr (h : exec i s = immSr g v s) (hs : s.sr.s = true) :
    WritesStatus s i (StatusReg.ofNat (g s.sr.toWord.toNat v.toNat)) := by
  obtain ⟨l, j, hx, ha⟩ := extraRead_skip s
  exact ⟨l, j, by rw [h, immSr, privileged_supervisor hs, hx]; rfl, ha⟩

end ImmediateStatus

/-- Settles O52: each form writes a status register whose word is the operation's, the bits that do not exist left out. -/
theorem immediateToStatus : Obligations.ImmediateToStatus := by
  intro s b v i w m
  refine ⟨encode_andiToCcr b, encode_eoriToCcr b, encode_oriToCcr b, fun hi => ?_⟩
  have key : ∃ q, WritesStatus s i q ∧ q.toWord = w &&& 0xA71F := by
    simp only [List.mem_cons, List.not_mem_nil, or_false, Prod.mk.injEq] at hi
    obtain (⟨rfl, rfl⟩ | ⟨rfl, rfl⟩ | ⟨rfl, rfl⟩) | ⟨hs, ⟨rfl, rfl⟩ | ⟨rfl, rfl⟩ | ⟨rfl, rfl⟩⟩ := hi
    · exact ⟨_, writesStatus_of_immCcr b rfl, s.sr.toWord_withCcr_and b⟩
    · exact ⟨_, writesStatus_of_immCcr b rfl, s.sr.toWord_withCcr_xor b⟩
    · exact ⟨_, writesStatus_of_immCcr b rfl, s.sr.toWord_withCcr_or b⟩
    · exact ⟨_, writesStatus_of_immSr v rfl hs, by rw [← BitVec.toNat_and, StatusReg.toWord_ofNat_toNat]⟩
    · exact ⟨_, writesStatus_of_immSr v rfl hs, by rw [← BitVec.toNat_xor, StatusReg.toWord_ofNat_toNat]⟩
    · exact ⟨_, writesStatus_of_immSr v rfl hs, by rw [← BitVec.toNat_or, StatusReg.toWord_ofNat_toNat]⟩
  obtain ⟨q, ⟨l, j, hexec, ha⟩, hw⟩ := key
  exact ⟨q, l, j, hexec, hw, ha⟩

end Sys2Proof.Machine

/-! Address registers and the active stack pointer (R21, R23): what a read sees after a write, and what a write leaves. -/

namespace Sys2Proof.Machine

section AddressRegisters

variable (s : State)

/-- In supervisor state A7 is SSP, in user state USP. -/
theorem State.setSp_supervisor {s : State} (h : s.sr.s = true) (v : Long) : s.setSp v = { s with ssp := v } := if_pos h

theorem State.setSp_user {s : State} (h : s.sr.s = false) (v : Long) : s.setSp v = { s with usp := v } := by
  simp [State.setSp, h]

@[simp] theorem State.setSp_sp (v : Long) : (s.setSp v).sp = v := by
  unfold State.setSp State.sp
  split <;> simp_all

@[simp] theorem State.setSp_setSp (v w : Long) : (s.setSp v).setSp w = s.setSp w := by
  unfold State.setSp
  split <;> simp_all

theorem State.setSp_usp (h : s.sr.s = true) (v : Long) : (s.setSp v).usp = s.usp := by rw [setSp_supervisor h]

theorem State.setSp_ssp (h : s.sr.s = false) (v : Long) : (s.setSp v).ssp = s.ssp := by rw [setSp_user h]

theorem State.setSp_skip (n : Nat) (v : Long) : (s.skip n).setSp v = (s.setSp v).skip n := by
  cases h : s.sr.s
  · rw [setSp_user h, setSp_user (s := s.skip n) h]
    rfl
  · rw [setSp_supervisor h, setSp_supervisor (s := s.skip n) h]
    rfl

variable {r q : Reg}

theorem State.areg_of_lt (h : r.val < 7) : s.areg r = s.a[r.val] := dif_pos h

theorem State.areg_of_not_lt (h : ¬r.val < 7) : s.areg r = s.sp := dif_neg h

theorem State.setA_of_lt (h : r.val < 7) (v : Long) : s.setA r v = { s with a := s.a.set r.val v } := dif_pos h

theorem State.setA_of_not_lt (h : ¬r.val < 7) (v : Long) : s.setA r v = s.setSp v := dif_neg h

@[simp] theorem State.areg_setA_same (v : Long) : (s.setA r v).areg r = v := by
  by_cases h : r.val < 7
  · rw [setA_of_lt s h, areg_of_lt _ h]
    exact Vector.getElem_set_self _
  · rw [setA_of_not_lt s h, areg_of_not_lt _ h, setSp_sp]

theorem State.areg_setA_ne (h : q ≠ r) (v : Long) : (s.setA r v).areg q = s.areg q := by
  by_cases hr : r.val < 7 <;> by_cases hq : q.val < 7
  · rw [setA_of_lt s hr, areg_of_lt _ hq, areg_of_lt _ hq]
    exact Vector.getElem_set_ne hr hq fun e => h (Fin.ext e.symm)
  · rw [setA_of_lt s hr, areg_of_not_lt _ hq, areg_of_not_lt _ hq]
    rfl
  · rw [setA_of_not_lt s hr, areg_of_lt _ hq, areg_of_lt _ hq]
    simp
  · exact absurd (Fin.ext (by omega)) h

/-- A write to an address register leaves all but A0 to A6 and the two stack pointers. -/
theorem State.setA_eq (v : Long) :
    s.setA r v = { s with a := (s.setA r v).a, usp := (s.setA r v).usp, ssp := (s.setA r v).ssp } := by
  unfold State.setA State.setSp
  split
  · rfl
  · split <;> rfl

/-- The stack pointer of the other state is out of reach. -/
theorem State.setA_usp (h : s.sr.s = true) (v : Long) : (s.setA r v).usp = s.usp := by
  by_cases hr : r.val < 7
  · rw [setA_of_lt s hr]
  · rw [setA_of_not_lt s hr, setSp_usp s h]

theorem State.setA_ssp (h : s.sr.s = false) (v : Long) : (s.setA r v).ssp = s.ssp := by
  by_cases hr : r.val < 7
  · rw [setA_of_lt s hr]
  · rw [setA_of_not_lt s hr, setSp_ssp s h]

theorem State.setA_skip (n : Nat) (v : Long) : (s.skip n).setA r v = (s.setA r v).skip n := by
  by_cases hr : r.val < 7
  · rw [setA_of_lt s hr, setA_of_lt _ hr]
    rfl
  · rw [setA_of_not_lt s hr, setA_of_not_lt _ hr, setSp_skip]

end AddressRegisters

end Sys2Proof.Machine

/-! EXG, EXT, SWAP, NOP and RESET (R357, R358, R364, R361, R362): parts of a register as words, and whole registers
exchanged. -/

namespace Sys2Proof.Machine

section Parts

theorem toNat_append_word (x y : Word) : (x ++ y).toNat = 65536 * x.toNat + y.toNat := by
  rw [BitVec.toNat_append, ← Nat.shiftLeft_add_eq_or_of_lt y.isLt, Nat.shiftLeft_eq, Nat.mul_comm]

/-- A word written into a register stays below the register's upper word. -/
theorem withLowBits_word (v : Long) (e : Word) : withLowBits 16 v e.toNat = v.extractLsb' 16 16 ++ e := by
  have he := e.isLt
  have hv := v.isLt
  apply BitVec.eq_of_toNat_eq
  rw [toNat_append_word, BitVec.extractLsb'_toNat, withLowBits, BitVec.toNat_ofNat, Nat.shiftRight_eq_div_pow]
  omega

/-- A long written into a register is all of it. -/
theorem withLowBits_long (v l : Long) : withLowBits 32 v l.toNat = l := by
  have hl := l.isLt
  have hv := v.isLt
  apply BitVec.eq_of_toNat_eq
  rw [withLowBits, BitVec.toNat_ofNat]
  omega

/-- The low part of a register, sign-extended as a number, is the sign-extended part. -/
theorem ofSigned_signed_lowBits {n : Nat} (hn : 0 < n) (m : Nat) (v : Long) :
    ofSigned m (signed n (lowBits n v)) = ((v.setWidth n).signExtend m).toNat := by
  have hpart : BitVec.ofNat n (lowBits n v) = v.setWidth n := by
    apply BitVec.eq_of_toNat_eq
    rw [BitVec.toNat_ofNat, BitVec.toNat_setWidth, lowBits, Nat.mod_mod]
  rw [ofSigned_eq_toNat_ofInt, signed_toInt n _ hn (lowBits_lt n v), hpart]
  rfl

theorem toNat_swap (v : Long) :
    65536 * (v.toNat % 65536) + v.toNat / 65536 = (v.extractLsb' 0 16 ++ v.extractLsb' 16 16).toNat := by
  have hv := v.isLt
  rw [toNat_append_word, BitVec.extractLsb'_toNat, BitVec.extractLsb'_toNat, Nat.shiftRight_eq_div_pow, Nat.shiftRight_eq_div_pow]
  omega

/-- N and Z of a result held as a bit vector. -/
theorem flagsLogic_toNat {n : Nat} (hn : 0 < n) (r : BitVec n) (sr : StatusReg) :
    flagsLogic n r.toNat sr = { sr with n := r.msb, z := decide (r = 0), v := false, c := false } := by
  have hz : r.toNat = 0 ↔ r = 0 := by rw [BitVec.toNat_eq]; rfl
  rw [flagsLogic, msb_eq n _ hn r.isLt, ← BitVec.msb_eq_decide, beq_decide, decide_eq_decide.2 hz]

end Parts

section Execution

variable (s : State) (r x y : Reg)

theorem setDlow_word (e : Word) : s.setDlow .w r e.toNat = s.setD r ((s.dreg r).extractLsb' 16 16 ++ e) :=
  congrArg (s.setD r) (withLowBits_word (s.dreg r) e)

theorem setDlow_long (l : Long) : s.setDlow .l r l.toNat = s.setD r l :=
  congrArg (s.setD r) (withLowBits_long (s.dreg r) l)

/-- EXT and SWAP move a value about: it is written with the flags of a result that is only moved. -/
def State.moved (n : Nat) (e : BitVec n) (v : Long) : State :=
  { s with pc := s.pc + 2, d := s.d.set r v, sr := { s.sr with n := e.msb, z := decide (e = 0), v := false, c := false } }

theorem exec_extW :
    exec (.extW r) s = .next ((s.moved r 16 (((s.dreg r).setWidth 8).signExtend 16)
      ((s.dreg r).extractLsb' 16 16 ++ ((s.dreg r).setWidth 8).signExtend 16)).charge ⟨4, 1, 0⟩) := by
  have he : ofSigned 16 (signed 8 (s.dlow .b r)) = (((s.dreg r).setWidth 8).signExtend 16).toNat :=
    ofSigned_signed_lowBits (by decide) 16 (s.dreg r)
  have arm : exec (.extW r) s = execExtW r s := rfl
  rw [arm, execExtW, he, flagsLogic_toNat (by decide), setDlow_word]
  rfl

theorem exec_extL :
    exec (.extL r) s = .next ((s.moved r 32 (((s.dreg r).setWidth 16).signExtend 32)
      (((s.dreg r).setWidth 16).signExtend 32)).charge ⟨4, 1, 0⟩) := by
  have hl : ofSigned 32 (signed 16 (s.dlow .w r)) = (((s.dreg r).setWidth 16).signExtend 32).toNat :=
    ofSigned_signed_lowBits (by decide) 32 (s.dreg r)
  have arm : exec (.extL r) s = execExtL r s := rfl
  rw [arm, execExtL, hl, flagsLogic_toNat (by decide), setDlow_long]
  rfl

theorem exec_swap :
    exec (.swap r) s = .next ((s.moved r 32 ((s.dreg r).extractLsb' 0 16 ++ (s.dreg r).extractLsb' 16 16)
      ((s.dreg r).extractLsb' 0 16 ++ (s.dreg r).extractLsb' 16 16)).charge ⟨4, 1, 0⟩) := by
  have arm : exec (.swap r) s = execSwap r s := rfl
  rw [arm, execSwap, toNat_swap, flagsLogic_toNat (by decide), setDlow_long]
  rfl

theorem exec_nop : exec .nop s = .next ((s.skip 1).charge ⟨4, 1, 0⟩) := rfl

theorem exec_resetDevices {s : State} (hs : s.sr.s = true) : exec .resetDevices s = .next ((s.skip 1).charge ⟨132, 1, 0⟩) :=
  privileged_supervisor hs _

theorem exec_exgDD : exec (.exgDD x y) s = .next ((((s.skip 1).setD x (s.dreg y)).setD y (s.dreg x)).charge ⟨6, 1, 0⟩) := rfl

theorem exec_exgAA : exec (.exgAA x y) s = .next ((((s.skip 1).setA x (s.areg y)).setA y (s.areg x)).charge ⟨6, 1, 0⟩) := rfl

theorem exec_exgDA : exec (.exgDA x y) s = .next ((((s.skip 1).setD x (s.areg y)).setA y (s.dreg x)).charge ⟨6, 1, 0⟩) := rfl

end Execution

section ExchangeAddress

variable (s : State) (x y : Reg)

/-- Two address registers with their contents exchanged. -/
def State.exchanged : State := (s.setA x (s.areg y)).setA y (s.areg x)

theorem exchanged_eq : s.exchanged x y =
    { s with a := (s.exchanged x y).a, usp := (s.exchanged x y).usp, ssp := (s.exchanged x y).ssp } := by
  rw [State.exchanged, State.setA_eq (s.setA x (s.areg y)), State.setA_eq s]

theorem exchanged_usp (h : s.sr.s = true) : (s.exchanged x y).usp = s.usp := by
  rw [State.exchanged, State.setA_usp _ (by simpa using h), State.setA_usp s h]

theorem exchanged_ssp (h : s.sr.s = false) : (s.exchanged x y).ssp = s.ssp := by
  rw [State.exchanged, State.setA_ssp _ (by simpa using h), State.setA_ssp s h]

theorem exchanged_areg_left : (s.exchanged x y).areg x = s.areg y := by
  rw [State.exchanged]
  by_cases h : x = y
  · rw [h, State.areg_setA_same]
  · rw [State.areg_setA_ne _ h, State.areg_setA_same]

theorem exchanged_areg_right : (s.exchanged x y).areg y = s.areg x := State.areg_setA_same _ _

theorem exchanged_areg_ne {q : Reg} (hx : q ≠ x) (hy : q ≠ y) : (s.exchanged x y).areg q = s.areg q := by
  rw [State.exchanged, State.areg_setA_ne _ hy, State.areg_setA_ne _ hx]

/-- The exchange does not look at the pc. -/
theorem exec_exgAA_exchanged :
    exec (.exgAA x y) s = .next (({ s.exchanged x y with pc := s.pc + 2 } : State).charge ⟨6, 1, 0⟩) := by
  have hpc : (s.exchanged x y).pc = s.pc := by simp [State.exchanged]
  rw [exec_exgAA, State.setA_skip, State.setA_skip, ← State.exchanged, State.skip, hpc]
  rfl

end ExchangeAddress

/-- The operation words of EXG, whose fields the statement names with the factor first. -/
theorem exg_word (b x y : Nat) : [BitVec.ofNat 16 (b + x * 512 + y)] = [BitVec.ofNat 16 (b + 512 * x + y)] := by
  rw [Nat.mul_comm]

/-- Settles O54: each instruction runs to its own state, EXG of address registers to the exchanged one. -/
theorem registerMisc : Obligations.RegisterMisc := by
  intro s r x y v e l w
  exact ⟨rfl, rfl, rfl, rfl, exg_word 0xC140 x y, exg_word 0xC148 x y, exg_word 0xC188 x y, exec_extW s r, exec_extL s r,
    exec_swap s r, exec_nop s, exec_resetDevices, exec_exgDD s x y,
    ⟨s.exchanged x y, exec_exgAA_exchanged s x y, exchanged_eq s x y, exchanged_usp s x y, exchanged_ssp s x y,
      exchanged_areg_left s x y, exchanged_areg_right s x y, fun _ => exchanged_areg_ne s x y⟩, exec_exgDA s x y⟩

end Sys2Proof.Machine

/-! LINK, UNLK, RTS and RTR (R359, R360, R374, R373): the stack pointer moved before and after an access. -/

namespace Sys2Proof.Machine

/-! What does not matter to an address register or the stack pointer being written. -/

section StackPointer

variable (s : State)

theorem State.setSp_with_mem_book (m : Memory) (k : Bookkeeping) (v : Long) :
    ({ s with mem := m, book := k } : State).setSp v = { s.setSp v with mem := m, book := k } := by
  unfold State.setSp
  split <;> rfl

theorem State.setA_with_mem_book (m : Memory) (k : Bookkeeping) (r : Reg) (v : Long) :
    ({ s with mem := m, book := k } : State).setA r v = { s.setA r v with mem := m, book := k } := by
  unfold State.setA
  split
  · rfl
  · exact s.setSp_with_mem_book m k v

/-- A stack pointer written last: what it held before does not matter, whether another register or itself is written between. -/
theorem State.setSp_setA_setSp (u v w : Long) (r : Reg) : ((s.setSp u).setA r v).setSp w = (s.setA r v).setSp w := by
  by_cases hr : r.val < 7
  · rw [setA_of_lt s hr, setA_of_lt _ hr]
    unfold State.setSp
    split <;> rfl
  · rw [setA_of_not_lt s hr, setA_of_not_lt _ hr, setSp_setSp, setSp_setSp, setSp_setSp]

/-- A change of the five flags keeps the stack pointer in use. -/
theorem State.setSp_setSr {q : StatusReg} (h : q.s = s.sr.s) (v : Long) : (s.setSr q).setSp v = (s.setSp v).setSr q := by
  unfold State.setSp
  rw [setSr_sr, h]
  split <;> rfl

theorem State.setSr_sp {q : StatusReg} (h : q.s = s.sr.s) : (s.setSr q).sp = s.sp := by
  rw [State.sp, setSr_sr, h]
  rfl

/-- A change of flow does not look at the pc it leaves. -/
theorem landAt_skip (n : Nat) (t : Long) : (s.skip n).landAt t = s.landAt t := rfl

/-- What is stored is said of memory and of the memory map alone. -/
theorem Stored_congr {s u : State} (hm : u.mem = s.mem) (hr : u.regions = s.regions) {m : Memory} {n : Nat} {a : Long} {v : Nat} :
    Stored u m n a v ↔ Stored s m n a v := by
  simp only [Stored, hm, State.kindAt_congr hr]

/-- Whether a store is possible depends on the memory map and the pc. -/
theorem CanStore_congr {s u : State} (hr : u.regions = s.regions) (hp : u.pc = s.pc) {sz : Size} {a : Long} :
    u.CanStore sz a ↔ s.CanStore sz a := by
  simp only [State.CanStore, CanReach_congr hr, hp]

end StackPointer

section FramesAndReturns

variable {s : State}

/-- Popping an operand does not look at the pc. -/
theorem pop_skip {n : Nat} {sz : Size} (h : s.CanReach sz s.sp) :
    (s.skip n).pop sz = .ok (s.peek sz s.sp, (s.setSp (s.sp + BitVec.ofNat 32 sz.bytes)).skip n) := by
  rw [pop_ok (s := s.skip n) h, State.setSp_skip]
  rfl

/-- Popping from a stack pointer just loaded. -/
theorem pop_setSp {sz : Size} {a : Long} (h : s.CanReach sz a) :
    (s.setSp a).pop sz = .ok (s.peek sz a, s.setSp (a + BitVec.ofNat 32 sz.bytes)) := by
  rw [pop_ok (by rw [State.setSp_sp]; exact (CanReach_congr (by simp) _ _).2 h), State.setSp_sp, State.setSp_setSp,
    peek_congr (State.setSp_mem s a)]

theorem jump_skip {n : Nat} {t : Long} (h : s.CanReach .w t) : (s.skip n).jump t = .ok (s.landAt t) := by
  rw [jump_ok (s := s.skip n) h, landAt_skip]

theorem exec_link (an : Reg) (d : Word) (hm : s.mem.wf = true) (h : (s.skip 2).CanStore .l (s.sp - 4)) :
    ∃ m k, exec (.link an d) s = .next (({ ((s.skip 2).setA an (s.sp - 4)).setSp (s.sp - 4 + d.signExtend 32) with
        mem := m, book := k } : State).charge ⟨16, 2, 2⟩) ∧
      Stored s m 4 (s.sp - 4) (if an.val = 7 then s.sp - 4 else s.areg an).toNat := by
  let v := (if an.val = 7 then s.sp - 4 else s.areg an).toNat
  let u := (s.skip 2).setSp (s.sp - 4)
  let p := u.poke (u.mayCells .l (s.sp - 4) v)
  have hu : u.CanStore .l (s.sp - 4) := (CanStore_congr (by simp [u]) (by simp [u])).2 h
  have hpush : (s.skip 2).push .l v = .ok p := push_ok (s := s.skip 2) hu v
  have hsp : p.sp = s.sp - 4 := (s.skip 2).setSp_sp _
  have hp : p = { u with mem := p.mem, book := p.book } := poke_eq u _
  have hend : (p.setA an p.sp).setSp (p.sp + disp16 d) =
      { ((s.skip 2).setA an (s.sp - 4)).setSp (s.sp - 4 + d.signExtend 32) with mem := p.mem, book := p.book } := by
    rw [hsp, hp, State.setA_with_mem_book, State.setSp_with_mem_book, State.setSp_setA_setSp]
    rfl
  refine ⟨p.mem, p.book, ?_, (Stored_congr (by simp [u]) (by simp [u])).1 (Stored_poke (by simpa [u] using hm) hu.1 v)⟩
  rw [← hend]
  calc exec (.link an d) s
      = s.finish (time .link) [.a an, .a 7]
          ((s.skip 2).push .l v >>= fun s1 => .ok ((s1.setA an s1.sp).setSp (s1.sp + disp16 d))) := rfl
    _ = .next (((p.setA an p.sp).setSp (p.sp + disp16 d)).charge ⟨16, 2, 2⟩) := by rw [hpush]; rfl

theorem exec_unlk {an : Reg} (h : s.CanReach .l (s.areg an)) :
    exec (.unlk an) s =
      .next ((((s.skip 1).setSp (s.areg an + 4)).setA an (BitVec.ofNat 32 (s.peek .l (s.areg an)))).charge ⟨12, 3, 0⟩) := by
  have hpop := pop_setSp (s := s.skip 1) h
  calc exec (.unlk an) s
      = s.finish (time .unlk) [.a an, .a 7]
          (((s.skip 1).setSp (s.areg an)).pop .l >>= fun p => .ok (p.2.setA an (BitVec.ofNat 32 p.1))) := rfl
    _ = _ := by rw [hpop]; rfl

theorem exec_rts (h : s.CanReach .l s.sp) (ht : s.CanReach .w (BitVec.ofNat 32 (s.peek .l s.sp))) :
    exec .rts s = .next (((s.setSp (s.sp + 4)).landAt (BitVec.ofNat 32 (s.peek .l s.sp))).charge ⟨16, 4, 0⟩) := by
  let t := s.setSp (s.sp + 4)
  have hjump : (t.skip 1).jump (BitVec.ofNat 32 (s.peek .l s.sp)) = .ok (t.landAt (BitVec.ofNat 32 (s.peek .l s.sp))) :=
    jump_skip ((CanReach_congr (by simp [t]) _ _).2 ht)
  calc exec .rts s
      = s.finish (time .rts) [.a 7] ((s.skip 1).pop .l >>= fun p => p.2.jump (BitVec.ofNat 32 p.1)) := rfl
    _ = s.finish (time .rts) [.a 7] ((t.skip 1).jump (BitVec.ofNat 32 (s.peek .l s.sp))) := by rw [pop_skip h]; rfl
    _ = _ := by rw [hjump]; rfl

/-- The CCR is popped from a word and the pc from the long above it. -/
theorem exec_rtr (hc : s.CanReach .w s.sp) (hp : s.CanReach .l (s.sp + 2))
    (ht : s.CanReach .w (BitVec.ofNat 32 (s.peek .l (s.sp + 2)))) :
    exec .rtr s = .next ((((s.setSp (s.sp + 6)).setSr (s.sr.withCcr (s.peek .w s.sp))).landAt
      (BitVec.ofNat 32 (s.peek .l (s.sp + 2)))).charge ⟨20, 5, 0⟩) := by
  let q := s.sr.withCcr (s.peek .w s.sp)
  let u := s.setSp (s.sp + 2)
  let t := (s.setSp (s.sp + 6)).setSr q
  have hq : q.s = u.sr.s := (congrArg StatusReg.s (s.setSp_sr _)).symm
  have hsp : (u.setSr q).sp = s.sp + 2 := (u.setSr_sp hq).trans (s.setSp_sp _)
  have hreach : (u.setSr q).CanReach .l (u.setSr q).sp := by
    rw [hsp]
    exact (CanReach_congr (by simp [u]) _ _).2 hp
  have hpop : ((u.setSr q).skip 1).pop .l = .ok (s.peek .l (s.sp + 2), t.skip 1) := by
    rw [pop_skip hreach, hsp, peek_congr (s := s) (by simp [u]), u.setSp_setSr hq, State.setSp_setSp, BitVec.add_assoc]
    rfl
  have hjump : (t.skip 1).jump (BitVec.ofNat 32 (s.peek .l (s.sp + 2))) =
      .ok (t.landAt (BitVec.ofNat 32 (s.peek .l (s.sp + 2)))) :=
    jump_skip ((CanReach_congr (by simp [t]) _ _).2 ht)
  calc exec .rtr s
      = s.finish (time .rtr) [.a 7] ((s.skip 1).pop .w >>= fun c => (c.2.setSr (c.2.sr.withCcr c.1)).pop .l >>= fun p =>
          p.2.jump (BitVec.ofNat 32 p.1)) := rfl
    _ = s.finish (time .rtr) [.a 7] (((u.skip 1).setSr (u.sr.withCcr (s.peek .w s.sp))).pop .l >>= fun p =>
          p.2.jump (BitVec.ofNat 32 p.1)) := by rw [pop_skip hc]; rfl
    _ = s.finish (time .rtr) [.a 7] (((u.setSr q).skip 1).pop .l >>= fun p => p.2.jump (BitVec.ofNat 32 p.1)) := by
          rw [State.setSp_sr]; rfl
    _ = s.finish (time .rtr) [.a 7] ((t.skip 1).jump (BitVec.ofNat 32 (s.peek .l (s.sp + 2)))) := by rw [hpop]; rfl
    _ = _ := by rw [hjump]; rfl

end FramesAndReturns

/-- Settles O55: each instruction is one or two stack accesses between moves of the stack pointer; RTR's CCR is a `withCcr`. -/
theorem framesAndReturns : Obligations.FramesAndReturns := by
  intro s an d
  exact ⟨exec_link an d, exec_unlk, exec_rts, rfl,
    fun hc hp ht => ⟨s.sr.withCcr (s.peek .w s.sp), exec_rtr hc hp ht, s.sr.toWord_withCcr _⟩⟩

end Sys2Proof.Machine

/-! TRAP, TRAPV and ILLEGAL (R365, R366, R368), from the entry of any exception of R410 that meets no further error. -/

namespace Sys2Proof.Machine

section Frame

variable {s : State}

/-- The frame of an exception: the status register below the saved pc (R410). -/
def frameCells (sp : Long) (sr : Nat) (saved : Long) : List Host.Cell :=
  cellsOf .w sp sr ++ cellsOf .l (sp + 2) saved.toNat

theorem addrs_frame (sp : Long) : addrs 6 sp = addrs 2 sp ++ addrs 4 (sp + 2) := by
  simp [addrs, List.range, List.range.loop, BitVec.add_assoc]

theorem frameCells_addrs (sp : Long) (sr : Nat) (saved : Long) : (frameCells sp sr saved).map Prod.fst = addrs 6 sp := by
  rw [frameCells, List.map_append, cellsOf_addrs, cellsOf_addrs, addrs_frame]
  rfl

theorem frameCells_lt (sp : Long) (sr : Nat) (saved : Long) :
    ∀ c, c ∈ frameCells sp sr saved → c.1 < 2 ^ Config.addrBits := by
  intro c hc
  rcases List.mem_append.1 hc with hc | hc
  · exact cellsOf_lt _ _ _ c hc
  · exact cellsOf_lt _ _ _ c hc

theorem frameCells_nodup (sp : Long) (sr : Nat) (saved : Long) : ((frameCells sp sr saved).map Prod.fst).Nodup := by
  rw [frameCells_addrs]
  exact nodup_addrs 6 sp (by decide)

/-- A word written as cells at distinct addresses is read back. -/
theorem peek_w_poke (hm : s.mem.wf = true) {cells : List Host.Cell} (hlt : ∀ c, c ∈ cells → c.1 < 2 ^ Config.addrBits)
    (hd : (cells.map Prod.fst).Nodup) {a : Long} {v : Nat} (hv : v < 2 ^ 16) (hc : cellsOf .w a v ⊆ cells) :
    (s.poke cells).peek .w a = v := by
  have hread : ∀ c, c ∈ cellsOf .w a v → Memory.read (s.poke cells).mem c.1 = c.2 := fun c h =>
    State.read_poke_of_mem hm hlt hd (hc h)
  simp only [cellsOf, bytesOf, cellsFrom, List.forall_mem_cons] at hread
  obtain ⟨h0, h1, -⟩ := hread
  exact peek_w_of h0 h1 hv

/-- So is a long. -/
theorem peek_l_poke (hm : s.mem.wf = true) {cells : List Host.Cell} (hlt : ∀ c, c ∈ cells → c.1 < 2 ^ Config.addrBits)
    (hd : (cells.map Prod.fst).Nodup) {a : Long} {v : Nat} (hv : v < 2 ^ 32) (hc : cellsOf .l a v ⊆ cells) :
    (s.poke cells).peek .l a = v := by
  have hread : ∀ c, c ∈ cellsOf .l a v → Memory.read (s.poke cells).mem c.1 = c.2 := fun c h =>
    State.read_poke_of_mem hm hlt hd (hc h)
  have a2 : a + 1 + 1 = a + 2 := BitVec.add_assoc a 1 1
  have a3 : a + 2 + 1 = a + 3 := BitVec.add_assoc a 2 1
  simp only [cellsOf, bytesOf, cellsFrom, List.forall_mem_cons, a2, a3] at hread
  obtain ⟨h0, h1, h2, h3, -⟩ := hread
  exact peek_l_of h0 h1 h2 h3 hv

/-- Storing elsewhere leaves a vector set. -/
theorem VectorSet_poke {v : Nat} (hv : v < 256) {cells : List Host.Cell}
    (hd : ∀ b, b ∈ cells.map Prod.fst → b ∉ addrs 4 (BitVec.ofNat 32 (4 * v))) (h : s.VectorSet v) :
    (s.poke cells).VectorSet v := by
  rcases h with h | ⟨b, hb, hne⟩
  · exact .inl ((poke_vectors s cells hv).2 (.inl h))
  · refine .inr ⟨b, hb, ?_⟩
    rwa [State.read_poke_of_not_mem s cells b fun c hc e => hd b (e ▸ List.mem_map_of_mem hc) hb]

end Frame

section Entry

variable {s : State}

/-- RAM is reached at every address an access may have. -/
theorem canReach_of_ram {sz : Size} {a : Long} (he : a.toNat % 2 = 0)
    (h : ∀ b, b ∈ addrs sz.bytes a → s.kindAt b = .ram) : s.CanReach sz a := by
  have hk : ∀ k, k < sz.bytes → s.Answers (a + BitVec.ofNat 32 k) := fun k hk => .inl (h _ (mem_addrs.2 ⟨k, hk, rfl⟩))
  refine ⟨.inr he, ?_, ?_⟩
  · simpa using hk 0 (by cases sz <;> decide)
  · rintro rfl
    exact hk 2 (by decide)

/-- RAM takes the whole store. -/
theorem writeCycles_ram {sz : Size} {a : Long} (he : a.toNat % 2 = 0)
    (h : ∀ b, b ∈ addrs sz.bytes a → s.kindAt b = .ram) (v : Nat) (pending : List Host.Cell) :
    s.writeCycles sz a v pending = .ok (cellsOf sz a v, s) := by
  rw [writeCycles_ok (canReach_of_ram he h), mayCells_ram (.inr he) h]

/-- Control goes through a set vector as before where cells have been stored that are no part of it. -/
theorem toVector_poke {v : Nat} (hv : v < 256) {cells : List Host.Cell}
    (hd : ∀ b, b ∈ cells.map Prod.fst → b ∉ addrs 4 (BitVec.ofNat 32 (4 * v)))
    (hr : s.CanReach .l (BitVec.ofNat 32 (4 * v))) (hset : s.VectorSet v)
    (ht : s.CanReach .w (BitVec.ofNat 32 (s.peek .l (BitVec.ofNat 32 (4 * v))))) :
    (s.poke cells).toVector v =
      .ok ((s.poke cells).landAt (BitVec.ofNat 32 (s.peek .l (BitVec.ofNat 32 (4 * v))))) := by
  have hpeek : (s.poke cells).peek .l (BitVec.ofNat 32 (4 * v)) = s.peek .l (BitVec.ofNat 32 (4 * v)) :=
    peek_poke_of_disjoint s cells .l _ fun b hb hc => hd b hc hb
  rw [toVector_ok (s := s.poke cells) hr (VectorSet_poke hv hd hset) (by rw [hpeek]; exact ht), hpeek]

/-- Stacking and the vector fetch (R410) where nothing fails: the frame is stored and control lands where the vector says. -/
theorem stackAndVector_ok {v : Nat} (hv : v < 256) (h : s.CanEnter v) (old : StatusReg) (saved : Long) :
    s.stackAndVector old saved v =
      .ok ((({ s with ssp := s.ssp - 6 } : State).poke (frameCells (s.ssp - 6) old.toWord.toNat saved)).landAt
        (BitVec.ofNat 32 (s.peek .l (BitVec.ofNat 32 (4 * v))))) := by
  obtain ⟨⟨heven, hram, hvec, hdisj⟩, hset, htarget⟩ := h
  have hsp : (s.ssp - 6).toNat % 2 = 0 := by bv_omega
  have hsp2 : (s.ssp - 6 + 2).toNat % 2 = 0 := by bv_omega
  have hsplit : addrs 6 (s.ssp - 6) = addrs 2 (s.ssp - 6) ++ addrs 4 (s.ssp - 6 + 2) := addrs_frame _
  have hlow : ∀ b, b ∈ addrs 2 (s.ssp - 6) → s.kindAt b = .ram := fun b hb =>
    hram b (hsplit ▸ List.mem_append_left _ hb)
  have hhigh : ∀ b, b ∈ addrs 4 (s.ssp - 6 + 2) → s.kindAt b = .ram := fun b hb =>
    hram b (hsplit ▸ List.mem_append_right _ hb)
  have hpc := writeCycles_ram (s := { s with ssp := s.ssp - 6 + 2 }) (sz := .l) hsp2 hhigh saved.toNat
  have hsr := writeCycles_ram (s := { s with ssp := s.ssp - 6 }) (sz := .w) hsp hlow old.toWord.toNat
  have hgo := toVector_poke (s := { s with ssp := s.ssp - 6 }) hv
    (cells := frameCells (s.ssp - 6) old.toWord.toNat saved)
    (by rw [frameCells_addrs]; exact hdisj) hvec hset htarget
  rw [frameCells] at hgo ⊢
  simp only [State.stackAndVector, hpc, hsr, hgo]
  rfl

/-- Taking an exception whose entry meets no further error (R410). -/
theorem takeException_ok {v : Nat} (hv : v < 256) (hm : s.mem.wf = true) (h : s.CanEnter v) (start : Long) (length : Nat)
    (saved : Long) (level : Option (BitVec 3)) (tm : Time) :
    ∃ t, s.takeException start length v saved level tm = .next t ∧ Entered s t v saved (level.getD s.sr.i) tm := by
  let cells := frameCells (s.ssp - 6) s.sr.toWord.toNat saved
  let s1 : State := { s with
    sr := { s.sr with s := true, t := false, i := level.getD s.sr.i }, run := .running, book := s.tracked }
  let u : State := { s1 with ssp := s.ssp - 6 }
  let target := BitVec.ofNat 32 (s.peek .l (BitVec.ofNat 32 (4 * v)))
  let t := ((u.poke cells).landAt target).charge tm
  have hmem : t.mem = (u.poke cells).mem := by simp [t]
  have hlt := frameCells_lt (s.ssp - 6) s.sr.toWord.toNat saved
  have hd := frameCells_nodup (s.ssp - 6) s.sr.toWord.toNat saved
  have haddrs := frameCells_addrs (s.ssp - 6) s.sr.toWord.toNat saved
  refine ⟨t, ?_, ?_, ?_, ?_, ?_⟩
  · have hgo : s1.stackAndVector s.sr saved v = .ok ((u.poke cells).landAt target) :=
      stackAndVector_ok (s := s1) hv h s.sr saved
    rw [State.takeException, hgo]
  · rw [hmem, ← haddrs]
    rfl
  · rw [peek_congr hmem]
    exact peek_w_poke (s := u) hm hlt hd s.sr.toWord.isLt (List.subset_append_left _ _)
  · have h4 : s.ssp - 4 = s.ssp - 6 + 2 := by bv_omega
    rw [peek_congr hmem, h4]
    exact peek_l_poke (s := u) hm hlt hd saved.isLt (List.subset_append_right _ _)
  · intro b hb
    rw [hmem]
    refine State.read_poke_of_not_mem u cells b fun c hc e => hb ?_
    rw [← haddrs, ← e]
    exact List.mem_map_of_mem hc

end Entry

section Traps

variable (s : State) (v : Fin 16)

theorem exec_trap :
    exec (.trap v) s = State.takeException s.pc s.irBytes (32 + v.val) (s.pc + 2) none ⟨38, 4, 3⟩ (s.skip 1) := rfl

theorem exec_trapv_set {s : State} (h : s.sr.v = true) :
    exec .trapv s = State.takeException s.pc s.irBytes 7 (s.pc + 2) none ⟨34, 4, 3⟩ (s.skip 1) := if_pos h

theorem exec_trapv_clear {s : State} (h : s.sr.v = false) : exec .trapv s = .next ((s.skip 1).charge ⟨4, 1, 0⟩) := by
  have arm : exec .trapv s = execTrapv s := rfl
  rw [arm, execTrapv, h]
  rfl

theorem exec_illegal :
    exec .illegal s = State.takeException s.pc s.irBytes 4 s.pc none ⟨34, 4, 3⟩ { s with tracePending := false } := rfl

end Traps

/-- Settles O59: each is an exception entry with its vector, its saved pc and its time, but TRAPV with V clear. -/
theorem traps : Obligations.Traps := by
  intro s v hm
  refine ⟨rfl, rfl, rfl, fun h => ?_, fun hv h => ?_, exec_trapv_clear, fun h => ?_⟩
  · rw [exec_trap]
    exact takeException_ok (s := s.skip 1) (by omega) hm h ..
  · rw [exec_trapv_set hv]
    exact takeException_ok (s := s.skip 1) (by decide) hm h ..
  · rw [exec_illegal]
    exact takeException_ok (s := { s with tracePending := false }) (by decide) hm h ..

end Sys2Proof.Machine

/-! What every step keeps (10_state.md sections 2 and 5, 60_exceptions.md section 7): the canonical form of memory, an even pc,
and in user state T, I and SSP. Each operation an instruction is made of keeps the three, or ends in an error from whose
processing they are kept; the instructions follow by composition. -/

namespace Sys2Proof.Machine

-- One declaration at a time: the check bounds the memory of all threads together.
set_option Elab.async false

section Keeping

/-- What a part of an instruction that completes keeps of the state it began in. In user state it stays there (R440). -/
structure Keeps (s t : State) : Prop where
  mem : s.mem.wf = true → t.mem.wf = true
  pc : s.pc.toNat % 2 = 0 → t.pc.toNat % 2 = 0
  user : s.sr.s = false → t.sr.s = false ∧ t.sr.t = s.sr.t ∧ t.sr.i = s.sr.i ∧ t.ssp = s.ssp

variable {s t u : State}

/-- Neither memory, pc, status register nor SSP has changed. -/
theorem Keeps.of_eq (hm : t.mem = s.mem) (hp : t.pc = s.pc) (hq : t.sr = s.sr) (hs : t.ssp = s.ssp) : Keeps s t where
  mem h := hm ▸ h
  pc h := hp ▸ h
  user h := by rw [hq, hs]; exact ⟨h, rfl, rfl, rfl⟩

theorem Keeps.refl (s : State) : Keeps s s := .of_eq rfl rfl rfl rfl

theorem Keeps.trans (h : Keeps s t) (h' : Keeps t u) : Keeps s u where
  mem hs := h'.mem (h.mem hs)
  pc hs := h'.pc (h.pc hs)
  user hs := by
    obtain ⟨h1, h2, h3, h4⟩ := h.user hs
    obtain ⟨h1', h2', h3', h4'⟩ := h'.user h1
    exact ⟨h1', h2'.trans h2, h3'.trans h3, h4'.trans h4⟩

theorem Keeps.setD (h : Keeps s t) (r : Reg) (v : Long) : Keeps s (t.setD r v) := h.trans (.of_eq rfl rfl rfl rfl)

theorem Keeps.setDlow (h : Keeps s t) (sz : Size) (r : Reg) (v : Nat) : Keeps s (t.setDlow sz r v) := h.setD r _

theorem Keeps.drawn (h : Keeps s t) (n : Nat) : Keeps s (t.drawn n) := h.trans (.of_eq rfl rfl rfl rfl)

theorem Keeps.setA (h : Keeps s t) (r : Reg) (v : Long) : Keeps s (t.setA r v) :=
  h.trans {
    mem := by simp
    pc := by simp
    user := fun hu => by simp [hu, State.setA_ssp t hu] }

theorem Keeps.setSp (h : Keeps s t) (v : Long) : Keeps s (t.setSp v) :=
  h.trans {
    mem := by simp
    pc := by simp
    user := fun hu => by simp [hu, State.setSp_ssp t hu] }

theorem Keeps.setReg (h : Keeps s t) (r : RegRef) (v : Long) : Keeps s (t.setReg r v) := by
  cases r with
  | d r => exact h.setD r v
  | a r => exact h.setA r v

/-- The five flags are anyone's to write. -/
theorem Keeps.setSr (h : Keeps s t) {q : StatusReg} (hs : q.s = t.sr.s) (ht : q.t = t.sr.t) (hi : q.i = t.sr.i) :
    Keeps s (t.setSr q) :=
  h.trans ⟨id, id, fun hu => ⟨hs.trans hu, ht, hi, rfl⟩⟩

theorem even_add_double (a : Long) (n : Nat) (h : a.toNat % 2 = 0) : (a + BitVec.ofNat 32 (2 * n)).toNat % 2 = 0 := by
  rw [BitVec.toNat_add, BitVec.toNat_ofNat]
  omega

theorem Keeps.skip (h : Keeps s t) (n : Nat) : Keeps s (t.skip n) :=
  h.trans ⟨id, even_add_double _ n, fun hu => ⟨hu, rfl, rfl, rfl⟩⟩

/-- Cells at addresses that reach memory. -/
def AtMemory (cells : List Host.Cell) : Prop := ∀ c ∈ cells, c.1 < 2 ^ Config.addrBits

theorem AtMemory.nil : AtMemory [] := by simp [AtMemory]

theorem AtMemory.append {l m : List Host.Cell} (hl : AtMemory l) (hm : AtMemory m) : AtMemory (l ++ m) := by
  intro c hc
  exact (List.mem_append.1 hc).elim (hl c) (hm c)

theorem atMemory_mayCells (s : State) (sz : Size) (a : Long) (v : Nat) : AtMemory (s.mayCells sz a v) :=
  fun c hc => cellsOf_lt sz a v c ((mayCells_sublist s sz a v).subset hc)

theorem atMemory_locCells (s : State) (sz : Size) (v : Nat) (l : Loc) : AtMemory (s.locCells sz v l) := by
  cases l with
  | mem a p => exact atMemory_mayCells s sz a v
  | _ => exact .nil

theorem Keeps.poke (h : Keeps s t) {cells : List Host.Cell} (hc : AtMemory cells) : Keeps s (t.poke cells) :=
  h.trans ⟨fun hm => State.wf_poke hm cells hc, id, fun hu => ⟨hu, rfl, rfl, rfl⟩⟩

theorem Keeps.locate (h : Keeps s t) (sz : Size) (ea : Ea) : Keeps s (t.locate sz ea).2 := by
  cases ea with
  | preDec r => exact h.setA r _
  | disp r d | index r x | absW a | absL a | pcDisp d | pcIndex x => exact h.skip _
  | imm v => exact h.skip _
  | _ => exact h

theorem Keeps.settle (h : Keeps s t) (sz : Size) (ea : Ea) : Keeps s (t.settle sz ea) := by
  cases ea with
  | postInc r => exact h.setA r _
  | _ => exact h

theorem Keeps.extraRead (h : Keeps s t) : Keeps s t.extraRead :=
  h.trans (.of_eq (by simp) (by simp) (by simp) (by simp))

theorem Keeps.readAhead (h : Keeps s t) : Keeps s t.readAhead :=
  h.trans (.of_eq (by simp) (by simp) (by simp) (by simp))

end Keeping

/-! Operations that can end in an error. -/

section Soundness

/-- An error from which memory comes out canonical: it was so at the failure, and what is left old or new is memory. -/
def Stop.Sound (s : State) : Stop → Prop
  | .access _ t pending => s.mem.wf = true → t.mem.wf = true ∧ AtMemory pending
  | _ => True

/-- A result of an operation that `s` began: what it gives is as `P` says, or its error is sound. -/
def Sound {α : Type} (s : State) (P : α → Prop) : Except Stop α → Prop
  | .ok v => P v
  | .error e => e.Sound s

variable {α β : Type} {s t : State} {P : α → Prop} {Q : β → Prop}

theorem Stop.Sound.of_keeps (h : Keeps s t) {e : Stop} (he : e.Sound t) : e.Sound s := by
  cases e with
  | access f u p => exact fun hm => he (h.mem hm)
  | _ => trivial

theorem Sound.cases {r : Except Stop α} (h : Sound s P r) :
    (∃ v, r = .ok v ∧ P v) ∨ ∃ e, r = .error e ∧ e.Sound s := by
  cases r with
  | ok v => exact .inl ⟨v, rfl, h⟩
  | error e => exact .inr ⟨e, rfl, h⟩

/-- One operation after another. -/
theorem Sound.bind {r : Except Stop α} {k : α → Except Stop β} (h : Sound s P r) (hk : ∀ v, P v → Sound s Q (k v)) :
    Sound s Q (r >>= k) := by
  cases r with
  | ok v => exact hk v h
  | error e => exact h

theorem Sound.of_keeps {r : Except Stop α} (h : Keeps s t) (hr : Sound t P r) : Sound s P r := by
  cases r with
  | ok v => exact hr
  | error e => exact Stop.Sound.of_keeps h hr

theorem Sound.mono {r : Except Stop α} {P' : α → Prop} (hr : Sound s P r) (h : ∀ v, P v → P' v) : Sound s P' r := by
  cases r with
  | ok v => exact h v hr
  | error e => exact hr

/-- From a state an operation has kept, the next one goes on. -/
theorem Sound.keeps {r : Except Stop State} (h : Keeps s t) (hr : Sound t (Keeps t) r) : Sound s (Keeps s) r :=
  (hr.of_keeps h).mono fun _ => h.trans

theorem Sound.orPending {cells : State → List Host.Cell} {r : Except Stop α} (hr : Sound s P r) (hc : ∀ t, AtMemory (cells t)) :
    Sound s P (orPending cells r) := by
  rcases r with e | v
  · cases e with
    | access f t p => exact fun hm => ⟨(hr hm).1, (hr hm).2.append (hc t)⟩
    | _ => trivial
  · exact hr

variable (s)

theorem memRead_sound (sz : Size) (a : Long) (program : Bool) : Sound s (fun p => Keeps s p.2) (s.memRead sz a program) := by
  obtain ⟨l, k, ⟨v, h⟩ | ⟨f, h⟩⟩ := memRead_cases s sz a program
  · rw [h]
    exact Keeps.of_eq rfl rfl rfl rfl
  · rw [h]
    exact fun hm => ⟨hm, .nil⟩

theorem writeCycles_sound (sz : Size) (a : Long) (v : Nat) {pending : List Host.Cell} (hp : AtMemory pending) :
    Sound s (fun p => AtMemory p.1 ∧ Keeps s p.2) (s.writeCycles sz a v pending) := by
  obtain ⟨l, k, ⟨cells, hc, h⟩ | ⟨f, p, hp', h⟩⟩ := writeCycles_cases s sz a v pending
  · rw [h]
    exact ⟨fun c h' => cellsOf_lt sz a v c (hc c h'), .of_eq rfl rfl rfl rfl⟩
  · rw [h]
    refine fun hm => ⟨hm, ?_⟩
    rcases hp' with rfl | rfl
    · exact hp
    · exact .nil

theorem writeAll_sound (sz : Size) (stores : List (Long × Nat)) {pending : List Host.Cell} (hp : AtMemory pending) :
    Sound s (fun p => AtMemory p.1 ∧ Keeps s p.2) (s.writeAll sz pending stores) := by
  induction stores generalizing s with
  | nil => exact ⟨.nil, .refl s⟩
  | cons p rest ih =>
    rw [State.writeAll]
    obtain ⟨⟨cells, t⟩, hr, hc, ht⟩ | ⟨e, hr, he⟩ := (writeCycles_sound s sz p.1 p.2 hp).cases <;> rw [hr]
    · obtain ⟨⟨more, u⟩, hr', hm, hu⟩ | ⟨e, hr', he⟩ := ((ih t).of_keeps ht).cases <;> simp only [hr']
      · exact ⟨hc.append hm, ht.trans hu⟩
      · exact he
    · exact he

theorem storeCells_sound {cells : List Host.Cell} (hc : AtMemory cells) : Sound s (Keeps s) (s.storeCells cells) := by
  unfold State.storeCells
  split
  · trivial
  · exact (Keeps.refl s).poke hc

theorem memWrite_sound (sz : Size) (a : Long) (v : Nat) : Sound s (Keeps s) (s.memWrite sz a v) := by
  rw [State.memWrite]
  obtain ⟨⟨cells, t⟩, hr, hc, ht⟩ | ⟨e, hr, he⟩ :=
    (writeCycles_sound s sz a v (atMemory_mayCells s sz a v)).cases <;> rw [hr]
  · exact (storeCells_sound t hc).keeps ht
  · exact he

theorem storeAll_sound (sz : Size) (stores : List (Long × Nat)) : Sound s (Keeps s) (s.storeAll sz stores) := by
  have hp : AtMemory (stores.flatMap fun p => s.mayCells sz p.1 p.2) := by
    intro c hc
    obtain ⟨p, -, hc⟩ := List.mem_flatMap.1 hc
    exact atMemory_mayCells s sz p.1 p.2 c hc
  rw [State.storeAll]
  obtain ⟨⟨cells, t⟩, hr, hc, ht⟩ | ⟨e, hr, he⟩ := (writeAll_sound s sz stores hp).cases <;> rw [hr]
  · exact (storeCells_sound t hc).keeps ht
  · exact he

theorem push_sound (sz : Size) (v : Nat) : Sound s (Keeps s) (s.push sz v) :=
  (memWrite_sound _ sz _ v).keeps ((Keeps.refl s).setSp _)

theorem pop_sound (sz : Size) : Sound s (fun p => Keeps s p.2) (s.pop sz) := by
  rw [State.pop]
  obtain ⟨⟨v, t⟩, hr, ht⟩ | ⟨e, hr, he⟩ := (memRead_sound s sz s.sp false).cases <;> rw [hr]
  · exact ht.setSp _
  · exact he

/-- A jump ends at an even address, wherever it began (R25). -/
theorem jump_sound (a : Long) : Sound s (fun t => Keeps s t ∧ t.pc.toNat % 2 = 0) (s.jump a) := by
  obtain ⟨l, k, ⟨he, x, h⟩ | ⟨f, h⟩⟩ := jump_cases s a
  · rw [h]
    exact ⟨⟨by simp, by simpa using fun _ => he, by simp⟩, by simpa using he⟩
  · rw [h]
    exact fun hm => ⟨hm, .nil⟩

theorem jump_keeps (a : Long) : Sound s (Keeps s) (s.jump a) := (jump_sound s a).mono fun _ h => h.1

theorem call_sound (a : Long) : Sound s (Keeps s) (s.call a) := by
  rw [State.call]
  obtain ⟨t, hr, ht⟩ | ⟨e, hr, he⟩ := (push_sound s .l s.pc.toNat).cases <;> rw [hr]
  · obtain ⟨u, hj, hu⟩ | ⟨e, hj, he⟩ := ((jump_keeps t a).keeps ht).cases <;> simp only [hj]
    · exact hu
    · cases e with
      | access f u p => exact fun hm => ⟨hm, atMemory_mayCells s _ _ _⟩
      | _ => trivial
  · exact he

theorem readLoc_sound (sz : Size) (l : Loc) : Sound s (fun p => Keeps s p.2) (s.readLoc sz l) := by
  cases l with
  | mem a p => exact memRead_sound s sz a p
  | _ => exact Keeps.refl s

theorem writeLoc_sound (sz : Size) (v : Nat) (l : Loc) : Sound s (Keeps s) (s.writeLoc sz v l) := by
  cases l with
  | mem a p => exact memWrite_sound s sz a v
  | d r => exact (Keeps.refl s).setDlow sz r v
  | a r => exact (Keeps.refl s).setA r _
  | imm v => exact .refl s

theorem readEa_sound (sz : Size) (ea : Ea) : Sound s (fun f => Keeps s f.state) (s.readEa sz ea) := by
  have h0 := (Keeps.refl s).locate sz ea
  unfold State.readEa
  obtain ⟨⟨v, t⟩, hr, ht⟩ | ⟨e, hr, he⟩ :=
    ((readLoc_sound (s.locate sz ea).2 sz (s.locate sz ea).1).of_keeps h0).cases <;> simp only [hr]
  · exact (h0.trans ht).settle sz ea
  · exact he

theorem writeEa_sound (sz : Size) (ea : Ea) (v : Nat) : Sound s (Keeps s) (s.writeEa sz ea v) := by
  unfold State.writeEa
  obtain ⟨t, hr, ht⟩ | ⟨e, hr, he⟩ :=
    ((writeLoc_sound (s.locate sz ea).2 sz v (s.locate sz ea).1).keeps ((Keeps.refl s).locate sz ea)).cases <;>
    simp only [hr]
  · exact ht.settle sz ea
  · exact he

/-- Operations on flags that leave the rest of the status register. -/
def FlagsOnly (sr q : StatusReg) : Prop := q.s = sr.s ∧ q.t = sr.t ∧ q.i = sr.i

variable {s}

theorem Keeps.setFlags (h : Keeps s t) {q : StatusReg} (hq : FlagsOnly t.sr q) : Keeps s (t.setSr q) := h.setSr hq.1 hq.2.1 hq.2.2

/-- Any status register may be written as long as in user state nothing but flags differs. -/
theorem Keeps.setSr_of (h : Keeps s t) {q : StatusReg} (hq : s.sr.s = false → FlagsOnly s.sr q) : Keeps s (t.setSr q) :=
  ⟨h.mem, h.pc, fun hu => by
    obtain ⟨h1, h2, h3⟩ := hq hu
    obtain ⟨-, -, -, h4⟩ := h.user hu
    exact ⟨h1.trans hu, h2, h3, h4⟩⟩

/-- The part of the status register that is no flag, after the operations so far. -/
theorem Keeps.flagsOnly (h : Keeps s t) {q : StatusReg} (hq : FlagsOnly t.sr q) (hu : s.sr.s = false) : FlagsOnly s.sr q := by
  obtain ⟨h1, h2, h3, -⟩ := h.user hu
  obtain ⟨h1', h2', h3'⟩ := hq
  exact ⟨h1'.trans (h1.trans hu.symm), h2'.trans h2, h3'.trans h3⟩

theorem modifyEa_sound (h : Keeps s t) (sz : Size) (ea : Ea) {g : Nat → StatusReg → Nat × StatusReg}
    (hg : ∀ d q, FlagsOnly q (g d q).2) : Sound s (Keeps s) (t.modifyEa sz ea g) := by
  unfold State.modifyEa
  refine (((readEa_sound t sz ea).of_keeps h).orPending fun u => atMemory_locCells u _ _ _).bind fun f hf => ?_
  have hf := h.trans hf
  refine ((writeLoc_sound f.state sz _ f.loc).keeps hf).bind fun u hu => ?_
  exact hu.setSr_of (hf.flagsOnly (hg _ _))

theorem testAndModifyEa_sound (h : Keeps s t) (sz : Size) (ea : Ea) {g : Nat → StatusReg → Nat × StatusReg}
    (hg : ∀ d q, FlagsOnly q (g d q).2) : Sound s (Keeps s) (t.testAndModifyEa sz ea g) := by
  unfold State.testAndModifyEa
  refine (((readEa_sound t sz ea).of_keeps h).orPending fun u => atMemory_locCells u _ _ _).bind fun f hf => ?_
  exact (writeLoc_sound _ sz _ f.loc).keeps ((h.trans hf).setFlags (hg _ _))

theorem testEa_sound (h : Keeps s t) (sz : Size) (ea : Ea) {g : Nat → StatusReg → StatusReg}
    (hg : s.sr.s = false → ∀ d q, FlagsOnly q (g d q)) : Sound s (Keeps s) (t.testEa sz ea g) := by
  unfold State.testEa
  refine ((readEa_sound t sz ea).of_keeps h).bind fun f hf => ?_
  have hf := h.trans hf
  exact hf.setSr_of fun hu => hf.flagsOnly (hg hu _ _) hu

theorem preDecPair_sound (h : Keeps s t) (sz : Size) (ay ax : Reg) {g : Nat → Nat → StatusReg → Nat × StatusReg}
    (hg : ∀ v d q, FlagsOnly q (g v d q).2) : Sound s (Keeps s) (t.preDecPair g sz ay ax) := by
  unfold State.preDecPair
  refine (((readEa_sound t sz _).of_keeps h).orPending fun u => atMemory_locCells u _ _ _).bind fun f hf => ?_
  exact modifyEa_sound (h.trans hf) sz _ (hg _)

theorem loadRegs_sound (h : Keeps s t) (sz : Size) (program : Bool) (regs : List RegRef) (a : Long) :
    Sound s (Keeps s) (loadRegs sz program regs a t) := by
  induction regs generalizing a t with
  | nil => exact h
  | cons r rs ih =>
    rw [loadRegs]
    obtain ⟨⟨v, u⟩, hr, hu⟩ | ⟨e, hr, he⟩ := ((memRead_sound t sz a program).of_keeps h).cases <;> rw [hr]
    · exact ih ((h.trans hu).setReg r _) _
    · exact he

theorem readBytes_sound (h : Keeps s t) (as : List Long) (v : Nat) : Sound s (fun p => Keeps s p.2) (t.readBytes as v) := by
  induction as generalizing v t with
  | nil => exact h
  | cons a as ih =>
    rw [State.readBytes]
    obtain ⟨⟨b, u⟩, hr, hu⟩ | ⟨e, hr, he⟩ := ((memRead_sound t .b a false).of_keeps h).cases <;> rw [hr]
    · exact ih (h.trans hu) _
    · exact he

theorem movemStart_keeps (h : Keeps s t) (sz : Size) (ea : Ea) : Keeps s (t.movemStart sz ea).2.2 := by
  have hl := h.locate sz ea
  unfold State.movemStart
  split
  · exact h
  · split
    · next e => rw [e] at hl; exact hl
    · next e => rw [e] at hl; exact hl

theorem eaAddress_keeps (h : Keeps s t) (ea : Ea) : Keeps s (t.eaAddress ea).2 := by
  have hl := h.locate .l ea
  unfold State.eaAddress
  split
  · next e => rw [e] at hl; exact hl
  · next e => rw [e] at hl; exact hl

end Soundness

end Sys2Proof.Machine

/-! Exceptions end in supervisor state, at an even address or halted (R410, R430, R432). -/

namespace Sys2Proof.Machine

-- One declaration at a time: the check bounds the memory of all threads together.
set_option Elab.async false

section Outcomes

/-- What a whole step, or the execution of an instruction, keeps of the state it began in. -/
structure StepKeeps (s t : State) : Prop where
  mem : s.mem.wf = true → t.mem.wf = true
  pc : s.pc.toNat % 2 = 0 → t.PcEven
  user : s.sr.s = false → t.sr.s = true ∨ (t.sr.s = false ∧ t.sr.t = s.sr.t ∧ t.sr.i = s.sr.i ∧ t.ssp = s.ssp)

/-- An outcome whose next state, if it has one, keeps what a step must keep. -/
def Good (s : State) : Host.Outcome State Fault Refusal → Prop
  | .next t => StepKeeps s t
  | _ => True

variable {s t u : State}

theorem Keeps.step (h : Keeps s t) : StepKeeps s t := ⟨h.mem, fun hp => .inr (h.pc hp), fun hu => .inr (h.user hu)⟩

theorem Keeps.charge (h : Keeps s t) (tm : Time) : Keeps s (t.charge tm) := h.trans (.of_eq rfl rfl rfl rfl)

theorem Keeps.good (h : Keeps s t) (tm : Time) : Good s (.next (t.charge tm)) := (h.charge tm).step

theorem StepKeeps.of_keeps (h : Keeps s t) (h' : StepKeeps t u) : StepKeeps s u where
  mem hs := h'.mem (h.mem hs)
  pc hs := h'.pc (h.pc hs)
  user hs := by
    obtain ⟨h1, h2, h3, h4⟩ := h.user hs
    exact (h'.user h1).imp_right fun ⟨g1, g2, g3, g4⟩ => ⟨g1, g2.trans h2, g3.trans h3, g4.trans h4⟩

theorem Good.of_keeps (h : Keeps s t) {o : Host.Outcome State Fault Refusal} (ho : Good t o) : Good s o := by
  cases o with
  | next u => exact StepKeeps.of_keeps h ho
  | _ => trivial

/-- An exception has been entered: in supervisor state, at an even address or halted. -/
def Excepted (s : State) : Host.Outcome State Fault Refusal → Prop
  | .next t => (s.mem.wf = true → t.mem.wf = true) ∧ t.PcEven ∧ t.sr.s = true
  | _ => True

theorem Excepted.good {o : Host.Outcome State Fault Refusal} (h : Excepted s o) : Good s o := by
  cases o with
  | next t => exact ⟨h.1, fun _ => h.2.1, fun _ => .inl h.2.2⟩
  | _ => trivial

theorem Excepted.of_mem (hm : s.mem.wf = true → t.mem.wf = true) {o : Host.Outcome State Fault Refusal} (h : Excepted t o) :
    Excepted s o := by
  cases o with
  | next u => exact ⟨fun hs => h.1 (hm hs), h.2⟩
  | _ => trivial

/-! What R55 leaves free. -/

theorem scrambleReg_keeps (s : State) (r : RegRef) : Keeps s (s.scrambleReg r) := by
  cases r with
  | d n => exact ((Keeps.refl s).setD n _).drawn 1
  | a n =>
    unfold State.scrambleReg
    dsimp only
    split
    · exact .refl s
    · exact ((Keeps.refl s).setA n _).drawn 1

theorem scrambleRegs_keeps (s : State) (regs : List RegRef) : Keeps s (regs.foldl State.scrambleReg s) := by
  induction regs generalizing s with
  | nil => exact .refl s
  | cons r rs ih => exact (scrambleReg_keeps s r).trans (ih _)

theorem scrambleCell_keeps (s : State) {c : Host.Cell} (hc : c.1 < 2 ^ Config.addrBits) : Keeps s (s.scrambleCell c) := by
  unfold State.scrambleCell
  split
  · exact ((Keeps.refl s).poke (by simpa [AtMemory] using hc)).drawn 1
  · exact (Keeps.refl s).drawn 1

theorem scrambleCells_keeps (s : State) {cells : List Host.Cell} (hc : AtMemory cells) :
    Keeps s (cells.foldl State.scrambleCell s) := by
  induction cells generalizing s with
  | nil => exact .refl s
  | cons c cs ih =>
    obtain ⟨h1, h2⟩ := List.forall_mem_cons.1 hc
    exact (scrambleCell_keeps s h1).trans (ih _ h2)

theorem scramble_keeps (s : State) (regs : List RegRef) {cells : List Host.Cell} (hc : AtMemory cells) :
    Keeps s (s.scramble regs cells) := (scrambleRegs_keeps s regs).trans (scrambleCells_keeps _ hc)

/-- The status register stays, whatever cells are left old or new. -/
@[simp] theorem scramble_cells_sr (s : State) (cells : List Host.Cell) : (s.scramble [] cells).sr = s.sr := by
  have key : ∀ u : State, (cells.foldl State.scrambleCell u).sr = u.sr := by
    induction cells with
    | nil => exact fun _ => rfl
    | cons c cs ih =>
      intro u
      rw [List.foldl_cons, ih]
      unfold State.scrambleCell
      split <;> rfl
  exact key s

/-! The parts of exception processing keep the status register besides. -/

/-- Of an error too: the operation has left the status register as it was. -/
def StopSr (q : StatusReg) : Stop → Prop
  | .access _ t _ => t.sr = q
  | _ => True

/-- What following a vector does: it ends at an even address, or in an error; the status register is as it was. -/
def Followed (s : State) (r : Except Stop State) : Prop :=
  Sound s (fun t => Keeps s t ∧ t.pc.toNat % 2 = 0 ∧ t.sr = s.sr) r ∧ ∀ e, r = .error e → StopSr s.sr e

theorem jump_followed (s : State) (a : Long) : Followed s (s.jump a) := by
  have hs := jump_sound s a
  obtain ⟨l, k, ⟨-, x, h⟩ | ⟨f, h⟩⟩ := jump_cases s a <;> rw [h] at hs ⊢
  · exact ⟨⟨hs.1, hs.2, by simp⟩, fun e he => absurd he (by simp)⟩
  · exact ⟨hs, by rintro e ⟨⟩; rfl⟩

theorem followVector_followed (s : State) (v : Nat) : Followed s (s.followVector v) := by
  unfold State.followVector
  obtain ⟨l, k, ⟨a, h⟩ | ⟨f, h⟩⟩ := memRead_cases s .l (BitVec.ofNat 32 (4 * v)) (decide (v ≤ 1)) <;> rw [h]
  · have hk : Keeps s { s with answers := l, draws := k } := .of_eq rfl rfl rfl rfl
    obtain ⟨h1, h2⟩ := jump_followed { s with answers := l, draws := k } (BitVec.ofNat 32 a)
    exact ⟨(h1.of_keeps hk).mono fun t ⟨g1, g2⟩ => ⟨hk.trans g1, g2⟩, h2⟩
  · exact ⟨fun hm => ⟨hm, .nil⟩, by rintro e ⟨⟩; rfl⟩

theorem toVector_followed (s : State) (v : Nat) : Followed s (s.toVector v) := by
  unfold State.toVector
  split
  · exact ⟨trivial, by rintro e ⟨⟩; trivial⟩
  · exact followVector_followed s v

/-- The bus cycles of stores change what is left of the platform's answers and the free values, nothing else. -/
theorem writeAll_cases (s : State) (sz : Size) (pending : List Host.Cell) (stores : List (Long × Nat)) :
    ∃ l k, (∃ cells, s.writeAll sz pending stores = .ok (cells, { s with answers := l, draws := k })) ∨
      ∃ f p, s.writeAll sz pending stores = .error (.access f { s with answers := l, draws := k } p) := by
  induction stores generalizing s with
  | nil => exact ⟨s.answers, s.draws, .inl ⟨[], rfl⟩⟩
  | cons p rest ih =>
    rw [State.writeAll]
    obtain ⟨l, k, ⟨cells, -, h⟩ | ⟨f, q, -, h⟩⟩ := writeCycles_cases s sz p.1 p.2 pending <;> rw [h]
    · obtain ⟨l', k', ⟨more, h'⟩ | ⟨f, q, h'⟩⟩ := ih { s with answers := l, draws := k } <;> simp only [h']
      · exact ⟨l', k', .inl ⟨_, rfl⟩⟩
      · exact ⟨l', k', .inr ⟨_, _, rfl⟩⟩
    · exact ⟨l, k, .inr ⟨_, _, rfl⟩⟩

/-! Bus and address errors. -/

/-- Stacking a group 0 frame and going through the vector, from the state in which S is set. -/
theorem stackGroup0_excepted {s : State} (hs : s.sr.s = true) (words : List (Long × Nat)) (v : Nat) (g : State → State)
    (hg : ∀ t, (g t).mem = t.mem ∧ (g t).pc = t.pc ∧ (g t).sr = t.sr) :
    Excepted s (match s.writeAll .w (words.flatMap (fun p => s.mayCells .w p.1 p.2)) words with
      | .error (.fault r) => .fault r
      | .error (.refuse r) => .refused r
      | .error (.access _ t frame) => .next { t.scramble [] frame with run := .halted }
      | .ok (cells, t) =>
        match (t.poke cells).toVector v with
        | .error (.fault r) => .fault r
        | .error (.refuse r) => .refused r
        | .error (.access _ u _) => .next { u with run := .halted }
        | .ok u => .next (g u)) := by
  have hp : AtMemory (words.flatMap fun p => s.mayCells .w p.1 p.2) := by
    intro c hc
    obtain ⟨p, -, hc⟩ := List.mem_flatMap.1 hc
    exact atMemory_mayCells s _ p.1 p.2 c hc
  have hw := writeAll_sound s .w words hp
  obtain ⟨l, k, ⟨cells, h⟩ | ⟨f, frame, h⟩⟩ := writeAll_cases s .w _ words <;> rw [h] at hw ⊢
  · obtain ⟨hc, ht⟩ := hw
    have hpoke : Keeps s _ := ht.poke hc
    obtain ⟨hv, hsr⟩ := toVector_followed (({ s with answers := l, draws := k } : State).poke cells) v
    dsimp only
    obtain ⟨u, hr, hu, he, hq⟩ | ⟨e, hr, he⟩ := hv.cases <;> rw [hr] at hsr ⊢
    · obtain ⟨h1, h2, h3⟩ := hg u
      exact ⟨fun hm => h1 ▸ (hpoke.trans hu).mem hm, .inr (h2 ▸ he), by rw [h3, hq]; exact hs⟩
    · cases e with
      | access f u p =>
        have hq : u.sr = s.sr := hsr _ rfl
        exact ⟨fun hm => (he (hpoke.mem hm)).1, .inl rfl, hq ▸ hs⟩
      | _ => trivial
  · refine ⟨fun hm => ?_, .inl rfl, (congrArg StatusReg.s (scramble_cells_sr _ _)).trans hs⟩
    exact (scramble_keeps _ [] (hw hm).2).mem hm

theorem enterGroup0_excepted (x : Abandoned) (f : AccessFault) {pending : List Host.Cell}
    (h : s.mem.wf = true → t.mem.wf = true ∧ AtMemory pending) : Excepted s (t.enterGroup0 x f pending) := by
  have hm : s.mem.wf = true → (t.scramble x.regs pending).mem.wf = true := fun hs => by
    obtain ⟨h1, h2⟩ := h hs
    exact (scramble_keeps t x.regs h2).mem h1
  exact (stackGroup0_excepted (s := { t.scramble x.regs pending with
    sr := { (t.scramble x.regs pending).sr with s := true, t := false }, ssp := _, run := _, tracePending := _, draws := _
    book := _ }) rfl _ _ (fun u => (u.charge _).charge _) fun _ => ⟨rfl, rfl, rfl⟩).of_mem hm

/-- How a stop ends: in an exception, if it has a next state. -/
theorem outcome_excepted (x : Abandoned) {e : Stop} (h : e.Sound s) : Excepted s (e.outcome x) := by
  cases e with
  | access f t pending => exact enterGroup0_excepted x f h
  | _ => trivial

theorem finish_good (s0 : State) (tm : Time) (regs : List RegRef) {r : Except Stop State} (h : Sound s (Keeps s) r) :
    Good s (s0.finish tm regs r) := by
  cases r with
  | ok t => exact Keeps.good h tm
  | error e => exact (outcome_excepted _ h).good

/-! The other exceptions. -/

theorem stackAndVector_sound (s : State) (old : StatusReg) (saved : Long) (v : Nat) :
    Sound s (fun t => (s.mem.wf = true → t.mem.wf = true) ∧ t.pc.toNat % 2 = 0 ∧ t.sr = s.sr)
      (s.stackAndVector old saved v) := by
  have hframe : AtMemory (s.mayCells .w (s.ssp - 6) old.toWord.toNat ++ s.mayCells .l (s.ssp - 6 + 2) saved.toNat) :=
    (atMemory_mayCells s _ _ _).append (atMemory_mayCells s _ _ _)
  unfold State.stackAndVector
  dsimp only
  have h1 := writeCycles_sound { s with ssp := s.ssp - 6 + 2 } .l (s.ssp - 6 + 2) saved.toNat hframe
  obtain ⟨l, k, ⟨pcCells, -, h⟩ | ⟨f, p, -, h⟩⟩ := writeCycles_cases { s with ssp := s.ssp - 6 + 2 } .l (s.ssp - 6 + 2)
    saved.toNat (s.mayCells .w (s.ssp - 6) old.toWord.toNat ++ s.mayCells .l (s.ssp - 6 + 2) saved.toNat) <;>
    rw [h] at h1 ⊢
  · dsimp only
    have h2 := writeCycles_sound { s with ssp := s.ssp - 6, answers := l, draws := k } .w (s.ssp - 6) old.toWord.toNat hframe
    obtain ⟨l', k', ⟨srCells, -, h'⟩ | ⟨f, p, -, h'⟩⟩ :=
      writeCycles_cases { s with ssp := s.ssp - 6, answers := l, draws := k } .w (s.ssp - 6) old.toWord.toNat
        (s.mayCells .w (s.ssp - 6) old.toWord.toNat ++ s.mayCells .l (s.ssp - 6 + 2) saved.toNat) <;>
      rw [h'] at h2 ⊢
    · have hc : AtMemory (srCells ++ pcCells) := h2.1.append h1.1
      have hpoke := fun hm : s.mem.wf = true =>
        State.wf_poke (s := { s with ssp := s.ssp - 6, answers := l', draws := k' }) hm _ hc
      obtain ⟨hv, -⟩ := toVector_followed
        (({ s with ssp := s.ssp - 6, answers := l', draws := k' } : State).poke (srCells ++ pcCells)) v
      dsimp only
      obtain ⟨u, hr, hu, he, hq⟩ | ⟨e, hr, he⟩ := hv.cases <;> rw [hr]
      · exact ⟨fun hm => hu.mem (hpoke hm), he, hq⟩
      · cases e with
        | access f u p => exact fun hm => ⟨hm, hc⟩
        | _ => trivial
    · exact h2
  · exact h1

theorem takeException_excepted (start : Long) (length v : Nat) (saved : Long) (level : Option (BitVec 3)) (tm : Time)
    (s : State) : Excepted s (State.takeException start length v saved level tm s) := by
  unfold State.takeException
  dsimp only
  obtain ⟨t, hr, hm, hp, hq⟩ | ⟨e, hr, he⟩ := (stackAndVector_sound { s with
    sr := { s.sr with s := true, t := false, i := level.getD s.sr.i }, run := .running, book := s.tracked }
    s.sr saved v).cases <;> rw [hr]
  · exact ⟨hm, .inr hp, by rw [State.charge_sr, hq]⟩
  · exact outcome_excepted _ he

theorem takeException_good (h : Keeps s t) (start : Long) (length v : Nat) (saved : Long) (level : Option (BitVec 3))
    (tm : Time) : Good s (State.takeException start length v saved level tm t) :=
  (takeException_excepted ..).good.of_keeps h

theorem trapTo_good (h : Keeps s t) (start : Long) (v : Nat) (d : Descriptor) : Good s (t.trapTo start v d) :=
  takeException_good h ..

theorem illegalWord_good (s : State) (v : Nat) : Good s (s.illegalWord v) :=
  takeException_good (s := s) (t := { s with tracePending := false }) (.of_eq rfl rfl rfl rfl) ..

theorem privilegeViolation_good (s : State) : Good s s.privilegeViolation :=
  takeException_good (s := s) (t := { s with tracePending := false }) (.of_eq rfl rfl rfl rfl) ..

/-- A privileged instruction has its effect in supervisor state only (R441). -/
theorem privileged_good (s : State) {effect : Host.Outcome State Fault Refusal} (h : s.sr.s = true → Good s effect) :
    Good s (s.privileged effect) := by
  cases hs : s.sr.s
  · rw [privileged_user hs]
    exact privilegeViolation_good s
  · rw [privileged_supervisor hs]
    exact h hs

theorem takeTrace_good (s : State) : Good s s.takeTrace :=
  takeException_good (s := s) (t := { s with tracePending := false }) (.of_eq rfl rfl rfl rfl) ..

theorem takeInterrupt_good (s : State) : Good s s.takeInterrupt :=
  takeException_good (s := s) (t := { s with level7Edge := false }) (.of_eq rfl rfl rfl rfl) ..

theorem resetSequence_excepted (s : State) : Excepted s s.resetSequence := by
  unfold State.resetSequence
  dsimp only
  obtain ⟨l, k, ⟨sp, h⟩ | ⟨f, h⟩⟩ := memRead_cases { s with
    sr := { s.sr with s := true, t := false, i := 7 }, run := .running, tracePending := false, level7Edge := false
    book := { s.book with frames := [] } } .l 0 true <;> rw [h]
  · dsimp only
    obtain ⟨hv, hsr⟩ := followVector_followed { s with
      sr := { s.sr with s := true, t := false, i := 7 }, ssp := BitVec.ofNat 32 sp, run := .running, tracePending := false
      level7Edge := false, book := { s.book with frames := [] }, answers := l, draws := k } 1
    obtain ⟨u, hr, hu, he, hq⟩ | ⟨e, hr, he⟩ := hv.cases <;> rw [hr] at hsr ⊢
    · exact ⟨hu.mem, .inr he, by rw [State.charge_sr, hq]⟩
    · cases e with
      | access f u p =>
        have hq : u.sr = _ := hsr _ rfl
        exact ⟨fun hm => (he hm).1, .inl rfl, by simp [hq]⟩
      | _ => trivial
  · exact ⟨id, .inl rfl, rfl⟩

end Outcomes

end Sys2Proof.Machine

/-! Every instruction keeps what a step must keep, and so does every step (O13, O14, O15). -/

namespace Sys2Proof.Machine

-- One declaration at a time: the check bounds the memory of all threads together.
set_option Elab.async false

section Instructions

/-! The flag computations change flags only. -/

theorem FlagsOnly.refl (q : StatusReg) : FlagsOnly q q := ⟨rfl, rfl, rfl⟩

theorem aluResult_flagsOnly (op : AluOp) (bits v d : Nat) (q : StatusReg) : FlagsOnly q (aluResult op bits v d q).2 := by
  cases op <;> exact ⟨rfl, rfl, rfl⟩

theorem flagsCmp_flagsOnly (bits v d r : Nat) (q : StatusReg) : FlagsOnly q (flagsCmp bits v d r q) := ⟨rfl, rfl, rfl⟩

theorem shiftResult_flagsOnly (op : ShiftOp) (bits n d : Nat) (q : StatusReg) : FlagsOnly q (shiftResult op bits n d q).2 := by
  unfold shiftResult
  split
  case h_5 | h_6 | h_7 | h_8 => exact ⟨rfl, rfl, rfl⟩
  all_goals split <;> exact ⟨rfl, rfl, rfl⟩

theorem decimalResult_flagsOnly (valid : Bool) (r : Nat × Bool) (k : Nat) (q : StatusReg) :
    FlagsOnly q (decimalResult valid r k q).2 := by
  unfold decimalResult
  split <;> exact ⟨rfl, rfl, rfl⟩

variable (s : State)

theorem skip_keeps (n : Nat) : Keeps s (s.skip n) := (Keeps.refl s).skip n

variable {s} in
theorem Keeps.good_flagsLogic {t : State} (h : Keeps s t) (bits r : Nat) (tm : Time) :
    Good s (.next ((t.setSr (flagsLogic bits r t.sr)).charge tm)) := by
  refine (h.setFlags ?_).good tm
  exact ⟨rfl, rfl, rfl⟩

theorem setDlow_flagsLogic_good (sz : Size) (dn : Reg) (v bits r : Nat) (tm : Time) :
    Good s (.next ((((s.skip 1).setDlow sz dn v).setSr (flagsLogic bits r s.sr)).charge tm)) :=
  ((skip_keeps s 1).setDlow sz dn v).good_flagsLogic bits r tm

/-! One lemma per shared meaning. -/

theorem bitOpEa_good (op : BitOp) (static : Bool) (raw : Nat) (ea : Ea) : Good s (bitOpEa op static raw ea s) := by
  have h1 := skip_keeps s (if static then 2 else 1)
  unfold bitOpEa
  dsimp only
  split
  · refine Keeps.good (Keeps.setFlags (h1.setD _ _) ?_) _
    exact ⟨rfl, rfl, rfl⟩
  · split
    · exact finish_good s _ _ (testEa_sound h1 .b ea fun _ _ _ => ⟨rfl, rfl, rfl⟩)
    · exact finish_good s _ _ (testAndModifyEa_sound h1 .b ea fun _ _ => ⟨rfl, rfl, rfl⟩)

theorem aluImm_good (op : AluOp) (v : Imm) (ea : Ea) (d : Descriptor) : Good s (aluImm op v ea d s) :=
  finish_good s _ _ (modifyEa_sound (skip_keeps s _) _ _ fun _ _ => aluResult_flagsOnly ..)

theorem quickEa_good (op : AluOp) (q : Reg) (sz : Size) (ea : Ea) : Good s (quickEa op q sz ea s) := by
  unfold quickEa
  split
  · exact Keeps.good ((skip_keeps s 1).setA _ _) _
  · exact finish_good s _ _ (modifyEa_sound (skip_keeps s 1) _ _ fun _ _ => aluResult_flagsOnly ..)

theorem moveEa_good (sz : Size) (src dst : Ea) : Good s (moveEa sz src dst s) := by
  refine finish_good s _ _ ?_
  refine (((readEa_sound _ sz src).of_keeps (skip_keeps s 1)).orPending fun t => atMemory_locCells t _ _ _).bind fun f hf => ?_
  have hf := (skip_keeps s 1).trans hf
  exact ((writeEa_sound f.state sz dst f.value).keeps hf).bind fun u hu => hu.setFlags ⟨rfl, rfl, rfl⟩

theorem moveaEa_good (sz : Size) (src : Ea) (an : Reg) : Good s (moveaEa sz src an s) :=
  finish_good s _ _ (((readEa_sound _ sz src).of_keeps (skip_keeps s 1)).bind fun _ hf =>
    ((skip_keeps s 1).trans hf).setA _ _)

theorem aluEaDn_good (op : AluOp) (sz : Size) (ea : Ea) (dn : Reg) : Good s (aluEaDn op sz ea dn s) :=
  finish_good s _ _ (((readEa_sound _ sz ea).of_keeps (skip_keeps s 1)).bind fun _ hf =>
    (((skip_keeps s 1).trans hf).setDlow _ _ _).setFlags (aluResult_flagsOnly ..))

theorem aluDnEa_good (op : AluOp) (sz : Size) (dn : Reg) (ea : Ea) (d : Descriptor) : Good s (aluDnEa op sz dn ea d s) :=
  finish_good s _ _ (modifyEa_sound (skip_keeps s 1) _ _ fun _ _ => aluResult_flagsOnly ..)

theorem aluAn_good (subtract : Bool) (sz : Size) (ea : Ea) (an : Reg) : Good s (aluAn subtract sz ea an s) :=
  finish_good s _ _ (((readEa_sound _ sz ea).of_keeps (skip_keeps s 1)).bind fun _ hf =>
    ((skip_keeps s 1).trans hf).setA _ _)

/-- The source is read for its value alone, and flags are set. -/
theorem execCmp_good (sz : Size) (ea : Ea) (dn : Reg) : Good s (execCmp sz ea dn s) :=
  finish_good s _ _ (((readEa_sound _ sz ea).of_keeps (skip_keeps s 1)).bind fun _ hf =>
    ((skip_keeps s 1).trans hf).setFlags (flagsCmp_flagsOnly ..))

theorem execCmpa_good (sz : WL) (ea : Ea) (an : Reg) : Good s (execCmpa sz ea an s) :=
  finish_good s _ _ (((readEa_sound _ sz.size ea).of_keeps (skip_keeps s 1)).bind fun _ hf =>
    ((skip_keeps s 1).trans hf).setFlags (flagsCmp_flagsOnly ..))

theorem cmpm_good (sz : Size) (ay ax : Reg) : Good s (execCmpm sz ay ax s) :=
  finish_good s _ _ (((readEa_sound _ sz _).of_keeps (skip_keeps s 1)).bind fun _ hf =>
    testEa_sound ((skip_keeps s 1).trans hf) sz _ fun _ _ _ => ⟨rfl, rfl, rfl⟩)

theorem singleEa_good (sz : Size) (ea : Ea) {g : Nat → StatusReg → Nat × StatusReg} (hg : ∀ d q, FlagsOnly q (g d q).2) :
    Good s (singleEa sz ea g s) := finish_good s _ _ (modifyEa_sound (skip_keeps s 1) sz ea hg)

theorem execTas_good (ea : Ea) : Good s (execTas ea s) := by
  unfold execTas
  split
  · trivial
  · exact finish_good s _ _ (testAndModifyEa_sound (skip_keeps s 1) .b ea fun _ _ => ⟨rfl, rfl, rfl⟩)

theorem extendReg_good {g : Nat → Nat → StatusReg → Nat × StatusReg} (hg : ∀ v d q, FlagsOnly q (g v d q).2) (sz : Size)
    (dy dx : Reg) : Good s (extendReg g sz dy dx s) :=
  Keeps.good (((skip_keeps s 1).setDlow _ _ _).setFlags (hg _ _ _)) _

theorem decimalReg_good {g : Nat → Nat → StatusReg → Nat × StatusReg} (hg : ∀ v d q, FlagsOnly q (g v d q).2)
    (dy dx : Reg) : Good s (decimalReg g dy dx s) :=
  Keeps.good ((((skip_keeps s 1).drawn 6).setDlow _ _ _).setFlags (hg _ _ _)) _

theorem shiftDn_good (op : ShiftOp) (sz : Size) (n : Nat) (dn : Reg) : Good s (shiftDn op sz n dn s) :=
  Keeps.good (((skip_keeps s 1).setDlow _ _ _).setFlags (shiftResult_flagsOnly ..)) _

theorem shiftMem_good (op : ShiftOp) (ea : Ea) : Good s (shiftMem op ea s) :=
  finish_good s _ _ (modifyEa_sound (skip_keeps s 1) _ _ fun _ _ => shiftResult_flagsOnly ..)

theorem immCcr_good (g : Nat → Nat → Nat) (v : Byte) : Good s (immCcr g v s) :=
  Keeps.good ((skip_keeps s 2).extraRead.setSr (by simp [StatusReg.withCcr]) (by simp [StatusReg.withCcr])
    (by simp [StatusReg.withCcr])) _

/-- The supervisor may write all of the status register. -/
theorem immSr_good (g : Nat → Nat → Nat) (v : Word) : Good s (immSr g v s) :=
  privileged_good s fun hs => Keeps.good
    ((skip_keeps s 2).extraRead.setSr_of fun hu => absurd hu (by simp [hs])) _

theorem execMoveToSr_good (ea : Ea) : Good s (execMoveToSr ea s) :=
  privileged_good s fun hs => finish_good s _ _
    (testEa_sound (skip_keeps s 1) .w ea fun hu => absurd hu (by simp [hs]))

theorem movemLoad_good (sz : Size) (ea : Ea) (mask : Word) : Good s (movemLoad sz ea mask s) := by
  refine finish_good s _ _ ?_
  refine (loadRegs_sound (movemStart_keeps (skip_keeps s 2) sz ea) ..).bind fun t ht => ?_
  refine ((memRead_sound t ..).of_keeps ht).bind fun p hp => ?_
  split
  · exact (ht.trans hp).setA _ _
  · exact ht.trans hp

theorem movemStore_good (sz : Size) (mask : Word) (ea : Ea) : Good s (movemStore sz mask ea s) := by
  refine finish_good s _ _ ?_
  refine ((storeAll_sound _ ..).keeps (movemStart_keeps (skip_keeps s 2) sz ea)).bind fun t ht => ?_
  split
  · exact ht.setA _ _
  · exact ht

theorem execMovepToReg_good (sz : WL) (ay : Reg) (d16 : Word) (dx : Reg) : Good s (execMovepToReg sz ay d16 dx s) :=
  finish_good s _ _ ((readBytes_sound (skip_keeps s 2) ..).bind fun _ hp => hp.setDlow _ _ _)

theorem execBcc_good (cond : Cond) (d : Disp) : Good s (execBcc cond d s) := by
  unfold execBcc
  split
  · exact finish_good s _ _ ((jump_keeps _ _).keeps (skip_keeps s _))
  · exact Keeps.good (skip_keeps s _) _

theorem execDbcc_good (cond : Cond) (dn : Reg) (d16 : Word) : Good s (execDbcc cond dn d16 s) := by
  have h1 := (skip_keeps s 2).setDlow .w dn (subResult 16 1 (s.dlow .w dn))
  unfold execDbcc
  dsimp only
  generalize subResult 16 1 (s.dlow .w dn) = c at h1 ⊢
  by_cases hc : s.sr.cond cond = true
  · rw [if_pos hc]
    exact (skip_keeps s 2).good _
  · rw [if_neg hc]
    rcases Decidable.em (c = 65535) with h0 | h0
    · rw [if_pos h0]
      exact h1.extraRead.good _
    · rw [if_neg h0]
      exact finish_good s _ _ ((jump_keeps _ _).keeps h1)

theorem execJmp_good (ea : Ea) : Good s (execJmp ea s) := by
  have h1 := eaAddress_keeps (skip_keeps s 1) ea
  unfold execJmp
  dsimp only
  split
  · exact finish_good s _ _ ((jump_keeps _ _).keeps h1.extraRead)
  · exact finish_good s _ _ ((jump_keeps _ _).keeps h1)

theorem execChk_good (ea : Ea) (dn : Reg) : Good s (execChk ea dn s) := by
  have h := (readEa_sound (s.skip 1) .w ea).of_keeps (skip_keeps s 1)
  unfold execChk
  obtain ⟨f, hr, hf⟩ | ⟨e, hr, he⟩ := h.cases <;> rw [hr]
  · have flags : ∀ n z v c, Keeps s ((f.state.setSr { f.state.sr with n := n, z := z, v := v, c := c }).drawn 4) :=
      fun n z v c => (((skip_keeps s 1).trans hf).setFlags (q := { f.state.sr with n := n, z := z, v := v, c := c })
        ⟨rfl, rfl, rfl⟩).drawn 4
    dsimp only
    split
    · exact trapTo_good (flags ..).readAhead ..
    · split
      · exact trapTo_good (flags ..).readAhead ..
      · exact (flags ..).good _
  · exact finish_good s _ _ he

/-- MULU and MULS: a source that can be read is multiplied. -/
theorem execMul_good (ea : Ea) (dn : Reg) : Good s (execMulu ea dn s) ∧ Good s (execMuls ea dn s) := by
  have h := (readEa_sound (s.skip 1) .w ea).of_keeps (skip_keeps s 1)
  unfold execMulu execMuls
  obtain ⟨f, hr, hf⟩ | ⟨e, hr, he⟩ := h.cases <;> rw [hr]
  · have hk := (skip_keeps s 1).trans hf
    constructor <;> refine Keeps.good ((hk.setD dn _).setFlags ?_) _ <;> exact ⟨rfl, rfl, rfl⟩
  · exact ⟨finish_good s _ _ he, finish_good s _ _ he⟩

variable {s} in
theorem Keeps.divisionOverflow {t : State} (h : Keeps s t) (tm : Time) : Good s (.next (t.divisionOverflow tm)) := by
  refine Keeps.good (Keeps.drawn (h.setFlags ?_) 2) tm
  exact ⟨rfl, rfl, rfl⟩

variable {s} in
theorem Keeps.divided {t : State} (h : Keeps s t) (dn : Reg) (q m : Nat) (tm : Time) : Good s (.next (t.divided dn q m tm)) :=
  by
  refine Keeps.good ((h.setD dn _).setFlags ?_) tm
  exact ⟨rfl, rfl, rfl⟩

theorem execDivu_good (ea : Ea) (dn : Reg) : Good s (execDivu ea dn s) := by
  have h := (readEa_sound (s.skip 1) .w ea).of_keeps (skip_keeps s 1)
  unfold execDivu
  obtain ⟨f, hr, hf⟩ | ⟨e, hr, he⟩ := h.cases <;> rw [hr]
  · have hk := (skip_keeps s 1).trans hf
    dsimp only
    split
    · exact trapTo_good hk.readAhead ..
    · split
      · exact hk.divisionOverflow _
      · exact hk.divided ..
  · exact finish_good s _ _ he

theorem execDivs_good (ea : Ea) (dn : Reg) : Good s (execDivs ea dn s) := by
  have h := (readEa_sound (s.skip 1) .w ea).of_keeps (skip_keeps s 1)
  unfold execDivs
  obtain ⟨f, hr, hf⟩ | ⟨e, hr, he⟩ := h.cases <;> rw [hr]
  · have hk := (skip_keeps s 1).trans hf
    dsimp only
    split
    · exact trapTo_good hk.readAhead ..
    · split
      · exact hk.divisionOverflow _
      · exact hk.divided ..
  · exact finish_good s _ _ he

theorem execTrapv_good : Good s (execTrapv s) := by
  unfold execTrapv
  split
  · exact trapTo_good (skip_keeps s 1) ..
  · exact Keeps.good (skip_keeps s 1) _

theorem execLink_good (an : Reg) (d16 : Word) : Good s (execLink an d16 s) :=
  finish_good s _ _ (((push_sound _ .l _).keeps (skip_keeps s 2)).bind fun _ ht => (ht.setA _ _).setSp _)

theorem execUnlk_good (an : Reg) : Good s (execUnlk an s) := by
  have h1 := (skip_keeps s 1).setSp (s.areg an)
  exact finish_good s _ _ (((pop_sound _ .l).of_keeps h1).bind fun _ hp => (h1.trans hp).setA _ _)

theorem execRts_good : Good s (execRts s) :=
  finish_good s _ _ (((pop_sound _ .l).of_keeps (skip_keeps s 1)).bind fun p hp =>
    (jump_keeps p.2 _).keeps ((skip_keeps s 1).trans hp))

theorem execRtr_good : Good s (execRtr s) := by
  refine finish_good s _ _ (((pop_sound _ .w).of_keeps (skip_keeps s 1)).bind fun c hc => ?_)
  have h2 : Keeps s (c.2.setSr (c.2.sr.withCcr c.1)) := ((skip_keeps s 1).trans hc).setFlags ⟨rfl, rfl, rfl⟩
  exact ((pop_sound _ .l).of_keeps h2).bind fun p hp => (jump_keeps p.2 _).keeps (h2.trans hp)

/-- RTE loads all of the status register and SSP, as the supervisor may. -/
theorem returnFromException_sound {s t : State} (hs : s.sr.s = true) (h : Keeps s t) :
    Sound s (Keeps s) t.returnFromException := by
  have hu : ∀ {P : Prop}, s.sr.s = false → P := fun h' => absurd (hs.symm.trans h') (by decide)
  unfold State.returnFromException
  split
  · trivial
  · obtain ⟨⟨w, u⟩, hr, hk⟩ | ⟨e, hr, he⟩ := ((memRead_sound t .w t.ssp false).of_keeps h).cases <;> rw [hr]
    · have hk := h.trans hk
      dsimp only
      obtain ⟨⟨p, x⟩, hr, hk'⟩ | ⟨e, hr, he⟩ := ((memRead_sound u .l (t.ssp + 2) false).of_keeps hk).cases <;> rw [hr]
      · have hk' := hk.trans hk'
        dsimp only
        split
        · trivial
        · have hx : Keeps s { x with ssp := t.ssp + 6, sr := StatusReg.ofNat w } := ⟨hk'.mem, hk'.pc, hu⟩
          exact (jump_keeps _ _).keeps hx
      · exact he
    · exact he

theorem execRte_good : Good s (execRte s) :=
  privileged_good s fun hs => finish_good s _ _ (returnFromException_sound hs (skip_keeps s 1))

theorem execStop_good (v : Word) : Good s (execStop v s) := by
  refine privileged_good s fun hs => Keeps.good (s := s) ?_ _
  have h := (skip_keeps s 2).setSr_of (q := StatusReg.ofNat v.toNat) fun hu => absurd hu (by simp [hs])
  exact h.trans (.of_eq rfl rfl rfl rfl)

theorem execMoveToUsp_good (an : Reg) : Good s (execMoveToUsp an s) :=
  privileged_good s fun _ => by
    refine Keeps.good ((skip_keeps s 1).trans ?_) _
    exact .of_eq rfl rfl rfl rfl

/-- Every instruction keeps what a step must keep. -/
theorem exec_good (i : Instr) : Good s (exec i s) := by
  cases i with
  | oriToCcr v | andiToCcr v | eoriToCcr v => exact immCcr_good s _ v
  | oriToSr v | andiToSr v | eoriToSr v => exact immSr_good s _ v
  | movepToReg sz ay d dx => exact execMovepToReg_good s sz ay d dx
  | movepToMem sz dx ay d => exact finish_good s _ _ ((storeAll_sound _ ..).keeps (skip_keeps s 2))
  | btstDn dn ea | bchgDn dn ea | bclrDn dn ea | bsetDn dn ea => exact bitOpEa_good s ..
  | btstImm b ea | bchgImm b ea | bclrImm b ea | bsetImm b ea => exact bitOpEa_good s ..
  | ori v ea | andi v ea | subi v ea | addi v ea | eori v ea => exact aluImm_good s ..
  | cmpi v ea => exact finish_good s _ _ (testEa_sound (skip_keeps s _) _ _ fun _ _ _ => ⟨rfl, rfl, rfl⟩)
  | moveaW src an | moveaL src an => exact moveaEa_good s _ src an
  | moveB src dst | moveW src dst | moveL src dst => exact moveEa_good s _ src dst
  | resetDevices => exact privileged_good s fun _ => Keeps.good (skip_keeps s 1) _
  | nop => exact Keeps.good (skip_keeps s 1) _
  | stop v => exact execStop_good s v
  | rte => exact execRte_good s
  | rts => exact execRts_good s
  | trapv => exact execTrapv_good s
  | rtr => exact execRtr_good s
  | illegal => exact illegalWord_good s 4
  | trap v => exact trapTo_good (skip_keeps s 1) ..
  | link an d => exact execLink_good s an d
  | unlk an => exact execUnlk_good s an
  | moveToUsp an => exact execMoveToUsp_good s an
  | moveFromUsp an => exact privileged_good s fun _ => Keeps.good ((skip_keeps s 1).setA an _) _
  | swap dn | extW dn | extL dn => exact setDlow_flagsLogic_good s ..
  | moveFromSr ea => exact finish_good s _ _ (modifyEa_sound (skip_keeps s 1) _ _ fun _ q => .refl q)
  | moveToCcr ea => exact finish_good s _ _ (testEa_sound (skip_keeps s 1) _ _ fun _ _ _ => ⟨rfl, rfl, rfl⟩)
  | moveToSr ea => exact execMoveToSr_good s ea
  | tas ea => exact execTas_good s ea
  | chk ea dn => exact execChk_good s ea dn
  | lea ea an => exact Keeps.good ((eaAddress_keeps (skip_keeps s 1) ea).setA an _) _
  | nbcd ea => exact finish_good s _ _ (modifyEa_sound ((skip_keeps s 1).drawn 6) _ _ fun _ _ => decimalResult_flagsOnly ..)
  | pea ea => exact finish_good s _ _ ((push_sound _ .l _).keeps (eaAddress_keeps (skip_keeps s 1) ea))
  | movemToMem sz mask ea => exact movemStore_good s sz.size mask ea
  | movemToReg sz ea mask => exact movemLoad_good s sz.size ea mask
  | jsr ea => exact finish_good s _ _ ((call_sound _ _).keeps (eaAddress_keeps (skip_keeps s 1) ea))
  | jmp ea => exact execJmp_good s ea
  | negx sz ea | clr sz ea | neg sz ea | notEa sz ea => exact singleEa_good s sz ea fun _ _ => ⟨rfl, rfl, rfl⟩
  | tst sz ea => exact finish_good s _ _ (testEa_sound (skip_keeps s 1) _ _ fun _ _ _ => ⟨rfl, rfl, rfl⟩)
  | dbcc c dn d => exact execDbcc_good s c dn d
  | scc c ea => exact finish_good s _ _ (modifyEa_sound (skip_keeps s 1) _ _ fun _ q => .refl q)
  | addq q sz ea | subq q sz ea => exact quickEa_good s _ q sz ea
  | bra d => exact finish_good s _ _ ((jump_keeps _ _).keeps (skip_keeps s _))
  | bsr d => exact finish_good s _ _ ((call_sound _ _).keeps (skip_keeps s _))
  | bcc c d => exact execBcc_good s c d
  | moveq v dn => exact ((skip_keeps s 1).setD dn _).good_flagsLogic ..
  | divu ea dn => exact execDivu_good s ea dn
  | divs ea dn => exact execDivs_good s ea dn
  | mulu ea dn => exact (execMul_good s ea dn).1
  | muls ea dn => exact (execMul_good s ea dn).2
  | orEaDn sz ea dn | subEaDn sz ea dn | andEaDn sz ea dn | addEaDn sz ea dn => exact aluEaDn_good s _ sz ea dn
  | orDnEa sz dn ea | subDnEa sz dn ea | andDnEa sz dn ea | addDnEa sz dn ea | eor sz dn ea => exact aluDnEa_good s _ sz dn ea _
  | suba sz ea an | adda sz ea an => exact aluAn_good s _ sz.size ea an
  | cmpa sz ea an => exact execCmpa_good s sz ea an
  | cmp sz ea dn => exact execCmp_good s sz ea dn
  | cmpm sz ay ax => exact cmpm_good s sz ay ax
  | subxReg sz dy dx | addxReg sz dy dx => exact extendReg_good s (fun _ _ _ => ⟨rfl, rfl, rfl⟩) sz dy dx
  | subxMem sz ay ax | addxMem sz ay ax =>
    exact finish_good s _ _ (preDecPair_sound (skip_keeps s 1) sz ay ax fun _ _ _ => ⟨rfl, rfl, rfl⟩)
  | sbcdReg dy dx | abcdReg dy dx => exact decimalReg_good s (fun _ _ _ => decimalResult_flagsOnly ..) dy dx
  | sbcdMem ay ax | abcdMem ay ax =>
    exact finish_good s _ _ (preDecPair_sound ((skip_keeps s 1).drawn 6) .b ay ax fun _ _ _ => decimalResult_flagsOnly ..)
  | exgDD x y => exact Keeps.good (((skip_keeps s 1).setD x _).setD y _) _
  | exgAA x y => exact Keeps.good (((skip_keeps s 1).setA x _).setA y _) _
  | exgDA x y => exact Keeps.good (((skip_keeps s 1).setD x _).setA y _) _
  | asrMem ea | aslMem ea | lsrMem ea | lslMem ea | roxrMem ea | roxlMem ea | rorMem ea | rolMem ea =>
    exact shiftMem_good s _ ea
  | asrImm sz c dn | aslImm sz c dn | lsrImm sz c dn | lslImm sz c dn => exact shiftDn_good s _ sz _ dn
  | roxrImm sz c dn | roxlImm sz c dn | rorImm sz c dn | rolImm sz c dn => exact shiftDn_good s _ sz _ dn
  | asrReg sz m dn | aslReg sz m dn | lsrReg sz m dn | lslReg sz m dn => exact shiftDn_good s _ sz _ dn
  | roxrReg sz m dn | roxlReg sz m dn | rorReg sz m dn | rolReg sz m dn => exact shiftDn_good s _ sz _ dn

end Instructions

/-! Steps. -/

section Steps

/-- The cells of a canonical memory lie at memory addresses. -/
theorem atMemory_of_wf {m : Memory} (h : m.wf = true) : AtMemory m := by
  have key : ∀ (m : Memory) (lo : Option Nat), Memory.wfAbove lo m = true → AtMemory m := by
    intro m
    induction m with
    | nil => exact fun _ _ => .nil
    | cons c m ih =>
      intro lo hc
      obtain ⟨-, hk, -, hm⟩ := (Memory.wfAbove_cons lo c.1 c.2 m).1 hc
      exact List.forall_mem_cons.2 ⟨hk, ih _ hm⟩
  exact key m none h

theorem atMemory_changes {old new : Memory} (ho : AtMemory old) (hn : AtMemory new) : AtMemory (Memory.changes old new) := by
  unfold Memory.changes
  refine .append (fun c hc => hn c (List.mem_filter.1 hc).1) fun c hc => ?_
  obtain ⟨b, hb, rfl⟩ := List.mem_map.1 hc
  exact ho b (List.mem_filter.1 hb).1

theorem atMemory_wouldWrite {s : State} (hm : s.mem.wf = true) (i : Instr) : AtMemory (s.wouldWrite exec i) := by
  have hg := exec_good s.obliging i
  unfold State.wouldWrite
  generalize exec i s.obliging = o at hg
  cases o with
  | next t => exact fun c hc => atMemory_changes (atMemory_of_wf hm) (atMemory_of_wf (hg.mem hm)) c (List.mem_filter.1 hc).1
  | _ => exact .nil

theorem runDecoded_good (s : State) (p : Parsed Instr) : Good s (s.runDecoded exec p) := by
  rcases p with e | ⟨i, rest⟩
  · cases e <;> exact illegalWord_good s _
  · exact exec_good s i

theorem abandonFetch_good (ws : List Word) (f : AccessFault) (s : State) : Good s (s.abandonFetch exec ws f) := by
  unfold State.abandonFetch
  split
  · split
    · exact privilegeViolation_good s
    · exact (enterGroup0_excepted (s := s) (t := s.drawn 256) _ f fun hm => ⟨hm, atMemory_wouldWrite (s := s.drawn 4) hm _⟩).good
  · exact runDecoded_good s _

theorem refilled_good {s : State} {o : Host.Outcome State Fault Refusal} (h : Good s o) : Good s (refilled o) := by
  cases o with
  | next t =>
    change StepKeeps s (if t.run = .running then t.readAhead else t)
    split
    · exact ⟨by simpa using h.mem, by simpa [State.PcEven] using h.pc, by simpa using h.user⟩
    · exact h
  | _ => trivial

theorem takeWord_sound (s : State) (a : Long) : Sound s (fun p => Keeps s p.2) (s.takeWord a) := by
  unfold State.takeWord
  split
  · exact memRead_sound s .w a true
  · dsimp only
    split
    · exact fun hm => ⟨hm, .nil⟩
    · split
      · exact fun hm => ⟨hm, .nil⟩
      · exact .of_eq rfl rfl rfl rfl

/-- An error of taking a word comes from a state that has been kept. -/
theorem takeWord_error {s : State} {a : Long} {f : AccessFault} {u : State} {p : List Host.Cell}
    (h : s.takeWord a = .error (.access f u p)) : Keeps s u := by
  unfold State.takeWord at h
  split at h
  · obtain ⟨l, k, ⟨v, h'⟩ | ⟨f', h'⟩⟩ := memRead_cases s .w a true <;> rw [h'] at h <;> cases h
    exact .of_eq rfl rfl rfl rfl
  · dsimp only at h
    split at h
    · cases h
      exact .refl s
    · split at h
      · cases h
        exact .of_eq rfl rfl rfl rfl
      · cases h

theorem fetchWords_keeps (s : State) (n : Nat) (a : Long) :
    (∀ u, (s.fetchWords n a).2 = .ok u → Keeps s u) ∧
      ∀ f u p, (s.fetchWords n a).2 = .error (.access f u p) → Keeps s u := by
  induction n generalizing s a with
  | zero => exact ⟨by rintro u ⟨⟩; exact .refl s, by rintro f u p ⟨⟩⟩
  | succ n ih =>
    rw [State.fetchWords]
    obtain ⟨⟨v, t⟩, hr, ht⟩ | ⟨e, hr, he⟩ := (takeWord_sound s a).cases <;> rw [hr]
    · obtain ⟨h1, h2⟩ := ih t (a + 2)
      exact ⟨fun u h => ht.trans (h1 u h), fun f u p h => ht.trans (h2 f u p h)⟩
    · exact ⟨by rintro u ⟨⟩, by rintro f u p ⟨⟩; exact takeWord_error hr⟩

theorem fetch_good (s : State) : Good s (s.fetch exec) := by
  unfold State.fetch
  obtain ⟨⟨v, t⟩, hr, ht⟩ | ⟨e, hr, he⟩ := (takeWord_sound s s.pc).cases <;> rw [hr]
  · have hb : Keeps s (t.begin (BitVec.ofNat 16 v)) := ht.trans (.of_eq rfl rfl rfl rfl)
    dsimp only
    split
    · exact (runDecoded_good _ _).of_keeps hb
    · next rest _ =>
      obtain ⟨h1, h2⟩ := fetchWords_keeps (t.begin (BitVec.ofNat 16 v)) (4 - rest.length) (s.pc + 2)
      split
      · next h => exact (abandonFetch_good _ _ _).of_keeps (hb.trans (h2 _ _ _ (congrArg Prod.snd h)))
      · trivial
      · trivial
      · next h => exact refilled_good ((runDecoded_good _ _).of_keeps (hb.trans (h1 _ (congrArg Prod.snd h))))
  · exact (outcome_excepted _ he).good

theorem proceed_good (s : State) : Good s s.proceed := by
  have hk : Keeps s { s with level7Edge := false } := .of_eq rfl rfl rfl rfl
  unfold State.proceed
  split
  · exact takeTrace_good s
  · split
    · exact takeInterrupt_good s
    · split
      · exact hk.step
      · exact (fetch_good _).of_keeps hk

theorem sampled_keeps (s : State) : Keeps s s.sampled := .of_eq (by simp) (by simp) (by simp) (by simp)

/-- Every step keeps the canonical form of memory and an even pc, and confines a program in user state. -/
theorem step_keeps {s t : State} (h : step s = .next t) :
    (s.mem.wf = true → t.mem.wf = true) ∧ (s.PcEven → t.PcEven) ∧
      (s.sr.s = false → t.sr.s = false → t.sr.t = s.sr.t ∧ t.sr.i = s.sr.i ∧ t.ssp = s.ssp) := by
  have confined : StepKeeps s t → s.sr.s = false → t.sr.s = false → t.sr.t = s.sr.t ∧ t.sr.i = s.sr.i ∧ t.ssp = s.ssp :=
    fun hk hs ht => (hk.user hs).elim (fun h => absurd (h.symm.trans ht) (by decide)) fun ⟨_, h⟩ => h
  unfold step at h
  dsimp only at h
  split at h
  · have hx := (resetSequence_excepted s.sampled).of_mem (sampled_keeps s).mem
    rw [h] at hx
    exact ⟨hx.1, fun _ => hx.2.1, confined hx.good⟩
  · split at h
    · next hrun =>
      split at h <;> cases h
      have hk := sampled_keeps s
      exact ⟨hk.mem, fun _ => .inl hrun, confined hk.step⟩
    · next hrun =>
      have hk := (proceed_good s.sampled).of_keeps (sampled_keeps s)
      rw [h] at hk
      refine ⟨hk.mem, fun hp => hk.pc (hp.resolve_left ?_), confined hk⟩
      rwa [State.sampled_run] at hrun

end Steps

/-- Settles O13: a step that ends in user state has entered no exception, so it ran an instruction, which keeps all but the
flags and the user's registers. -/
theorem userStateConfined : Obligations.UserStateConfined := fun _ _ h => (step_keeps h).2.2

/-- Settles O14: an instruction moves the pc by words or jumps to an even address, an exception ends at one or halts. -/
theorem stepKeepsPcEven : Obligations.StepKeepsPcEven := fun _ _ hp h => (step_keeps h).2.1 hp

/-- Settles O15: every cell that a step stores, or leaves old or new, lies at a memory address. -/
theorem stepKeepsMemoryCanonical : Obligations.StepKeepsMemoryCanonical := fun _ _ hm h => (step_keeps h).1 hm

end Sys2Proof.Machine

/-! Decoding what was encoded (30_encoding.md R80 to R92, R95). The operation word is taken apart into its fields once, each
kind of operand is read back once, and every instruction's row is then a choice by its fields. -/

namespace Sys2Proof

-- One declaration at a time: the check bounds the memory of all threads together.
set_option Elab.async false

section Fields

/-- An operation word by the fields in which the rows of R87 to R92 write theirs: the line, bits 11:9, bit 8, bits 7:6, and
the two halves of bits 5:0. -/
structure OpWord (n line a b c m r : Nat) : Prop where
  eq : n = line * 4096 + a * 512 + b * 256 + c * 64 + m * 8 + r
  line_lt : line < 16
  a_lt : a < 8
  b_lt : b < 2
  c_lt : c < 4
  m_lt : m < 8
  r_lt : r < 8

variable {n line a b c m r : Nat}

/-- What the decoder's slices of an operation word are. -/
theorem OpWord.fields (h : OpWord n line a b c m r) :
    (field n 12 4 = line ∧ field n 9 3 = a ∧ field n 8 1 = b ∧ field n 6 2 = c ∧ field n 3 3 = m ∧ field n 0 3 = r) ∧
      (field n 8 4 = 2 * a + b ∧ field n 6 3 = 4 * b + c ∧ field n 7 1 = c / 2 ∧ field n 6 1 = c % 2) ∧
      (field n 4 2 = m / 2 ∧ field n 3 1 = m % 2 ∧ field n 3 2 = m % 4 ∧ field n 5 1 = m / 4 ∧
        field n 0 4 = 8 * (m % 2) + r) := by
  obtain ⟨rfl, h1, h2, h3, h4, h5, h6⟩ := h
  simp only [field]
  omega

theorem OpWord.lt (h : OpWord n line a b c m r) : n < 65536 := by
  obtain ⟨rfl, h1, h2, h3, h4, h5, h6⟩ := h
  omega

/-- The fixed words of line 0000 are those that an immediate operand would have. -/
theorem OpWord.ne_fixed (h : OpWord n line a b c m r) (hne : b ≠ 0 ∨ ¬(m = 7 ∧ r = 4)) {k : Nat}
    (hk : k % 64 = 60 ∧ k / 256 % 2 = 0) : n ≠ k := by
  obtain ⟨rfl, h1, h2, h3, h4, h5, h6⟩ := h
  omega

theorem regAt_of_field {lo : Nat} {x : Reg} (h : field n lo 3 = x.val) : regAt n lo = x := by
  rw [regAt, h]
  exact Fin.ofNat_val_eq_self x

@[simp] theorem Size.ofCode_code (sz : Size) : Size.ofCode sz.code = some sz := by cases sz <;> rfl

theorem Size.code_lt (sz : Size) : sz.code < 3 := by cases sz <;> decide

@[simp] theorem Size.code_ne_three (sz : Size) : sz.code ≠ 3 := by cases sz <;> decide

@[simp] theorem WL.ofCode_code (sz : WL) : WL.ofCode sz.code = sz := by cases sz <;> rfl

theorem WL.code_lt (sz : WL) : sz.code < 2 := by cases sz <;> decide

@[simp] theorem Cond.ofCode_code (c : Cond) : Cond.ofCode c.code = c := by cases c <;> rfl

theorem Cond.code_lt (c : Cond) : c.code < 16 := by cases c <;> decide

end Fields

/-! Operands read back from their words. -/

section Operands

variable {rest : List Word}

@[simp] theorem lowByte_wordOfByte (v : Byte) : lowByte (wordOfByte v) = v := by
  have := v.isLt
  apply BitVec.eq_of_toNat_eq
  simp only [lowByte, wordOfByte, BitVec.toNat_ofNat]
  omega

theorem longOf_wordsOfLong (v : Long) : longOf (BitVec.ofNat 16 (v.toNat / 65536)) (BitVec.ofNat 16 v.toNat) = v := by
  have := v.isLt
  apply BitVec.eq_of_toNat_eq
  simp only [longOf, BitVec.toNat_ofNat]
  omega

theorem parseImm_words (v : Imm) : parseImm v.size (v.words ++ rest) = .ok (v, rest) := by
  cases v with
  | b v => exact congrArg (fun x => Except.ok (Imm.b x, rest)) (lowByte_wordOfByte v)
  | w v => rfl
  | l v => exact congrArg (fun x => Except.ok (Imm.l x, rest)) (longOf_wordsOfLong v)

/-- The fields of a brief extension word are read back (R84). -/
theorem Index.ofWord_toWord (x : Index) : Index.ofWord x.toWord = x := by
  have ha := Bool.toNat_lt x.isAddr
  have hl := Bool.toNat_lt x.long
  have hr := x.reg.isLt
  have hd := x.d8.isLt
  have hw : x.toWord.toNat = 32768 * x.isAddr.toNat + 4096 * x.reg.val + 2048 * x.long.toNat + x.d8.toNat := by
    rw [Index.toWord, BitVec.toNat_ofNat, Nat.mod_eq_of_lt (by omega)]
  have bit : ∀ b : Bool, (b.toNat == 1) = b := by decide
  have h15 : field x.toWord.toNat 15 1 = x.isAddr.toNat := by rw [hw, field]; omega
  have h12 : field x.toWord.toNat 12 3 = x.reg.val := by rw [hw, field]; omega
  have h11 : field x.toWord.toNat 11 1 = x.long.toNat := by rw [hw, field]; omega
  have h8 : lowByte x.toWord = x.d8 := by
    apply BitVec.eq_of_toNat_eq
    rw [lowByte, hw, BitVec.toNat_ofNat]
    omega
  rw [Index.ofWord, h15, h11, h8, regAt_of_field h12, bit, bit]

theorem Ea.modeBits_lt (ea : Ea) : ea.modeBits < 8 := by cases ea <;> simp [Ea.modeBits]

theorem Ea.regBits_lt (ea : Ea) : ea.regBits < 8 := by
  cases ea with
  | dn r | an r | ind r | postInc r | preDec r | disp r d | index r x => exact r.isLt
  | _ => simp [Ea.regBits]

theorem Mode.ofBits_ea (ea : Ea) : Mode.ofBits ea.modeBits ea.regBits = some ea.mode := by cases ea <;> rfl

theorem parseEa_words {ea : Ea} {sz : Size} (hs : ea.sizeOk sz = true) {x : Reg} (hx : x.val = ea.regBits) :
    parseEa ea.mode x sz (ea.words ++ rest) = .ok (ea, rest) := by
  cases ea with
  | dn r | an r | ind r | postInc r | preDec r | disp r d => rw [Fin.ext (b := r) hx]; rfl
  | index r y =>
    rw [Fin.ext (b := r) hx]
    exact congrArg (fun z => Except.ok (Ea.index r z, rest)) y.ofWord_toWord
  | absL v => exact congrArg (fun z => Except.ok (Ea.absL z, rest)) (longOf_wordsOfLong v)
  | pcIndex y => exact congrArg (fun z => Except.ok (Ea.pcIndex z, rest)) y.ofWord_toWord
  | imm v =>
    have hv : v.size = sz := by simpa [Ea.sizeOk] using hs
    have hp : parseImm sz (v.words ++ rest) = .ok (v, rest) := hv ▸ parseImm_words v
    simp only [Ea.mode, Ea.words, parseEa, hp]
  | absW a | pcDisp d => rfl

theorem ok_iff {cls : Mode → Bool} {sz : Size} {ea : Ea} : ea.ok cls sz = true ↔ cls ea.mode = true ∧ ea.sizeOk sz = true := by
  simp [Ea.ok]

variable {n : Nat} {ea : Ea}

theorem regAt_val {lo : Nat} : (regAt n lo).val = field n lo 3 := by
  exact Nat.mod_mod (n / 2 ^ lo) 8

theorem withEa_encode {cls : Mode → Bool} {sz : Size} (hok : ea.ok cls sz = true) (hm : field n 3 3 = ea.modeBits)
    (hr : field n 0 3 = ea.regBits) (k : Ea → Instr) : withEa cls sz n (ea.words ++ rest) k = .ok (k ea, rest) := by
  obtain ⟨hc, hs⟩ := ok_iff.1 hok
  simp only [withEa, hm, hr, Mode.ofBits_ea, hc, if_true, parseEa_words hs (regAt_val.trans hr)]

theorem withSizeEa_encode {cls : Size → Mode → Bool} {sz : Size} (hok : ea.ok (cls sz) sz = true)
    (hz : field n 6 2 = sz.code) (hm : field n 3 3 = ea.modeBits) (hr : field n 0 3 = ea.regBits) (k : Size → Ea → Instr) :
    withSizeEa cls n (ea.words ++ rest) k = .ok (k sz ea, rest) := by
  simp only [withSizeEa, hz, Size.ofCode_code, withEa_encode hok hm hr]

theorem withImmEa_encode {cls : Mode → Bool} {v : Imm} (hok : ea.ok cls v.size = true) (hz : field n 6 2 = v.size.code)
    (hm : field n 3 3 = ea.modeBits) (hr : field n 0 3 = ea.regBits) (k : Imm → Ea → Instr) :
    withImmEa cls n (v.words ++ ea.words ++ rest) k = .ok (k v ea, rest) := by
  rw [List.append_assoc]
  simp only [withImmEa, hz, Size.ofCode_code, parseImm_words, withEa_encode hok hm hr]

theorem withWordEa_encode {cls : Mode → Bool} {sz : Size} (hok : ea.ok cls sz = true) (hm : field n 3 3 = ea.modeBits)
    (hr : field n 0 3 = ea.regBits) (v : Word) (k : Word → Ea → Instr) :
    withWordEa cls sz n (v :: ea.words ++ rest) k = .ok (k v ea, rest) := withEa_encode hok hm hr (k v)

theorem withDisp_encode {d : Disp} (hd : d.ok = true) (hf : field n 0 8 = d.field) (k : Disp → Instr) :
    withDisp n (d.words ++ rest) k = .ok (k d, rest) := by
  rw [withDisp, hf]
  cases d with
  | word v => rfl
  | byte v =>
    have hv : v.toNat ≠ 0 := fun e => by
      have : v = 0 := BitVec.eq_of_toNat_eq e
      simp [Disp.ok, this] at hd
    rw [Disp.field, if_neg hv, BitVec.ofNat_toNat, BitVec.setWidth_eq]
    rfl

theorem withMoveEas_encode {sz : Size} {src dst : Ea} (hs : src.ok (Mode.isSource sz) sz = true)
    (hd : dst.ok Mode.isDataAlterable sz = true) (hsm : field n 3 3 = src.modeBits) (hsr : field n 0 3 = src.regBits)
    (hdm : field n 6 3 = dst.modeBits) (hdr : field n 9 3 = dst.regBits) (k : Ea → Ea → Instr) :
    withMoveEas sz n (src.words ++ dst.words ++ rest) k = .ok (k src dst, rest) := by
  obtain ⟨hsc, hss⟩ := ok_iff.1 hs
  obtain ⟨hdc, hds⟩ := ok_iff.1 hd
  rw [List.append_assoc]
  simp only [withMoveEas, hsm, hsr, hdm, hdr, Mode.ofBits_ea, hsc, hdc, Bool.and_self, if_true,
    parseEa_words hss (regAt_val.trans hsr), parseEa_words hds (regAt_val.trans hdr)]

end Operands

/-! What a class of modes leaves out, said of the field. -/

section Classes

variable {sz : Size} {ea : Ea}

theorem modeBits_of_isData (h : ea.ok Mode.isData sz = true) : ea.modeBits ≠ 1 := by
  cases ea <;> simp_all [Ea.ok, Ea.mode, Mode.isData, Ea.modeBits]

theorem modeBits_of_isDataAlterable (h : ea.ok Mode.isDataAlterable sz = true) :
    ea.modeBits ≠ 1 ∧ ¬(ea.modeBits = 7 ∧ ea.regBits = 4) := by
  cases ea <;> simp_all [Ea.ok, Ea.mode, Mode.isDataAlterable, Mode.isData, Mode.isAlterable, Ea.modeBits, Ea.regBits]

theorem modeBits_of_isBtstStatic (h : ea.ok Mode.isBtstStatic sz = true) : ¬(ea.modeBits = 7 ∧ ea.regBits = 4) := by
  cases ea <;> simp_all [Ea.ok, Ea.mode, Mode.isBtstStatic, Mode.isData, Ea.modeBits, Ea.regBits]

theorem modeBits_of_isControl (h : ea.ok Mode.isControl sz = true) : ea.modeBits ≠ 0 := by
  cases ea <;> simp_all [Ea.ok, Ea.mode, Mode.isControl, Ea.modeBits]

theorem modeBits_of_isMovemDest (h : ea.ok Mode.isMovemDest sz = true) : ea.modeBits ≠ 0 := by
  cases ea <;> simp_all [Ea.ok, Ea.mode, Mode.isMovemDest, Mode.isControl, Mode.isAlterable, Ea.modeBits]

theorem modeBits_of_isMemoryAlterable (h : ea.ok Mode.isMemoryAlterable sz = true) : ea.modeBits / 2 ≠ 0 := by
  cases ea <;> simp_all [Ea.ok, Ea.mode, Mode.isMemoryAlterable, Mode.isMemory, Mode.isAlterable, Ea.modeBits]

end Classes

end Sys2Proof

/-! The rows of R87 to R92, one at a time: the fields of the operation word of each instruction, and what the decoder reads
from them. -/

namespace Sys2Proof

-- One declaration at a time: the check bounds the memory of all threads together.
set_option Elab.async false

section Rows

variable {n line a b c m r : Nat} {x : Reg} {ea : Ea} {rest : List Word}

theorem OpWord.of (hn : n = line * 4096 + a * 512 + b * 256 + c * 64 + m * 8 + r)
    (hb : line < 16 ∧ a < 8 ∧ b < 2 ∧ c < 4 ∧ m < 8 ∧ r < 8) : OpWord n line a b c m r := by
  obtain ⟨h1, h2, h3, h4, h5, h6⟩ := hb
  exact ⟨hn, h1, h2, h3, h4, h5, h6⟩

theorem OpWord.ofEa (hn : n = line * 4096 + a * 512 + b * 256 + c * 64 + ea.field)
    (hb : line < 16 ∧ a < 8 ∧ b < 2 ∧ c < 4) : OpWord n line a b c ea.modeBits ea.regBits := by
  obtain ⟨h1, h2, h3, h4⟩ := hb
  exact ⟨by rw [hn, Ea.field]; omega, h1, h2, h3, h4, ea.modeBits_lt, ea.regBits_lt⟩

theorem OpWord.regAt9 (h : OpWord n line x.val b c m r) : regAt n 9 = x := by
  obtain ⟨⟨-, h9, -⟩, -⟩ := h.fields
  exact regAt_of_field h9

theorem OpWord.regAt0 (h : OpWord n line a b c m x.val) : regAt n 0 = x := by
  obtain ⟨⟨-, -, -, -, -, h0⟩, -⟩ := h.fields
  exact regAt_of_field h0

/-- ILLEGAL is the word that TAS of an immediate operand would have (R95). -/
theorem OpWord.ne_illegal (h : OpWord n line a b c m r) (hne : ¬(m = 7 ∧ r = 4)) : n ≠ 0x4AFC := by
  obtain ⟨rfl, h1, h2, h3, h4, h5, h6⟩ := h
  omega

theorem OpWord.withEa (h : OpWord n line a b c ea.modeBits ea.regBits) {cls : Mode → Bool} {sz : Size}
    (hok : ea.ok cls sz = true) (k : Ea → Instr) : withEa cls sz n (ea.words ++ rest) k = .ok (k ea, rest) := by
  obtain ⟨⟨-, -, -, -, hm, hr⟩, -⟩ := h.fields
  exact withEa_encode hok hm hr k

theorem OpWord.withSizeEa {cls : Size → Mode → Bool} {sz : Size} (h : OpWord n line a b c ea.modeBits ea.regBits)
    (hz : c = sz.code) (hok : ea.ok (cls sz) sz = true) (k : Size → Ea → Instr) :
    withSizeEa cls n (ea.words ++ rest) k = .ok (k sz ea, rest) := by
  obtain ⟨⟨-, -, -, hc, hm, hr⟩, -⟩ := h.fields
  exact withSizeEa_encode hok (hc.trans hz) hm hr k

theorem OpWord.withImmEa {cls : Mode → Bool} {v : Imm} (h : OpWord n line a b v.size.code ea.modeBits ea.regBits)
    (hok : ea.ok cls v.size = true) (k : Imm → Ea → Instr) :
    withImmEa cls n (v.words ++ (ea.words ++ rest)) k = .ok (k v ea, rest) := by
  obtain ⟨⟨-, -, -, hc, hm, hr⟩, -⟩ := h.fields
  rw [← List.append_assoc]
  exact withImmEa_encode hok hc hm hr k

/-- The operation word of MOVE: the destination's register, then its mode, then the source (R88). -/
theorem OpWord.move {src dst : Ea} (hl : line < 16) (hn : n = line * 4096 + dst.dstField + src.field) :
    OpWord n line dst.regBits (dst.modeBits / 4) (dst.modeBits % 4) src.modeBits src.regBits := by
  have hd := dst.modeBits_lt
  refine .ofEa ?_ ⟨hl, dst.regBits_lt, by omega, by omega⟩
  rw [hn, Ea.dstField]
  omega

theorem OpWord.withMoveEas {sz : Size} {src dst : Ea}
    (h : OpWord n line dst.regBits (dst.modeBits / 4) (dst.modeBits % 4) src.modeBits src.regBits)
    (hi : (src.ok (Mode.isSource sz) sz && dst.ok Mode.isDataAlterable sz) = true) (k : Ea → Ea → Instr) :
    withMoveEas sz n (src.words ++ (dst.words ++ rest)) k = .ok (k src dst, rest) := by
  obtain ⟨hs, hd⟩ := Bool.and_eq_true_iff.1 hi
  obtain ⟨⟨-, h9, -, -, hm, hr⟩, ⟨-, h6, -⟩, -⟩ := h.fields
  rw [← List.append_assoc]
  exact withMoveEas_encode hs hd hm hr (h6.trans (by omega)) h9 k

theorem field_six_move {src dst : Ea} {sz : Size} (h : OpWord n line dst.regBits (dst.modeBits / 4) (dst.modeBits % 4)
    src.modeBits src.regBits) (hi : (src.ok (Mode.isSource sz) sz && dst.ok Mode.isDataAlterable sz) = true) :
    field n 6 3 ≠ 1 := by
  obtain ⟨hs, hd⟩ := Bool.and_eq_true_iff.1 hi
  obtain ⟨hne, -⟩ := modeBits_of_isDataAlterable hd
  obtain ⟨-, ⟨-, h6, -⟩, -⟩ := h.fields
  omega

/-- The fields of a line whose low byte is a value of its own: branches and MOVEQ (R90). -/
theorem fields_of_lowByte {k v : Nat} (hn : n = line * 4096 + k * 256 + v) (hl : line < 16) (hk : k < 16) (hv : v < 256) :
    field n 12 4 = line ∧ field n 8 4 = k ∧ field n 0 8 = v ∧ field n 8 1 = k % 2 ∧ field n 9 3 = k / 2 := by
  subst hn
  simp only [field]
  omega

theorem decodeOp_moveB {src dst : Ea} (hi : (Instr.moveB src dst).wellFormed = true) :
    decodeOp (Instr.moveB src dst).opNat ((Instr.moveB src dst).extension ++ rest) = .ok (.moveB src dst, rest) := by
  have h := OpWord.move (n := (Instr.moveB src dst).opNat) (line := 1) (by omega) rfl
  simp [decodeOp, decodeLineMove, Instr.extension, h.fields, h.withMoveEas hi]

theorem decodeOp_moveW {src dst : Ea} (hi : (Instr.moveW src dst).wellFormed = true) :
    decodeOp (Instr.moveW src dst).opNat ((Instr.moveW src dst).extension ++ rest) = .ok (.moveW src dst, rest) := by
  have h := OpWord.move (n := (Instr.moveW src dst).opNat) (line := 3) (by omega) rfl
  have hne := field_six_move h hi
  obtain ⟨⟨hl, -⟩, -⟩ := h.fields
  simp [decodeOp, decodeLineMove, Instr.extension, hl, hne, h.withMoveEas hi]

theorem decodeOp_moveL {src dst : Ea} (hi : (Instr.moveL src dst).wellFormed = true) :
    decodeOp (Instr.moveL src dst).opNat ((Instr.moveL src dst).extension ++ rest) = .ok (.moveL src dst, rest) := by
  have h := OpWord.move (n := (Instr.moveL src dst).opNat) (line := 2) (by omega) rfl
  have hne := field_six_move h hi
  obtain ⟨⟨hl, -⟩, -⟩ := h.fields
  simp [decodeOp, decodeLineMove, Instr.extension, hl, hne, h.withMoveEas hi]

theorem decodeOp_trap (v : Fin 16) : decodeOp (Instr.trap v).opNat rest = .ok (.trap v, rest) := by
  have h : OpWord (Instr.trap v).opNat 4 7 0 1 (v.val / 8) (v.val % 8) := .of (by simp only [Instr.opNat]; omega) (by omega)
  have hv : Fin.ofNat 16 (8 * (v.val / 8 % 2) + v.val % 8) = v := Fin.ext (by simp only [Fin.val_ofNat]; omega)
  have hm : v.val / 8 = 0 ∨ v.val / 8 = 1 := by omega
  rcases hm with hm | hm <;>
    · rw [hm] at h hv
      simp [decodeOp, decodeLine4, decodeLine4Fixed, h.fields] at hv ⊢
      exact hv

theorem decodeOp_bra {d : Disp} (hi : d.ok = true) :
    decodeOp (Instr.bra d).opNat (d.words ++ rest) = .ok (.bra d, rest) := by
  obtain ⟨hl, hk, hv,
    -⟩ := fields_of_lowByte (n := (Instr.bra d).opNat) (line := 6) (k := 0) rfl (by omega) (by omega) d.field_lt
  simp [decodeOp, decodeLine6, hl, hk, withDisp_encode hi hv]

theorem decodeOp_bsr {d : Disp} (hi : d.ok = true) :
    decodeOp (Instr.bsr d).opNat (d.words ++ rest) = .ok (.bsr d, rest) := by
  obtain ⟨hl, hk, hv,
    -⟩ := fields_of_lowByte (n := (Instr.bsr d).opNat) (line := 6) (k := 1) rfl (by omega) (by omega) d.field_lt
  simp [decodeOp, decodeLine6, hl, hk, withDisp_encode hi hv]

theorem decodeOp_bcc {cond : Cond} {d : Disp} (hi : (cond.isBranch && d.ok) = true) :
    decodeOp (Instr.bcc cond d).opNat (d.words ++ rest) = .ok (.bcc cond d, rest) := by
  obtain ⟨hc, hd⟩ := Bool.and_eq_true_iff.1 hi
  obtain ⟨hl, hk, hv, -⟩ :=
    fields_of_lowByte (n := (Instr.bcc cond d).opNat) (line := 6) rfl (by omega) cond.code_lt d.field_lt
  have h0 : cond.code ≠ 0 ∧ cond.code ≠ 1 := by cases cond <;> simp_all [Cond.isBranch, Cond.code]
  simp [decodeOp, decodeLine6, hl, hk, h0, withDisp_encode hd hv]

theorem decodeOp_moveq (v : Byte) (dn : Reg) : decodeOp (Instr.moveq v dn).opNat rest = .ok (.moveq v dn, rest) := by
  have hv := v.isLt
  obtain ⟨hl, -, h0, h8,
    h9⟩ := fields_of_lowByte (n := (Instr.moveq v dn).opNat) (line := 7) (k := 2 * dn.val) (v := v.toNat)
    (by simp only [Instr.opNat]; omega) (by omega) (by omega) hv
  have hd : regAt (Instr.moveq v dn).opNat 9 = dn := regAt_of_field (by rw [h9]; omega)
  simp [decodeOp, decodeLine7, hl, h0, h8, hd]

end Rows

/-- Each instruction is read back from the fields of its row. -/
theorem decodeOp_encode (i : Instr) (hi : i.wellFormed = true) (rest : List Word) :
    decodeOp i.opNat (i.extension ++ rest) = .ok (i, rest) := by
  cases i with
  | oriToSr v | andiToSr v | eoriToSr v | oriToCcr v | andiToCcr v | eoriToCcr v =>
    simp [decodeOp, decodeLine0, withWord, Instr.opNat, Instr.extension, field]
  | movepToReg sz ay d dx =>
    have hz := sz.code_lt
    have h : OpWord (Instr.movepToReg sz ay d dx).opNat 0 dx.val 1 sz.code 1 ay.val :=
      .of (by simp only [Instr.opNat]; omega) (by omega)
    simp [decodeOp, decodeLine0, Instr.extension, h.fields, h.ne_fixed, withWord, h.regAt9, h.regAt0,
      Nat.div_eq_of_lt hz, Nat.mod_eq_of_lt hz]
  | movepToMem sz dx ay d =>
    have hz := sz.code_lt
    have h : OpWord (Instr.movepToMem sz dx ay d).opNat 0 dx.val 1 (2 + sz.code) 1 ay.val :=
      .of (by simp only [Instr.opNat]; omega) (by omega)
    simp [decodeOp, decodeLine0, Instr.extension, h.fields, h.ne_fixed, withWord, h.regAt9, h.regAt0,
      Nat.add_div_left, Nat.div_eq_of_lt hz, Nat.mod_eq_of_lt hz]
  | btstDn dn ea =>
    have hc := modeBits_of_isData hi
    have h : OpWord (Instr.btstDn dn ea).opNat 0 dn.val 1 0 ea.modeBits ea.regBits :=
      .ofEa (by simp only [Instr.opNat]; omega) (by omega)
    simp [decodeOp, decodeLine0, Instr.extension, h.fields, hc, h.ne_fixed, h.regAt9, h.withEa hi]
  | bchgDn dn ea =>
    have hc := modeBits_of_isDataAlterable hi
    have h : OpWord (Instr.bchgDn dn ea).opNat 0 dn.val 1 1 ea.modeBits ea.regBits :=
      .ofEa (by simp only [Instr.opNat]; omega) (by omega)
    simp [decodeOp, decodeLine0, Instr.extension, h.fields, hc, h.ne_fixed, h.regAt9, h.withEa hi]
  | bclrDn dn ea =>
    have hc := modeBits_of_isDataAlterable hi
    have h : OpWord (Instr.bclrDn dn ea).opNat 0 dn.val 1 2 ea.modeBits ea.regBits :=
      .ofEa (by simp only [Instr.opNat]; omega) (by omega)
    simp [decodeOp, decodeLine0, Instr.extension, h.fields, hc, h.ne_fixed, h.regAt9, h.withEa hi]
  | bsetDn dn ea =>
    have hc := modeBits_of_isDataAlterable hi
    have h : OpWord (Instr.bsetDn dn ea).opNat 0 dn.val 1 3 ea.modeBits ea.regBits :=
      .ofEa (by simp only [Instr.opNat]; omega) (by omega)
    simp [decodeOp, decodeLine0, Instr.extension, h.fields, hc, h.ne_fixed, h.regAt9, h.withEa hi]
  | btstImm v ea =>
    have hc := modeBits_of_isBtstStatic hi
    have h : OpWord (Instr.btstImm v ea).opNat 0 4 0 0 ea.modeBits ea.regBits :=
      .ofEa (by simp only [Instr.opNat]) (by omega)
    simp [decodeOp, decodeLine0, Instr.extension, h.fields, hc, h.ne_fixed, withWordEa, h.withEa hi]
  | bchgImm v ea =>
    have hc := modeBits_of_isDataAlterable hi
    have h : OpWord (Instr.bchgImm v ea).opNat 0 4 0 1 ea.modeBits ea.regBits :=
      .ofEa (by simp only [Instr.opNat]) (by omega)
    simp [decodeOp, decodeLine0, Instr.extension, h.fields, hc, h.ne_fixed, withWordEa, h.withEa hi]
  | bclrImm v ea =>
    have hc := modeBits_of_isDataAlterable hi
    have h : OpWord (Instr.bclrImm v ea).opNat 0 4 0 2 ea.modeBits ea.regBits :=
      .ofEa (by simp only [Instr.opNat]) (by omega)
    simp [decodeOp, decodeLine0, Instr.extension, h.fields, hc, h.ne_fixed, withWordEa, h.withEa hi]
  | bsetImm v ea =>
    have hc := modeBits_of_isDataAlterable hi
    have h : OpWord (Instr.bsetImm v ea).opNat 0 4 0 3 ea.modeBits ea.regBits :=
      .ofEa (by simp only [Instr.opNat]) (by omega)
    simp [decodeOp, decodeLine0, Instr.extension, h.fields, hc, h.ne_fixed, withWordEa, h.withEa hi]
  | ori v ea =>
    have hz := v.size.code_lt
    have hc := modeBits_of_isDataAlterable hi
    have h : OpWord (Instr.ori v ea).opNat 0 0 0 v.size.code ea.modeBits ea.regBits :=
      .ofEa (by simp only [Instr.opNat]) (by omega)
    simp [decodeOp, decodeLine0, Instr.extension, h.fields, hc, h.ne_fixed, h.withImmEa hi]
  | andi v ea =>
    have hz := v.size.code_lt
    have hc := modeBits_of_isDataAlterable hi
    have h : OpWord (Instr.andi v ea).opNat 0 1 0 v.size.code ea.modeBits ea.regBits :=
      .ofEa (by simp only [Instr.opNat]) (by omega)
    simp [decodeOp, decodeLine0, Instr.extension, h.fields, hc, h.ne_fixed, h.withImmEa hi]
  | subi v ea =>
    have hz := v.size.code_lt
    have hc := modeBits_of_isDataAlterable hi
    have h : OpWord (Instr.subi v ea).opNat 0 2 0 v.size.code ea.modeBits ea.regBits :=
      .ofEa (by simp only [Instr.opNat]) (by omega)
    simp [decodeOp, decodeLine0, Instr.extension, h.fields, hc, h.ne_fixed, h.withImmEa hi]
  | addi v ea =>
    have hz := v.size.code_lt
    have hc := modeBits_of_isDataAlterable hi
    have h : OpWord (Instr.addi v ea).opNat 0 3 0 v.size.code ea.modeBits ea.regBits :=
      .ofEa (by simp only [Instr.opNat]) (by omega)
    simp [decodeOp, decodeLine0, Instr.extension, h.fields, hc, h.ne_fixed, h.withImmEa hi]
  | eori v ea =>
    have hz := v.size.code_lt
    have hc := modeBits_of_isDataAlterable hi
    have h : OpWord (Instr.eori v ea).opNat 0 5 0 v.size.code ea.modeBits ea.regBits :=
      .ofEa (by simp only [Instr.opNat]) (by omega)
    simp [decodeOp, decodeLine0, Instr.extension, h.fields, hc, h.ne_fixed, h.withImmEa hi]
  | cmpi v ea =>
    have hz := v.size.code_lt
    have hc := modeBits_of_isDataAlterable hi
    have h : OpWord (Instr.cmpi v ea).opNat 0 6 0 v.size.code ea.modeBits ea.regBits :=
      .ofEa (by simp only [Instr.opNat]) (by omega)
    simp [decodeOp, decodeLine0, Instr.extension, h.fields, hc, h.ne_fixed, h.withImmEa hi]
  | moveaW ea an =>
    have h : OpWord (Instr.moveaW ea an).opNat 3 an.val 0 1 ea.modeBits ea.regBits :=
      .ofEa (by simp only [Instr.opNat]; omega) (by omega)
    simp [decodeOp, decodeLineMove, Instr.extension, h.fields, h.regAt9, h.withEa hi]
  | moveaL ea an =>
    have h : OpWord (Instr.moveaL ea an).opNat 2 an.val 0 1 ea.modeBits ea.regBits :=
      .ofEa (by simp only [Instr.opNat]; omega) (by omega)
    simp [decodeOp, decodeLineMove, Instr.extension, h.fields, h.regAt9, h.withEa hi]
  | moveB src dst => exact decodeOp_moveB hi
  | moveW src dst => exact decodeOp_moveW hi
  | moveL src dst => exact decodeOp_moveL hi
  | resetDevices | nop | stop v | rte | rts | trapv | rtr | illegal =>
    simp [decodeOp, decodeLine4, decodeLine4Fixed, withWord, Instr.opNat, Instr.extension, field]
  | trap v => exact decodeOp_trap v
  | link an d =>
    have h : OpWord (Instr.link an d).opNat 4 7 0 1 2 an.val := .of (by simp only [Instr.opNat]) (by omega)
    simp [decodeOp, decodeLine4, decodeLine4Fixed, Instr.extension, h.fields, h.regAt0, withWord]
  | unlk an =>
    have h : OpWord (Instr.unlk an).opNat 4 7 0 1 3 an.val := .of (by simp only [Instr.opNat]) (by omega)
    simp [decodeOp, decodeLine4, decodeLine4Fixed, Instr.extension, h.fields, h.regAt0]
  | moveToUsp an =>
    have h : OpWord (Instr.moveToUsp an).opNat 4 7 0 1 4 an.val := .of (by simp only [Instr.opNat]) (by omega)
    simp [decodeOp, decodeLine4, decodeLine4Fixed, Instr.extension, h.fields, h.regAt0]
  | moveFromUsp an =>
    have h : OpWord (Instr.moveFromUsp an).opNat 4 7 0 1 5 an.val := .of (by simp only [Instr.opNat]) (by omega)
    simp [decodeOp, decodeLine4, decodeLine4Fixed, Instr.extension, h.fields, h.regAt0]
  | swap dn =>
    have h : OpWord (Instr.swap dn).opNat 4 4 0 1 0 dn.val := .of (by simp only [Instr.opNat]) (by omega)
    simp [decodeOp, decodeLine4, Instr.extension, h.fields, h.regAt0]
  | extW dn =>
    have h : OpWord (Instr.extW dn).opNat 4 4 0 2 0 dn.val := .of (by simp only [Instr.opNat]) (by omega)
    simp [decodeOp, decodeLine4, Instr.extension, h.fields, h.regAt0]
  | extL dn =>
    have h : OpWord (Instr.extL dn).opNat 4 4 0 3 0 dn.val := .of (by simp only [Instr.opNat]) (by omega)
    simp [decodeOp, decodeLine4, Instr.extension, h.fields, h.regAt0]
  | moveFromSr ea =>
    have h : OpWord (Instr.moveFromSr ea).opNat 4 0 0 3 ea.modeBits ea.regBits :=
      .ofEa (by simp only [Instr.opNat]) (by omega)
    simp [decodeOp, decodeLine4, Instr.extension, h.fields, h.withEa hi]
  | moveToCcr ea =>
    have h : OpWord (Instr.moveToCcr ea).opNat 4 2 0 3 ea.modeBits ea.regBits :=
      .ofEa (by simp only [Instr.opNat]) (by omega)
    simp [decodeOp, decodeLine4, Instr.extension, h.fields, h.withEa hi]
  | moveToSr ea =>
    have h : OpWord (Instr.moveToSr ea).opNat 4 3 0 3 ea.modeBits ea.regBits := .ofEa (by simp only [Instr.opNat]) (by omega)
    simp [decodeOp, decodeLine4, Instr.extension, h.fields, h.withEa hi]
  | tas ea =>
    have hc := modeBits_of_isDataAlterable hi
    have h : OpWord (Instr.tas ea).opNat 4 5 0 3 ea.modeBits ea.regBits := .ofEa (by simp only [Instr.opNat]) (by omega)
    simp [decodeOp, decodeLine4, Instr.extension, h.fields, hc, h.ne_illegal, h.withEa hi]
  | chk ea dn =>
    have h : OpWord (Instr.chk ea dn).opNat 4 dn.val 1 2 ea.modeBits ea.regBits :=
      .ofEa (by simp only [Instr.opNat]; omega) (by omega)
    simp [decodeOp, decodeLine4, Instr.extension, h.fields, h.regAt9, h.withEa hi]
  | lea ea an =>
    have h : OpWord (Instr.lea ea an).opNat 4 an.val 1 3 ea.modeBits ea.regBits :=
      .ofEa (by simp only [Instr.opNat]; omega) (by omega)
    simp [decodeOp, decodeLine4, Instr.extension, h.fields, h.regAt9, h.withEa hi]
  | nbcd ea =>
    have h : OpWord (Instr.nbcd ea).opNat 4 4 0 0 ea.modeBits ea.regBits := .ofEa (by simp only [Instr.opNat]) (by omega)
    simp [decodeOp, decodeLine4, Instr.extension, h.fields, h.withEa hi]
  | pea ea =>
    have hc := modeBits_of_isControl hi
    have h : OpWord (Instr.pea ea).opNat 4 4 0 1 ea.modeBits ea.regBits := .ofEa (by simp only [Instr.opNat]) (by omega)
    simp [decodeOp, decodeLine4, Instr.extension, h.fields, hc, h.withEa hi]
  | movemToMem sz mask ea =>
    have hz := sz.code_lt
    have hc := modeBits_of_isMovemDest hi
    have h : OpWord (Instr.movemToMem sz mask ea).opNat 4 4 0 (2 + sz.code) ea.modeBits ea.regBits :=
      .ofEa (by simp only [Instr.opNat]; omega) (by omega)
    cases sz <;> simp [decodeOp, WL.code, decodeLine4, Instr.extension, h.fields, hc, withWordEa] <;> exact h.withEa hi _
  | movemToReg sz ea mask =>
    have hz := sz.code_lt
    have h : OpWord (Instr.movemToReg sz ea mask).opNat 4 6 0 (2 + sz.code) ea.modeBits ea.regBits :=
      .ofEa (by simp only [Instr.opNat]; omega) (by omega)
    cases sz <;> simp [decodeOp, WL.code, decodeLine4, Instr.extension, h.fields, withWordEa] <;> exact h.withEa hi _
  | jsr ea =>
    have h : OpWord (Instr.jsr ea).opNat 4 7 0 2 ea.modeBits ea.regBits := .ofEa (by simp only [Instr.opNat]) (by omega)
    simp [decodeOp, decodeLine4, Instr.extension, h.fields, h.withEa hi]
  | jmp ea =>
    have h : OpWord (Instr.jmp ea).opNat 4 7 0 3 ea.modeBits ea.regBits := .ofEa (by simp only [Instr.opNat]) (by omega)
    simp [decodeOp, decodeLine4, Instr.extension, h.fields, h.withEa hi]
  | negx sz ea =>
    have hz := sz.code_lt
    have h : OpWord (Instr.negx sz ea).opNat 4 0 0 sz.code ea.modeBits ea.regBits :=
      .ofEa (by simp only [Instr.opNat]) (by omega)
    simp [decodeOp, decodeLine4, Instr.extension, h.fields, h.withSizeEa (cls := fun _ => Mode.isDataAlterable) rfl hi]
  | clr sz ea =>
    have hz := sz.code_lt
    have h : OpWord (Instr.clr sz ea).opNat 4 1 0 sz.code ea.modeBits ea.regBits :=
      .ofEa (by simp only [Instr.opNat]) (by omega)
    simp [decodeOp, decodeLine4, Instr.extension, h.fields, h.withSizeEa (cls := fun _ => Mode.isDataAlterable) rfl hi]
  | neg sz ea =>
    have hz := sz.code_lt
    have h : OpWord (Instr.neg sz ea).opNat 4 2 0 sz.code ea.modeBits ea.regBits :=
      .ofEa (by simp only [Instr.opNat]) (by omega)
    simp [decodeOp, decodeLine4, Instr.extension, h.fields, h.withSizeEa (cls := fun _ => Mode.isDataAlterable) rfl hi]
  | notEa sz ea =>
    have hz := sz.code_lt
    have h : OpWord (Instr.notEa sz ea).opNat 4 3 0 sz.code ea.modeBits ea.regBits :=
      .ofEa (by simp only [Instr.opNat]) (by omega)
    simp [decodeOp, decodeLine4, Instr.extension, h.fields, h.withSizeEa (cls := fun _ => Mode.isDataAlterable) rfl hi]
  | tst sz ea =>
    have hz := sz.code_lt
    have hc := modeBits_of_isDataAlterable hi
    have h : OpWord (Instr.tst sz ea).opNat 4 5 0 sz.code ea.modeBits ea.regBits :=
      .ofEa (by simp only [Instr.opNat]) (by omega)
    simp [decodeOp, decodeLine4, Instr.extension, h.fields, hc, h.ne_illegal,
      h.withSizeEa (cls := fun _ => Mode.isDataAlterable) rfl hi]
  | dbcc cond dn d =>
    have hn := cond.code_lt
    have h : OpWord (Instr.dbcc cond dn d).opNat 5 (cond.code / 2) (cond.code % 2) 3 1 dn.val :=
      .of (by simp only [Instr.opNat]; omega) (by omega)
    simp [decodeOp, decodeLine5, Instr.extension, h.fields, Nat.div_add_mod, withWord, h.regAt0]
  | scc cond ea =>
    have hn := cond.code_lt
    have hc := modeBits_of_isDataAlterable hi
    have h : OpWord (Instr.scc cond ea).opNat 5 (cond.code / 2) (cond.code % 2) 3 ea.modeBits ea.regBits :=
      .ofEa (by simp only [Instr.opNat]; omega) (by omega)
    simp [decodeOp, decodeLine5, Instr.extension, h.fields, hc, Nat.div_add_mod, h.withEa hi]
  | addq q sz ea =>
    have hz := sz.code_lt
    have h : OpWord (Instr.addq q sz ea).opNat 5 q.val 0 sz.code ea.modeBits ea.regBits :=
      .ofEa (by simp only [Instr.opNat]; omega) (by omega)
    simp [decodeOp, decodeLine5, Instr.extension, h.fields, h.regAt9, h.withSizeEa (cls := Mode.isQuickDest) rfl hi]
  | subq q sz ea =>
    have hz := sz.code_lt
    have h : OpWord (Instr.subq q sz ea).opNat 5 q.val 1 sz.code ea.modeBits ea.regBits :=
      .ofEa (by simp only [Instr.opNat]; omega) (by omega)
    simp [decodeOp, decodeLine5, Instr.extension, h.fields, h.regAt9, h.withSizeEa (cls := Mode.isQuickDest) rfl hi]
  | bra d => exact decodeOp_bra hi
  | bsr d => exact decodeOp_bsr hi
  | bcc cond d => exact decodeOp_bcc hi
  | moveq v dn => exact decodeOp_moveq v dn
  | divu ea dn =>
    have h : OpWord (Instr.divu ea dn).opNat 8 dn.val 0 3 ea.modeBits ea.regBits :=
      .ofEa (by simp only [Instr.opNat]; omega) (by omega)
    simp [decodeOp, decodeLine8, Instr.extension, h.fields, h.regAt9, h.withEa hi]
  | divs ea dn =>
    have h : OpWord (Instr.divs ea dn).opNat 8 dn.val 1 3 ea.modeBits ea.regBits :=
      .ofEa (by simp only [Instr.opNat]; omega) (by omega)
    simp [decodeOp, decodeLine8, Instr.extension, h.fields, h.regAt9, h.withEa hi]
  | sbcdReg dy dx =>
    have h : OpWord (Instr.sbcdReg dy dx).opNat 8 dx.val 1 0 0 dy.val := .of (by simp only [Instr.opNat]; omega) (by omega)
    simp [decodeOp, decodeLine8, Instr.extension, h.fields, h.regAt9, h.regAt0]
  | sbcdMem ay ax =>
    have h : OpWord (Instr.sbcdMem ay ax).opNat 8 ax.val 1 0 1 ay.val := .of (by simp only [Instr.opNat]; omega) (by omega)
    simp [decodeOp, decodeLine8, Instr.extension, h.fields, h.regAt9, h.regAt0]
  | orEaDn sz ea dn =>
    have hz := sz.code_lt
    have h : OpWord (Instr.orEaDn sz ea dn).opNat 8 dn.val 0 sz.code ea.modeBits ea.regBits :=
      .ofEa (by simp only [Instr.opNat]; omega) (by omega)
    simp [decodeOp, decodeLine8, Instr.extension, h.fields, h.regAt9, h.withSizeEa (cls := fun _ => Mode.isData) rfl hi]
  | orDnEa sz dn ea =>
    have hz := sz.code_lt
    have hc := modeBits_of_isMemoryAlterable hi
    have h : OpWord (Instr.orDnEa sz dn ea).opNat 8 dn.val 1 sz.code ea.modeBits ea.regBits :=
      .ofEa (by simp only [Instr.opNat]; omega) (by omega)
    simp [decodeOp, decodeLine8, Instr.extension, h.fields, hc, h.regAt9,
      h.withSizeEa (cls := fun _ => Mode.isMemoryAlterable) rfl hi]
  | mulu ea dn =>
    have h : OpWord (Instr.mulu ea dn).opNat 12 dn.val 0 3 ea.modeBits ea.regBits :=
      .ofEa (by simp only [Instr.opNat]; omega) (by omega)
    simp [decodeOp, decodeLineC, Instr.extension, h.fields, h.regAt9, h.withEa hi]
  | muls ea dn =>
    have h : OpWord (Instr.muls ea dn).opNat 12 dn.val 1 3 ea.modeBits ea.regBits :=
      .ofEa (by simp only [Instr.opNat]; omega) (by omega)
    simp [decodeOp, decodeLineC, Instr.extension, h.fields, h.regAt9, h.withEa hi]
  | abcdReg dy dx =>
    have h : OpWord (Instr.abcdReg dy dx).opNat 12 dx.val 1 0 0 dy.val := .of (by simp only [Instr.opNat]; omega) (by omega)
    simp [decodeOp, decodeLineC, Instr.extension, h.fields, h.regAt9, h.regAt0]
  | abcdMem ay ax =>
    have h : OpWord (Instr.abcdMem ay ax).opNat 12 ax.val 1 0 1 ay.val := .of (by simp only [Instr.opNat]; omega) (by omega)
    simp [decodeOp, decodeLineC, Instr.extension, h.fields, h.regAt9, h.regAt0]
  | andEaDn sz ea dn =>
    have hz := sz.code_lt
    have h : OpWord (Instr.andEaDn sz ea dn).opNat 12 dn.val 0 sz.code ea.modeBits ea.regBits :=
      .ofEa (by simp only [Instr.opNat]; omega) (by omega)
    simp [decodeOp, decodeLineC, Instr.extension, h.fields, h.regAt9, h.withSizeEa (cls := fun _ => Mode.isData) rfl hi]
  | andDnEa sz dn ea =>
    have hz := sz.code_lt
    have hc := modeBits_of_isMemoryAlterable hi
    have h : OpWord (Instr.andDnEa sz dn ea).opNat 12 dn.val 1 sz.code ea.modeBits ea.regBits :=
      .ofEa (by simp only [Instr.opNat]; omega) (by omega)
    simp [decodeOp, decodeLineC, Instr.extension, h.fields, hc, h.regAt9,
      h.withSizeEa (cls := fun _ => Mode.isMemoryAlterable) rfl hi]
  | exgDD dx dy =>
    have h : OpWord (Instr.exgDD dx dy).opNat 12 dx.val 1 1 0 dy.val := .of (by simp only [Instr.opNat]; omega) (by omega)
    simp [decodeOp, decodeLineC, Instr.extension, h.fields, h.regAt9, h.regAt0]
  | exgAA dx dy =>
    have h : OpWord (Instr.exgAA dx dy).opNat 12 dx.val 1 1 1 dy.val := .of (by simp only [Instr.opNat]; omega) (by omega)
    simp [decodeOp, decodeLineC, Instr.extension, h.fields, h.regAt9, h.regAt0]
  | exgDA dx dy =>
    have h : OpWord (Instr.exgDA dx dy).opNat 12 dx.val 1 2 1 dy.val := .of (by simp only [Instr.opNat]; omega) (by omega)
    simp [decodeOp, decodeLineC, Instr.extension, h.fields, h.regAt9, h.regAt0]
  | suba sz ea an =>
    have hz := sz.code_lt
    have h : OpWord (Instr.suba sz ea an).opNat 9 an.val sz.code 3 ea.modeBits ea.regBits :=
      .ofEa (by simp only [Instr.opNat]; omega) (by omega)
    simp [decodeOp, decodeLineAddSub, Instr.extension, h.fields, Size.ofCode, h.regAt9, h.withEa hi]
  | subxReg sz dy dx =>
    have hz := sz.code_lt
    have h : OpWord (Instr.subxReg sz dy dx).opNat 9 dx.val 1 sz.code 0 dy.val :=
      .of (by simp only [Instr.opNat]; omega) (by omega)
    simp [decodeOp, decodeLineAddSub, Instr.extension, h.fields, h.regAt9, h.regAt0]
  | subxMem sz ay ax =>
    have hz := sz.code_lt
    have h : OpWord (Instr.subxMem sz ay ax).opNat 9 ax.val 1 sz.code 1 ay.val :=
      .of (by simp only [Instr.opNat]; omega) (by omega)
    simp [decodeOp, decodeLineAddSub, Instr.extension, h.fields, h.regAt9, h.regAt0]
  | subEaDn sz ea dn =>
    have hz := sz.code_lt
    have h : OpWord (Instr.subEaDn sz ea dn).opNat 9 dn.val 0 sz.code ea.modeBits ea.regBits :=
      .ofEa (by simp only [Instr.opNat]; omega) (by omega)
    simp [decodeOp, decodeLineAddSub, Instr.extension, h.fields, h.regAt9, h.withEa hi]
  | subDnEa sz dn ea =>
    have hz := sz.code_lt
    have hc := modeBits_of_isMemoryAlterable hi
    have h : OpWord (Instr.subDnEa sz dn ea).opNat 9 dn.val 1 sz.code ea.modeBits ea.regBits :=
      .ofEa (by simp only [Instr.opNat]; omega) (by omega)
    simp [decodeOp, decodeLineAddSub, Instr.extension, h.fields, hc, h.regAt9, h.withEa hi]
  | adda sz ea an =>
    have hz := sz.code_lt
    have h : OpWord (Instr.adda sz ea an).opNat 13 an.val sz.code 3 ea.modeBits ea.regBits :=
      .ofEa (by simp only [Instr.opNat]; omega) (by omega)
    simp [decodeOp, decodeLineAddSub, Instr.extension, h.fields, Size.ofCode, h.regAt9, h.withEa hi]
  | addxReg sz dy dx =>
    have hz := sz.code_lt
    have h : OpWord (Instr.addxReg sz dy dx).opNat 13 dx.val 1 sz.code 0 dy.val :=
      .of (by simp only [Instr.opNat]; omega) (by omega)
    simp [decodeOp, decodeLineAddSub, Instr.extension, h.fields, h.regAt9, h.regAt0]
  | addxMem sz ay ax =>
    have hz := sz.code_lt
    have h : OpWord (Instr.addxMem sz ay ax).opNat 13 ax.val 1 sz.code 1 ay.val :=
      .of (by simp only [Instr.opNat]; omega) (by omega)
    simp [decodeOp, decodeLineAddSub, Instr.extension, h.fields, h.regAt9, h.regAt0]
  | addEaDn sz ea dn =>
    have hz := sz.code_lt
    have h : OpWord (Instr.addEaDn sz ea dn).opNat 13 dn.val 0 sz.code ea.modeBits ea.regBits :=
      .ofEa (by simp only [Instr.opNat]; omega) (by omega)
    simp [decodeOp, decodeLineAddSub, Instr.extension, h.fields, h.regAt9, h.withEa hi]
  | addDnEa sz dn ea =>
    have hz := sz.code_lt
    have hc := modeBits_of_isMemoryAlterable hi
    have h : OpWord (Instr.addDnEa sz dn ea).opNat 13 dn.val 1 sz.code ea.modeBits ea.regBits :=
      .ofEa (by simp only [Instr.opNat]; omega) (by omega)
    simp [decodeOp, decodeLineAddSub, Instr.extension, h.fields, hc, h.regAt9, h.withEa hi]
  | cmpa sz ea an =>
    have hz := sz.code_lt
    have h : OpWord (Instr.cmpa sz ea an).opNat 11 an.val sz.code 3 ea.modeBits ea.regBits :=
      .ofEa (by simp only [Instr.opNat]; omega) (by omega)
    simp [decodeOp, decodeLineB, Instr.extension, h.fields, Size.ofCode, h.regAt9, h.withEa hi]
  | cmpm sz ay ax =>
    have hz := sz.code_lt
    have h : OpWord (Instr.cmpm sz ay ax).opNat 11 ax.val 1 sz.code 1 ay.val :=
      .of (by simp only [Instr.opNat]; omega) (by omega)
    simp [decodeOp, decodeLineB, Instr.extension, h.fields, h.regAt9, h.regAt0]
  | cmp sz ea dn =>
    have hz := sz.code_lt
    have h : OpWord (Instr.cmp sz ea dn).opNat 11 dn.val 0 sz.code ea.modeBits ea.regBits :=
      .ofEa (by simp only [Instr.opNat]; omega) (by omega)
    simp [decodeOp, decodeLineB, Instr.extension, h.fields, h.regAt9, h.withEa hi]
  | eor sz dn ea =>
    have hz := sz.code_lt
    have hc := modeBits_of_isDataAlterable hi
    have h : OpWord (Instr.eor sz dn ea).opNat 11 dn.val 1 sz.code ea.modeBits ea.regBits :=
      .ofEa (by simp only [Instr.opNat]; omega) (by omega)
    simp [decodeOp, decodeLineB, Instr.extension, h.fields, hc, h.regAt9, h.withEa hi]
  | asrMem ea =>
    have h : OpWord (Instr.asrMem ea).opNat 14 0 0 3 ea.modeBits ea.regBits := .ofEa (by simp only [Instr.opNat]) (by omega)
    simp [decodeOp, decodeLineE, decodeShiftMem, Instr.extension, h.fields, Size.ofCode, h.withEa hi]
  | aslMem ea =>
    have h : OpWord (Instr.aslMem ea).opNat 14 0 1 3 ea.modeBits ea.regBits := .ofEa (by simp only [Instr.opNat]) (by omega)
    simp [decodeOp, decodeLineE, decodeShiftMem, Instr.extension, h.fields, Size.ofCode, h.withEa hi]
  | lsrMem ea =>
    have h : OpWord (Instr.lsrMem ea).opNat 14 1 0 3 ea.modeBits ea.regBits := .ofEa (by simp only [Instr.opNat]) (by omega)
    simp [decodeOp, decodeLineE, decodeShiftMem, Instr.extension, h.fields, Size.ofCode, h.withEa hi]
  | lslMem ea =>
    have h : OpWord (Instr.lslMem ea).opNat 14 1 1 3 ea.modeBits ea.regBits := .ofEa (by simp only [Instr.opNat]) (by omega)
    simp [decodeOp, decodeLineE, decodeShiftMem, Instr.extension, h.fields, Size.ofCode, h.withEa hi]
  | roxrMem ea =>
    have h : OpWord (Instr.roxrMem ea).opNat 14 2 0 3 ea.modeBits ea.regBits := .ofEa (by simp only [Instr.opNat]) (by omega)
    simp [decodeOp, decodeLineE, decodeShiftMem, Instr.extension, h.fields, Size.ofCode, h.withEa hi]
  | roxlMem ea =>
    have h : OpWord (Instr.roxlMem ea).opNat 14 2 1 3 ea.modeBits ea.regBits := .ofEa (by simp only [Instr.opNat]) (by omega)
    simp [decodeOp, decodeLineE, decodeShiftMem, Instr.extension, h.fields, Size.ofCode, h.withEa hi]
  | rorMem ea =>
    have h : OpWord (Instr.rorMem ea).opNat 14 3 0 3 ea.modeBits ea.regBits := .ofEa (by simp only [Instr.opNat]) (by omega)
    simp [decodeOp, decodeLineE, decodeShiftMem, Instr.extension, h.fields, Size.ofCode, h.withEa hi]
  | rolMem ea =>
    have h : OpWord (Instr.rolMem ea).opNat 14 3 1 3 ea.modeBits ea.regBits := .ofEa (by simp only [Instr.opNat]) (by omega)
    simp [decodeOp, decodeLineE, decodeShiftMem, Instr.extension, h.fields, Size.ofCode, h.withEa hi]
  | asrImm sz cnt dn =>
    have hz := sz.code_lt
    have h : OpWord (Instr.asrImm sz cnt dn).opNat 14 cnt.val 0 sz.code 0 dn.val :=
      .of (by simp only [Instr.opNat]; omega) (by omega)
    simp [decodeOp, decodeLineE, Instr.extension, h.fields, shiftRegCtor, h.regAt9, h.regAt0]
  | asrReg sz dm dn =>
    have hz := sz.code_lt
    have h : OpWord (Instr.asrReg sz dm dn).opNat 14 dm.val 0 sz.code 4 dn.val :=
      .of (by simp only [Instr.opNat]; omega) (by omega)
    simp [decodeOp, decodeLineE, Instr.extension, h.fields, shiftRegCtor, h.regAt9, h.regAt0]
  | aslImm sz cnt dn =>
    have hz := sz.code_lt
    have h : OpWord (Instr.aslImm sz cnt dn).opNat 14 cnt.val 1 sz.code 0 dn.val :=
      .of (by simp only [Instr.opNat]; omega) (by omega)
    simp [decodeOp, decodeLineE, Instr.extension, h.fields, shiftRegCtor, h.regAt9, h.regAt0]
  | aslReg sz dm dn =>
    have hz := sz.code_lt
    have h : OpWord (Instr.aslReg sz dm dn).opNat 14 dm.val 1 sz.code 4 dn.val :=
      .of (by simp only [Instr.opNat]; omega) (by omega)
    simp [decodeOp, decodeLineE, Instr.extension, h.fields, shiftRegCtor, h.regAt9, h.regAt0]
  | lsrImm sz cnt dn =>
    have hz := sz.code_lt
    have h : OpWord (Instr.lsrImm sz cnt dn).opNat 14 cnt.val 0 sz.code 1 dn.val :=
      .of (by simp only [Instr.opNat]; omega) (by omega)
    simp [decodeOp, decodeLineE, Instr.extension, h.fields, shiftRegCtor, h.regAt9, h.regAt0]
  | lsrReg sz dm dn =>
    have hz := sz.code_lt
    have h : OpWord (Instr.lsrReg sz dm dn).opNat 14 dm.val 0 sz.code 5 dn.val :=
      .of (by simp only [Instr.opNat]; omega) (by omega)
    simp [decodeOp, decodeLineE, Instr.extension, h.fields, shiftRegCtor, h.regAt9, h.regAt0]
  | lslImm sz cnt dn =>
    have hz := sz.code_lt
    have h : OpWord (Instr.lslImm sz cnt dn).opNat 14 cnt.val 1 sz.code 1 dn.val :=
      .of (by simp only [Instr.opNat]; omega) (by omega)
    simp [decodeOp, decodeLineE, Instr.extension, h.fields, shiftRegCtor, h.regAt9, h.regAt0]
  | lslReg sz dm dn =>
    have hz := sz.code_lt
    have h : OpWord (Instr.lslReg sz dm dn).opNat 14 dm.val 1 sz.code 5 dn.val :=
      .of (by simp only [Instr.opNat]; omega) (by omega)
    simp [decodeOp, decodeLineE, Instr.extension, h.fields, shiftRegCtor, h.regAt9, h.regAt0]
  | roxrImm sz cnt dn =>
    have hz := sz.code_lt
    have h : OpWord (Instr.roxrImm sz cnt dn).opNat 14 cnt.val 0 sz.code 2 dn.val :=
      .of (by simp only [Instr.opNat]; omega) (by omega)
    simp [decodeOp, decodeLineE, Instr.extension, h.fields, shiftRegCtor, h.regAt9, h.regAt0]
  | roxrReg sz dm dn =>
    have hz := sz.code_lt
    have h : OpWord (Instr.roxrReg sz dm dn).opNat 14 dm.val 0 sz.code 6 dn.val :=
      .of (by simp only [Instr.opNat]; omega) (by omega)
    simp [decodeOp, decodeLineE, Instr.extension, h.fields, shiftRegCtor, h.regAt9, h.regAt0]
  | roxlImm sz cnt dn =>
    have hz := sz.code_lt
    have h : OpWord (Instr.roxlImm sz cnt dn).opNat 14 cnt.val 1 sz.code 2 dn.val :=
      .of (by simp only [Instr.opNat]; omega) (by omega)
    simp [decodeOp, decodeLineE, Instr.extension, h.fields, shiftRegCtor, h.regAt9, h.regAt0]
  | roxlReg sz dm dn =>
    have hz := sz.code_lt
    have h : OpWord (Instr.roxlReg sz dm dn).opNat 14 dm.val 1 sz.code 6 dn.val :=
      .of (by simp only [Instr.opNat]; omega) (by omega)
    simp [decodeOp, decodeLineE, Instr.extension, h.fields, shiftRegCtor, h.regAt9, h.regAt0]
  | rorImm sz cnt dn =>
    have hz := sz.code_lt
    have h : OpWord (Instr.rorImm sz cnt dn).opNat 14 cnt.val 0 sz.code 3 dn.val :=
      .of (by simp only [Instr.opNat]; omega) (by omega)
    simp [decodeOp, decodeLineE, Instr.extension, h.fields, shiftRegCtor, h.regAt9, h.regAt0]
  | rorReg sz dm dn =>
    have hz := sz.code_lt
    have h : OpWord (Instr.rorReg sz dm dn).opNat 14 dm.val 0 sz.code 7 dn.val :=
      .of (by simp only [Instr.opNat]; omega) (by omega)
    simp [decodeOp, decodeLineE, Instr.extension, h.fields, shiftRegCtor, h.regAt9, h.regAt0]
  | rolImm sz cnt dn =>
    have hz := sz.code_lt
    have h : OpWord (Instr.rolImm sz cnt dn).opNat 14 cnt.val 1 sz.code 3 dn.val :=
      .of (by simp only [Instr.opNat]; omega) (by omega)
    simp [decodeOp, decodeLineE, Instr.extension, h.fields, shiftRegCtor, h.regAt9, h.regAt0]
  | rolReg sz dm dn =>
    have hz := sz.code_lt
    have h : OpWord (Instr.rolReg sz dm dn).opNat 14 dm.val 1 sz.code 7 dn.val :=
      .of (by simp only [Instr.opNat]; omega) (by omega)
    simp [decodeOp, decodeLineE, Instr.extension, h.fields, shiftRegCtor, h.regAt9, h.regAt0]

theorem Ea.field_lt (ea : Ea) : ea.field < 64 := by
  have hm := ea.modeBits_lt
  have hr := ea.regBits_lt
  rw [Ea.field]
  omega

theorem Ea.dstField_lt (ea : Ea) : ea.dstField < 4096 := by
  have hm := ea.modeBits_lt
  have hr := ea.regBits_lt
  rw [Ea.dstField]
  omega

/-- An operation word is a word (R80). -/
theorem Instr.opNat_lt (i : Instr) : i.opNat < 65536 := by
  cases i with
  | oriToCcr | oriToSr | andiToCcr | andiToSr | eoriToCcr | eoriToSr | resetDevices | nop | stop | rte | rts | trapv | rtr
  | illegal => simp [Instr.opNat]
  | trap v =>
    simp only [Instr.opNat]
    omega
  | link an | unlk an | moveToUsp an | moveFromUsp an | swap an | extW an | extL an =>
    simp only [Instr.opNat]
    omega
  | moveB src dst | moveW src dst | moveL src dst =>
    have hs := src.field_lt
    have hd := dst.dstField_lt
    simp only [Instr.opNat]
    omega
  | bra d | bsr d =>
    have hd := d.field_lt
    simp only [Instr.opNat]
    omega
  | bcc cond d =>
    have hd := d.field_lt
    have hc := cond.code_lt
    simp only [Instr.opNat]
    omega
  | dbcc cond dn d =>
    have hc := cond.code_lt
    simp only [Instr.opNat]
    omega
  | scc cond ea =>
    have hc := cond.code_lt
    have he := ea.field_lt
    simp only [Instr.opNat]
    omega
  | moveq v dn =>
    have hv := v.isLt
    simp only [Instr.opNat]
    omega
  | btstDn _ ea | bchgDn _ ea | bclrDn _ ea | bsetDn _ ea | btstImm _ ea | bchgImm _ ea | bclrImm _ ea | bsetImm _ ea
  | moveaW ea | moveaL ea | moveFromSr ea | moveToCcr ea | moveToSr ea | tas ea | chk ea | lea ea | nbcd ea | pea ea | jsr ea
  | jmp ea | divu ea | divs ea | mulu ea | muls ea | asrMem ea | aslMem ea | lsrMem ea | lslMem ea | roxrMem ea | roxlMem ea
  | rorMem ea | rolMem ea =>
    have he := ea.field_lt
    simp only [Instr.opNat]
    omega
  | ori v ea | andi v ea | subi v ea | addi v ea | eori v ea | cmpi v ea =>
    have hv := v.size.code_lt
    have he := ea.field_lt
    simp only [Instr.opNat]
    omega
  | movemToMem sz _ ea | movemToReg sz ea | suba sz ea | cmpa sz ea | adda sz ea | negx sz ea | clr sz ea | neg sz ea
  | notEa sz ea | tst sz ea | addq _ sz ea | subq _ sz ea | orEaDn sz ea | subEaDn sz ea | cmp sz ea | andEaDn sz ea
  | addEaDn sz ea | orDnEa sz _ ea | subDnEa sz _ ea | eor sz _ ea | andDnEa sz _ ea | addDnEa sz _ ea =>
    have hz := sz.code_lt
    have he := ea.field_lt
    simp only [Instr.opNat]
    omega
  | sbcdReg dy dx | sbcdMem dy dx | abcdReg dy dx | abcdMem dy dx | exgDD dx dy | exgAA dx dy | exgDA dx dy =>
    simp only [Instr.opNat]
    omega
  | movepToReg sz | movepToMem sz | subxReg sz | subxMem sz | cmpm sz | addxReg sz | addxMem sz | asrImm sz | asrReg sz
  | aslImm sz | aslReg sz | lsrImm sz | lsrReg sz | lslImm sz | lslReg sz | roxrImm sz | roxrReg sz | roxlImm sz | roxlReg sz
  | rorImm sz | rorReg sz | rolImm sz | rolReg sz =>
    have hz := sz.code_lt
    simp only [Instr.opNat]
    omega

end Sys2Proof

namespace Sys2Proof.Machine

-- One declaration at a time: the check bounds the memory of all threads together.
set_option Elab.async false

/-- Settles O16: the operation word keeps its number, and each row's fields lead back to its instruction. -/
theorem decodeEncode : Obligations.DecodeEncode := by
  intro i rest hi
  have hop : (BitVec.ofNat 16 i.opNat).toNat = i.opNat :=
    (BitVec.toNat_ofNat i.opNat 16).trans (Nat.mod_eq_of_lt i.opNat_lt)
  calc decode (encode i ++ rest) = decodeOp (BitVec.ofNat 16 i.opNat).toNat (i.extension ++ rest) := rfl
    _ = decodeOp i.opNat (i.extension ++ rest) := by rw [hop]
    _ = .ok (i, rest) := decodeOp_encode i hi rest

end Sys2Proof.Machine

/-! What the decoder gives is well-formed and takes the instruction's words (R80, R94, R96): a rule for each way of reading
operands, then each line by its branches. -/

namespace Sys2Proof

-- One declaration at a time: the check bounds the memory of all threads together.
set_option Elab.async false

/-- At most `k` words of `ws` were taken, and `rest` are the others. -/
def Took (k : Nat) (ws rest : List Word) : Prop := ∃ used, ws = used ++ rest ∧ used.length ≤ k

section Took

variable {j k : Nat} {v w : Word} {ws mid rest : List Word}

theorem Took.refl : Took k ws ws := ⟨[], rfl, Nat.zero_le k⟩

theorem Took.one : Took (k + 1) (v :: ws) ws := ⟨[v], rfl, Nat.le_add_left 1 k⟩

theorem Took.two : Took (k + 2) (v :: w :: ws) ws := ⟨[v, w], rfl, Nat.le_add_left 2 k⟩

theorem Took.trans (h : Took j ws mid) (g : Took k mid rest) : Took (j + k) ws rest := by
  obtain ⟨u, rfl, hu⟩ := h
  obtain ⟨v, rfl, hv⟩ := g
  exact ⟨u ++ v, (List.append_assoc ..).symm, by rw [List.length_append]; omega⟩

theorem Took.mono (h : Took j ws rest) (hjk : j ≤ k) : Took k ws rest := by
  obtain ⟨u, hu, hl⟩ := h
  exact ⟨u, hu, hl.trans hjk⟩

end Took

section Parsers

variable {sz : Size} {n : Nat} {ws rest : List Word} {cls : Mode → Bool}

theorem parseImm_took {v : Imm} (h : parseImm sz ws = .ok (v, rest)) : v.size = sz ∧ Took 2 ws rest := by
  unfold parseImm at h
  split at h
  · cases h
    exact ⟨rfl, .one⟩
  · cases h
    exact ⟨rfl, .one⟩
  · cases h
    exact ⟨rfl, .two⟩
  · cases h

theorem parseEa_took {m : Mode} {r : Reg} {ea : Ea} (h : parseEa m r sz ws = .ok (ea, rest)) :
    ea.mode = m ∧ ea.sizeOk sz = true ∧ Took 2 ws rest := by
  cases m with
  | dn | an | ind | postInc | preDec =>
    cases h
    exact ⟨rfl, rfl, .refl⟩
  | disp | index | absW | pcDisp | pcIndex =>
    cases ws with
    | nil => cases h
    | cons v ws =>
      cases h
      exact ⟨rfl, rfl, .one⟩
  | absL =>
    match ws, h with
    | _ :: _ :: _, rfl => exact ⟨rfl, rfl, .two⟩
  | imm =>
    simp only [parseEa] at h
    split at h
    next v _ hv =>
      cases h
      obtain ⟨hz, ht⟩ := parseImm_took hv
      exact ⟨rfl, beq_iff_eq.2 hz, ht⟩
    next => cases h

/-- What comes out of a parser of `ws` is well-formed and took four words at the most: those after the operation word. -/
def Reads (ws : List Word) (p : Parsed Instr) : Prop :=
  ∀ i rest, p = .ok (i, rest) → i.wellFormed = true ∧ Took 4 ws rest

theorem reads_error {e : Reject} : Reads ws (.error e) := fun _ _ h => by cases h

theorem reads_ok {i : Instr} (hi : i.wellFormed = true) : Reads ws (.ok (i, ws)) := by
  rintro _ _ ⟨⟩
  exact ⟨hi, .refl⟩

theorem reads_withWord {k : Word → Instr} (hk : ∀ v, (k v).wellFormed = true) : Reads ws (withWord ws k) := by
  intro i rest h
  cases ws with
  | nil => cases h
  | cons v ws =>
    cases h
    exact ⟨hk v, .one⟩

theorem withEa_took {k : Ea → Instr} {i : Instr} (h : withEa cls sz n ws k = .ok (i, rest)) :
    ∃ ea, i = k ea ∧ ea.ok cls sz = true ∧ Took 2 ws rest := by
  unfold withEa at h
  split at h
  next => cases h
  next m _ =>
    split at h
    next hc =>
      split at h
      next ea _ hp =>
        cases h
        obtain ⟨rfl, hz, ht⟩ := parseEa_took hp
        exact ⟨ea, rfl, ok_iff.2 ⟨hc, hz⟩, ht⟩
      next => cases h
    next => cases h

theorem reads_withEa {k : Ea → Instr} (hk : ∀ ea, ea.ok cls sz = true → (k ea).wellFormed = true) :
    Reads ws (withEa cls sz n ws k) := by
  intro i rest h
  obtain ⟨ea, rfl, hok, ht⟩ := withEa_took h
  exact ⟨hk ea hok, ht.mono (by omega)⟩

theorem reads_withSizeEa {cls : Size → Mode → Bool} {k : Size → Ea → Instr}
    (hk : ∀ sz ea, ea.ok (cls sz) sz = true → (k sz ea).wellFormed = true) : Reads ws (withSizeEa cls n ws k) := by
  unfold withSizeEa
  split
  · exact reads_error
  · exact reads_withEa (hk _)

theorem reads_withImmEa {k : Imm → Ea → Instr} (hk : ∀ v ea, ea.ok cls v.size = true → (k v ea).wellFormed = true) :
    Reads ws (withImmEa cls n ws k) := by
  intro i rest h
  unfold withImmEa at h
  split at h
  next => cases h
  next sz _ =>
    split at h
    next v mid hv =>
      obtain ⟨rfl, hi⟩ := parseImm_took hv
      obtain ⟨ea, rfl, hok, ht⟩ := withEa_took h
      exact ⟨hk v ea hok, hi.trans ht⟩
    next => cases h

theorem reads_withWordEa {k : Word → Ea → Instr} (hk : ∀ v ea, ea.ok cls sz = true → (k v ea).wellFormed = true) :
    Reads ws (withWordEa cls sz n ws k) := by
  intro i rest h
  cases ws with
  | nil => cases h
  | cons v ws =>
    obtain ⟨ea, rfl, hok, ht⟩ := withEa_took h
    exact ⟨hk v ea hok, (Took.one (k := 1)).trans ht⟩

theorem reads_withDisp {k : Disp → Instr} (hk : ∀ d, d.ok = true → (k d).wellFormed = true) :
    Reads ws (withDisp n ws k) := by
  unfold withDisp
  split
  · exact reads_withWord fun v => hk _ rfl
  · next hne =>
    have hf : field n 0 8 < 256 := Nat.mod_lt _ (by decide)
    refine reads_ok (hk _ (bne_iff_ne.2 fun he => hne ?_))
    have := congrArg BitVec.toNat he
    rwa [BitVec.toNat_ofNat, Nat.mod_eq_of_lt hf] at this

theorem reads_withMoveEas {k : Ea → Ea → Instr} (hk : ∀ src dst,
    (src.ok (Mode.isSource sz) sz && dst.ok Mode.isDataAlterable sz) = true → (k src dst).wellFormed = true) :
    Reads ws (withMoveEas sz n ws k) := by
  intro i rest h
  unfold withMoveEas at h
  split at h
  next ms md _ _ =>
    split at h
    next hc =>
      split at h
      next src mid hsrc =>
        split at h
        next dst _ hdst =>
          cases h
          obtain ⟨rfl, hsz, hst⟩ := parseEa_took hsrc
          obtain ⟨rfl, hdz, hdt⟩ := parseEa_took hdst
          obtain ⟨hsc, hdc⟩ := Bool.and_eq_true_iff.1 hc
          exact ⟨hk src dst (Bool.and_eq_true_iff.2 ⟨ok_iff.2 ⟨hsc, hsz⟩, ok_iff.2 ⟨hdc, hdz⟩⟩), hst.trans hdt⟩
        next => cases h
      next => cases h
    next => cases h
  next => cases h

end Parsers

/-! The lines (R87 to R92). -/

section Lines

variable {n : Nat} {ws : List Word}

theorem decodeLine0_reads : Reads ws (decodeLine0 n ws) := by
  unfold decodeLine0
  split_ifs
  · exact reads_withWord fun _ => rfl
  · exact reads_withWord fun _ => rfl
  · exact reads_withWord fun _ => rfl
  · exact reads_withWord fun _ => rfl
  · exact reads_withWord fun _ => rfl
  · exact reads_withWord fun _ => rfl
  · exact reads_withWord fun _ => rfl
  · exact reads_withWord fun _ => rfl
  · split <;> exact reads_withEa fun _ h => h
  · split
    · exact reads_withImmEa fun _ _ h => h
    · exact reads_withImmEa fun _ _ h => h
    · exact reads_withImmEa fun _ _ h => h
    · exact reads_withImmEa fun _ _ h => h
    · split <;> exact reads_withWordEa fun _ _ h => h
    · exact reads_withImmEa fun _ _ h => h
    · exact reads_withImmEa fun _ _ h => h
    · exact reads_error

theorem decodeLineMove_reads {sz : Size} : Reads ws (decodeLineMove sz n ws) := by
  cases sz with
  | b => exact reads_withMoveEas fun _ _ h => h
  | w =>
    simp only [decodeLineMove]
    split
    · exact reads_withEa fun _ h => h
    · exact reads_withMoveEas fun _ _ h => h
  | l =>
    simp only [decodeLineMove]
    split
    · exact reads_withEa fun _ h => h
    · exact reads_withMoveEas fun _ _ h => h

theorem decodeLine4Fixed_reads : Reads ws (decodeLine4Fixed n ws) := by
  unfold decodeLine4Fixed
  split
  case h_3 => exact reads_withWord fun _ => rfl
  case h_7 =>
    split
    case h_3 => exact reads_withWord fun _ => rfl
    case h_8 => exact reads_error
    all_goals exact reads_ok rfl
  case h_8 => exact reads_error
  all_goals exact reads_ok rfl

theorem decodeLine4_reads : Reads ws (decodeLine4 n ws) := by
  unfold decodeLine4
  split
  next =>
    split
    · exact reads_withEa fun _ h => h
    · exact reads_withEa fun _ h => h
    · exact reads_error
  next =>
    split
    · split
      · exact reads_withEa fun _ h => h
      · exact reads_withSizeEa fun _ _ h => h
    · exact reads_withSizeEa fun _ _ h => h
    · split
      · exact reads_withEa fun _ h => h
      · exact reads_withSizeEa fun _ _ h => h
    · split
      · exact reads_withEa fun _ h => h
      · exact reads_withSizeEa fun _ _ h => h
    · split
      · exact reads_withEa fun _ h => h
      · split
        · exact reads_ok rfl
        · exact reads_withEa fun _ h => h
      · split
        · exact reads_ok rfl
        · exact reads_withWordEa fun _ _ h => h
      · split
        · exact reads_ok rfl
        · exact reads_withWordEa fun _ _ h => h
    · split_ifs
      · exact reads_ok rfl
      · exact reads_withEa fun _ h => h
      · exact reads_withSizeEa fun _ _ h => h
    · split
      · exact reads_withWordEa fun _ _ h => h
      · exact reads_withWordEa fun _ _ h => h
      · exact reads_error
    · split
      · exact decodeLine4Fixed_reads
      · exact reads_withEa fun _ h => h
      · exact reads_withEa fun _ h => h
      · exact reads_error

theorem decodeLine5_reads : Reads ws (decodeLine5 n ws) := by
  unfold decodeLine5
  split_ifs
  · exact reads_withWord fun _ => rfl
  · exact reads_withEa fun _ h => h
  · exact reads_withSizeEa fun _ _ h => h
  · exact reads_withSizeEa fun _ _ h => h

theorem Cond.isBranch_ofCode {k : Nat} (h0 : k ≠ 0) (h1 : k ≠ 1) : (Cond.ofCode k).isBranch = true := by
  unfold Cond.ofCode
  split
  · exact absurd rfl h0
  · exact absurd rfl h1
  all_goals rfl

theorem decodeLine6_reads : Reads ws (decodeLine6 n ws) := by
  unfold decodeLine6
  split
  · exact reads_withDisp fun _ h => h
  · next h0 =>
    split
    · exact reads_withDisp fun _ h => h
    · next h1 => exact reads_withDisp fun _ h => Bool.and_eq_true_iff.2 ⟨Cond.isBranch_ofCode h0 h1, h⟩

theorem decodeLine7_reads : Reads ws (decodeLine7 n ws) := by
  unfold decodeLine7
  split
  · exact reads_ok rfl
  · exact reads_error

theorem decodeLine8_reads : Reads ws (decodeLine8 n ws) := by
  unfold decodeLine8
  split_ifs
  · exact reads_withEa fun _ h => h
  · exact reads_withEa fun _ h => h
  · exact reads_withSizeEa fun _ _ h => h
  · exact reads_ok rfl
  · exact reads_ok rfl
  · exact reads_error
  · exact reads_withSizeEa fun _ _ h => h

theorem decodeLineAddSub_reads {toAn : WL → Ea → Reg → Instr} {xReg xMem : Size → Reg → Reg → Instr}
    {toDn : Size → Ea → Reg → Instr} {toEa : Size → Reg → Ea → Instr}
    (hAn : ∀ sz ea an, ea.ok (Mode.isSource sz.size) sz.size = true → (toAn sz ea an).wellFormed = true)
    (hReg : ∀ sz dy dx, (xReg sz dy dx).wellFormed = true) (hMem : ∀ sz ay ax, (xMem sz ay ax).wellFormed = true)
    (hDn : ∀ sz ea dn, ea.ok (Mode.isSource sz) sz = true → (toDn sz ea dn).wellFormed = true)
    (hEa : ∀ sz dn ea, ea.ok Mode.isMemoryAlterable sz = true → (toEa sz dn ea).wellFormed = true) :
    Reads ws (decodeLineAddSub toAn xReg xMem toDn toEa n ws) := by
  unfold decodeLineAddSub
  split
  · exact reads_withEa fun _ h => hAn _ _ _ h
  · split_ifs
    · exact reads_withEa fun _ h => hDn _ _ _ h
    · exact reads_ok (hReg ..)
    · exact reads_ok (hMem ..)
    · exact reads_withEa fun _ h => hEa _ _ _ h

theorem decodeLineB_reads : Reads ws (decodeLineB n ws) := by
  unfold decodeLineB
  split
  · exact reads_withEa fun _ h => h
  · split_ifs
    · exact reads_withEa fun _ h => h
    · exact reads_ok rfl
    · exact reads_withEa fun _ h => h

theorem decodeLineC_reads : Reads ws (decodeLineC n ws) := by
  unfold decodeLineC
  split_ifs
  · exact reads_withEa fun _ h => h
  · exact reads_withEa fun _ h => h
  · exact reads_withSizeEa fun _ _ h => h
  · split
    case h_6 => exact reads_error
    all_goals exact reads_ok rfl
  · exact reads_withSizeEa fun _ _ h => h

theorem shiftRegCtor_wellFormed {kind dir form : Nat} {sz : Size} {x y : Reg} :
    (shiftRegCtor kind dir form sz x y).wellFormed = true := by
  unfold shiftRegCtor
  split <;> rfl

theorem decodeLineE_reads : Reads ws (decodeLineE n ws) := by
  unfold decodeLineE
  split
  · unfold decodeShiftMem
    split
    case h_9 => exact reads_error
    all_goals exact reads_withEa fun _ h => h
  · exact reads_ok shiftRegCtor_wellFormed

theorem decodeOp_reads : Reads ws (decodeOp n ws) := by
  unfold decodeOp
  split
  · exact decodeLine0_reads
  · exact decodeLineMove_reads
  · exact decodeLineMove_reads
  · exact decodeLineMove_reads
  · exact decodeLine4_reads
  · exact decodeLine5_reads
  · exact decodeLine6_reads
  · exact decodeLine7_reads
  · exact decodeLine8_reads
  · exact decodeLineAddSub_reads (fun _ _ _ h => h) (fun _ _ _ => rfl) (fun _ _ _ => rfl) (fun _ _ _ h => h) fun _ _ _ h => h
  · exact reads_error
  · exact decodeLineB_reads
  · exact decodeLineC_reads
  · exact decodeLineAddSub_reads (fun _ _ _ h => h) (fun _ _ _ => rfl) (fun _ _ _ => rfl) (fun _ _ _ h => h) fun _ _ _ h => h
  · exact decodeLineE_reads
  · exact reads_error

end Lines

end Sys2Proof

namespace Sys2Proof.Machine

-- One declaration at a time: the check bounds the memory of all threads together.
set_option Elab.async false

/-- Settles O17: the operation word, and what its line reads. -/
theorem decodeWellFormed : Obligations.DecodeWellFormed := by
  intro ws rest i h
  cases ws with
  | nil => cases h
  | cons op ws =>
    obtain ⟨hi, used, rfl, hl⟩ := decodeOp_reads i rest h
    exact ⟨hi, op :: used, rfl, Nat.le_add_left 1 _, Nat.succ_le_succ hl⟩

/-- Settles O18, by running the decoder. -/
theorem decodeWords : Obligations.DecodeWords := by
  unfold Obligations.DecodeWords
  decide

end Sys2Proof.Machine

/-! MOVE, MOVEA and the standard and immediate instructions (41_move.md, 42_standard.md, 43_immediate.md): each reads operands
that can be read, and its result and flags are the exact ones. -/

namespace Sys2Proof.Machine

-- One declaration at a time: the check bounds the memory of all threads together.
set_option Elab.async false

/-! Rules of the shared operations. -/

section Shared

variable {s : State} {n : Nat} {sz : Size} {ea : Ea}

@[simp] theorem State.skip_zero (s : State) : s.skip 0 = s := by simp [State.skip]

@[simp] theorem past_dlow (s : State) (n : Nat) (sz sz' : Size) (ea : Ea) (r : Reg) :
    (s.past n sz ea).dlow sz' r = lowBits sz'.bits (s.dreg r) := by
  rw [State.dlow, dreg_of_d (past_d s n sz ea)]

theorem past_valueAt_mem (s : State) (n : Nat) (sz sz' : Size) (ea : Ea) (a : Long) : (s.past n sz ea).peek sz' a = s.peek sz' a :=
  peek_congr (past_mem s n sz ea) sz' a

/-- An instruction that reads, computes and stores back, where all of it can be done. -/
theorem finish_modifyEa (hm : s.mem.wf = true) (ha : ea.mode ≠ .an) (hr : s.CanRead sz (s.operandAt n sz ea))
    (hw : (s.past n sz ea).CanWrite sz (s.operandAt n sz ea)) (tm : Time) (regs : List RegRef)
    (g : Nat → StatusReg → Nat × StatusReg) :
    ∃ t, s.finish tm regs ((s.skip n).modifyEa sz ea g) =
        .next ((t.setSr (g (s.valueAt sz (s.operandAt n sz ea)) s.sr).2).charge tm) ∧
      Wrote (s.past n sz ea) sz (s.operandAt n sz ea) (g (s.valueAt sz (s.operandAt n sz ea)) s.sr).1 t := by
  obtain ⟨t, ht, hW⟩ := modifyEa_ok hm ha hr hw g
  exact ⟨t, by rw [ht, finish_ok], hW⟩

/-- One that only sets flags from its operand. -/
theorem finish_testEa (hr : s.CanRead sz (s.operandAt n sz ea)) (tm : Time) (regs : List RegRef)
    (g : Nat → StatusReg → StatusReg) :
    s.finish tm regs ((s.skip n).testEa sz ea g) =
      .next (((s.past n sz ea).setSr (g (s.valueAt sz (s.operandAt n sz ea)) s.sr)).charge tm) := by
  rw [testEa_ok hr, finish_ok]

/-- One that reads an operand first goes on with its value, past it. -/
theorem readEa_bind {α : Type} (hr : s.CanRead sz (s.operandAt n sz ea)) (k : Fetched → Except Stop α) :
    ((s.skip n).readEa sz ea >>= k) =
      k { value := s.valueAt sz (s.operandAt n sz ea), loc := s.operandAt n sz ea, state := s.past n sz ea } := by
  rw [readEa_ok hr]
  rfl

/-- Storing an operand leaves the status register. -/
theorem Wrote.sr {u t : State} {l : Loc} {v : Nat} (h : Wrote u sz l v t) : t.sr = u.sr := by
  cases l with
  | d r => rw [show t = _ from h]
  | a r => rw [show t = _ from h, State.setA_sr]
  | imm w => rw [show t = _ from h]
  | mem a p =>
    obtain ⟨ht, -⟩ := h
    rw [ht]

theorem time_ite (c : Prop) [Decidable c] (d e : Descriptor) : time (if c then d else e) = if c then time d else time e :=
  apply_ite time c d e

end Shared

/-! MOVE and MOVEA. -/

section Move

variable {s : State} {sz : Size} {src dst : Ea}

theorem moveEa_ok (hs : src.sizeOk sz = true) (hm : s.mem.wf = true) (hd : dst.mode ≠ .an)
    (hr : s.CanRead sz (s.operandAt 1 sz src))
    (hw : ((s.past 1 sz src).past 0 sz dst).CanWrite sz ((s.past 1 sz src).operandAt 0 sz dst)) :
    ∃ t, moveEa sz src dst s = .next ((t.setSr (moveFlags sz.bits (s.valueAt sz (s.operandAt 1 sz src)) s.sr)).charge
        (moveTime sz src.mode dst.mode)) ∧
      Wrote ((s.past 1 sz src).past 0 sz dst) sz ((s.past 1 sz src).operandAt 0 sz dst)
        (s.valueAt sz (s.operandAt 1 sz src)) t := by
  have hm' : (s.past 1 sz src).mem.wf = true := by rwa [past_mem]
  obtain ⟨t, ht, hW⟩ := writeEa_ok hm' hd hw (s.valueAt sz (s.operandAt 1 sz src))
  have hsr : t.sr = s.sr := by rw [hW.sr, past_sr, past_sr]
  refine ⟨t, ?_, hW⟩
  simp only [moveEa, readEa_ok hr, orPending_ok, bind, Except.bind, ht, finish_ok, hsr,
    flagsLogic_eq sz.bits _ (bits_pos sz) (valueAt_lt hs)]
  rfl

theorem moveaEa_ok (hs : src.sizeOk sz = true) (an : Reg) (hr : s.CanRead sz (s.operandAt 1 sz src)) :
    moveaEa sz src an s =
      .next (((s.past 1 sz src).setA an (extended sz (s.valueAt sz (s.operandAt 1 sz src)))).charge
        (moveTime sz src.mode .an)) := by
  rw [moveaEa, readEa_bind hr, finish_ok, sext_extended sz _ (valueAt_lt hs)]
  rfl

end Move

/-- Settles O29: the three sizes are one meaning, a read, a store and the flags of the value moved. -/
theorem moveResult : Obligations.MoveResult := by
  intro s sz src dst i hi hok hm l u p hr hw
  have key : exec i s = moveEa sz src dst s ∧ src.ok (Mode.isSource sz) sz = true ∧ dst.ok Mode.isDataAlterable sz = true := by
    simp only [List.mem_cons, List.not_mem_nil, or_false, Prod.mk.injEq] at hi
    obtain ⟨rfl, rfl⟩ | ⟨rfl, rfl⟩ | ⟨rfl, rfl⟩ := hi
    · exact ⟨rfl, Bool.and_eq_true_iff.1 hok⟩
    · exact ⟨rfl, Bool.and_eq_true_iff.1 hok⟩
    · exact ⟨rfl, Bool.and_eq_true_iff.1 hok⟩
  obtain ⟨hexec, hs, hd⟩ := key
  rw [hexec]
  exact moveEa_ok (ok_sizeOk hs) hm (ne_an rfl (ok_cls hd)) hr hw

/-! ADD, SUB, AND, OR, EOR. -/

section Alu

variable {s : State} {op : AluOp} {sz : Size} {ea : Ea}

theorem aluEaDn_ok (hs : ea.sizeOk sz = true) (dn : Reg) (hr : s.CanRead sz (s.operandAt 1 sz ea)) :
    aluEaDn op sz ea dn s = .next (({ s.past 1 sz ea with
      d := s.d.set dn (withLowBits sz.bits (s.dreg dn)
        (exactAlu op sz.bits (s.valueAt sz (s.operandAt 1 sz ea)) (lowBits sz.bits (s.dreg dn))))
      sr := exactFlags op sz.bits (s.valueAt sz (s.operandAt 1 sz ea)) (lowBits sz.bits (s.dreg dn)) s.sr } : State).charge
      (time (.aluEaDn sz ea.mode))) := by
  have hv : s.valueAt sz (s.operandAt 1 sz ea) < 2 ^ sz.bits := valueAt_lt hs
  have hd := lowBits_lt sz.bits (s.dreg dn)
  rw [aluEaDn, readEa_bind hr]
  simp only [past_dlow, past_sr, aluResult_fst op sz _ _ _ hv hd, aluResult_snd op sz _ _ _ hv hd, finish_ok]
  rw [withLowBits_d _ s (past_d s 1 sz ea)]
  rfl

/-- An operation of a value with an operand in place: the exact result and its flags. -/
theorem finish_aluResult {n v : Nat} (hs : ea.sizeOk sz = true) (ha : ea.mode ≠ .an) (hv : v < 2 ^ sz.bits)
    (hm : s.mem.wf = true) (hr : s.CanRead sz (s.operandAt n sz ea))
    (hw : (s.past n sz ea).CanWrite sz (s.operandAt n sz ea)) (tm : Time) (regs : List RegRef) :
    ∃ t, s.finish tm regs ((s.skip n).modifyEa sz ea (aluResult op sz.bits v)) =
        .next ((t.setSr (exactFlags op sz.bits v (s.valueAt sz (s.operandAt n sz ea)) s.sr)).charge tm) ∧
      Wrote (s.past n sz ea) sz (s.operandAt n sz ea) (exactAlu op sz.bits v (s.valueAt sz (s.operandAt n sz ea))) t := by
  have hd : s.valueAt sz (s.operandAt n sz ea) < 2 ^ sz.bits := valueAt_lt hs
  obtain ⟨t, ht, hW⟩ := finish_modifyEa hm ha hr hw tm regs (aluResult op sz.bits v)
  rw [aluResult_snd op sz _ _ _ hv hd] at ht
  rw [aluResult_fst op sz _ _ _ hv hd] at hW
  exact ⟨t, ht, hW⟩

/-- ADDA and SUBA, before their sign is said. -/
theorem aluAn_ok (hs : ea.sizeOk sz = true) (subtract : Bool) (an : Reg) (hr : s.CanRead sz (s.operandAt 1 sz ea)) :
    aluAn subtract sz ea an s = .next (((s.past 1 sz ea).setA an
      (if subtract then (s.past 1 sz ea).areg an - extended sz (s.valueAt sz (s.operandAt 1 sz ea))
        else (s.past 1 sz ea).areg an + extended sz (s.valueAt sz (s.operandAt 1 sz ea)))).charge
      (time (.aluAn sz ea.mode))) := by
  rw [aluAn, readEa_bind hr, sext_extended sz _ (valueAt_lt hs), finish_ok]

end Alu

/-- Settles O30: MOVEA, ADDA and SUBA write what they compute from the extended source. -/
theorem addressRegisterResult : Obligations.AddressRegisterResult := by
  intro s sz src an hok hr u v
  have hs := ok_sizeOk hok
  refine ⟨?_, aluAn_ok hs false an hr, aluAn_ok hs true an hr⟩
  cases sz with
  | w => exact moveaEa_ok hs an hr
  | l => exact moveaEa_ok hs an hr

/-- Settles O31: the four operations are one meaning. -/
theorem aluToRegister : Obligations.AluToRegister := by
  intro s sz ea dn i op hi hok hr v d
  have key : exec i s = aluEaDn op sz ea dn s ∧ ea.sizeOk sz = true := by
    simp only [List.mem_cons, List.not_mem_nil, or_false, Prod.mk.injEq] at hi
    obtain ⟨rfl, rfl⟩ | ⟨rfl, rfl⟩ | ⟨rfl, rfl⟩ | ⟨rfl, rfl⟩ := hi
    · exact ⟨rfl, ok_sizeOk hok⟩
    · exact ⟨rfl, ok_sizeOk hok⟩
    · exact ⟨rfl, ok_sizeOk hok⟩
    · exact ⟨rfl, ok_sizeOk hok⟩
  obtain ⟨hexec, hs⟩ := key
  rw [hexec]
  exact aluEaDn_ok hs dn hr

/-- Settles O32: the five operations are one meaning, with the operand's own place and time. -/
theorem aluToEa : Obligations.AluToEa := by
  intro s sz ea dn i op tm hi hok hm l u v hr hw
  have key : exec i s = s.finish tm (eaTargets ea) ((s.skip 1).modifyEa sz ea (aluResult op sz.bits v)) ∧
      ea.sizeOk sz = true ∧ ea.mode ≠ .an := by
    simp only [List.mem_cons, List.not_mem_nil, or_false, Prod.mk.injEq] at hi
    obtain ⟨rfl, rfl, rfl⟩ | ⟨rfl, rfl, rfl⟩ | ⟨rfl, rfl, rfl⟩ | ⟨rfl, rfl, rfl⟩ | ⟨rfl, rfl, rfl⟩ := hi
    · exact ⟨rfl, ok_sizeOk hok, ne_an rfl (ok_cls hok)⟩
    · exact ⟨rfl, ok_sizeOk hok, ne_an rfl (ok_cls hok)⟩
    · exact ⟨rfl, ok_sizeOk hok, ne_an rfl (ok_cls hok)⟩
    · exact ⟨rfl, ok_sizeOk hok, ne_an rfl (ok_cls hok)⟩
    · refine ⟨?_, ok_sizeOk hok, ne_an rfl (ok_cls hok)⟩
      rw [← time_ite]
      rfl
  obtain ⟨hexec, hs, ha⟩ := key
  rw [hexec]
  exact finish_aluResult hs ha (lowBits_lt _ _) hm hr hw tm _

/-! Immediates. -/

section Immediate

theorem immWords_eq (v : Imm) : immWords v = if v.size = .l then 3 else 2 := by cases v <;> rfl

theorem immValue_lt (v : Imm) : immValue v < 2 ^ v.size.bits := by
  cases v with
  | b v => exact v.isLt
  | w v => exact v.isLt
  | l v => exact v.isLt

end Immediate

/-- Settles O37: the five operations are one meaning; its time is the register's or the memory cell. -/
theorem immediateResult : Obligations.ImmediateResult := by
  intro s v ea i op tm hi hok hm n l u hr hw
  have hn : immWords v = n := immWords_eq v
  have key : exec i s = s.finish (if ea.mode = .dn then time (.immDn v.size) else tm) (eaTargets ea)
        ((s.skip n).modifyEa v.size ea (aluResult op v.size.bits (immValue v))) ∧
      ea.ok Mode.isDataAlterable v.size = true := by
    simp only [List.mem_cons, List.not_mem_nil, or_false, Prod.mk.injEq] at hi
    obtain ⟨rfl, rfl, rfl⟩ | ⟨rfl, rfl, rfl⟩ | ⟨rfl, rfl, rfl⟩ | ⟨rfl, rfl, rfl⟩ | ⟨rfl, rfl, rfl⟩ := hi <;>
      · refine ⟨?_, hok⟩
        rw [← time_ite, ← hn]
        rfl
  obtain ⟨hexec, hok'⟩ := key
  rw [hexec]
  exact finish_aluResult (ok_sizeOk hok') (ne_an rfl (ok_cls hok')) (immValue_lt v) hm hr hw _ _

/-! Comparisons. -/

section Compare

variable {s : State}

/-- The comparison of 32 bits. -/
theorem cmp_long_eq (v d : Long) (sr : StatusReg) :
    flagsCmp 32 v.toNat d.toNat (subResult 32 v.toNat d.toNat) sr = compareFlags 32 v.toNat d.toNat sr :=
  cmp_eq .l v.toNat d.toNat v.isLt d.isLt sr

theorem exec_cmp {sz : Size} {ea : Ea} {r : Reg} (hs : ea.sizeOk sz = true) (hr : s.CanRead sz (s.operandAt 1 sz ea)) :
    exec (.cmp sz ea r) s = .next (((s.past 1 sz ea).setSr
      (compareFlags sz.bits (s.valueAt sz (s.operandAt 1 sz ea)) (lowBits sz.bits (s.dreg r)) s.sr)).charge
      (time (.cmp sz ea.mode))) := by
  have arm : exec (.cmp sz ea r) s = execCmp sz ea r s := rfl
  rw [arm, execCmp, readEa_bind hr]
  simp only [past_dlow, past_sr, cmp_eq sz _ _ (valueAt_lt hs) (lowBits_lt _ _), finish_ok]

theorem exec_cmpa {sz : WL} {ea : Ea} {r : Reg} (hs : ea.sizeOk sz.size = true)
    (hr : s.CanRead sz.size (s.operandAt 1 sz.size ea)) :
    exec (.cmpa sz ea r) s = .next (((s.past 1 sz.size ea).setSr
      (compareFlags 32 (extended sz.size (s.valueAt sz.size (s.operandAt 1 sz.size ea))).toNat
        ((s.past 1 sz.size ea).areg r).toNat s.sr)).charge (time (.cmpa sz.size ea.mode))) := by
  have arm : exec (.cmpa sz ea r) s = execCmpa sz ea r s := rfl
  rw [arm, execCmpa, readEa_bind hr]
  simp only [past_sr, sext_extended sz.size _ (valueAt_lt hs), cmp_long_eq, finish_ok]

theorem exec_cmpi {v : Imm} {ea : Ea} (hs : ea.sizeOk v.size = true)
    (hr : s.CanRead v.size (s.operandAt (immWords v) v.size ea)) :
    exec (.cmpi v ea) s = .next (((s.past (immWords v) v.size ea).setSr
      (compareFlags v.size.bits (immValue v) (s.valueAt v.size (s.operandAt (immWords v) v.size ea)) s.sr)).charge
      (if ea.mode = .dn then time (.cmpiDn v.size) else time (.cmpiMem v.size ea.mode))) := by
  have arm : exec (.cmpi v ea) s = execCmpi v ea s := rfl
  rw [arm, execCmpi, finish_testEa hr, cmp_eq v.size _ _ (immValue_lt v) (valueAt_lt hs), time_ite]

/-- CMPM reads `(Ay)+`, then `(Ax)+` past it. -/
theorem exec_cmpm {sz : Size} {r q : Reg} (hr : s.CanReach sz (s.areg r))
    (hq : s.CanReach sz ((s.past 1 sz (.postInc r)).areg q)) :
    exec (.cmpm sz r q) s = .next ((((s.past 1 sz (.postInc r)).past 0 sz (.postInc q)).setSr
      (compareFlags sz.bits (s.peek sz (s.areg r)) (s.peek sz ((s.past 1 sz (.postInc r)).areg q)) s.sr)).charge
      (time (.cmpm sz))) := by
  let u := s.past 1 sz (.postInc r)
  have hu : u.CanRead sz (u.operandAt 0 sz (.postInc q)) := by
    have : (u.skip 0).CanReach sz (u.areg q) := (CanReach_congr (by simp [u]) _ _).2 hq
    simpa [State.operandAt, State.locate, State.CanRead] using this
  have hv : u.valueAt sz (u.operandAt 0 sz (.postInc q)) = s.peek sz (u.areg q) := by
    simp [State.operandAt, State.locate, State.valueAt, u, past_valueAt_mem]
  have arm : exec (.cmpm sz r q) s = execCmpm sz r q s := rfl
  rw [arm, execCmpm, readEa_bind (ea := .postInc r) hr]
  have ht := testEa_ok hu (fun d sr => flagsCmp sz.bits (s.peek sz (s.areg r)) d (subResult sz.bits (s.peek sz (s.areg r)) d) sr)
  rw [State.skip_zero, hv, past_sr, cmp_eq sz _ _ (peek_lt s sz _) (peek_lt s sz _)] at ht
  exact congrArg (s.finish (time (.cmpm sz)) [.a r, .a q]) ht

end Compare

/-- Settles O33: each comparison sets the flags of the exact difference and stores nothing. -/
theorem compare : Obligations.Compare := by
  intro s sz wl ea r q v
  refine ⟨fun hok hr => exec_cmp (ok_sizeOk hok) hr, fun hok hr => exec_cmpa (ok_sizeOk hok) hr, ?_, exec_cmpm⟩
  intro hok n hr
  have hn : immWords v = n := immWords_eq v
  rw [← hn] at hr ⊢
  exact exec_cmpi (ok_sizeOk hok) hr

end Sys2Proof.Machine

/-! Single operand instructions, shifts and rotates, bit manipulation and the moves of the status register
(44_single_operand.md, 45_shift_rotate.md, 46_bit_manipulation.md, 49_multiprecision_misc_movep.md section 3). -/

namespace Sys2Proof.Machine

-- One declaration at a time: the check bounds the memory of all threads together.
set_option Elab.async false

/-! Results with X (R341, R342). -/

section Extend

variable {sz : Size} {s d : Nat}

theorem addxResult_eq (x : Bool) : addxResult sz.bits s d x = exactExtend false sz.bits s d x := by
  simp only [addxResult, exactExtend, trunc]
  cases sz <;> simp only [Size.bits] <;> simp <;> omega

theorem subxResult_eq (hs : s < 2 ^ sz.bits) (x : Bool) : subxResult sz.bits s d x = exactExtend true sz.bits s d x := by
  have hx := Bool.toNat_le x
  simp only [subxResult, exactExtend, trunc]
  cases sz <;> simp only [Size.bits] at * <;> simp <;> omega

theorem addxOp_eq (hs : s < 2 ^ sz.bits) (hd : d < 2 ^ sz.bits) (sr : StatusReg) :
    addxOp sz.bits s d sr = (exactExtend false sz.bits s d sr.x, extendFlags false sz.bits s d sr) := by
  have hx := Bool.toNat_le sr.x
  have hlt : exactExtend false sz.bits s d sr.x < 2 ^ sz.bits := addxResult_eq (sz := sz) sr.x ▸ Nat.mod_lt _ (Nat.two_pow_pos _)
  rw [addxOp, addxResult_eq]
  refine congrArg (Prod.mk _) ?_
  simp only [flagsAddx, extendFlags, msb_neg _ _ hlt, beq_decide, Bool.and_comm (decide _) sr.z]
  congr 1
  rw [← msb_neg _ _ hlt, Bool.eq_iff_iff]
  cases sz <;> simp only [Size.bits] at * <;> simp only [msb, signed, exactExtend] at * <;> simp <;>
    split <;> split <;> split <;> omega

theorem subxOp_eq (hs : s < 2 ^ sz.bits) (hd : d < 2 ^ sz.bits) (sr : StatusReg) :
    subxOp sz.bits s d sr = (exactExtend true sz.bits s d sr.x, extendFlags true sz.bits s d sr) := by
  have hx := Bool.toNat_le sr.x
  have hlt : exactExtend true sz.bits s d sr.x < 2 ^ sz.bits :=
    subxResult_eq (sz := sz) hs sr.x ▸ Nat.mod_lt _ (Nat.two_pow_pos _)
  rw [subxOp, subxResult_eq hs]
  refine congrArg (Prod.mk _) ?_
  simp only [flagsSubx, extendFlags, msb_neg _ _ hlt, beq_decide, Bool.and_comm (decide _) sr.z]
  congr 1
  rw [← msb_neg _ _ hlt, Bool.eq_iff_iff]
  cases sz <;> simp only [Size.bits] at * <;> simp only [msb, signed, exactExtend] at * <;> simp <;>
    split <;> split <;> split <;> omega

end Extend

/-! CLR, NEG, NEGX, NOT, TST. -/

section Single

variable {s : State} {sz : Size} {ea : Ea}

/-- The complement of an operand is the exclusive or with ones. -/
theorem ones_sub_eq_xor {bits d : Nat} (h : d < 2 ^ bits) : 2 ^ bits - 1 - d = d ^^^ (2 ^ bits - 1) := by
  apply Nat.eq_of_testBit_eq
  intro k
  rw [Nat.sub_sub, Nat.add_comm 1 d, Nat.testBit_two_pow_sub_succ h, Nat.testBit_xor, Nat.testBit_two_pow_sub_one]
  by_cases hk : k < bits
  · simp [hk]
  · have hd : d.testBit k = false := Nat.testBit_lt_two_pow (h.trans_le (Nat.pow_le_pow_right Nat.two_pos (by omega)))
    simp [hk, hd]

theorem moveFlags_zero (bits : Nat) (sr : StatusReg) :
    moveFlags bits 0 sr = { sr with n := false, z := true, v := false, c := false } := by
  simp [moveFlags]

theorem singleTime_eq : singleTime sz ea = if ea.mode = .dn then time (.singleDn sz) else time (.singleMem sz ea.mode) :=
  time_ite ..

/-- A single operand instruction whose result and flags are `r` and `f`. -/
theorem singleEa_ok {g : Nat → StatusReg → Nat × StatusReg} {r : Nat} {f : StatusReg} (hok : ea.ok Mode.isDataAlterable sz = true)
    (hm : s.mem.wf = true) (hr : s.CanRead sz (s.operandAt 1 sz ea))
    (hw : (s.past 1 sz ea).CanWrite sz (s.operandAt 1 sz ea))
    (hg : g (s.valueAt sz (s.operandAt 1 sz ea)) s.sr = (r, f)) :
    ∃ t, singleEa sz ea g s = .next ((t.setSr f).charge
        (if ea.mode = .dn then time (.singleDn sz) else time (.singleMem sz ea.mode))) ∧
      Wrote (s.past 1 sz ea) sz (s.operandAt 1 sz ea) r t := by
  obtain ⟨t, ht, hW⟩ := finish_modifyEa hm (ne_an rfl (ok_cls hok)) hr hw (singleTime sz ea) (eaTargets ea) g
  rw [hg] at ht hW
  rw [← singleTime_eq]
  exact ⟨t, ht, hW⟩

end Single

/-- Settles O39: TST sets the flags of its operand; the others are one meaning with a result of their own. -/
theorem singleResult : Obligations.SingleResult := by
  intro s sz ea hok l u d hr
  have hd : d < 2 ^ sz.bits := valueAt_lt (ok_sizeOk hok)
  constructor
  · have ht := finish_testEa hr (time (.tst sz ea.mode)) (eaUpdates ea) (fun d sr => flagsLogic sz.bits d sr)
    rw [flagsLogic_eq sz.bits _ (bits_pos sz) hd] at ht
    exact ht
  · intro i r f hi hm hw
    simp only [List.mem_cons, List.not_mem_nil, or_false, Prod.mk.injEq] at hi
    obtain ⟨rfl, rfl, rfl⟩ | ⟨rfl, rfl, rfl⟩ | ⟨rfl, rfl, rfl⟩ | ⟨rfl, rfl, rfl⟩ := hi
    · refine singleEa_ok hok hm hr hw ?_
      rw [moveFlags_zero]
    · have h0 : 0 < 2 ^ sz.bits := Nat.two_pow_pos _
      exact singleEa_ok (g := fun d sr => aluResult .sub sz.bits d 0 sr) hok hm hr hw
        (Prod.ext (aluResult_fst .sub sz d 0 s.sr hd h0) (aluResult_snd .sub sz d 0 s.sr hd h0))
    · exact singleEa_ok (g := fun d sr => subxOp sz.bits d 0 sr) hok hm hr hw (subxOp_eq hd (Nat.two_pow_pos _) s.sr)
    · refine singleEa_ok hok hm hr hw ?_
      have hx : d ^^^ (2 ^ sz.bits - 1) < 2 ^ sz.bits := by
        rw [← ones_sub_eq_xor hd]
        omega
      rw [ones_sub_eq_xor hd, flagsLogic_eq sz.bits _ (bits_pos sz) hx]

/-! Scc and TAS. -/

section SetByte

variable {s : State} {ea : Ea}

/-- A store that keeps the flags: setting them back changes nothing. -/
theorem Wrote.setSr_past {n : Nat} {sz : Size} {l : Loc} {v : Nat} {t : State} (h : Wrote (s.past n sz ea) sz l v t) :
    t.setSr s.sr = t := by
  have hsr : t.sr = s.sr := by rw [h.sr, past_sr]
  rw [← hsr]
  rfl

theorem exec_tas_forbidden (hf : s.tasForbidden = true) (hd : ea.mode ≠ .dn) :
    exec (.tas ea) s = .refused .tasForbidden := by
  have arm : exec (.tas ea) s = execTas ea s := rfl
  rw [arm, execTas, hf, if_pos (by simpa using hd)]

theorem exec_tas (h : s.tasForbidden = false ∨ ea.mode = .dn) :
    exec (.tas ea) s = s.finish (time (if ea.mode = .dn then .tasDn else .tasMem ea.mode)) (eaTargets ea)
      ((s.skip 1).testAndModifyEa .b ea (fun d sr => (d ||| 128, flagsLogic 8 d sr))) := by
  have arm : exec (.tas ea) s = execTas ea s := rfl
  rw [arm, execTas, if_neg]
  rcases h with h | h <;> simp [h]

end SetByte

/-- Settles O40: Scc stores its byte and the flags it found; TAS sets its flags first, which is the same where nothing fails. -/
theorem setByte : Obligations.SetByte := by
  intro s cond ea hok hm l u
  refine ⟨exec_tas_forbidden, fun hr hw => ⟨?_, fun hf => ?_⟩⟩
  · obtain ⟨t, ht, hW⟩ := finish_modifyEa hm (ne_an rfl (ok_cls hok)) hr hw
      (time (if ea.mode = .dn then .sccDn (s.sr.cond cond) else .sccMem ea.mode)) (eaTargets ea)
      (fun _ sr => (if sr.cond cond then 255 else 0, sr))
    refine ⟨t, ht.trans ?_, hW⟩
    rw [hW.setSr_past, time_ite]
    rfl
  · obtain ⟨t, ht, hW⟩ := testAndModifyEa_ok hm (ne_an rfl (ok_cls hok)) hr hw
      (fun d sr => (d ||| 128, flagsLogic 8 d sr))
    have hv : s.valueAt .b l < 2 ^ 8 := valueAt_lt (sz := .b) (ok_sizeOk hok)
    refine ⟨t, ?_, hW⟩
    rw [exec_tas hf, ht, finish_ok, flagsLogic_eq 8 _ (by decide) hv, time_ite]
    rfl

/-! Shifts and rotates. -/

section Shift

variable {s : State} {op : ShiftOp} {sz : Size} {n : Nat} {dn : Reg}

theorem time_shiftDn : time (.shiftDn sz n) = ⟨(if sz = .l then 8 else 6) + 2 * n, 1, 0⟩ := by cases sz <;> rfl

theorem shiftDn_eq : shiftDn op sz n dn s = .next (({ s with
    pc := s.pc + 2, d := s.d.set dn (withLowBits sz.bits (s.dreg dn) (shiftResult op sz.bits n (lowBits sz.bits (s.dreg dn)) s.sr).1)
    sr := (shiftResult op sz.bits n (lowBits sz.bits (s.dreg dn)) s.sr).2 } : State).charge
    ⟨(if sz = .l then 8 else 6) + 2 * n, 1, 0⟩) := by
  rw [← time_shiftDn]
  rfl

end Shift

/-- Settles O42: the sixteen forms are one meaning, the count of a field or of a register. -/
theorem shiftRegister : Obligations.ShiftRegister := by
  intro s sz c dn i op n hi r
  have key : exec i s = shiftDn op sz n dn s := by
    simp only [List.mem_append, List.mem_cons, List.not_mem_nil, or_false, Prod.mk.injEq] at hi
    obtain (⟨rfl, rfl, rfl⟩ | ⟨rfl, rfl, rfl⟩ | ⟨rfl, rfl, rfl⟩ | ⟨rfl, rfl, rfl⟩ | ⟨rfl, rfl, rfl⟩ | ⟨rfl, rfl, rfl⟩ |
      ⟨rfl, rfl, rfl⟩ | ⟨rfl, rfl, rfl⟩) | ⟨rfl, rfl, rfl⟩ | ⟨rfl, rfl, rfl⟩ | ⟨rfl, rfl, rfl⟩ | ⟨rfl, rfl, rfl⟩ |
      ⟨rfl, rfl, rfl⟩ | ⟨rfl, rfl, rfl⟩ | ⟨rfl, rfl, rfl⟩ | ⟨rfl, rfl, rfl⟩ := hi <;> rfl
  rw [key]
  exact shiftDn_eq

/-- Settles O43: the eight forms are one meaning. -/
theorem shiftMemory : Obligations.ShiftMemory := by
  intro s ea i op hi hok hm l u r hr hw
  have key : exec i s = shiftMem op ea s ∧ ea.ok Mode.isMemoryAlterable .w = true := by
    simp only [List.mem_cons, List.not_mem_nil, or_false, Prod.mk.injEq] at hi
    obtain ⟨rfl, rfl⟩ | ⟨rfl, rfl⟩ | ⟨rfl, rfl⟩ | ⟨rfl, rfl⟩ | ⟨rfl, rfl⟩ | ⟨rfl, rfl⟩ | ⟨rfl, rfl⟩ | ⟨rfl, rfl⟩ := hi <;>
      exact ⟨rfl, hok⟩
  obtain ⟨hexec, hok'⟩ := key
  rw [hexec]
  exact finish_modifyEa hm (ne_an rfl (ok_cls hok')) hr hw _ _ (fun d sr => shiftResult op 16 1 d sr)

/-! Bits. -/

section Bits

/-- What a bit instruction leaves of its operand, without a choice. -/
theorem bitOpResult_eq (op : BitOp) (d k : Nat) : bitOpResult op d k =
    match op with | .tst => d | .chg => d ^^^ 2 ^ k | .clr => d - (d &&& 2 ^ k) | .set => d ||| 2 ^ k := by
  cases op with
  | clr =>
    rw [bitOpResult, bitAt_eq_testBit, Nat.and_two_pow]
    cases d.testBit k <;> simp
  | _ => rfl

/-- The clocks of a bit operation on a register are even, and within R273's bounds. -/
theorem bitOpClocks_bounds (op : BitOp) (static : Bool) (b : Nat) (hop : op ≠ .tst) :
    bitOpClocks op static b % 2 = 0 ∧ (if static then 8 else 4) ≤ bitOpClocks op static b ∧
      bitOpClocks op static b ≤ (if op = .clr then 10 else 8) + if static then 4 else 0 := by
  have hlt := Nat.mod_lt (Config.bitOpDraw op static b)
    (Nat.succ_pos ((bitOpMax op static - if static then 8 else 4) / 2))
  unfold bitOpClocks
  cases op with
  | tst => exact absurd rfl hop
  | chg | clr | set => cases static <;> simp [bitOpMax] at hlt ⊢ <;> omega

/-- The clocks of a bit instruction on a register. -/
def bitDnClocks (op : BitOp) (static : Bool) (b : Nat) : Nat :=
  match op with
  | .tst => if static then 10 else 6
  | _ => bitOpClocks op static b

theorem bitOpTime_dn (op : BitOp) (static : Bool) (b : Nat) (r : Reg) :
    bitOpTime op static b (.dn r) = ⟨bitDnClocks op static b, if static then 2 else 1, 0⟩ := by
  cases op <;> cases static <;> rfl

theorem bitOpTime_mem {ea : Ea} (h : ea.mode ≠ .dn) (op : BitOp) (static : Bool) (b : Nat) :
    bitOpTime op static b ea = if op = .tst then time (.btstMem static ea.mode) else time (.bitMem static ea.mode) := by
  cases op <;> simp [bitOpTime, h]

variable {s : State} {op : BitOp} {static : Bool} {raw : Nat}

theorem bitOpEa_dn (r : Reg) : bitOpEa op static raw (.dn r) s = .next (({ s.past (if static then 2 else 1) .b (.dn r) with
    d := s.d.set r (BitVec.ofNat 32 (bitOpResult op (s.dreg r).toNat (raw % 32)))
    sr := { s.sr with z := !(s.dreg r).toNat.testBit (raw % 32) } } : State).charge
    ⟨bitDnClocks op static (raw % 32), if static then 2 else 1, 0⟩) := by
  rw [← bitOpTime_dn op static (raw % 32) r, ← bitAt_eq_testBit]
  rfl

theorem bitOpEa_tst {ea : Ea} (h : ea.mode ≠ .dn) : bitOpEa .tst static raw ea s =
    s.finish (bitOpTime .tst static (raw % 8) ea) (eaUpdates ea) ((s.skip (if static then 2 else 1)).testEa .b ea
      (fun d sr => { sr with z := !bitAt d (raw % 8) })) := by
  cases ea with
  | dn r => exact absurd rfl h
  | _ => rfl

theorem bitOpEa_store {ea : Ea} (h : ea.mode ≠ .dn) (hop : op ≠ .tst) : bitOpEa op static raw ea s =
    s.finish (bitOpTime op static (raw % 8) ea) (eaTargets ea) ((s.skip (if static then 2 else 1)).testAndModifyEa .b ea
      (fun d sr => (bitOpResult op d (raw % 8), { sr with z := !bitAt d (raw % 8) }))) := by
  cases ea with
  | dn r => exact absurd rfl h
  | _ => exact if_neg hop

end Bits

/-- Settles O44: the eight instructions are one meaning; on a register with its own clocks, elsewhere through the operand's
place, which BTST only reads. -/
theorem bitResult : Obligations.BitResult := by
  intro s ea dn b i op n raw hi hok l u apply
  have key : ∃ static : Bool, exec i s = bitOpEa op static raw ea s ∧ n = (if static then 2 else 1) ∧ ea.mode ≠ .an := by
    simp only [List.mem_cons, List.not_mem_nil, or_false, Prod.mk.injEq] at hi
    obtain ⟨rfl, rfl, rfl, rfl⟩ | ⟨rfl, rfl, rfl, rfl⟩ | ⟨rfl, rfl, rfl, rfl⟩ | ⟨rfl, rfl, rfl, rfl⟩ | ⟨rfl, rfl, rfl, rfl⟩ |
      ⟨rfl, rfl, rfl, rfl⟩ | ⟨rfl, rfl, rfl, rfl⟩ | ⟨rfl, rfl, rfl, rfl⟩ := hi
    · exact ⟨false, rfl, rfl, ne_an rfl (ok_cls hok)⟩
    · exact ⟨false, rfl, rfl, ne_an rfl (ok_cls hok)⟩
    · exact ⟨false, rfl, rfl, ne_an rfl (ok_cls hok)⟩
    · exact ⟨false, rfl, rfl, ne_an rfl (ok_cls hok)⟩
    · exact ⟨true, rfl, rfl, ne_an rfl (ok_cls hok)⟩
    · exact ⟨true, rfl, rfl, ne_an rfl (ok_cls hok)⟩
    · exact ⟨true, rfl, rfl, ne_an rfl (ok_cls hok)⟩
    · exact ⟨true, rfl, rfl, ne_an rfl (ok_cls hok)⟩
  obtain ⟨static, hexec, rfl, ha⟩ := key
  have happly : ∀ d k, bitOpResult op d k = apply d k := bitOpResult_eq op
  rw [hexec]
  refine ⟨?register, ?memory⟩
  case register =>
    rintro r rfl
    refine ⟨bitDnClocks op static (raw % 32), ?_, fun hop => ?_, ?_⟩
    · rintro rfl
      cases static <;> rfl
    · obtain ⟨he, hl, hu⟩ := bitOpClocks_bounds op static (raw % 32) hop
      have hk : bitDnClocks op static (raw % 32) = bitOpClocks op static (raw % 32) := by
        cases op with
        | tst => exact absurd rfl hop
        | _ => rfl
      rw [hk]
      cases static <;> exact ⟨he, hl, hu⟩
    · rw [bitOpEa_dn, happly]
  case memory =>
    intro hd hm hr hw
    have hn : ((if static then 2 else 1) == 2) = static := by cases static <;> rfl
    rw [hn, ← bitOpTime_mem hd op static (raw % 8), ← bitAt_eq_testBit]
    by_cases hop : op = .tst
    · subst hop
      refine ⟨u, ?_, fun _ => rfl, fun h => absurd rfl h⟩
      rw [bitOpEa_tst hd, finish_testEa hr]
      rfl
    · obtain ⟨t, ht, hW⟩ := testAndModifyEa_ok hm ha hr (hw hop)
        (fun d sr => (bitOpResult op d (raw % 8), { sr with z := !bitAt d (raw % 8) }))
      refine ⟨t, ?_, fun h => absurd h hop, fun _ => ?_⟩
      · rw [bitOpEa_store hd hop, ht, finish_ok]
        rfl
      · rw [← happly]
        exact hW

/-! MOVE to CCR, MOVE to SR, MOVE from SR. -/

/-- Settles O53: the sources are words that become a status register; MOVE from SR stores its word. -/
theorem moveStatus : Obligations.MoveStatus := by
  intro s ea l u v
  refine ⟨fun hok hr => ⟨⟨s.sr.withCcr (s.valueAt .w l), ?_, s.sr.toWord_withCcr _⟩, fun hs =>
    ⟨StatusReg.ofNat (s.valueAt .w l), ?_, StatusReg.toWord_ofNat _⟩⟩, fun hok hm hr hw => ?_⟩
  · exact finish_testEa hr (time (.moveToStatus ea.mode)) (eaUpdates ea) (fun v sr => sr.withCcr v)
  · have arm : exec (.moveToSr ea) s = execMoveToSr ea s := rfl
    rw [arm, execMoveToSr, privileged_supervisor hs, finish_testEa hr]
    rfl
  · obtain ⟨t, ht, hW⟩ := finish_modifyEa hm (ne_an rfl (ok_cls hok)) hr hw
      (time (if ea.mode = .dn then .moveFromSrDn else .moveFromSrMem ea.mode)) (eaTargets ea)
      (fun _ sr => (sr.toWord.toNat, sr))
    refine ⟨t, ht.trans ?_, hW⟩
    rw [hW.setSr_past, time_ite]
    rfl

end Sys2Proof.Machine

/-! Multi-precision and decimal arithmetic, CHK and division (49_multiprecision_misc_movep.md sections 1 and 4,
  42_standard.md
section 5). -/

namespace Sys2Proof.Machine

-- One declaration at a time: the check bounds the memory of all threads together.
set_option Elab.async false

/-! Draws made before an operand is read make no difference to where it is and what it holds. -/

section Drawn

variable (s : State) (k n : Nat) (sz : Size) (ea : Ea)

theorem State.setA_drawn (r : Reg) (v : Long) : (s.drawn k).setA r v = (s.setA r v).drawn k := by
  unfold State.setA State.setSp
  split
  · rfl
  · rw [State.drawn_sr]
    split <;> rfl

theorem operandAt_drawn : (s.drawn k).operandAt n sz ea = s.operandAt n sz ea := by cases ea <;> rfl

theorem past_drawn : (s.drawn k).past n sz ea = (s.past n sz ea).drawn k := by
  cases ea with
  | postInc r | preDec r => exact State.setA_drawn (s.skip n) k r _
  | _ => rfl

theorem valueAt_drawn (l : Loc) : (s.drawn k).valueAt sz l = s.valueAt sz l := by cases l <;> rfl

variable {s k sz}

theorem Wrote.of_drawn {u t : State} {l : Loc} {v : Nat} (h : Wrote (u.drawn k) sz l v t) :
    Wrote u sz l v { t with draws := u.draws } ∧ t.draws = u.draws + k := by
  cases l with
  | d r =>
    rw [show t = _ from h]
    exact ⟨rfl, rfl⟩
  | a r =>
    rw [show t = _ from h, State.setA_drawn, State.drawn_draws, State.setA_draws]
    refine ⟨?_, rfl⟩
    have hd := State.setA_draws u r (extended sz v)
    change _ = u.setA r (extended sz v)
    rw [← hd]
    rfl
  | imm w =>
    rw [show t = _ from h]
    exact ⟨rfl, rfl⟩
  | mem a p =>
    obtain ⟨ht, hS⟩ := h
    refine ⟨⟨?_, (Stored_congr rfl rfl).1 hS⟩, by rw [ht]; rfl⟩
    rw [ht]
    rfl

end Drawn

/-! The pairs `-(Ay),-(Ax)`. -/

section Pairs

theorem operandAt_preDec (s : State) (n : Nat) (sz : Size) (r : Reg) :
    s.operandAt n sz (.preDec r) = .mem ((s.past n sz (.preDec r)).areg r) false := by
  have h : (s.past n sz (.preDec r)).areg r = (s.skip n).areg r - increment sz r := State.areg_setA_same _ _
  rw [h]
  rfl

/-- Source first, then destination: the result stands where the destination stood, and its flags are set. -/
theorem preDecPair_ok {s : State} {sz : Size} {y x : Reg} (g : Nat → Nat → StatusReg → Nat × StatusReg) (hm : s.mem.wf = true)
    (hy : s.CanReach sz ((s.past 1 sz (.preDec y)).areg y))
    (hx : ((s.past 1 sz (.preDec y)).past 0 sz (.preDec x)).CanStore sz
      (((s.past 1 sz (.preDec y)).past 0 sz (.preDec x)).areg x)) :
    ∃ m k, (s.skip 1).preDecPair g sz y x = .ok { (s.past 1 sz (.preDec y)).past 0 sz (.preDec x) with
        mem := m, book := k
        sr := (g (s.peek sz ((s.past 1 sz (.preDec y)).areg y))
          (s.peek sz (((s.past 1 sz (.preDec y)).past 0 sz (.preDec x)).areg x)) s.sr).2 } ∧
      Stored s m sz.bytes (((s.past 1 sz (.preDec y)).past 0 sz (.preDec x)).areg x)
        (g (s.peek sz ((s.past 1 sz (.preDec y)).areg y))
          (s.peek sz (((s.past 1 sz (.preDec y)).past 0 sz (.preDec x)).areg x)) s.sr).1 := by
  have hp := operandAt_preDec s 1 sz y
  set p := s.past 1 sz (.preDec y) with hpdef
  have hu := operandAt_preDec p 0 sz x
  set u := p.past 0 sz (.preDec x) with hudef
  have hread : (s.skip 1).readEa sz (.preDec y) =
      .ok { value := s.peek sz (p.areg y), loc := .mem (p.areg y) false, state := p } := by
    have := readEa_ok (n := 1) (show s.CanRead sz (s.operandAt 1 sz (.preDec y)) by rw [hp]; exact hy)
    rwa [hp] at this
  have hval : p.valueAt sz (.mem (u.areg x) false) = s.peek sz (u.areg x) := past_valueAt_mem s 1 sz sz _ _
  have hsr : p.sr = s.sr := past_sr ..
  obtain ⟨t, ht, hW⟩ := modifyEa_ok (s := p) (n := 0) (ea := .preDec x) (by rwa [past_mem]) nofun
    (by rw [hu]; exact (CanReach_congr (by simp [u]) _ _).1 hx.1) (by rw [hu]; exact hx)
    (fun d sr => g (s.peek sz (p.areg y)) d sr)
  rw [State.skip_zero, hu, hval, hsr] at ht
  rw [hu, hval, hsr] at hW
  obtain ⟨hteq, hS⟩ := hW
  refine ⟨t.mem, t.book, ?_, (Stored_congr (by simp [p]) (by simp [p])).1 hS⟩
  simp only [State.preDecPair, hread, orPending_ok, bind, Except.bind, ht]
  rw [hteq]
  rfl

end Pairs

/-- Settles O50: both forms apply one operation, whose result and flags are exact. -/
theorem extendResult : Obligations.ExtendResult := by
  intro s sz y x sub
  have hop : ∀ v d sr, v < 2 ^ sz.bits → d < 2 ^ sz.bits → (if sub then subxOp sz.bits else addxOp sz.bits) v d sr =
      (exactExtend sub sz.bits v d sr.x, extendFlags sub sz.bits v d sr) := fun v d sr hv hd => by
    cases sub
    · exact addxOp_eq hv hd sr
    · exact subxOp_eq hv hd sr
  constructor
  · intro v d
    have hexec : exec (if sub then .subxReg sz y x else .addxReg sz y x) s =
        extendReg (if sub then subxOp sz.bits else addxOp sz.bits) sz y x s := by cases sub <;> rfl
    have htime : time (.extendDn sz) = if sz = .l then ⟨8, 1, 0⟩ else ⟨4, 1, 0⟩ := by cases sz <;> rfl
    rw [hexec, extendReg, hop _ _ _ (dlow_lt ..) (dlow_lt ..), htime]
    rfl
  · intro u ys xd hm hy hx
    have hexec : exec (if sub then .subxMem sz y x else .addxMem sz y x) s = s.finish (time (.extendMem sz)) [.a y, .a x]
        ((s.skip 1).preDecPair (if sub then subxOp sz.bits else addxOp sz.bits) sz y x) := by cases sub <;> rfl
    have htime : time (.extendMem sz) = if sz = .l then ⟨30, 5, 2⟩ else ⟨18, 3, 1⟩ := by cases sz <;> rfl
    obtain ⟨m, k, h, hS⟩ := preDecPair_ok (if sub then subxOp sz.bits else addxOp sz.bits) hm hy hx
    rw [hop _ _ _ (peek_lt ..) (peek_lt ..)] at h hS
    exact ⟨m, k, by rw [hexec, h, htime]; rfl, hS⟩

/-! Decimal arithmetic on digits (R232, R344, R345). -/

section Decimal

/-- What a decimal operation on digits gives: the digits of `exact` modulo 100, and whether it is out of range. -/
def ExactDigits (exact : Int) (r : Nat × Bool) : Prop :=
  r.1 < 256 ∧ isDecimal r.1 = true ∧ (decimal r.1 : Int) = exact % 100 ∧ (r.2 = true ↔ exact < 0 ∨ 100 ≤ exact)

variable {s d : Nat} {x : Bool}

theorem isDecimal_iff {v : Nat} : isDecimal v = true ↔ v % 16 ≤ 9 ∧ v / 16 ≤ 9 := by simp [isDecimal]

theorem abcdResult_digits (hs : isDecimal s = true) (hd : isDecimal d = true) :
    ExactDigits ((decimal d : Int) + decimal s + x.toNat) (abcdResult s d x) := by
  have hx := Bool.toNat_le x
  obtain ⟨hs0, hs1⟩ := isDecimal_iff.1 hs
  obtain ⟨hd0, hd1⟩ := isDecimal_iff.1 hd
  by_cases hk : 9 < s % 16 + d % 16 + x.toNat
  · by_cases hc : 9 < s / 16 + d / 16 + 1 <;>
      simp only [ExactDigits, abcdResult, isDecimal_iff, decimal, hk, hc, decide_true, decide_false, Bool.toNat_true,
        if_true,
        if_false, Bool.false_eq_true, true_iff, false_iff] <;> omega
  · by_cases hc : 9 < s / 16 + d / 16 + 0 <;>
      simp only [ExactDigits, abcdResult, isDecimal_iff, decimal, hk, hc, decide_true, decide_false,
        Bool.toNat_false, if_true,
        if_false, Bool.false_eq_true, true_iff, false_iff] <;> omega

theorem sbcdResult_digits (hs : isDecimal s = true) (hd : isDecimal d = true) :
    ExactDigits ((decimal d : Int) - decimal s - x.toNat) (sbcdResult s d x) := by
  have hx := Bool.toNat_le x
  obtain ⟨hs0, hs1⟩ := isDecimal_iff.1 hs
  obtain ⟨hd0, hd1⟩ := isDecimal_iff.1 hd
  by_cases hb : d % 16 < s % 16 + x.toNat
  · by_cases hc : d / 16 < s / 16 + 1 <;>
      simp only [ExactDigits, sbcdResult, isDecimal_iff, decimal, hb, hc, decide_true, decide_false, Bool.toNat_true,
        if_true,
        if_false, Bool.false_eq_true, true_iff, false_iff] <;> omega
  · by_cases hc : d / 16 < s / 16 + 0 <;>
      simp only [ExactDigits, sbcdResult, isDecimal_iff, decimal, hb, hc, decide_true, decide_false,
        Bool.toNat_false, if_true,
        if_false, Bool.false_eq_true, true_iff, false_iff] <;> omega

/-- On digits the exact ones with N and V free, else anything. -/
theorem decimalResult_spec {valid : Bool} {r : Nat × Bool} {exact : Int} (k : Nat) (sr : StatusReg)
    (h : valid = true → ExactDigits exact r) :
    DecimalResult valid exact sr (decimalResult valid r k sr).1 (decimalResult valid r k sr).2 := by
  cases valid with
  | false => exact ⟨⟨rfl, rfl, rfl⟩, (Config.freeByte k).isLt, nofun⟩
  | true =>
    obtain ⟨hlt, hdec, hval, hcarry⟩ := h rfl
    exact ⟨⟨rfl, rfl, rfl⟩, hlt, fun _ => ⟨hdec, hval, Bool.eq_iff_iff.2 (hcarry.trans decide_eq_true_iff.symm), rfl,
      Bool.and_comm _ _⟩⟩

end Decimal

/-- Settles O41: NBCD is a decimal subtraction from 0, made in place. -/
theorem negateDecimal : Obligations.NegateDecimal := by
  intro s ea hok hm l u hr hw
  let v := s.valueAt .b l
  let g := fun (d : Nat) (sr : StatusReg) => decimalResult (isDecimal d) (sbcdResult d 0 sr.x) s.draws sr
  obtain ⟨t, ht, hW⟩ := modifyEa_ok (s := s.drawn 6) (n := 1) (sz := .b) (ea := ea) hm (ne_an rfl (ok_cls hok))
    (by rw [operandAt_drawn]; exact (CanRead_congr rfl _ _).2 hr)
    (by rw [operandAt_drawn, past_drawn]; exact (CanWrite_congr rfl rfl _ _).2 hw) g
  rw [operandAt_drawn, valueAt_drawn] at ht hW
  rw [past_drawn] at hW
  obtain ⟨hW', hdraws⟩ := hW.of_drawn
  have hspec : DecimalResult (isDecimal v) (-(decimal v) - s.sr.x.toNat) s.sr (g v s.sr).1 (g v s.sr).2 :=
    decimalResult_spec s.draws s.sr fun hv => by
      have := sbcdResult_digits (d := 0) (x := s.sr.x) hv (by decide)
      rwa [show ((decimal 0 : Nat) : Int) = 0 from rfl, zero_sub] at this
  refine ⟨_, (g v s.sr).1, (g v s.sr).2, t.draws, ?_, hW', hspec⟩
  calc exec (.nbcd ea) s
      = s.finish (time (if ea.mode = .dn then .nbcdDn else .nbcdMem ea.mode)) (eaTargets ea)
          (((s.drawn 6).skip 1).modifyEa .b ea g) := rfl
    _ = _ := by
      rw [ht, time_ite]
      rfl

/-- Settles O51: both forms apply one decimal operation. -/
theorem decimalArithmetic : Obligations.DecimalArithmetic := by
  intro s y x sub exact'
  let g := fun (v d : Nat) (sr : StatusReg) => (if sub then sbcdOp s.draws else abcdOp s.draws) v d sr
  have hspec : ∀ v d, DecimalResult (isDecimal v && isDecimal d) (exact' v d) s.sr (g v d s.sr).1 (g v d s.sr).2 := by
    intro v d
    cases sub
    · refine decimalResult_spec s.draws s.sr fun h => ?_
      obtain ⟨hv, hd⟩ := Bool.and_eq_true_iff.1 h
      exact abcdResult_digits hv hd
    · refine decimalResult_spec s.draws s.sr fun h => ?_
      obtain ⟨hv, hd⟩ := Bool.and_eq_true_iff.1 h
      exact sbcdResult_digits hv hd
  constructor
  · intro v d
    refine ⟨(g v d s.sr).1, (g v d s.sr).2, s.draws + 6, ?_, hspec v d⟩
    cases sub <;> rfl
  · intro u v d hm hy hx
    have hexec : exec (if sub then .sbcdMem y x else .abcdMem y x) s = s.finish (time .bcdMem) [.a y, .a x]
        (((s.drawn 6).skip 1).preDecPair g .b y x) := by cases sub <;> rfl
    have hdrawn : ((s.drawn 6).past 1 .b (.preDec y)).past 0 .b (.preDec x) = u.drawn 6 := by rw [past_drawn, past_drawn]
    have hpast : (s.drawn 6).past 1 .b (.preDec y) = (s.past 1 .b (.preDec y)).drawn 6 := past_drawn ..
    obtain ⟨m, k, h, hS⟩ := preDecPair_ok (s := s.drawn 6) (sz := .b) (y := y) (x := x) g hm
      (by rw [hpast]; exact (CanReach_congr rfl _ _).2 hy)
      (by rw [hdrawn]; exact (CanStore_congr rfl rfl).2 hx)
    rw [hdrawn, hpast] at h hS
    exact ⟨m, k, (g v d s.sr).1, (g v d s.sr).2, u.draws + 6, by rw [hexec, h]; rfl,
      (Stored_congr rfl rfl).1 hS, hspec v d⟩

end Sys2Proof.Machine

/-! CHK and division (R352, R178, R179, R181): exceptions after the reads that replace an instruction's words, and quotients
that fit or do not. -/

namespace Sys2Proof.Machine

-- One declaration at a time: the check bounds the memory of all threads together.
set_option Elab.async false

section Entry

variable {s t : State}

/-- Whether an exception can be entered does not depend on the pc, the flags or what is read ahead. -/
theorem CanEnter_congr (hm : t.mem = s.mem) (hr : t.regions = s.regions) (hs : t.ssp = s.ssp) (hb : t.book = s.book)
    (v : Nat) : t.CanEnter v ↔ s.CanEnter v := by
  simp only [State.CanEnter, State.CanStack, State.VectorSet, CanReach_congr hr, State.kindAt_congr hr,
    peek_congr hm, hm, hs, hb]

/-- A trap after the reads that replace the instruction's words. -/
theorem trapTo_readAhead {v : Nat} (hv : v < 256) (hm : s.mem.wf = true) (h : s.CanEnter v) (start : Long) (d : Descriptor) :
    ∃ t, s.readAhead.trapTo start v d = .next t ∧ Entered s.readAhead t v s.pc s.sr.i (time d) := by
  have hm' : s.readAhead.mem.wf = true := by rwa [State.readAhead_mem]
  have h' : s.readAhead.CanEnter v := (CanEnter_congr (by simp) (by simp) (by simp) (by simp) v).2 h
  obtain ⟨t, ht, hE⟩ := takeException_ok hv hm' h' start s.readAhead.irBytes s.readAhead.pc none (time d)
  refine ⟨t, ht, ?_⟩
  simpa only [Option.getD_none, State.readAhead_pc, State.readAhead_sr] using hE

end Entry

section Check

variable {s : State} {ea : Ea}

/-- CHK's flags: N as given, the others free. -/
def State.checked (s u : State) (n : Bool) : State :=
  { u with
    sr := { s.sr with
      n := n, z := Config.freeBit s.draws, v := Config.freeBit (s.draws + 1)
      c := Config.freeBit (s.draws + 2) }
    draws := s.draws + 4 }

theorem exec_chk (dn : Reg) (hr : s.CanRead .w (s.operandAt 1 .w ea)) :
    exec (.chk ea dn) s =
      if signed 16 (lowBits 16 (s.dreg dn)) < 0 then (s.checked (s.past 1 .w ea) true).readAhead.trapTo s.pc 6 (.chkTrap ea.mode)
      else if signed 16 (s.valueAt .w (s.operandAt 1 .w ea)) < signed 16 (lowBits 16 (s.dreg dn)) then
        (s.checked (s.past 1 .w ea) false).readAhead.trapTo s.pc 6 (.chkTrap ea.mode)
      else .next ((s.checked (s.past 1 .w ea) (Config.freeBit (s.draws + 3))).charge (time (.chk ea.mode))) := by
  have arm : exec (.chk ea dn) s = execChk ea dn s := rfl
  have hflags : ∀ n, ((s.past 1 .w ea).setSr { (s.past 1 .w ea).sr with
      n := n, z := Config.freeBit s.draws, v := Config.freeBit (s.draws + 1)
      c := Config.freeBit (s.draws + 2) }).drawn 4 =
      s.checked (s.past 1 .w ea) n := fun n => by
    rw [past_sr, State.checked, ← past_draws s 1 .w ea]
    rfl
  rw [arm, execChk, readEa_ok hr]
  simp only [past_dlow, hflags]
  rfl

end Check

/-- Settles O58: the value is below 0, above the bound, or neither; the free flags are the same in each case but N. -/
theorem checkBounds : Obligations.CheckBounds := by
  intro s ea dn hok hr bound v u
  refine ⟨Config.freeBit (s.draws + 3), Config.freeBit s.draws, Config.freeBit (s.draws + 1), Config.freeBit (s.draws + 2),
    s.draws + 4, fun h0 hb => ?_, fun hv hm h => ?_⟩
  · rw [exec_chk dn hr, if_neg (not_lt.2 h0), if_neg (not_lt.2 hb)]
    rfl
  · have key : exec (.chk ea dn) s = (s.checked u (decide (v < 0))).readAhead.trapTo s.pc 6 (.chkTrap ea.mode) := by
      rw [exec_chk dn hr]
      by_cases h0 : v < 0
      · rw [if_pos h0, decide_eq_true h0]
      · rw [if_neg h0, if_pos (hv.resolve_left h0), decide_eq_false h0]
    rw [key]
    exact trapTo_readAhead (s := s.checked u (decide (v < 0))) (by decide) (by simpa [State.checked, u] using hm)
      ((CanEnter_congr rfl rfl rfl rfl 6).2 h) s.pc (.chkTrap ea.mode)

/-! Division. -/

section Divide

variable {s : State} {ea : Ea} (hr : s.CanRead .w (s.operandAt 1 .w ea)) (dn : Reg)
include hr

/-- A zero divisor, for either division (R412). -/
theorem exec_div_zero {i : Instr} (hi : i = .divu ea dn ∨ i = .divs ea dn) (h0 : s.valueAt .w (s.operandAt 1 .w ea) = 0) :
    exec i s = (s.past 1 .w ea).readAhead.trapTo s.pc 5 (.zeroDivide ea.mode) := by
  have armu : exec (.divu ea dn) s = execDivu ea dn s := rfl
  have arms : exec (.divs ea dn) s = execDivs ea dn s := rfl
  rcases hi with rfl | rfl
  · rw [armu, execDivu, readEa_ok hr]
    exact if_pos h0
  · rw [arms, execDivs, readEa_ok hr]
    exact if_pos h0

theorem exec_divu (h0 : s.valueAt .w (s.operandAt 1 .w ea) ≠ 0) :
    exec (.divu ea dn) s =
      if 65535 < (s.dreg dn).toNat / s.valueAt .w (s.operandAt 1 .w ea) then
        .next ((s.past 1 .w ea).divisionOverflow (time (.div (divuOverflowClocks (s.dreg dn)
          (BitVec.ofNat 16 (s.valueAt .w (s.operandAt 1 .w ea)))) ea.mode)))
      else .next ((s.past 1 .w ea).divided dn ((s.dreg dn).toNat / s.valueAt .w (s.operandAt 1 .w ea))
        ((s.dreg dn).toNat % s.valueAt .w (s.operandAt 1 .w ea))
        (time (.div (divuClocks (s.dreg dn) (BitVec.ofNat 16 (s.valueAt .w (s.operandAt 1 .w ea)))) ea.mode))) := by
  have arm : exec (.divu ea dn) s = execDivu ea dn s := rfl
  rw [arm, execDivu, readEa_ok hr]
  simp only [dreg_of_d (past_d s 1 .w ea), if_neg h0]

/-- DIVS: the quotient is truncated toward zero, the remainder what is left. -/
theorem exec_divs (h0 : s.valueAt .w (s.operandAt 1 .w ea) ≠ 0) {q m : Int}
    (hq : q = (s.dreg dn).toInt.tdiv (signed 16 (s.valueAt .w (s.operandAt 1 .w ea))))
    (hm : m = (s.dreg dn).toInt - q * signed 16 (s.valueAt .w (s.operandAt 1 .w ea))) :
    exec (.divs ea dn) s =
      if q < -32768 ∨ 32767 < q then
        .next ((s.past 1 .w ea).divisionOverflow (time (.div (divsOverflowClocks (s.dreg dn)
          (BitVec.ofNat 16 (s.valueAt .w (s.operandAt 1 .w ea)))) ea.mode)))
      else .next ((s.past 1 .w ea).divided dn (ofSigned 16 q) (ofSigned 16 m)
        (time (.div (divsClocks (s.dreg dn) (BitVec.ofNat 16 (s.valueAt .w (s.operandAt 1 .w ea)))) ea.mode))) := by
  have arm : exec (.divs ea dn) s = execDivs ea dn s := rfl
  have hd : signed 32 (s.dreg dn).toNat = (s.dreg dn).toInt := by
    rw [signed_toInt 32 _ (by decide) (s.dreg dn).isLt, BitVec.ofNat_toNat, BitVec.setWidth_eq]
  rw [arm, execDivs, readEa_ok hr]
  simp only [dreg_of_d (past_d s 1 .w ea), if_neg h0, hd, ← hq, ← hm]

end Divide

section Quotient

/-- Remainder and quotient as the two words of the register. -/
theorem divided_eq (u : State) (dn : Reg) (q m : Nat) (t : Time) : u.divided dn q m t =
    ({ u with
      d := u.d.set dn ((BitVec.ofNat 16 m ++ BitVec.ofNat 16 q : BitVec 32))
      sr := { u.sr with n := msb 16 q, z := q % 65536 == 0, v := false, c := false } } : State).charge t := by
  have hw : BitVec.ofNat 32 (65536 * (m % 65536) + q % 65536) = (BitVec.ofNat 16 m ++ BitVec.ofNat 16 q : BitVec 32) := by
    apply BitVec.eq_of_toNat_eq
    rw [toNat_append_word]
    simp only [BitVec.toNat_ofNat]
    omega
  rw [State.divided, hw]
  rfl

theorem quotient_flags_unsigned {q : Nat} (h : q ≤ 65535) (sr : StatusReg) :
    ({ sr with n := msb 16 q, z := q % 65536 == 0, v := false, c := false } : StatusReg) =
      { sr with n := decide (32768 ≤ q), z := decide (q = 0), v := false, c := false } := by
  rw [msb_eq 16 q (by decide) (by omega), beq_decide, Nat.mod_eq_of_lt (by omega)]
  rfl

theorem quotient_flags_signed {q : Int} (hl : -32768 ≤ q) (hu : q ≤ 32767) (sr : StatusReg) :
    ({ sr with n := msb 16 (ofSigned 16 q), z := ofSigned 16 q % 65536 == 0, v := false, c := false } : StatusReg) =
      { sr with n := decide (q < 0), z := decide (q = 0), v := false, c := false } := by
  have hlt : ofSigned 16 q < 65536 := ofSigned_lt 16 q
  rw [Nat.mod_eq_of_lt hlt]
  exact flagsLogic_ofSigned (bits := 16) (by decide) (by omega) (by omega) sr

/-- A quotient that does not fit leaves N and Z anything. -/
theorem divisionOverflow_eq (u : State) (t : Time) : ∃ n z j, u.divisionOverflow t =
    ({ u with sr := { u.sr with n := n, z := z, v := true, c := false }, draws := j } : State).charge t :=
  ⟨_, _, _, rfl⟩

/-- What truncation toward zero leaves: less than the divisor, with the dividend's sign. -/
theorem tdiv_remainder (d v : Int) (hv : v ≠ 0) : (d - d.tdiv v * v).natAbs < v.natAbs ∧
    (d - d.tdiv v * v = 0 ∨ (d - d.tdiv v * v < 0 ↔ d < 0)) := by
  have hm : d - d.tdiv v * v = d.tmod v := by rw [Int.tmod_def, Int.mul_comm]
  rw [hm]
  refine ⟨?_, ?_⟩
  · rw [Int.natAbs_tmod]
    exact Nat.mod_lt _ (Int.natAbs_pos.2 hv)
  · rcases lt_or_ge d 0 with hd | hd
    · have := Int.tmod_nonneg (a := -d) v (by omega)
      rw [Int.neg_tmod] at this
      omega
    · have := Int.tmod_nonneg v hd
      omega

theorem signed_word_eq_zero {v : Nat} (h : v < 2 ^ 16) : signed 16 v = 0 ↔ v = 0 := by
  rw [signed_toInt 16 v (by decide) h]
  constructor
  · intro h0
    have := congrArg BitVec.toNat (BitVec.eq_of_toInt_eq (y := (0 : BitVec 16)) h0)
    rwa [BitVec.toNat_ofNat, Nat.mod_eq_of_lt h] at this
  · rintro rfl
    rfl

end Quotient

/-- Settles O35: the quotient fits, does not fit, or the divisor is zero. -/
theorem divideUnsigned : Obligations.DivideUnsigned := by
  intro s ea dn hok hr v d u
  refine ⟨fun h0 hq => ?_, fun h0 hq => ?_, fun h0 hm h => ?_⟩
  · let k := divuClocks (s.dreg dn) (BitVec.ofNat 16 v)
    have hk : 127 ≤ k ∧ k ≤ 140 := by
      simp only [k, divuClocks]
      omega
    refine ⟨k, hk.1, hk.2, ?_⟩
    rw [exec_divu hr dn h0, if_neg (not_lt.2 hq), divided_eq, quotient_flags_unsigned hq, past_d, past_sr]
    rfl
  · let k := divuOverflowClocks (s.dreg dn) (BitVec.ofNat 16 v)
    have hk : k ≤ 140 := by
      simp only [k, divuOverflowClocks]
      omega
    obtain ⟨n, z, j, h⟩ := divisionOverflow_eq u (time (.div k ea.mode))
    refine ⟨k, n, z, j, hk, ?_⟩
    rw [exec_divu hr dn h0, if_pos hq, h, past_sr]
    rfl
  · rw [exec_div_zero hr dn (.inl rfl) h0]
    have hsr : u.sr.i = s.sr.i := by rw [past_sr]
    rw [← hsr]
    exact trapTo_readAhead (by decide) (by rwa [past_mem]) h s.pc (.zeroDivide ea.mode)

/-- Settles O36: the same with the quotient truncated toward zero. -/
theorem divideSigned : Obligations.DivideSigned := by
  intro s ea dn hok hr v d u
  have hlt : s.valueAt .w (s.operandAt 1 .w ea) < 2 ^ 16 := valueAt_lt (sz := .w) (ok_sizeOk hok)
  refine ⟨fun h0 => ?_, fun h0 hm h => ?_⟩
  · have hne : s.valueAt .w (s.operandAt 1 .w ea) ≠ 0 := fun e => h0 ((signed_word_eq_zero hlt).2 e)
    obtain ⟨hm1, hm2⟩ := tdiv_remainder d v h0
    refine ⟨d.tdiv v, d - d.tdiv v * v, by omega, hm1, hm2, fun hl hu => ?_, fun hq => ?_⟩
    · let k := divsClocks (s.dreg dn) (BitVec.ofNat 16 (s.valueAt .w (s.operandAt 1 .w ea)))
      have hk : 143 ≤ k ∧ k ≤ 158 := by
        simp only [k, divsClocks]
        omega
      refine ⟨k, hk.1, hk.2, ?_⟩
      rw [exec_divs hr dn hne rfl rfl, if_neg (not_or.2 ⟨not_lt.2 hl, not_lt.2 hu⟩), divided_eq,
        quotient_flags_signed hl hu, ofNat_ofSigned, ofNat_ofSigned,
        past_d, past_sr]
      rfl
    · let k := divsOverflowClocks (s.dreg dn) (BitVec.ofNat 16 (s.valueAt .w (s.operandAt 1 .w ea)))
      have hk : k ≤ 158 := by
        simp only [k, divsOverflowClocks]
        omega
      obtain ⟨n, z, j, hov⟩ := divisionOverflow_eq u (time (.div k ea.mode))
      refine ⟨k, n, z, j, hk, ?_⟩
      rw [exec_divs hr dn hne rfl rfl, if_pos hq, hov, past_sr]
      rfl
  · rw [exec_div_zero hr dn (.inr rfl) ((signed_word_eq_zero hlt).1 h0)]
    have hsr : u.sr.i = s.sr.i := by rw [past_sr]
    rw [← hsr]
    exact trapTo_readAhead (by decide) (by rwa [past_mem]) h s.pc (.zeroDivide ea.mode)

end Sys2Proof.Machine

/-! Branches, calls and the instructions that use an address (47_conditional.md, 48_jmp_jsr_lea_pea_movem.md), and the
privileged moves of section 3 and STOP of 49_multiprecision_misc_movep.md. -/

namespace Sys2Proof.Machine

-- One declaration at a time: the check bounds the memory of all threads together.
set_option Elab.async false

/-! Branches. -/

section Branch

variable {s : State}

theorem exec_bra {d : Disp} (h : s.CanReach .w (s.branchTarget d)) :
    exec (.bra d) s = .next ((s.landAt (s.branchTarget d)).charge ⟨10, 2, 0⟩) := by
  have arm : exec (.bra d) s = execBra d s := rfl
  rw [arm, execBra, jump_skip h, finish_ok]
  rfl

theorem exec_bcc_taken {c : Cond} {d : Disp} (hc : s.sr.cond c = true) (h : s.CanReach .w (s.branchTarget d)) :
    exec (.bcc c d) s = .next ((s.landAt (s.branchTarget d)).charge ⟨10, 2, 0⟩) := by
  have arm : exec (.bcc c d) s = execBcc c d s := rfl
  have htime : time (.bcc (dispWords d == 2) true) = ⟨10, 2, 0⟩ := by cases d <;> rfl
  rw [arm, execBcc, if_pos hc, jump_skip h, finish_ok, htime]

theorem exec_bcc_not_taken {c : Cond} (d : Disp) (hc : s.sr.cond c = false) :
    exec (.bcc c d) s = .next ((s.skip (dispWords d)).charge (time (.bcc (dispWords d == 2) false))) := by
  have arm : exec (.bcc c d) s = execBcc c d s := rfl
  rw [arm, execBcc, if_neg (by simp [hc]), finish_ok]

/-- The count of DBcc goes down by one, from 0 to 65535. -/
theorem subResult_one {k : Nat} (h : k < 65536) : subResult 16 1 k = if k = 0 then 65535 else k - 1 := by
  unfold subResult trunc
  split <;> omega

theorem exec_dbcc (c : Cond) (dn : Reg) (w : Word) :
    exec (.dbcc c dn w) s =
      if s.sr.cond c then .next ((s.skip 2).charge ⟨12, 2, 0⟩)
      else if lowBits 16 (s.dreg dn) = 0 then .next (((s.skip 2).setDlow .w dn 65535).extraRead.charge ⟨14, 3, 0⟩)
      else s.finish ⟨10, 2, 0⟩ [.d dn]
        (((s.skip 2).setDlow .w dn (lowBits 16 (s.dreg dn) - 1)).jump (s.branchTarget (.word w))) := by
  have arm : exec (.dbcc c dn w) s = execDbcc c dn w s := rfl
  have hk : lowBits 16 (s.dreg dn) < 65536 := lowBits_lt 16 _
  have hcount : subResult 16 1 (s.dlow .w dn) = if lowBits 16 (s.dreg dn) = 0 then 65535 else lowBits 16 (s.dreg dn) - 1 :=
    subResult_one hk
  have hexp : subResult 16 1 (s.dlow .w dn) = 65535 ↔ lowBits 16 (s.dreg dn) = 0 := by
    rw [hcount]
    split <;> omega
  rw [arm, execDbcc]
  simp only [hexp]
  by_cases hc : s.sr.cond c = true
  · rw [if_pos hc, if_pos hc]
    rfl
  · rw [if_neg hc, if_neg hc]
    by_cases h0 : lowBits 16 (s.dreg dn) = 0
    · rw [if_pos h0, if_pos h0, hcount, if_pos h0]
      rfl
    · rw [if_neg h0, if_neg h0, hcount, if_neg h0]
      rfl

end Branch

/-- Settles O45: by the condition, and for DBcc by the count. -/
theorem branch : Obligations.Branch := by
  intro s c d n target
  have ht : target = s.branchTarget d := by cases d <;> rfl
  have hn : n = dispWords d := by cases d <;> rfl
  rw [ht, hn]
  refine ⟨fun _ => ⟨exec_bra, exec_bcc_taken, exec_bcc_not_taken d⟩, fun dn w hd => ?_⟩
  subst hd
  refine ⟨fun hc => ?_, fun hc h0 => ?_, fun hc h0 h => ?_⟩
  · rw [exec_dbcc, if_pos hc]
    rfl
  · rw [exec_dbcc, if_neg (by simp [hc]), if_pos h0]
    rfl
  · let u := s.setDlow .w dn (lowBits 16 (s.dreg dn) - 1)
    rw [exec_dbcc, if_neg (by simp [hc]), if_neg h0]
    exact congrArg (s.finish _ _) (jump_skip (s := u) (n := 2) h)

/-! Calls and the use of an address. -/

section Address

variable {s : State}

/-- A push, and where it leaves the stack pointer. -/
theorem push_long {n : Nat} (hm : s.mem.wf = true) (h : (s.skip n).CanStore .l (s.sp - 4)) (v : Nat) :
    ∃ m k, (s.skip n).push .l v = .ok (({ s.setSp (s.sp - 4) with mem := m, book := k } : State).skip n) ∧
      Stored s m 4 (s.sp - 4) v := by
  let u := (s.setSp (s.sp - 4)).skip n
  have hu : u.CanStore .l (s.sp - 4) := (CanStore_congr (by simp [u]) (by simp [u, State.skip])).2 h
  have hpush : (s.skip n).push .l v = u.memWrite .l (s.sp - 4) v :=
    congrArg (fun t : State => t.memWrite .l (s.sp - 4) v) (State.setSp_skip s n (s.sp - 4))
  let p := u.poke (u.mayCells .l (s.sp - 4) v)
  refine ⟨p.mem, p.book, hpush.trans (memWrite_ok hu v), ?_⟩
  exact (Stored_congr (by simp [u]) (by simp [u])).1 (Stored_poke (by simpa [u] using hm) hu.1 v)

/-- The push of a return address and the refill at the target. -/
theorem call_ok {n : Nat} {target : Long} (hm : s.mem.wf = true) (h : (s.skip n).CanStore .l (s.sp - 4))
    (ht : s.CanReach .w target) :
    ∃ m k, (s.skip n).call target = .ok (({ s.setSp (s.sp - 4) with mem := m, book := k } : State).landAt target) ∧
      Stored s m 4 (s.sp - 4) (s.skip n).pc.toNat := by
  obtain ⟨m, k, hp, hS⟩ := push_long hm h (s.skip n).pc.toNat
  refine ⟨m, k, ?_, hS⟩
  have hjump := jump_skip (s := { s.setSp (s.sp - 4) with mem := m, book := k }) (n := n)
    ((CanReach_congr (s := s) (by simp) _ _).2 ht)
  simp only [State.call, hp, hjump]

/-- A control mode names a place in memory, past its extension words, and no register is stepped. -/
theorem locate_control {ea : Ea} (h : Mode.isControl ea.mode = true) (sz : Size) : (s.locate sz ea).2 = s.skip ea.extWords := by
  cases ea with
  | dn r => cases h
  | an r => cases h
  | postInc r => cases h
  | preDec r => cases h
  | imm v => cases h
  | ind r => exact (State.skip_zero s).symm
  | disp r d => rfl
  | index r x => rfl
  | absW a => rfl
  | absL a => rfl
  | pcDisp d => rfl
  | pcIndex x => rfl

theorem State.skip_add (s : State) (m n : Nat) : (s.skip m).skip n = s.skip (m + n) := by
  simp only [State.skip, State.mk.injEq, true_and, and_true]
  rw [BitVec.add_assoc, ← BitVec.ofNat_add, Nat.mul_add]

theorem eaAddress_ok {ea : Ea} {a : Long} {p : Bool} (hc : Mode.isControl ea.mode = true) (h : s.operandAt 1 .l ea = .mem a p) :
    (s.skip 1).eaAddress ea = (a, s.skip (1 + ea.extWords)) := by
  have hl : (s.skip 1).locate .l ea = (.mem a p, s.skip (1 + ea.extWords)) :=
    Prod.ext h ((locate_control hc .l).trans (s.skip_add 1 _))
  rw [State.eaAddress, hl]

end Address

/-- Settles O46: BSR and JSR are one call from past the instruction. -/
theorem call : Obligations.Call := by
  intro s i n target tm hi hm u hs ht
  obtain ⟨m, k, hc, hS⟩ := call_ok hm hs ht
  refine ⟨m, k, ?_, hS⟩
  have key : ∃ regs, exec i s = s.finish tm regs ((s.skip n).call target) := by
    obtain ⟨d, -, rfl, hn, htarget, rfl⟩ | ⟨ea, p, rfl, hok, hn, hop, rfl⟩ := hi
    · refine ⟨[.a 7], ?_⟩
      cases d <;> · rw [hn, htarget]; rfl
    · have arm : exec (.jsr ea) s = execJsr ea s := rfl
      refine ⟨[.a 7], ?_⟩
      rw [arm, execJsr, eaAddress_ok (ok_cls hok) hop, hn]
      rfl
  obtain ⟨regs, he⟩ := key
  rw [he, hc, finish_ok]

/-- Settles O47: the address is that of a control mode, past whose extension words nothing has changed. -/
theorem addressUse : Obligations.AddressUse := by
  intro s ea an a p hok hop u
  have hea : (s.skip 1).eaAddress ea = (a, u) := eaAddress_ok (ok_cls hok) hop
  have harm_jmp : exec (.jmp ea) s = execJmp ea s := rfl
  have harm_lea : exec (.lea ea an) s = execLea ea an s := rfl
  have harm_pea : exec (.pea ea) s = execPea ea s := rfl
  refine ⟨fun hr => ?_, ?_, fun hm hs => ?_⟩
  · rw [harm_jmp, execJmp, hea]
    have hjump : ∀ t : State, t.regions = s.regions → t.jump a = .ok (t.landAt a) := fun t ht =>
      jump_ok ((CanReach_congr ht _ _).2 hr)
    simp only
    rw [hjump _ (by split <;> simp [u]), finish_ok]
    rfl
  · rw [harm_lea, execLea, hea, finish_ok]
    rfl
  · obtain ⟨m, k, hp, hS⟩ := push_long hm hs a.toNat
    refine ⟨m, k, ?_, hS⟩
    rw [harm_pea, execPea, hea, hp, finish_ok, State.setSp_skip]
    rfl

/-- Settles O57: the privileged effects, in supervisor state. -/
theorem supervisorMisc : Obligations.SupervisorMisc := by
  intro s v an hs
  refine ⟨⟨StatusReg.ofNat v.toNat, privileged_supervisor hs _, StatusReg.toWord_ofNat_toNat v⟩,
    privileged_supervisor hs _, privileged_supervisor hs _⟩

end Sys2Proof.Machine

/-! MOVEM and MOVEP (R320 to R323, R381): lists of loads and stores at addresses that do not overlap. -/

namespace Sys2Proof.Machine

-- One declaration at a time: the check bounds the memory of all threads together.
set_option Elab.async false

/-! A list of stores. -/

section Stores

variable {s : State} {sz : Size}

theorem addrs_add (m n : Nat) (a : Long) : addrs (m + n) a = addrs m a ++ addrs n (a + BitVec.ofNat 32 m) := by
  rw [addrs, List.range_add, List.map_append, List.map_map]
  refine congrArg (_ ++ ·) (List.map_congr_left fun k _ => ?_)
  rw [Function.comp_apply, BitVec.ofNat_add, BitVec.add_assoc]

/-- The cells of a list of stores. -/
def State.mayStore (s : State) (sz : Size) (stores : List (Long × Nat)) : List Host.Cell :=
  stores.flatMap (fun p => s.mayCells sz p.1 p.2)

/-- The bytes a list of stores reaches. -/
def reached (sz : Size) (stores : List (Long × Nat)) : List Nat := stores.flatMap (fun p => addrs sz.bytes p.1)

theorem mayStore_addrs_sublist (s : State) (sz : Size) (stores : List (Long × Nat)) :
    ((s.mayStore sz stores).map Prod.fst).Sublist (reached sz stores) := by
  induction stores with
  | nil => exact .slnil
  | cons p rest ih =>
    have h := (mayCells_sublist s sz p.1 p.2).map Prod.fst
    rw [cellsOf_addrs] at h
    simpa only [State.mayStore, reached, List.flatMap_cons, List.map_append] using h.append ih

theorem mayStore_lt (s : State) (sz : Size) (stores : List (Long × Nat)) :
    ∀ c : Host.Cell, c ∈ s.mayStore sz stores → c.1 < 2 ^ Config.addrBits := by
  intro x hc
  obtain ⟨p, -, hp⟩ := List.mem_flatMap.1 hc
  exact cellsOf_lt sz p.1 p.2 x ((mayCells_sublist s sz p.1 p.2).subset hp)

/-- A byte that no store of the list reaches stays. -/
theorem read_mayStore_of_not_mem (s : State) {stores : List (Long × Nat)} {b : Nat} (h : b ∉ reached sz stores) :
    Memory.read (s.poke (s.mayStore sz stores)).mem b = Memory.read s.mem b :=
  State.read_poke_of_not_mem s _ b fun _ hc hb =>
    h (hb ▸ (mayStore_addrs_sublist s sz stores).subset (List.mem_map_of_mem hc))

/-- Where no two stores of the list meet, each leaves the cells it may change. -/
theorem read_mayStore_of_mem (hm : s.mem.wf = true) {stores : List (Long × Nat)} (hd : (reached sz stores).Nodup)
    {c : Host.Cell} (h : c ∈ s.mayStore sz stores) : Memory.read (s.poke (s.mayStore sz stores)).mem c.1 = c.2 :=
  State.read_poke_of_mem hm (mayStore_lt s sz stores) ((mayStore_addrs_sublist s sz stores).nodup hd) h

end Stores

/-! The registers of a mask. -/

section Mask

/-- The register of a bit, in the two orders of R320. -/
def maskReg (down : Bool) (k : Nat) : RegRef :=
  let j := if down then 15 - k else k
  if j < 8 then .d (Fin.ofNat 8 j) else .a (Fin.ofNat 8 j)

theorem maskRegs_range' (f : Nat → RegRef) (m k n : Nat) :
    maskRegs ((List.range' k n).map f) (m / 2 ^ k) = ((List.range' k n).filter (fun j => m.testBit j)).map f := by
  induction n generalizing k with
  | zero => rfl
  | succ n ih =>
    have hbit : m / 2 ^ k % 2 = 1 ↔ m.testBit k = true := by
      rw [Nat.testBit_eq_decide_div_mod_eq, decide_eq_true_iff]
    have hrest : m / 2 ^ k / 2 = m / 2 ^ (k + 1) := by rw [Nat.div_div_eq_div_mul, Nat.pow_succ]
    rw [List.range'_succ, List.map_cons, maskRegs, hrest, ih (k + 1)]
    simp only [hbit]
    cases hb : m.testBit k with
    | true => rw [if_pos rfl, List.filter_cons_of_pos hb, List.map_cons]
    | false => rw [if_neg (by simp), List.filter_cons_of_neg (by simp [hb])]

theorem maskRegs_eq_maskList (down : Bool) (mask : Word) :
    maskRegs (if down then movemDown else movemUp) mask.toNat = maskList down mask := by
  have horder : (if down then movemDown else movemUp) = (List.range' 0 16).map (maskReg down) := by cases down <;> rfl
  have h := maskRegs_range' (maskReg down) mask.toNat 0 16
  rw [Nat.pow_zero, Nat.div_one, ← horder, ← List.range_eq_range'] at h
  exact h

theorem maskList_length (down : Bool) (mask : Word) : (maskList down mask).length ≤ 16 := by
  rw [maskList, List.length_map]
  exact (List.length_filter_le _ _).trans (List.length_range).le

theorem maskReg_up_inj {j k : Nat} (hj : j < 16) (hk : k < 16) (h : maskReg false j = maskReg false k) : j = k := by
  have key : ∀ j k : Fin 16, maskReg false j.val = maskReg false k.val → j = k := by decide
  exact congrArg Fin.val (key ⟨j, hj⟩ ⟨k, hk⟩ h)

theorem maskList_nodup (mask : Word) : (maskList false mask).Nodup := by
  refine List.Nodup.map_on (fun j hj k hk h => ?_) (List.nodup_range.filter _)
  exact maskReg_up_inj (List.mem_range.1 (List.mem_of_mem_filter hj)) (List.mem_range.1 (List.mem_of_mem_filter hk)) h

end Mask

/-! Loads. -/

section Loads

variable {s t u : State} {sz : Size}

/-- Only the general registers of `t` are not those of `s`, and not the stack pointer that is not in use. -/
structure RegsOnly (s t : State) : Prop where
  eq : t = { s with d := t.d, a := t.a, usp := t.usp, ssp := t.ssp }
  usp : s.sr.s = true → t.usp = s.usp
  ssp : s.sr.s = false → t.ssp = s.ssp

theorem RegsOnly.refl (s : State) : RegsOnly s s := ⟨rfl, fun _ => rfl, fun _ => rfl⟩

theorem RegsOnly.sr (h : RegsOnly s t) : t.sr = s.sr := by rw [h.eq]

theorem RegsOnly.mem (h : RegsOnly s t) : t.mem = s.mem := by rw [h.eq]

theorem RegsOnly.regions (h : RegsOnly s t) : t.regions = s.regions := by rw [h.eq]

theorem RegsOnly.trans (h : RegsOnly s t) (h' : RegsOnly t u) : RegsOnly s u where
  eq := h'.eq.trans (by rw [h.eq])
  usp hs := (h'.usp (h.sr ▸ hs)).trans (h.usp hs)
  ssp hs := (h'.ssp (h.sr ▸ hs)).trans (h.ssp hs)

theorem RegsOnly.setA (s : State) (r : Reg) (v : Long) : RegsOnly s (s.setA r v) where
  eq := (State.setA_eq s v).trans (by rw [State.setA_d])
  usp hs := State.setA_usp s hs v
  ssp hs := State.setA_ssp s hs v

theorem RegsOnly.setReg (s : State) (g : RegRef) (v : Long) : RegsOnly s (s.setReg g v) := by
  cases g with
  | d r => exact ⟨rfl, fun _ => rfl, fun _ => rfl⟩
  | a r => exact .setA s r v

theorem State.reg_setReg_same (s : State) (g : RegRef) (v : Long) : (s.setReg g v).reg g = v := by
  cases g with
  | d r => simp [State.setReg, State.reg, State.dreg]
  | a r => exact State.areg_setA_same s v

theorem State.reg_setReg_ne (s : State) {g g' : RegRef} (h : g ≠ g') (v : Long) : (s.setReg g' v).reg g = s.reg g := by
  cases g with
  | d r =>
    cases g' with
    | d r' =>
      have hr : r'.val ≠ r.val := fun e => h (congrArg RegRef.d (Fin.ext e.symm))
      simp [State.setReg, State.reg, State.dreg, hr]
    | a r' => exact dreg_of_d (State.setA_d s r' v) r
  | a r =>
    cases g' with
    | d r' => rfl
    | a r' => exact State.areg_setA_ne s (fun e => h (congrArg RegRef.a e)) v

/-- The registers of a list loaded from ascending addresses. -/
def State.loaded (sz : Size) : List RegRef → Long → State → State
  | [], _, s => s
  | g :: gs, a, s => State.loaded sz gs (a + BitVec.ofNat 32 sz.bytes) (s.setReg g (extended sz (s.peek sz a)))

theorem loaded_regsOnly (gs : List RegRef) (a : Long) (s : State) : RegsOnly s (s.loaded sz gs a) := by
  induction gs generalizing a s with
  | nil => exact .refl s
  | cons g gs ih => exact (RegsOnly.setReg s g _).trans (ih _ _)

theorem loaded_reg_of_not_mem {gs : List RegRef} {g : RegRef} (h : g ∉ gs) (a : Long) (s : State) :
    (s.loaded sz gs a).reg g = s.reg g := by
  induction gs generalizing a s with
  | nil => rfl
  | cons g' gs ih =>
    rw [State.loaded, ih (List.not_mem_of_not_mem_cons h), State.reg_setReg_ne s (List.ne_of_not_mem_cons h)]

/-- The address of the operand `k` places on. -/
theorem place_succ (a : Long) (n k : Nat) :
    a + BitVec.ofNat 32 (n * (k + 1)) = a + BitVec.ofNat 32 n + BitVec.ofNat 32 (n * k) := by
  rw [Nat.mul_succ, Nat.add_comm, BitVec.ofNat_add, BitVec.add_assoc]

theorem loaded_reg_of_getElem {gs : List RegRef} (hd : gs.Nodup) {g : RegRef} {k : Nat} (h : gs[k]? = some g) (a : Long)
    (s : State) : (s.loaded sz gs a).reg g = extended sz (s.peek sz (a + BitVec.ofNat 32 (sz.bytes * k))) := by
  induction gs generalizing a s k with
  | nil => simp at h
  | cons g' gs ih =>
    obtain ⟨hg, hd⟩ := List.nodup_cons.1 hd
    cases k with
    | zero =>
      obtain rfl : g' = g := by simpa using h
      rw [State.loaded, loaded_reg_of_not_mem hg, State.reg_setReg_same, Nat.mul_zero, BitVec.add_zero]
    | succ k =>
      rw [State.loaded, ih hd (by simpa using h), peek_congr (RegsOnly.setReg s g' _).mem, place_succ]

theorem loadRegs_ok {program : Bool} {gs : List RegRef} {a : Long}
    (h : ∀ k, k < gs.length → s.CanReach sz (a + BitVec.ofNat 32 (sz.bytes * k))) :
    loadRegs sz program gs a s = .ok (s.loaded sz gs a) := by
  induction gs generalizing a s with
  | nil => rfl
  | cons g gs ih =>
    have h0 : s.CanReach sz a := by simpa using h 0 (Nat.zero_lt_succ _)
    simp only [loadRegs, memRead_ok h0, State.loaded, sext_extended sz _ (peek_lt s sz a)]
    refine ih fun k hk => ?_
    rw [CanReach_congr (RegsOnly.setReg s g _).regions, ← place_succ]
    exact h (k + 1) (Nat.succ_lt_succ hk)

/-- The source of MOVEM starts at its operand, past the extension words; no register is stepped before the loads. -/
theorem movemStart_eq {ea : Ea} (hp : ea.mode ≠ .preDec) (hc : Mode.isMovemSource ea.mode = true ∨ Mode.isMovemDest ea.mode = true)
    {a : Long} {p : Bool} (h : s.operandAt 2 sz ea = .mem a p) :
    (s.skip 2).movemStart sz ea = (a, p, s.skip (2 + ea.extWords)) := by
  have hstate : ((s.skip 2).locate sz ea).2 = s.skip (2 + ea.extWords) := by
    cases ea with
    | postInc r => rfl
    | preDec r => exact absurd rfl hp
    | dn r => rcases hc with hc | hc <;> cases hc
    | an r => rcases hc with hc | hc <;> cases hc
    | imm v => rcases hc with hc | hc <;> cases hc
    | ind r => exact (locate_control rfl sz).trans (s.skip_add 2 _)
    | disp r d => exact (locate_control rfl sz).trans (s.skip_add 2 _)
    | index r x => exact (locate_control rfl sz).trans (s.skip_add 2 _)
    | absW a => exact (locate_control rfl sz).trans (s.skip_add 2 _)
    | absL a => exact (locate_control rfl sz).trans (s.skip_add 2 _)
    | pcDisp d => exact (locate_control rfl sz).trans (s.skip_add 2 _)
    | pcIndex x => exact (locate_control rfl sz).trans (s.skip_add 2 _)
  have hl : (s.skip 2).locate sz ea = (.mem a p, s.skip (2 + ea.extWords)) := Prod.ext h hstate
  unfold State.movemStart
  split
  · exact absurd rfl hp
  · rw [hl]

end Loads

section LoadResult

variable {s : State} {sz : Size} {ea : Ea}

/-- `(An)+` ends at an address, whatever was loaded (R321). -/
def State.steppedTo (s : State) (ea : Ea) (v : Long) : State :=
  match ea with
  | .postInc r => s.setA r v
  | _ => s

theorem steppedTo_regsOnly (s : State) (ea : Ea) (v : Long) : RegsOnly s (s.steppedTo ea v) := by
  unfold State.steppedTo
  split
  · exact .setA s _ v
  · exact .refl s

theorem steppedTo_reg (s : State) (ea : Ea) (v : Long) {g : RegRef} (h : ∀ r, ea = .postInc r → g ≠ .a r) :
    (s.steppedTo ea v).reg g = s.reg g := by
  unfold State.steppedTo
  split
  · exact State.reg_setReg_ne s (h _ rfl) v
  · rfl

theorem movemLoad_eq {mask : Word} {a : Long} {p : Bool} (hc : Mode.isMovemSource ea.mode = true)
    (hop : s.operandAt 2 sz ea = .mem a p)
    (hr : ∀ k, k < (maskList false mask).length → s.CanReach sz (a + BitVec.ofNat 32 (sz.bytes * k)))
    (hl : s.CanReach .w (a + BitVec.ofNat 32 (sz.bytes * (maskList false mask).length))) :
    movemLoad sz ea mask s =
      .next ((((s.skip (2 + ea.extWords)).loaded sz (maskList false mask) a).steppedTo ea
        (a + BitVec.ofNat 32 (sz.bytes * (maskList false mask).length))).charge
        (time (.movemToReg sz (maskList false mask).length ea.mode))) := by
  have hp : ea.mode ≠ .preDec := by
    intro h
    rw [h] at hc
    cases hc
  have hmask : maskRegs movemUp mask.toNat = maskList false mask := maskRegs_eq_maskList false mask
  let t := (s.skip (2 + ea.extWords)).loaded sz (maskList false mask) a
  have hload : loadRegs sz p (maskList false mask) a (s.skip (2 + ea.extWords)) = .ok t := loadRegs_ok hr
  have ht : t.regions = s.regions := (loaded_regsOnly (maskList false mask) a (s.skip (2 + ea.extWords))).regions
  have hlast : t.memRead .w _ p = _ := memRead_ok ((CanReach_congr ht _ _).2 hl) p
  unfold movemLoad
  simp only [hmask, movemStart_eq hp (.inl hc) hop, hload, hlast, bind, Except.bind]
  cases ea <;> exact finish_ok _ _ _ _

end LoadResult

/-! Stores. -/

section StoreResult

variable {s : State} {sz : Size}

theorem getElem_movemStores (gs : List RegRef) (a : Long) (k : Nat) :
    (movemStores sz false s gs a)[k]? =
      gs[k]?.map (fun g => (a + BitVec.ofNat 32 (sz.bytes * k), lowBits sz.bits (s.reg g))) := by
  induction gs generalizing a k with
  | nil => rfl
  | cons g gs ih =>
    cases k with
    | zero => simp [movemStores]
    | succ k => simpa [movemStores, place_succ] using ih (a + BitVec.ofNat 32 sz.bytes) k

theorem movemStores_length (gs : List RegRef) (a : Long) : (movemStores sz false s gs a).length = gs.length := by
  induction gs generalizing a with
  | nil => rfl
  | cons g gs ih => simpa [movemStores] using ih _

theorem movemStores_concat (gs : List RegRef) (g : RegRef) (a : Long) :
    movemStores sz false s (gs ++ [g]) a =
      movemStores sz false s gs a ++ [(a + BitVec.ofNat 32 (sz.bytes * gs.length), lowBits sz.bits (s.reg g))] := by
  induction gs generalizing a with
  | nil => simp [movemStores]
  | cons g' gs ih => simpa [movemStores, place_succ] using ih (a + BitVec.ofNat 32 sz.bytes)

/-- The stores of `-(An)` are those of the registers in the other order, from the lowest address up, last first (R322). -/
theorem movemStores_down (gs : List RegRef) (a : Long) :
    movemStores sz true s gs a =
      (movemStores sz false s gs.reverse (a - BitVec.ofNat 32 (sz.bytes * gs.length))).reverse := by
  induction gs generalizing a with
  | nil => rfl
  | cons g gs ih =>
    have hlow : a - BitVec.ofNat 32 (sz.bytes * (gs.length + 1)) =
        a - BitVec.ofNat 32 sz.bytes - BitVec.ofNat 32 (sz.bytes * gs.length) := by
      rw [Nat.mul_succ, BitVec.ofNat_add]
      bv_omega
    rw [List.reverse_cons, movemStores_concat, List.reverse_append, List.length_reverse, List.length_cons, hlow,
      BitVec.sub_add_cancel]
    simp only [movemStores, if_true, ih]
    rfl

theorem reached_movemStores (gs : List RegRef) (a : Long) :
    reached sz (movemStores sz false s gs a) = addrs (sz.bytes * gs.length) a := by
  induction gs generalizing a with
  | nil => rfl
  | cons g gs ih =>
    rw [List.length_cons, Nat.mul_succ, Nat.add_comm, addrs_add, ← ih]
    rfl

/-- The stores of MOVEM in the order in which they are made. -/
def State.movemList (s : State) (sz : Size) (down : Bool) (mask : Word) (a : Long) : List (Long × Nat) :=
  if down then (movemStores sz false s (maskList true mask).reverse a).reverse
  else movemStores sz false s (maskList false mask) a

/-- The registers of MOVEM by ascending address. -/
def storedRegs (down : Bool) (mask : Word) : List RegRef := if down then (maskList true mask).reverse else maskList false mask

theorem mem_movemList {down : Bool} {mask : Word} {a : Long} {p : Long × Nat} :
    p ∈ s.movemList sz down mask a ↔ ∃ (k : Nat) (g : RegRef), (storedRegs down mask)[k]? = some g ∧
      p = (a + BitVec.ofNat 32 (sz.bytes * k), lowBits sz.bits (s.reg g)) := by
  have h : p ∈ s.movemList sz down mask a ↔ p ∈ movemStores sz false s (storedRegs down mask) a := by
    cases down with
    | true => exact List.mem_reverse
    | false => exact Iff.rfl
  rw [h, List.mem_iff_getElem?]
  simp only [getElem_movemStores, Option.map_eq_some_iff]
  exact exists_congr fun k => exists_congr fun g => and_congr_right fun _ => eq_comm

theorem storedRegs_length (down : Bool) (mask : Word) : (storedRegs down mask).length ≤ 16 := by
  cases down with
  | true => exact (List.length_reverse).le.trans (maskList_length true mask)
  | false => exact maskList_length false mask

/-- No two stores of MOVEM meet. -/
theorem reached_movemList_nodup (down : Bool) (mask : Word) (a : Long) : (reached sz (s.movemList sz down mask a)).Nodup := by
  have hup : (reached sz (movemStores sz false s (storedRegs down mask) a)).Nodup := by
    rw [reached_movemStores]
    have hlen := storedRegs_length down mask
    have hsz : sz.bytes ≤ 4 := by cases sz <;> decide
    exact nodup_addrs _ a ((Nat.mul_le_mul hsz hlen).trans (by decide))
  cases down with
  | true => exact ((List.reverse_perm _).flatMap_right _).nodup_iff.2 hup
  | false => exact hup

theorem mem_reached_movemList {down : Bool} {mask : Word} {a : Long} {b : Nat} (h : b ∈ reached sz (s.movemList sz down mask a)) :
    ∃ k, k < (storedRegs down mask).length ∧ b ∈ addrs sz.bytes (a + BitVec.ofNat 32 (sz.bytes * k)) := by
  obtain ⟨p, hp, hb⟩ := List.mem_flatMap.1 h
  obtain ⟨k, g, hk, rfl⟩ := mem_movemList.1 hp
  exact ⟨k, (List.getElem?_eq_some_iff.1 hk).1, hb⟩

/-- What MOVEM has stored, read back. -/
theorem peek_movemList (hm : s.mem.wf = true) {u : State} (hu : u.mem = s.mem) {wl : WL} {down : Bool} {mask : Word} {a : Long}
    {k : Nat} {g : RegRef} (hk : (storedRegs down mask)[k]? = some g)
    (hr : u.CanReach wl.size (a + BitVec.ofNat 32 (wl.size.bytes * k)))
    (hrom : ∀ j, j < wl.size.bytes →
      u.kindAt (phys (a + BitVec.ofNat 32 (wl.size.bytes * k) + BitVec.ofNat 32 (j / 2 * 2))) ≠ .rom) :
    (u.poke (u.mayStore wl.size (s.movemList wl.size down mask a))).peek wl.size (a + BitVec.ofNat 32 (wl.size.bytes * k)) =
      lowBits wl.size.bits (s.reg g) := by
  have hnodup := (mayStore_addrs_sublist u wl.size _).nodup (reached_movemList_nodup (s := s) (sz := wl.size) down mask a)
  have hlt := mayStore_lt u wl.size (s.movemList wl.size down mask a)
  have hm' : u.mem.wf = true := hu ▸ hm
  have hsub : cellsOf wl.size (a + BitVec.ofNat 32 (wl.size.bytes * k)) (lowBits wl.size.bits (s.reg g)) ⊆
      u.mayStore wl.size (s.movemList wl.size down mask a) := by
    intro c hc
    rw [cellsOf_eq] at hc
    obtain ⟨j, hj, rfl⟩ := List.mem_map.1 hc
    have hj' := List.mem_range.1 hj
    exact List.mem_flatMap.2 ⟨_, mem_movemList.2 ⟨k, g, hk, rfl⟩, mem_mayCells hr _ hj' (hrom j hj')⟩
  cases wl with
  | w => exact peek_w_poke hm' hlt hnodup (lowBits_lt 16 _) hsub
  | l => exact peek_l_poke hm' hlt hnodup (lowBits_lt 32 _) hsub

end StoreResult

section StoreMeaning

variable {s : State} {sz : Size} {ea : Ea} {mask : Word} {a : Long}

/-- The register that `-(An)` leaves at the lowest address. -/
def State.steppedDown (s : State) (ea : Ea) (v : Long) : State :=
  match ea with
  | .preDec r => s.setA r v
  | _ => s

/-- Where MOVEM stores, and from which register its addresses come. -/
def State.MovemAt (s : State) (sz : Size) (ea : Ea) (mask : Word) (a : Long) : Prop :=
  (∃ r, ea = .preDec r ∧ a = s.areg r - BitVec.ofNat 32 (sz.bytes * (storedRegs true mask).length)) ∨
    (decide (ea.mode = .preDec) = false ∧ ∃ p, s.operandAt 2 sz ea = .mem a p)

theorem movemStore_eq (hc : Mode.isMovemDest ea.mode = true) (ha : s.MovemAt sz ea mask a)
    (hs : ∀ k, k < (storedRegs (decide (ea.mode = .preDec)) mask).length →
      (s.skip (2 + ea.extWords)).CanStore sz (a + BitVec.ofNat 32 (sz.bytes * k))) :
    movemStore sz mask ea s =
      .next ((((s.skip (2 + ea.extWords)).poke
          ((s.skip (2 + ea.extWords)).mayStore sz (s.movemList sz (decide (ea.mode = .preDec)) mask a))).steppedDown ea a).charge
        (time (.movemToMem sz (storedRegs (decide (ea.mode = .preDec)) mask).length ea.mode))) := by
  have hall : (s.skip (2 + ea.extWords)).storeAll sz (s.movemList sz (decide (ea.mode = .preDec)) mask a) = _ :=
    storeAll_ok fun p hp => by
      obtain ⟨k, g, hk, rfl⟩ := mem_movemList.1 hp
      exact hs k (List.getElem?_eq_some_iff.1 hk).1
  unfold movemStore
  obtain ⟨r, rfl, ha⟩ | ⟨hd, p, hop⟩ := ha
  · have hmask : maskRegs movemDown mask.toNat = maskList true mask := maskRegs_eq_maskList true mask
    have hlen : (storedRegs true mask).length = (maskList true mask).length := List.length_reverse
    have hlist : movemStores sz true s (maskList true mask) (s.areg r) = s.movemList sz true mask a := by
      rw [movemStores_down, ha, hlen]
      rfl
    have hstart : (s.skip 2).movemStart sz (.preDec r) = (s.areg r, false, s.skip 2) := rfl
    have hmode : decide (Ea.mode (.preDec r) = .preDec) = true := rfl
    rw [hmode] at hall ⊢
    have hall' : (s.skip 2).storeAll sz (s.movemList sz true mask a) = _ := hall
    simp only [if_true, hmask, hstart, hlist, hall', bind, Except.bind, finish_ok]
    rw [← hlen, ← ha]
    rfl
  · have hmask : maskRegs movemUp mask.toNat = maskList false mask := maskRegs_eq_maskList false mask
    have hp : ea.mode ≠ .preDec := of_decide_eq_false hd
    have hlist : movemStores sz false s (maskList false mask) a = s.movemList sz false mask a := rfl
    rw [hd] at hall ⊢
    simp only [Bool.false_eq_true, if_false, hmask, movemStart_eq hp (.inr hc) hop, hlist, hall, bind, Except.bind]
    cases ea with
    | preDec r => exact absurd rfl hp
    | _ => exact finish_ok _ _ _ _

end StoreMeaning

/-! MOVEP. -/

section Movep

variable {s : State}

theorem movepAddrs_eq (n : Nat) (a : Long) : movepAddrs n a = (List.range n).map (fun k => a + BitVec.ofNat 32 (2 * k)) := by
  induction n generalizing a with
  | zero => rfl
  | succ n ih =>
    rw [movepAddrs, ih, List.range_succ_eq_map, List.map_cons, List.map_map, Nat.mul_zero, BitVec.add_zero]
    refine congrArg (a :: ·) (List.map_congr_left fun k _ => ?_)
    exact (place_succ a 2 k).symm

theorem readBytes_ok (as : List Long) (h : ∀ a, a ∈ as → s.CanReach .b a) (v : Nat) :
    s.readBytes as v = .ok (as.foldl (fun v a => 256 * v + (s.byteAt a).toNat) v, s) := by
  induction as generalizing v with
  | nil => rfl
  | cons a as ih =>
    simp only [State.readBytes, memRead_ok (h a List.mem_cons_self), List.foldl_cons]
    exact ih (fun b hb => h b (List.mem_cons_of_mem _ hb)) _

/-- The stores of MOVEP: the bytes of a number at every other address, the most significant at the lowest (R381). -/
def movepList (n v : Nat) (a : Long) : List (Long × Nat) :=
  (List.range n).map (fun k => (a + BitVec.ofNat 32 (2 * k), v / 256 ^ (n - 1 - k) % 256))

theorem movepList_eq (sz : WL) (x : Long) (a : Long) :
    (movepAddrs sz.size.bytes a).zip ((bytesOf sz.size (lowBits sz.size.bits x)).map (fun b => b.toNat)) =
      movepList sz.size.bytes x.toNat a := by
  have haddrs : ∀ n, movepAddrs n a = (List.range n).map fun k => a + BitVec.ofNat 32 (2 * k) := fun n => movepAddrs_eq n a
  cases sz with
  | w =>
    simp only [WL.size, Size.bytes, Size.bits, haddrs, movepList, bytesOf, lowBits, List.range_succ, List.range_zero]
    simp
    omega
  | l =>
    simp only [WL.size, Size.bytes, Size.bits, haddrs, movepList, bytesOf, lowBits, List.range_succ, List.range_zero]
    simp
    omega

theorem mem_movepList {n v : Nat} {a : Long} {p : Long × Nat} :
    p ∈ movepList n v a ↔ ∃ k, k < n ∧ p = (a + BitVec.ofNat 32 (2 * k), v / 256 ^ (n - 1 - k) % 256) := by
  simp only [movepList, List.mem_map, List.mem_range]
  exact exists_congr fun k => and_congr_right fun _ => eq_comm

theorem mem_reached_movepList {n v : Nat} {a : Long} {b : Nat} (h : b ∈ reached .b (movepList n v a)) :
    ∃ k, k < n ∧ b = phys (a + BitVec.ofNat 32 (2 * k)) := by
  obtain ⟨p, hp, hb⟩ := List.mem_flatMap.1 h
  obtain ⟨k, hk, rfl⟩ := mem_movepList.1 hp
  exact ⟨k, hk, by simpa [addrs, Size.bytes] using hb⟩

theorem reached_movepList_nodup {n : Nat} (hn : n ≤ 4) (v : Nat) (a : Long) : (reached .b (movepList n v a)).Nodup := by
  have heq : reached .b (movepList n v a) = (List.range n).map (fun k => phys (a + BitVec.ofNat 32 (2 * k))) := by
    rw [reached, movepList, List.flatMap_map, List.map_eq_flatMap]
    simp [addrs, Size.bytes]
  rw [heq]
  refine List.Nodup.map_on (fun j hj k hk h => ?_) List.nodup_range
  have hj := List.mem_range.1 hj
  have hk := List.mem_range.1 hk
  have := phys_add_inj a (by omega) (by omega) h
  omega

/-- What MOVEP leaves at each of its addresses. -/
theorem read_movepList {n v : Nat} (hn : n ≤ 4) (hm : s.mem.wf = true) {a : Long}
    (h : ∀ k, k < n → s.CanReach .b (a + BitVec.ofNat 32 (2 * k))) {k : Nat} (hk : k < n) :
    Memory.read (s.poke (s.mayStore .b (movepList n v a))).mem (phys (a + BitVec.ofNat 32 (2 * k))) =
      if s.kindAt (phys (a + BitVec.ofNat 32 (2 * k))) = .rom then Memory.read s.mem (phys (a + BitVec.ofNat 32 (2 * k)))
      else BitVec.ofNat 8 (v / 256 ^ (n - 1 - k)) := by
  split
  case isTrue hrom =>
    refine State.read_poke_of_not_mem s _ _ fun c hc hb => ?_
    obtain ⟨p, -, hp⟩ := List.mem_flatMap.1 hc
    obtain ⟨j, hj, hc1, hne⟩ := of_mem_mayCells hp
    obtain rfl : j = 0 := Nat.lt_one_iff.1 hj
    exact hne (by rw [← hrom, ← hb, hc1])
  case isFalse hrom =>
    have hcell := mem_mayCells (h k hk) (v / 256 ^ (n - 1 - k) % 256) (k := 0) Nat.one_pos (by simpa using hrom)
    have hread := read_mayStore_of_mem hm (reached_movepList_nodup hn v a)
      (List.mem_flatMap.2 ⟨_, mem_movepList.2 ⟨k, hk, rfl⟩, hcell⟩)
    simp only [BitVec.add_zero] at hread
    rw [hread]
    apply BitVec.eq_of_toNat_eq
    simp [Size.bytes]

end Movep

end Sys2Proof.Machine

namespace Sys2Proof

-- One declaration at a time: the check bounds the memory of all threads together.
set_option Elab.async false

open Machine

/-- Settles O48: the loads one after another, each register named once, then the step of `(An)+`. -/
theorem movemLoad : Obligations.MovemLoad := by
  intro s sz ea mask a p hok hop regs place hr hl
  let u := s.skip (2 + ea.extWords)
  let t := u.loaded sz.size regs a
  have hut : RegsOnly u (t.steppedTo ea (place regs.length)) := (loaded_regsOnly _ _ _).trans (steppedTo_regsOnly _ _ _)
  refine ⟨t.steppedTo ea (place regs.length), movemLoad_eq (ok_cls hok) hop hr hl, hut.eq, hut.usp, hut.ssp, ?_, ?_⟩
  · rintro r rfl
    exact State.areg_setA_same t _
  · intro g hg
    rw [steppedTo_reg t ea _ hg]
    exact ⟨fun hn => loaded_reg_of_not_mem hn a u, fun k hk => loaded_reg_of_getElem (maskList_nodup mask) hk a u⟩

/-- Settles O49: the stores by ascending address, in either form, do not meet. -/
theorem movemStore : Obligations.MovemStore := by
  intro s sz ea mask a hok hm down regs total place u ha hs
  let v := u.poke (u.mayStore sz.size (s.movemList sz.size down mask a))
  have hat : s.MovemAt sz.size ea mask a := by
    obtain ⟨r, rfl, ha⟩ | ha := ha
    · exact .inl ⟨r, rfl, ha⟩
    · exact .inr ha
  have hv : v.steppedDown ea a = { u.steppedDown ea a with mem := v.mem, book := v.book } := by
    cases ea with
    | preDec r => exact State.setA_with_mem_book u v.mem v.book r a
    | _ => rfl
  refine ⟨v.mem, v.book, ?_, fun b hb => ?_, fun k g hk hrom => ?_⟩
  · exact (movemStore_eq (ok_cls hok) hat hs).trans (congrArg (fun t : State => Host.Outcome.next (t.charge _)) hv)
  · refine read_mayStore_of_not_mem u fun hmem => ?_
    obtain ⟨k, hk, hb'⟩ := mem_reached_movemList hmem
    exact hb k hk hb'
  · exact peek_movemList hm (u := u) rfl hk (hs k (List.getElem?_eq_some_iff.1 hk).1).1 hrom

/-- Settles O60: the stores of the single bytes, and the loads one after another. -/
theorem movePeripheral : Obligations.MovePeripheral := by
  intro s sz x y d place n
  have hn : n ≤ 4 := by cases sz <;> decide
  refine ⟨fun hm hs => ?_, fun hr => ?_⟩
  · let u := s.skip 2
    let v := u.poke (u.mayStore .b (movepList n (s.dreg x).toNat (s.areg y + disp16 d)))
    have hstore : u.storeAll .b (movepList n (s.dreg x).toNat (s.areg y + disp16 d)) = .ok v := storeAll_ok fun p hp => by
      obtain ⟨k, hk, rfl⟩ := mem_movepList.1 hp
      exact hs k hk
    refine ⟨v.mem, v.book, ?_, fun b hb => ?_, fun k hk => ?_⟩
    · have arm : exec (.movepToMem sz x y d) s = execMovepToMem sz x y d s := rfl
      rw [arm, execMovepToMem, State.dlow, movepList_eq, hstore, finish_ok]
      rfl
    · refine read_mayStore_of_not_mem u fun hmem => ?_
      obtain ⟨k, hk, rfl⟩ := mem_reached_movepList hmem
      exact hb k hk rfl
    · exact read_movepList hn (s := u) hm (fun k hk => (hs k hk).1) hk
  · have arm : exec (.movepToReg sz y d x) s = execMovepToReg sz y d x s := rfl
    have hread : (s.skip 2).readBytes (movepAddrs n (s.areg y + disp16 d)) 0 = _ := readBytes_ok _ (fun a ha => by
      rw [movepAddrs_eq] at ha
      obtain ⟨k, hk, rfl⟩ := List.mem_map.1 ha
      exact hr k (List.mem_range.1 hk)) 0
    rw [arm, execMovepToReg, hread]
    simp only [bind, Except.bind, finish_ok, movepAddrs_eq, List.foldl_map]
    rfl

end Sys2Proof

/-! What a step is: reset, the exceptions between instructions, an instruction, and words that begin none (20_memory.md sections
1 and 4, 60_exceptions.md sections 2, 4, 5 and 7, 70_reset_and_hazards.md section 1). -/

namespace Sys2Proof.Machine

-- One declaration at a time: the check bounds the memory of all threads together.
set_option Elab.async false

/-! Sampling. -/

section Sampled

variable {s : State}

/-- Sampling the inputs brings the frames' bookkeeping up to date and leaves what the entry of an exception asks for. -/
theorem CanEnter_sampled {v : Nat} (h : s.CanEnter v) : s.sampled.CanEnter v := by
  have hv : s.sampled.book.vectors = s.book.vectors := by rw [State.sampled_book]; rfl
  simpa only [State.CanEnter, State.CanStack, State.VectorSet, CanReach_congr (State.sampled_regions s),
    State.kindAt_congr (State.sampled_regions s), peek_congr (State.sampled_mem s), State.sampled_mem, State.sampled_ssp,
    hv] using h

theorem wordsAt_sampled (a : Long) : s.sampled.wordsAt a = s.wordsAt a := by
  simp only [State.wordsAt, State.wordAt, peek_congr (State.sampled_mem s)]

/-- A read ahead in a device window is answered as the platform says, an error kept. -/
theorem lookAhead_of_device {a : Long} (h : s.kindAt (phys a) = .device) : s.lookAhead a = s.answer := by
  unfold State.lookAhead State.busCycle
  rw [h]
  obtain ⟨x, t⟩ := s.answer
  cases x <;> rfl

theorem answer_with_ahead (s : State) (q : List BusAnswer) :
    ({ s with ahead := q } : State).answer = (s.answer.1, { s.answer.2 with ahead := q }) := by
  simp only [State.answer]
  split <;> rfl

/-- A read ahead does not look at what is read ahead already. -/
theorem lookAhead_with_ahead (s : State) (q : List BusAnswer) (a : Long) :
    ({ s with ahead := q } : State).lookAhead a = ((s.lookAhead a).1, { (s.lookAhead a).2 with ahead := q }) := by
  cases hk : s.kindAt (phys a) with
  | ram => rw [lookAhead_ok (.inl hk), lookAhead_ok (s := { s with ahead := q }) (.inl hk)]
  | rom => rw [lookAhead_ok (.inr hk), lookAhead_ok (s := { s with ahead := q }) (.inr hk)]
  | absent => rw [lookAhead_absent hk, lookAhead_absent (s := { s with ahead := q }) hk]
  | device => rw [lookAhead_of_device hk, lookAhead_of_device (s := { s with ahead := q }) hk, answer_with_ahead]
  | undriven st =>
    unfold State.lookAhead
    rw [busCycle_undriven hk, busCycle_undriven (s := { s with ahead := q }) hk]
    rfl

/-- Nor does a change of flow, which reads two words ahead. -/
theorem landAt_with_ahead (s : State) (q : List BusAnswer) (t : Long) :
    ({ s with ahead := q } : State).landAt t = s.landAt t := by
  have h := lookAhead_with_ahead { s with pc := t } q (t + 2)
  unfold State.landAt State.arrive
  exact (congrArg (fun p : BusAnswer × State => ({ p.2 with ahead := [.memory, p.1] } : State)) h).trans rfl

end Sampled

/-! Instruction words. -/

section Words

variable {s : State}

/-- The vector of the exception that a word which begins no instruction raises (R93, R402). -/
def illegalVector : Reject → Nat
  | .lineA => 10
  | .lineF => 11
  | _ => 4

/-- A word that begins no instruction raises its exception (R93). -/
theorem fetch_illegal {e : Reject} (hd : decode (s.wordsAt s.pc) = .error e) (he : s.pc.toNat % 2 = 0)
    (ha : ∀ x, x ∈ s.ahead → x = .memory) (h : s.ahead = [] → s.Answers s.pc) :
    s.fetch exec = (({ s with ahead := s.ahead.drop 1 } : State).begin (s.wordAt s.pc)).illegalWord (illegalVector e) := by
  have hw : decode (BitVec.ofNat 16 (s.peek .w s.pc) :: (s.wordsAt s.pc).drop 1) = .error e := hd
  simp only [State.fetch, takeWord_ok he ha h, hw]
  cases e <;> rfl

/-- The entry of an exception does not look at what is read ahead. -/
theorem Entered_with_ahead {t : State} {q : List BusAnswer} {v : Nat} {saved : Long} {mask : BitVec 3} {tm : Time}
    (h : Entered { s with ahead := q } t v saved mask tm) : Entered s t v saved mask tm := by
  obtain ⟨ht, hrest⟩ := h
  refine ⟨ht.trans ?_, hrest⟩
  exact congrArg (fun u : State => u.charge tm) (landAt_with_ahead { s with
      sr := { s.sr with t := false, s := true, i := mask }, ssp := s.ssp - 6, run := .running
      book := s.tracked.stored (addrs 6 (s.ssp - 6)), mem := t.mem } q _)

end Words

/-! The order of a step. -/

section Step

variable {s : State}

theorem step_reset (h : s.sampled.pins.reset = true) : step s = s.sampled.resetSequence := if_pos h

theorem step_proceed (h : s.sampled.pins.reset = false) (hr : s.run ≠ .halted) : step s = s.sampled.proceed := by
  unfold step
  simp only [h, Bool.false_eq_true, if_false, State.sampled_run, if_neg hr]

theorem interruptDue_iff :
    s.interruptDue = true ↔ s.sr.i.toNat < s.pins.ipl.toNat ∨ (s.pins.ipl = 7 ∧ s.level7Edge = true) := by
  simp [State.interruptDue]

/-- The vector of an interrupt is one of the 256. -/
theorem vectorNumber_lt (l : BitVec 3) (a : IackAnswer) : a.vectorNumber l < 256 := by
  have hl := l.isLt
  cases a with
  | vector v => exact v.isLt
  | autovector => exact (show 24 + l.toNat < 256 by omega)
  | busError => exact (show 24 < 256 by decide)

end Step

end Sys2Proof.Machine

namespace Sys2Proof

-- One declaration at a time: the check bounds the memory of all threads together.
set_option Elab.async false

open Machine

/-- Settles O1: the reset state is one closed value. -/
theorem resetState : Obligations.ResetState := by
  refine ⟨rfl, rfl, rfl, rfl, rfl, rfl, rfl, .inr ?_, rfl⟩
  decide

/-- Settles O2: the two vectors answer, then the refill at the second. -/
theorem resetSequence : Obligations.ResetSequence := by
  intro s hreset h0 h4 ht
  let s1 : State := { s.sampled with
    sr := { s.sr with s := true, t := false, i := 7 }, run := .running, tracePending := false, level7Edge := false
    book := { s.book with frames := [] } }
  have hreg : s1.regions = s.regions := State.sampled_regions s
  have hmem : s1.mem = s.mem := State.sampled_mem s
  let s2 : State := { s1 with ssp := BitVec.ofNat 32 (s1.peek .l 0) }
  have hread : s1.memRead .l 0 true = .ok (s1.peek .l 0, s1) := memRead_ok ((CanReach_congr hreg _ _).2 h0) true
  have hvec : s2.followVector 1 = .ok (s2.landAt (BitVec.ofNat 32 (s2.peek .l 4))) :=
    followVector_ok (s := s2) (v := 1) ((CanReach_congr hreg _ _).2 h4)
      ((CanReach_congr hreg _ _).2 (peek_congr (s := s) (t := s2) hmem .l 4 ▸ ht))
  rw [step_reset hreset]
  calc s.sampled.resetSequence = .next ((s2.landAt (BitVec.ofNat 32 (s2.peek .l 4))).charge (time .resetPins)) := by
        have hs : s.sampled.sr = s.sr := State.sampled_sr s
        have hb : ({ s.sampled.book with frames := [] } : Bookkeeping) = { s.book with frames := [] } := by
          rw [State.sampled_book]
          rfl
        unfold State.resetSequence
        rw [hs, hb]
        simp only [s2, s1] at hread hvec ⊢
        simp only [hread, hvec]
    _ = _ := by
        rw [show s2.peek .l 4 = s.peek .l 4 from peek_congr hmem .l 4]
        simp only [s2, show s1.peek .l 0 = s.peek .l 0 from peek_congr hmem .l 0]
        rfl

/-- Settles O3: the decoder has taken one to five of the five words, which are fetched as memory holds them. -/
theorem stepRunsDecoded : Obligations.StepRunsDecoded := by
  intro s i rest hreset hrun htrace hint hd he ha hans
  obtain ⟨-, used, hused, hpos, -⟩ := decodeWellFormed _ _ _ hd
  have h5 : rest.length < 5 := by
    have hlen := congrArg List.length hused
    simp only [State.wordsAt, List.length_append, List.length_cons, List.length_nil] at hlen
    omega
  let u : State := { s.sampled with level7Edge := false }
  have hpc : u.pc = s.pc := State.sampled_pc s
  have hahead : u.ahead = s.ahead := State.sampled_ahead s
  have hans' : ∀ a, u.Answers a ↔ s.Answers a := fun a => by
    simp only [State.Answers, State.kindAt_congr (show u.regions = s.regions from State.sampled_regions s)]
  have hwords : u.wordsAt u.pc = s.wordsAt s.pc := by rw [hpc]; exact wordsAt_sampled s.pc
  rw [step_running hreset hrun htrace hint]
  have hf := fetch_ok exec (s := u) (hwords ▸ hd) (hpc ▸ he) (hahead ▸ ha)
    (fun k hk hl => (hans' _).2 (hpc ▸ hans k hk (hahead ▸ hl))) h5
  have hst : ({ u.begin (u.wordAt u.pc) with ahead := u.ahead.drop (5 - rest.length) } : State) = { s.sampled with
      ir := s.wordAt s.pc, tracePending := s.sr.t, level7Edge := false, ahead := s.ahead.drop (5 - rest.length) } := by
    have hw : u.wordAt u.pc = s.wordAt s.pc := congrArg (fun l => l.headD 0) hwords
    have hbegin : u.begin (s.wordAt s.pc) = { u with ir := s.wordAt s.pc, tracePending := s.sr.t } := by
      rw [State.begin, show u.sr = s.sr from State.sampled_sr s]
    rw [hw, hahead, hbegin]
  rw [hf, hst]
  generalize exec i _ = o
  cases o <;> rfl

/-- Settles O5: the first word is fetched, and its exception entered. -/
theorem illegalWords : Obligations.IllegalWords := by
  intro s v hreset hrun htrace hint hd hm he ha hans hen
  obtain ⟨e, hde, rfl⟩ : ∃ e, decode (s.wordsAt s.pc) = .error e ∧ v = illegalVector e := by
    obtain ⟨h, rfl⟩ | ⟨h, rfl⟩ | ⟨h, rfl⟩ := hd <;> exact ⟨_, h, rfl⟩
  let u : State := { s.sampled with level7Edge := false }
  have hpc : u.pc = s.pc := State.sampled_pc s
  have hahead : u.ahead = s.ahead := State.sampled_ahead s
  have hwords : u.wordsAt u.pc = s.wordsAt s.pc := by rw [hpc]; exact wordsAt_sampled s.pc
  have hw : u.wordAt u.pc = s.wordAt s.pc := congrArg (fun l => l.headD 0) hwords
  have hans' : u.ahead = [] → u.Answers u.pc := fun h => by
    rw [hpc, State.Answers, State.kindAt_congr (show u.regions = s.regions from State.sampled_regions s)]
    exact hans (hahead ▸ h)
  have hv : illegalVector e < 256 := by cases e <;> decide
  let w : State := { u with ir := s.wordAt s.pc }
  have htp : u.tracePending = false := (State.sampled_tracePending s).trans htrace
  have hwe : w.CanEnter (illegalVector e) := CanEnter_sampled hen
  obtain ⟨t, ht, hE⟩ := takeException_ok (s := { w with ahead := u.ahead.drop 1, tracePending := false }) hv
    ((congrArg Memory.wf (State.sampled_mem s)).trans hm) hwe u.pc (2 * wordCount (s.wordAt s.pc)) u.pc none (time .illegal)
  refine ⟨t, ?_, ?_⟩
  · rw [step_running hreset hrun htrace hint, fetch_illegal (s := u) (hwords ▸ hde) (hpc ▸ he) (hahead ▸ ha) hans', hw]
    exact ht
  · have hE' := Entered_with_ahead (s := { w with tracePending := false }) hE
    have hww : ({ w with tracePending := false } : State) = w := by rw [← htp]
    rw [hww, hpc] at hE'
    have hi : w.sr.i = s.sr.i := by rw [show w.sr = s.sr from State.sampled_sr s]
    exact hi ▸ hE'

/-- Settles O6: trace before an interrupt, each one exception entry. -/
theorem betweenInstructions : Obligations.BetweenInstructions := by
  intro s hreset hrun hm
  have hm' : s.sampled.mem.wf = true := by rwa [State.sampled_mem]
  refine ⟨fun htp hen => ?_, fun htp hdue v hv hen => ?_⟩
  · obtain ⟨t, ht, hE⟩ := takeException_ok (s := { s.sampled with tracePending := false }) (by decide) hm' (CanEnter_sampled hen)
      s.sampled.pc 0 s.sampled.pc none ⟨34, 4, 3⟩
    refine ⟨t, ?_, ?_⟩
    · rw [step_proceed hreset hrun, State.proceed, if_pos ((State.sampled_tracePending s).trans htp)]
      exact ht
    · simpa only [Option.getD_none, State.sampled_pc, State.sampled_sr] using hE
  · have hv' : v = s.sampled.pins.iack.vectorNumber s.sampled.pins.ipl := by
      rw [hv]
      cases s.sampled.pins.iack <;> rfl
    subst hv'
    obtain ⟨t, ht, hE⟩ := takeException_ok (s := { s.sampled with level7Edge := false }) (vectorNumber_lt _ _) hm'
      (CanEnter_sampled hen) s.sampled.pc 0 s.sampled.pc (some s.sampled.pins.ipl) ⟨44, 5, 3⟩
    have hdue' : s.sampled.interruptDue = true := interruptDue_iff.2 (by rwa [State.sampled_sr])
    refine ⟨t, ?_, ?_⟩
    · rw [step_proceed hreset hrun, State.proceed, if_neg (by simp [htp]), if_pos hdue']
      exact ht
    · simpa only [Option.getD_some, State.sampled_pc] using hE

/-- Settles O12: each of the nine is held back before its effect. -/
theorem privilegeViolation : Obligations.PrivilegeViolation := by
  intro s v ea an i hi hs hm hen
  have key : exec i s = s.privilegeViolation := by
    simp only [List.mem_cons, List.not_mem_nil, or_false] at hi
    obtain rfl | rfl | rfl | rfl | rfl | rfl | rfl | rfl | rfl := hi <;> exact privileged_user hs _
  rw [key]
  exact takeException_ok (s := { s with tracePending := false }) (by decide) hm hen ..

end Sys2Proof

/-! Registers, memory and the status register (10_state.md), comparisons (42_standard.md section 2) and the prefetch window
(20_memory.md section 9). -/

namespace Sys2Proof.Machine

-- One declaration at a time: the check bounds the memory of all threads together.
set_option Elab.async false

section Registers

variable {sz : Size}

/-- Replacing the low bits of a register loses nothing: the number stays below `2 ^ 32`. -/
theorem toNat_withLowBits (sz : Size) (v : Long) (n : Nat) :
    (withLowBits sz.bits v n).toNat = 2 ^ sz.bits * (v.toNat / 2 ^ sz.bits) + n % 2 ^ sz.bits := by
  have hv := v.isLt
  rw [withLowBits, BitVec.toNat_ofNat, Nat.mod_eq_of_lt]
  cases sz <;> simp only [Size.bits] <;> omega

theorem lowBits_withLowBits (v : Long) {n : Nat} (hn : n < 2 ^ sz.bits) : lowBits sz.bits (withLowBits sz.bits v n) = n := by
  rw [lowBits, toNat_withLowBits, Nat.mul_add_mod, Nat.mod_mod, Nat.mod_eq_of_lt hn]

theorem withLowBits_div (v : Long) (n : Nat) : (withLowBits sz.bits v n).toNat / 2 ^ sz.bits = v.toNat / 2 ^ sz.bits := by
  rw [toNat_withLowBits, Nat.mul_add_div (Nat.two_pow_pos _), Nat.div_eq_of_lt (Nat.mod_lt _ (Nat.two_pow_pos _)), Nat.add_zero]

theorem dreg_setDlow_same (s : State) (r : Reg) (n : Nat) :
    (s.setDlow sz r n).dreg r = withLowBits sz.bits (s.dreg r) n := State.reg_setReg_same s (.d r) _

theorem dreg_setDlow_ne (s : State) {q r : Reg} (h : q ≠ r) (n : Nat) : (s.setDlow sz r n).dreg q = s.dreg q :=
  State.reg_setReg_ne s (g := .d q) (g' := .d r) (fun e => h (RegRef.d.inj e)) _

/-- Register number 7 is the stack pointer in use. -/
theorem areg_seven (s : State) : s.areg 7 = s.sp := State.areg_of_not_lt s (by decide)

theorem setA_seven (s : State) (v : Long) : s.setA 7 v = s.setSp v := State.setA_of_not_lt s (by decide) v

end Registers

/-- Whether a store that memory answers reaches the prefetch window. -/
theorem memWrite_refused_iff {s : State} {sz : Size} {a : Long} (h : s.CanReach sz a) (v : Nat) :
    s.memWrite sz a v = .error (.refuse .prefetchWindow) ↔ ∃ c ∈ s.mayCells sz a v, c.1 ∈ addrs 4 s.pc := by
  have hany : (s.mayCells sz a v).any (fun c => s.inPrefetchWindow c.1) = true ↔ ∃ c ∈ s.mayCells sz a v, c.1 ∈ addrs 4 s.pc := by
    simp only [List.any_eq_true, inPrefetchWindow_iff]
  simp only [State.memWrite, writeCycles_ok h, State.storeCells]
  rw [← hany]
  split
  · exact ⟨fun _ => ‹_›, fun _ => rfl⟩
  · exact ⟨fun e => by simp at e, fun e => absurd e ‹_›⟩

theorem signed_cases {sz : Size} {v : Nat} (h : v < 2 ^ sz.bits) :
    (v < 2 ^ (sz.bits - 1) ∧ signed sz.bits v = v) ∨ (2 ^ (sz.bits - 1) ≤ v ∧ signed sz.bits v = (v : Int) - (2 ^ sz.bits : Nat)) := by
  simp only [signed, msb_eq sz.bits v (bits_pos sz) h, decide_eq_true_iff]
  split
  · exact .inr ⟨‹_›, rfl⟩
  · exact .inl ⟨not_le.1 ‹_›, rfl⟩

theorem signed_bounds {sz : Size} {v : Nat} (h : v < 2 ^ sz.bits) :
    -2 ^ (sz.bits - 1) ≤ signed sz.bits v ∧ signed sz.bits v < 2 ^ (sz.bits - 1) := by
  have hv := signed_cases h
  cases sz <;> simp only [Size.bits] at * <;> omega

theorem signed_inj {sz : Size} {v w : Nat} (hv : v < 2 ^ sz.bits) (hw : w < 2 ^ sz.bits)
    (h : signed sz.bits v = signed sz.bits w) : v = w := by
  have cv := signed_cases hv
  have cw := signed_cases hw
  cases sz <;> simp only [Size.bits] at * <;> omega

theorem exactSub_eq_zero_iff {sz : Size} {s d : Nat} (hs : s < 2 ^ sz.bits) (hd : d < 2 ^ sz.bits) :
    exactAlu .sub sz.bits s d = 0 ↔ s = d := by
  simp only [exactAlu]
  cases sz <;> simp only [Size.bits] at * <;> omega

/-- The signed difference is the exact one, or off by one turn of the register. -/
theorem signed_exactSub {sz : Size} {s d : Nat} (hs : s < 2 ^ sz.bits) (hd : d < 2 ^ sz.bits) :
    ∃ k : Int, signed sz.bits (exactAlu .sub sz.bits s d) = signed sz.bits d - signed sz.bits s + k * 2 ^ sz.bits := by
  have hr := exactAlu_lt .sub sz s d hs hd
  refine ⟨(signed sz.bits (exactAlu .sub sz.bits s d) - (signed sz.bits d - signed sz.bits s)) / 2 ^ sz.bits, ?_⟩
  have cr := signed_cases hr
  have cs := signed_cases hs
  have cd := signed_cases hd
  have hdef : (exactAlu .sub sz.bits s d : Int) = ((d : Int) - s) % 2 ^ sz.bits :=
    Int.toNat_of_nonneg (Int.emod_nonneg _ (by positivity))
  generalize exactAlu .sub sz.bits s d = r at *
  cases sz <;> simp only [Size.bits] at * <;> omega

/-- N equals V after a comparison exactly where the destination is not below the source. -/
theorem signed_exactSub_lt_iff {sz : Size} {s d : Nat} (hs : s < 2 ^ sz.bits) (hd : d < 2 ^ sz.bits) :
    (signed sz.bits (exactAlu .sub sz.bits s d) < 0 ↔
      signed sz.bits d - signed sz.bits s ≠ signed sz.bits (exactAlu .sub sz.bits s d)) ↔
      signed sz.bits s ≤ signed sz.bits d := by
  obtain ⟨k, hk⟩ := signed_exactSub hs hd
  have bs := signed_bounds hs
  have bd := signed_bounds hd
  have br := signed_bounds (exactAlu_lt .sub sz s d hs hd)
  generalize signed sz.bits (exactAlu .sub sz.bits s d) = r at *
  generalize signed sz.bits s = a at *
  generalize signed sz.bits d = b at *
  cases sz <;> simp only [Size.bits] at * <;> omega

/-- A status register is its sixteen bits. -/
theorem ofNat_toWord (q : StatusReg) : StatusReg.ofNat q.toWord.toNat = q := by
  have hbit : ∀ k, k < 16 → bitAt q.toWord.toNat k = q.bit k := fun k hk =>
    (bitAt_eq_testBit _ k).trans (StatusReg.getLsbD_toWord q hk)
  have hmask : BitVec.ofNat 3 (q.toWord.toNat / 256) = q.i := by
    refine BitVec.eq_of_getElem_eq fun k hk => ?_
    rw [getElem_ofNat_mask _ hk, ← bitAt_eq_testBit, hbit _ (by omega)]
    match k, hk with
    | 0, _ => rfl
    | 1, _ => rfl
    | 2, _ => rfl
  simp only [StatusReg.ofNat, hbit, hmask, Nat.reduceLT, StatusReg.bit]

end Sys2Proof.Machine

namespace Sys2Proof

-- One declaration at a time: the check bounds the memory of all threads together.
set_option Elab.async false

open Machine

/-- Settles O19: a register read after it or another was written. -/
theorem registerWrites : Obligations.RegisterWrites := by
  intro s v sz r q n hn
  refine ⟨fun h => ⟨?_, ?_⟩, fun h => ⟨?_, ?_⟩, State.areg_setA_same s v, fun hq => State.areg_setA_ne s hq v, ?_, ?_,
    fun hq => dreg_setDlow_ne s hq n⟩
  · rw [areg_seven, State.sp, if_pos h]
  · rw [setA_seven, State.setSp_supervisor h]
  · rw [areg_seven, State.sp, if_neg (by simp [h])]
  · rw [setA_seven, State.setSp_user h]
  · rw [dreg_setDlow_same, lowBits_withLowBits _ hn]
  · rw [dreg_setDlow_same, withLowBits_div]

/-- Settles O20: each mode's place is computed as it is named. -/
theorem operandPlaces : Obligations.OperandPlaces := by
  intro s sz r d x l v
  have hop : ∀ ea, s.operandAt 0 sz ea = (s.locate sz ea).1 := fun ea => by rw [State.operandAt, State.skip_zero]
  simp only [hop]
  refine ⟨rfl, rfl, rfl, rfl, ?_, rfl, rfl, rfl, rfl, rfl, rfl, rfl, rfl⟩
  cases sz with
  | b => exact congrArg (fun x => Loc.mem (s.areg r - x) false) (if_congr (and_iff_right rfl) rfl rfl)
  | w => rfl
  | l => rfl

/-- Settles O22: memory in canonical form, and the vectors the stored cells lie in. -/
theorem memoryReadWrite : Obligations.MemoryReadWrite := by
  intro m a b v hm
  refine ⟨?_, fun s cells w hw => poke_vectors s cells hw⟩
  split
  case isTrue h => rw [h, Memory.read_write_same hm]
  case isFalse h => exact Memory.read_write_ne m v h

/-- Settles O24: the cells a store may change are those that ROM does not answer. -/
theorem prefetchWindowRefused : Obligations.PrefetchWindowRefused := by
  intro s sz a v h
  refine ⟨(memWrite_refused_iff h v).trans ⟨?_, ?_⟩, fun hs => ⟨_, memWrite_ok hs v⟩⟩
  · rintro ⟨c, hc, hwin⟩
    obtain ⟨k, hk, hck, hrom⟩ := of_mem_mayCells hc
    exact ⟨k, hk, hrom, hck ▸ hwin⟩
  · rintro ⟨k, hk, hrom, hwin⟩
    exact ⟨_, mem_mayCells h v hk hrom, hwin⟩

/-- Settles O26: the flags are those of the exact difference. -/
theorem compareConditions : Obligations.CompareConditions := by
  intro sz s d q hs hd f
  have hf : f = compareFlags sz.bits s d q := cmp_eq sz s d hs hd q
  have hz : exactAlu .sub sz.bits s d = 0 ↔ s = d := exactSub_eq_zero_iff hs hd
  have hge := signed_exactSub_lt_iff hs hd
  have hgt : ¬s = d → (signed sz.bits s ≤ signed sz.bits d ↔ signed sz.bits s < signed sz.bits d) := fun hne =>
    ⟨fun h => lt_of_le_of_ne h fun e => hne (signed_inj hs hd e), le_of_lt⟩
  rw [hf]
  simp only [StatusReg.cond, compareFlags, exactFlags, hz, Bool.and_eq_true, Bool.not_eq_true', decide_eq_false_iff_not,
    decide_eq_true_iff, beq_iff_eq, decide_eq_decide, hge, not_lt]
  refine ⟨⟨fun ⟨hne, h⟩ => (hgt hne).1 h, fun h => ⟨fun e => absurd h (e ▸ lt_irrefl _), h.le⟩⟩, trivial, ?_, trivial, trivial, trivial⟩
  exact ⟨fun ⟨h, hne⟩ => lt_of_le_of_ne h hne, fun h => ⟨h.le, h.ne⟩⟩

/-- Settles O27: bit by bit. -/
theorem statusRegisterWord : Obligations.StatusRegisterWord := by
  intro v q
  refine ⟨StatusReg.toWord_ofNat_toNat v, ofNat_toWord q, ?_⟩
  rw [StatusReg.toWord_withCcr, BitVec.ofNat_toNat, BitVec.setWidth_eq]

end Sys2Proof

/-! Shifts and rotates by `n` places are `n` single places (45_shift_rotate.md section 2): the closed form of each operation is
shown to start right and to go on by one place. -/

namespace Sys2Proof.Machine

-- One declaration at a time: the check bounds the memory of all threads together.
set_option Elab.async false

/-! One more place at the end. -/

theorem shiftMany_succ (op : ShiftOp) (bits n d : Nat) (x c v : Bool) :
    shiftMany op bits (n + 1) d x c v =
      let m := shiftMany op bits n d x c v
      let o := shiftOnce op bits m.1 m.2.1
      (o.1, o.2.1, o.2.2, m.2.2.2 || (m.1 / 2 ^ (bits - 1) % 2 != o.1 / 2 ^ (bits - 1) % 2)) := by
  induction n generalizing d x c v with
  | zero => rfl
  | succ n ih => rw [shiftMany, ih]; rfl

/-! Bits. -/

section Bits

variable {bits n d : Nat}

theorem beq_one_eq_testBit (d k : Nat) : (d / 2 ^ k % 2 == 1) = d.testBit k := by
  rw [Nat.testBit_eq_decide_div_mod_eq]
  rfl

theorem bit_ne_eq_xor (d e k : Nat) : (d / 2 ^ k % 2 != e / 2 ^ k % 2) = (d.testBit k != e.testBit k) := by
  rw [Nat.testBit_eq_decide_div_mod_eq, Nat.testBit_eq_decide_div_mod_eq, Bool.eq_iff_iff]
  simp only [bne_iff_ne, ne_eq, decide_eq_decide]
  omega

theorem shiftLeft_succ (bits n d : Nat) : shiftLeft bits n d * 2 % 2 ^ bits = shiftLeft bits (n + 1) d := by
  simp only [shiftLeft, trunc]
  rw [Nat.mod_mul_mod, Nat.pow_succ, Nat.mul_assoc]

/-- The top bit after `n` places to the left is the bit that leaves next. -/
theorem shiftLeft_top (hb : 0 < bits) (n d : Nat) : (shiftLeft bits n d).testBit (bits - 1) = leftCarry bits (n + 1) d := by
  rw [shiftLeft, trunc, leftCarry, Nat.testBit_mod_two_pow, decide_eq_true (by omega), Bool.true_and,
    Nat.mul_comm, Nat.testBit_two_pow_mul]
  split
  case isTrue h =>
    rw [decide_eq_true (by omega), Bool.true_and, bitAt_eq_testBit, Nat.sub_sub, Nat.add_comm 1 n]
  case isFalse h =>
    rw [decide_eq_false (by omega), Bool.false_and]

theorem aslOverflow_zero (hb : 0 < bits) (hd : d < 2 ^ bits) : aslOverflow bits 0 d = false := by
  have h2 : 2 ^ bits = 2 * 2 ^ (bits - 1) := by rw [← Nat.pow_succ']; congr 1; omega
  have hq : d / 2 ^ (bits - 1) < 2 := Nat.div_lt_of_lt_mul (by omega)
  rw [aslOverflow, if_pos hb, Nat.sub_zero]
  interval_cases d / 2 ^ (bits - 1) <;> rfl

theorem two_pow_eq_double (hb : 0 < bits) : 2 ^ bits = 2 * 2 ^ (bits - 1) := by
  rw [← Nat.pow_succ', Nat.succ_eq_add_one, Nat.sub_add_cancel hb]

/-- The sign has changed by `n + 1` places if it has by `n`, or if the last place changes it. -/
theorem aslOverflow_succ (hd : d < 2 ^ bits) (n : Nat) :
    aslOverflow bits (n + 1) d = (aslOverflow bits n d || (leftCarry bits (n + 1) d != leftCarry bits (n + 2) d)) := by
  have hpos : 0 < 2 ^ n := Nat.two_pow_pos n
  rcases Nat.lt_trichotomy (n + 1) bits with h | h | h
  · obtain ⟨j, rfl⟩ : ∃ j, bits = n + 2 + j := ⟨bits - (n + 2), by omega⟩
    have hhalf : d / 2 ^ (j + 1) = d / 2 ^ j / 2 := by rw [Nat.div_div_eq_div_mul, Nat.pow_succ]
    have e1 : n + 2 + j - 1 - (n + 1) = j := by omega
    have e2 : n + 2 + j - 1 - n = j + 1 := by omega
    have e3 : n + 2 + j - (n + 1) = j + 1 := by omega
    have e4 : n + 2 + j - (n + 2) = j := by omega
    have hq : d / 2 ^ j < 4 * 2 ^ n := by
      refine Nat.div_lt_of_lt_mul ?_
      calc d < 2 ^ (n + 2 + j) := hd
        _ = 2 ^ j * (4 * 2 ^ n) := by ring
    have h2 : 2 ^ (n + 1 + 1) = 4 * 2 ^ n := by ring
    have h1 : 2 ^ (n + 1) = 2 * 2 ^ n := by ring
    simp only [aslOverflow, leftCarry, bitAt, if_pos h, if_pos (show n < n + 2 + j by omega),
      if_pos (show n + 1 ≤ n + 2 + j by omega), if_pos (show n + 2 ≤ n + 2 + j by omega), e1, e2, e3, e4, hhalf, h1, h2]
    generalize d / 2 ^ j = q at *
    rw [Bool.eq_iff_iff]
    simp
    omega
  · subst h
    have h1 : 2 ^ (n + 1) = 2 * 2 ^ n := by ring
    simp only [aslOverflow, leftCarry, bitAt, lt_irrefl, if_false, if_pos (Nat.lt_succ_self n), le_refl, if_true,
      if_neg (show ¬n + 2 ≤ n + 1 by omega), Nat.add_sub_cancel, Nat.sub_self, Nat.pow_zero, Nat.div_one, h1]
    rw [Bool.eq_iff_iff]
    simp
    omega
  · simp only [aslOverflow, leftCarry, if_neg (show ¬n + 1 < bits by omega), if_neg (show ¬n + 1 ≤ bits by omega),
      if_neg (show ¬n + 2 ≤ bits by omega), if_neg (show ¬n < bits by omega), bne_self_eq_false, Bool.or_false]

end Bits

/-! Rotates. -/

section Rotates

variable {bits k n d : Nat}

/-- One place to the left, the top bit into the bottom. -/
def leftOnce (bits r : Nat) : Nat := r * 2 % 2 ^ bits + r / 2 ^ (bits - 1) % 2

/-- One place to the right, the bottom bit into the top. -/
def rightOnce (bits r : Nat) : Nat := r / 2 + r % 2 * 2 ^ (bits - 1)

theorem leftOnce_lt (hb : 0 < bits) (r : Nat) : leftOnce bits r < 2 ^ bits := by
  have h2 := two_pow_eq_double hb
  have hm : r * 2 % 2 ^ bits = 2 * (r % 2 ^ (bits - 1)) := by rw [h2, Nat.mul_comm r, Nat.mul_mod_mul_left]
  have := Nat.mod_lt r (Nat.two_pow_pos (bits - 1))
  unfold leftOnce
  omega

theorem leftOnce_mod_two (hb : 0 < bits) (r : Nat) : leftOnce bits r % 2 = r / 2 ^ (bits - 1) % 2 := by
  have hm : r * 2 % 2 ^ bits = 2 * (r % 2 ^ (bits - 1)) := by rw [two_pow_eq_double hb, Nat.mul_comm r, Nat.mul_mod_mul_left]
  unfold leftOnce
  omega

theorem rightOnce_leftOnce (hb : 0 < bits) {r : Nat} (hr : r < 2 ^ bits) : rightOnce bits (leftOnce bits r) = r := by
  have h2 := two_pow_eq_double hb
  have hm : r * 2 % 2 ^ bits = 2 * (r % 2 ^ (bits - 1)) := by rw [h2, Nat.mul_comm r, Nat.mul_mod_mul_left]
  have hq : r / 2 ^ (bits - 1) < 2 := Nat.div_lt_of_lt_mul (by omega)
  have hdiv : leftOnce bits r / 2 = r % 2 ^ (bits - 1) := by unfold leftOnce; omega
  rw [rightOnce, leftOnce_mod_two hb, hdiv, Nat.mod_eq_of_lt hq, Nat.mul_comm, Nat.mod_add_div]

theorem rightOnce_top (hb : 0 < bits) {r : Nat} (hr : r < 2 ^ bits) : rightOnce bits r / 2 ^ (bits - 1) = r % 2 := by
  have h2 := two_pow_eq_double hb
  rw [rightOnce, Nat.add_mul_div_right _ _ (Nat.two_pow_pos _), Nat.div_eq_of_lt (by omega), Nat.zero_add]

theorem rotateLeft_eq (hk : k ≤ bits) (d : Nat) :
    rotateLeft bits k d = d % 2 ^ (bits - k) * 2 ^ k + d / 2 ^ (bits - k) := by
  rw [rotateLeft, trunc]
  conv_lhs => rw [show 2 ^ bits = 2 ^ (bits - k) * 2 ^ k by rw [← Nat.pow_add, Nat.sub_add_cancel hk], Nat.mul_mod_mul_right]

/-- A rotate in two parts: the `K` values below `2 * M` and those above change places; one place more moves one bit over. -/
theorem leftOnce_parts {M K : Nat} (hM : 0 < M) (hd : d < 2 * M * K) :
    let r := d % (2 * M) * K + d / (2 * M)
    r * 2 % (2 * (M * K)) + r / (M * K) % 2 = d % M * (2 * K) + d / M := by
  intro r
  have hK : 0 < K := by
    rcases Nat.eq_zero_or_pos K with rfl | h
    · simp at hd
    · exact h
  have hmod : d % (2 * M) = d % M + M * (d / M % 2) := by rw [Nat.mul_comm 2 M, Nat.mod_mul]
  have hdiv : d / (2 * M) = d / M / 2 := by rw [Nat.mul_comm 2 M, Nat.div_div_eq_div_mul]
  have he : d / M < 2 * K := Nat.div_lt_of_lt_mul (by nlinarith)
  let t := d % M * K + d / M / 2
  have ht : t < M * K := by
    have hle : d % M + 1 ≤ M := Nat.mod_lt _ hM
    have := Nat.mul_le_mul_right K hle
    have : d / M / 2 < K := by omega
    simp only [t]
    nlinarith
  have hr : r = M * K * (d / M % 2) + t := by
    simp only [r, t, hmod, hdiv]
    ring
  have hr1 : r / (M * K) = d / M % 2 := by
    rw [hr, Nat.mul_add_div (Nat.mul_pos hM hK), Nat.div_eq_of_lt ht, Nat.add_zero]
  have hr2 : r % (M * K) = t := by rw [hr, Nat.mul_add_mod, Nat.mod_eq_of_lt ht]
  rw [Nat.mul_comm r 2, Nat.mul_mod_mul_left, hr1, hr2]
  have : d % M * (2 * K) = 2 * (d % M * K) := by ring
  simp only [t]
  omega

theorem rotateLeft_succ (hk : k < bits) (hd : d < 2 ^ bits) :
    leftOnce bits (rotateLeft bits k d) = rotateLeft bits (k + 1) d := by
  obtain ⟨j, rfl⟩ : ∃ j, bits = k + 1 + j := ⟨bits - (k + 1), by omega⟩
  have h1 : 2 ^ (k + 1 + j - k) = 2 * 2 ^ j := by rw [show k + 1 + j - k = j + 1 by omega]; ring
  have h2 : 2 ^ (k + 1 + j - (k + 1)) = 2 ^ j := by rw [show k + 1 + j - (k + 1) = j by omega]
  have h3 : 2 ^ (k + 1 + j) = 2 * (2 ^ j * 2 ^ k) := by ring
  have h4 : 2 ^ (k + 1 + j - 1) = 2 ^ j * 2 ^ k := by rw [show k + 1 + j - 1 = j + k by omega]; ring
  have h5 : 2 ^ (k + 1) = 2 * 2 ^ k := by ring
  rw [leftOnce, rotateLeft_eq hk.le, rotateLeft_eq hk, h1, h2, h3, h4, h5]
  exact leftOnce_parts (Nat.two_pow_pos j) (by rw [h3] at hd; linarith)

theorem rotateLeft_zero (hd : d < 2 ^ bits) : rotateLeft bits 0 d = d := by
  rw [rotateLeft, trunc, Nat.pow_zero, Nat.mul_one, Nat.sub_zero, Nat.mod_eq_of_lt hd, Nat.div_eq_of_lt hd, Nat.add_zero]

theorem rotateLeft_all (d : Nat) : rotateLeft bits bits d = d := by
  rw [rotateLeft, trunc, Nat.mul_mod_left, Nat.sub_self, Nat.pow_zero, Nat.div_one, Nat.zero_add]

theorem rotateLeft_lt (hd : d < 2 ^ bits) (hk : k ≤ bits) : rotateLeft bits k d < 2 ^ bits := by
  induction k with
  | zero => rwa [rotateLeft_zero hd]
  | succ k ih =>
    rw [← rotateLeft_succ hk hd]
    exact leftOnce_lt (Nat.zero_lt_of_lt hk) _

theorem rotateLeft_mod_succ (hb : 0 < bits) (hd : d < 2 ^ bits) (n : Nat) :
    leftOnce bits (rotateLeft bits (n % bits) d) = rotateLeft bits ((n + 1) % bits) d := by
  have hlt := Nat.mod_lt n hb
  rw [rotateLeft_succ hlt hd]
  rcases Nat.lt_or_ge (n % bits + 1) bits with h | h
  · rw [← Nat.mod_add_mod, Nat.mod_eq_of_lt h]
  · have he : n % bits + 1 = bits := by omega
    rw [← Nat.mod_add_mod, he, Nat.mod_self, rotateLeft_all, rotateLeft_zero hd]

theorem rotateRight_eq (hk : k ≤ bits) (d : Nat) : rotateRight bits k d = rotateLeft bits (bits - k) d := by
  rw [rotateRight, rotateLeft, Nat.sub_sub_self hk, Nat.add_comm]

theorem rotateRight_lt (hd : d < 2 ^ bits) (hk : k ≤ bits) : rotateRight bits k d < 2 ^ bits := by
  rw [rotateRight_eq hk]
  exact rotateLeft_lt hd (Nat.sub_le _ _)

theorem rotateRight_zero (bits d : Nat) : rotateRight bits 0 d = d := by
  rw [rotateRight_eq (Nat.zero_le _), Nat.sub_zero, rotateLeft_all]

theorem rotateRight_mod_succ (hb : 0 < bits) (hd : d < 2 ^ bits) (n : Nat) :
    rightOnce bits (rotateRight bits (n % bits) d) = rotateRight bits ((n + 1) % bits) d := by
  have hlt := Nat.mod_lt n hb
  have hlast : rotateRight bits (n % bits) d = leftOnce bits (rotateLeft bits (bits - (n % bits + 1)) d) := by
    rw [rotateRight_eq hlt.le, rotateLeft_succ (by omega) hd]
    congr 1
    omega
  rw [hlast, rightOnce_leftOnce hb (rotateLeft_lt hd (Nat.sub_le _ _))]
  rcases Nat.lt_or_ge (n % bits + 1) bits with h | h
  · rw [← Nat.mod_add_mod, Nat.mod_eq_of_lt h, rotateRight_eq h.le]
  · have he : n % bits + 1 = bits := by omega
    rw [← Nat.mod_add_mod, he, Nat.mod_self, rotateRight_zero, Nat.sub_self, rotateLeft_zero hd]

end Rotates

/-! Arithmetic shifts to the right. -/

section Arithmetic

variable {bits n d : Nat}

theorem two_pow_int_eq_double (hb : 0 < bits) : (2 : Int) ^ bits = 2 * 2 ^ (bits - 1) := by
  exact_mod_cast two_pow_eq_double hb

theorem ofSigned_cases (hb : 0 < bits) {z : Int} (hl : -2 ^ (bits - 1) ≤ z) (hu : z < 2 ^ (bits - 1)) :
    (0 ≤ z ∧ (ofSigned bits z : Int) = z) ∨ (z < 0 ∧ (ofSigned bits z : Int) = z + 2 ^ bits) := by
  have h2 := two_pow_int_eq_double hb
  have hpos : (0 : Int) < 2 ^ (bits - 1) := by positivity
  have hcast : (ofSigned bits z : Int) = z % 2 ^ bits := Int.toNat_of_nonneg (Int.emod_nonneg _ (by positivity))
  rcases lt_or_ge z 0 with h | h
  · exact .inr ⟨h, by rw [hcast, ← Int.add_emod_right, Int.emod_eq_of_lt (by omega) (by omega)]⟩
  · exact .inl ⟨h, by rw [hcast, Int.emod_eq_of_lt h (by omega)]⟩

/-- One place to the right with the sign kept halves the number. -/
theorem shiftOnce_asr (hb : 0 < bits) {z : Int} (hl : -2 ^ (bits - 1) ≤ z) (hu : z < 2 ^ (bits - 1)) (x : Bool) :
    shiftOnce .asr bits (ofSigned bits z) x = (ofSigned bits (z / 2), decide (z % 2 = 1), decide (z % 2 = 1)) := by
  have h2 := two_pow_int_eq_double hb
  have hpos : (0 : Int) < 2 ^ (bits - 1) := by positivity
  have hz := ofSigned_cases hb hl hu
  have hh := ofSigned_cases hb (z := z / 2) (by omega) (by omega)
  have hB : ((2 ^ (bits - 1) : Nat) : Int) = 2 ^ (bits - 1) := by push_cast; rfl
  have hBpos : 0 < 2 ^ (bits - 1) := Nat.two_pow_pos _
  have hbottom : (ofSigned bits z % 2 == 1) = decide (z % 2 = 1) := by
    rw [Bool.eq_iff_iff, beq_iff_eq, decide_eq_true_iff]
    omega
  have htop : ofSigned bits z / 2 ^ (bits - 1) % 2 = if z < 0 then 1 else 0 := by
    split
    · rw [show ofSigned bits z / 2 ^ (bits - 1) = 1 from Nat.div_eq_of_lt_le (by omega) (by omega)]
    · rw [Nat.div_eq_of_lt (by omega)]
  have hr : ofSigned bits z / 2 + ofSigned bits z / 2 ^ (bits - 1) % 2 * 2 ^ (bits - 1) = ofSigned bits (z / 2) := by
    rw [htop]
    split <;> omega
  simp only [shiftOnce, hbottom, hr]

/-- The bit that an arithmetic shift moves out: the operand's own, then its sign. -/
theorem signed_ediv_emod (hb : 0 < bits) (hd : d < 2 ^ bits) (n : Nat) :
    decide (signed bits d / 2 ^ n % 2 = 1) = if n + 1 ≤ bits then bitAt d n else msb bits d := by
  have h2 := two_pow_eq_double hb
  split
  case isTrue h =>
    have hpow : (2 : Int) ^ bits = 2 * 2 ^ (bits - 1 - n) * 2 ^ n := by
      rw [← pow_succ', ← pow_add]
      congr 1
      omega
    have hne : (2 : Int) ^ n ≠ 0 := by positivity
    have hcast : ((d / 2 ^ n : Nat) : Int) = (d : Int) / 2 ^ n := by push_cast; rfl
    have hdiv : ∃ m : Int, signed bits d / 2 ^ n = ((d / 2 ^ n : Nat) : Int) + 2 * m := by
      unfold signed
      split
      · refine ⟨-2 ^ (bits - 1 - n), ?_⟩
        rw [hpow, sub_eq_add_neg, ← neg_mul, Int.add_mul_ediv_right _ _ hne, hcast]
        ring
      · exact ⟨0, by rw [hcast]; ring⟩
    obtain ⟨m, hm⟩ := hdiv
    rw [hm, bitAt, Bool.eq_iff_iff, decide_eq_true_iff, beq_iff_eq]
    omega
  case isFalse h =>
    have hle : 2 ^ bits ≤ 2 ^ n := Nat.pow_le_pow_right (by decide) (by omega)
    have hle' : (2 : Int) ^ bits ≤ 2 ^ n := by exact_mod_cast hle
    have hd' : (d : Int) < 2 ^ bits := by exact_mod_cast hd
    unfold signed
    cases msb bits d with
    | true =>
      have : ((d : Int) - 2 ^ bits) / 2 ^ n = -1 := Int.ediv_eq_neg_one_of_neg_of_le (by omega) (by omega)
      rw [if_pos rfl, this]
      rfl
    | false =>
      rw [if_neg (by decide), Int.ediv_eq_zero_of_lt (by omega) (by omega)]
      rfl

end Arithmetic

/-! The closed form of each operation. -/

section Closed

variable {bits n d : Nat}

/-- What a run of places has left: the operand, X and C. -/
def LeavesPlaces (op : ShiftOp) (bits n d : Nat) (x c0 : Bool) (r : Nat) (x' c : Bool) : Prop :=
  let m := shiftMany op bits n d x c0 false
  m.1 = r ∧ m.2.1 = x' ∧ m.2.2.1 = c

/-- A run goes on by one place. -/
theorem LeavesPlaces.succ {op : ShiftOp} {c0 : Bool} {r : Nat} {x x' c : Bool}
    (h : LeavesPlaces op bits n d x c0 r x' c) :
    LeavesPlaces op bits (n + 1) d x c0 (shiftOnce op bits r x').1 (shiftOnce op bits r x').2.1
      (shiftOnce op bits r x').2.2 := by
  obtain ⟨hr, hx, -⟩ := h
  rw [LeavesPlaces, shiftMany_succ]
  simp only [hr, hx, and_self]

theorem shiftMany_left (hb : 0 < bits) (hd : d < 2 ^ bits) (x : Bool) {op : ShiftOp} (hop : op = .asl ∨ op = .lsl) (n : Nat) :
    LeavesPlaces op bits n d x false (shiftLeft bits n d) (if n = 0 then x else leftCarry bits n d)
      (if n = 0 then false else leftCarry bits n d) := by
  induction n with
  | zero =>
    refine ⟨?_, rfl, rfl⟩
    rw [shiftLeft, trunc, Nat.pow_zero, Nat.mul_one, Nat.mod_eq_of_lt hd]
    rfl
  | succ n ih =>
    have hone : ∀ y, shiftOnce op bits (shiftLeft bits n d) y =
        (shiftLeft bits (n + 1) d, leftCarry bits (n + 1) d, leftCarry bits (n + 1) d) := fun y => by
      rw [← shiftLeft_succ, ← shiftLeft_top hb, ← beq_one_eq_testBit]
      obtain rfl | rfl := hop <;> rfl
    have h := ih.succ
    rwa [hone] at h

theorem shiftMany_asl_overflow (hb : 0 < bits) (hd : d < 2 ^ bits) (x : Bool) (n : Nat) :
    (shiftMany .asl bits n d x false false).2.2.2 = aslOverflow bits n d := by
  induction n with
  | zero => exact (aslOverflow_zero hb hd).symm
  | succ n ih =>
    obtain ⟨hr, hx, -⟩ := shiftMany_left hb hd x (.inl rfl) n
    have hone : ∀ y, (shiftOnce .asl bits (shiftLeft bits n d) y).1 = shiftLeft bits (n + 1) d := fun _ =>
      shiftLeft_succ bits n d
    rw [shiftMany_succ, aslOverflow_succ hd]
    simp only [ih, hr, hone, bit_ne_eq_xor, shiftLeft_top hb]

theorem shiftMany_lsr (hd : d < 2 ^ bits) (x : Bool) (n : Nat) :
    LeavesPlaces .lsr bits n d x false (d / 2 ^ n) (if n = 0 then x else if n ≤ bits then bitAt d (n - 1) else false)
      (if n = 0 then false else if n ≤ bits then bitAt d (n - 1) else false) := by
  induction n with
  | zero => exact ⟨(Nat.div_one d).symm, rfl, rfl⟩
  | succ n ih =>
    have hcarry : (d / 2 ^ n % 2 == 1) = if n + 1 ≤ bits then bitAt d n else false := by
      split
      · rfl
      · rw [Nat.div_eq_of_lt (hd.trans_le (Nat.pow_le_pow_right (by decide) (by omega)))]
        rfl
    have hone : ∀ y, shiftOnce .lsr bits (d / 2 ^ n) y =
        (d / 2 ^ (n + 1), if n + 1 ≤ bits then bitAt d n else false, if n + 1 ≤ bits then bitAt d n else false) := fun y => by
      rw [← hcarry, Nat.pow_succ, ← Nat.div_div_eq_div_mul]
      rfl
    have h := ih.succ
    rwa [hone] at h

theorem signed_ediv_bounds (hb : 0 < bits) (hd : d < 2 ^ bits) (n : Nat) :
    -2 ^ (bits - 1) ≤ signed bits d / 2 ^ n ∧ signed bits d / 2 ^ n < 2 ^ (bits - 1) := by
  have hpos : (0 : Int) < 2 ^ (bits - 1) := by positivity
  induction n with
  | zero =>
    rw [pow_zero, Int.ediv_one, signed_toInt bits d hb hd]
    exact ⟨BitVec.le_toInt _, BitVec.toInt_lt⟩
  | succ n ih =>
    rw [pow_succ, ← Int.ediv_ediv_of_nonneg (by positivity)]
    omega

theorem shiftRightArith_zero (hb : 0 < bits) (hd : d < 2 ^ bits) : shiftRightArith bits 0 d = d := by
  rw [shiftRightArith, pow_zero, Int.ediv_one, signed_toInt bits d hb hd, ofSigned_eq_toNat_ofInt, BitVec.ofInt_toInt,
    BitVec.toNat_ofNat, Nat.mod_eq_of_lt hd]

theorem shiftMany_asr (hb : 0 < bits) (hd : d < 2 ^ bits) (x : Bool) (n : Nat) :
    LeavesPlaces .asr bits n d x false (shiftRightArith bits n d)
      (if n = 0 then x else if n ≤ bits then bitAt d (n - 1) else msb bits d)
      (if n = 0 then false else if n ≤ bits then bitAt d (n - 1) else msb bits d) := by
  induction n with
  | zero => exact ⟨(shiftRightArith_zero hb hd).symm, rfl, rfl⟩
  | succ n ih =>
    obtain ⟨hl, hu⟩ := signed_ediv_bounds hb hd n
    have hone : ∀ y, shiftOnce .asr bits (shiftRightArith bits n d) y = (shiftRightArith bits (n + 1) d,
        if n + 1 ≤ bits then bitAt d n else msb bits d, if n + 1 ≤ bits then bitAt d n else msb bits d) := fun y => by
      rw [← signed_ediv_emod hb hd, shiftRightArith, shiftOnce_asr hb hl hu, shiftRightArith, pow_succ,
        Int.ediv_ediv_of_nonneg (by positivity)]
    have h := ih.succ
    rwa [hone] at h

theorem shiftMany_rol (hb : 0 < bits) (hd : d < 2 ^ bits) (x c0 : Bool) (n : Nat) :
    LeavesPlaces .rol bits n d x c0 (rotateLeft bits (n % bits) d) x
      (if n = 0 then c0 else bitAt (rotateLeft bits (n % bits) d) 0) := by
  induction n with
  | zero => exact ⟨by rw [Nat.zero_mod, rotateLeft_zero hd]; rfl, rfl, rfl⟩
  | succ n ih =>
    have hone : ∀ y, shiftOnce .rol bits (rotateLeft bits (n % bits) d) y = (rotateLeft bits ((n + 1) % bits) d, y,
        bitAt (rotateLeft bits ((n + 1) % bits) d) 0) := fun y => by
      rw [← rotateLeft_mod_succ hb hd, bitAt, Nat.pow_zero, Nat.div_one, leftOnce_mod_two hb]
      rfl
    have h := ih.succ
    rwa [hone] at h

theorem shiftMany_ror (hb : 0 < bits) (hd : d < 2 ^ bits) (x c0 : Bool) (n : Nat) :
    LeavesPlaces .ror bits n d x c0 (rotateRight bits (n % bits) d) x
      (if n = 0 then c0 else msb bits (rotateRight bits (n % bits) d)) := by
  induction n with
  | zero => exact ⟨by rw [Nat.zero_mod, rotateRight_zero]; rfl, rfl, rfl⟩
  | succ n ih =>
    have hlt := rotateRight_lt hd (Nat.mod_lt n hb).le
    have hone : ∀ y, shiftOnce .ror bits (rotateRight bits (n % bits) d) y = (rotateRight bits ((n + 1) % bits) d, y,
        msb bits (rotateRight bits ((n + 1) % bits) d)) := fun y => by
      rw [← rotateRight_mod_succ hb hd, msb, rightOnce_top hb hlt, Nat.mod_mod]
      rfl
    have h := ih.succ
    rwa [hone] at h

/-! With X on top of the operand. -/

theorem withExtend_lt (hd : d < 2 ^ bits) (x : Bool) : withExtend bits d x < 2 ^ (bits + 1) := by
  have hx := Bool.toNat_le x
  rw [withExtend, Nat.pow_succ]
  nlinarith

theorem withExtend_trunc (hd : d < 2 ^ bits) (x : Bool) : trunc bits (withExtend bits d x) = d := by
  rw [trunc, withExtend, Nat.mul_add_mod, Nat.mod_eq_of_lt hd]

theorem withExtend_top (hd : d < 2 ^ bits) (x : Bool) : bitAt (withExtend bits d x) bits = x := by
  rw [bitAt, withExtend, Nat.mul_add_div (Nat.two_pow_pos _), Nat.div_eq_of_lt hd]
  cases x <;> rfl

/-- ROXL by one place rotates the operand and X together. -/
theorem shiftOnce_roxl (hb : 0 < bits) (r : Nat) :
    shiftOnce .roxl bits (trunc bits r) (bitAt r bits) =
      (trunc bits (leftOnce (bits + 1) r), bitAt (leftOnce (bits + 1) r) bits, bitAt (leftOnce (bits + 1) r) bits) := by
  have h2 := two_pow_eq_double hb
  have hB : 0 < 2 ^ (bits - 1) := Nat.two_pow_pos _
  have hone : leftOnce (bits + 1) r = 2 * (r % 2 ^ bits) + r / 2 ^ bits % 2 := by
    rw [leftOnce, Nat.pow_succ', Nat.mul_comm r, Nat.mul_mod_mul_left, Nat.add_sub_cancel]
  have ht : (r / 2 ^ bits % 2 == 1).toNat = r / 2 ^ bits % 2 := by rw [beq_one_eq_testBit, Nat.toNat_testBit]
  generalize hP : 2 ^ bits = P at *
  generalize hQ : 2 ^ (bits - 1) = B at *
  subst h2
  have hlow : leftOnce (bits + 1) r % (2 * B) = 2 * (r % (2 * B) % B) + r / (2 * B) % 2 := by
    rw [hone]
    have h1 := Nat.mul_mod_mul_left 2 (r % (2 * B)) B
    have h3 := Nat.mod_lt (r % (2 * B)) hB
    rw [← Nat.mod_add_mod, h1, Nat.mod_eq_of_lt (by omega)]
  have hhigh : leftOnce (bits + 1) r / (2 * B) = r % (2 * B) / B := by
    rw [hone, ← Nat.div_div_eq_div_mul]
    congr 1
    omega
  have he : r % (2 * B) * 2 % (2 * B) = 2 * (r % (2 * B) % B) := by rw [Nat.mul_comm (r % _), Nat.mul_mod_mul_left]
  simp only [shiftOnce, trunc, bitAt, hP, hQ, ht, he, hlow, hhigh]

theorem shiftOnce_roxr (hb : 0 < bits) {r : Nat} (hr : r < 2 ^ (bits + 1)) :
    shiftOnce .roxr bits (trunc bits r) (bitAt r bits) =
      (trunc bits (rightOnce (bits + 1) r), bitAt (rightOnce (bits + 1) r) bits, bitAt (rightOnce (bits + 1) r) bits) := by
  have h2 := two_pow_eq_double hb
  have hB : 0 < 2 ^ (bits - 1) := Nat.two_pow_pos _
  have ht : (r / 2 ^ bits % 2 == 1).toNat = r / 2 ^ bits % 2 := by rw [beq_one_eq_testBit, Nat.toNat_testBit]
  have hr2 : r < 2 * 2 ^ bits := by rwa [Nat.pow_succ'] at hr
  have hone : rightOnce (bits + 1) r = r / 2 + 2 ^ bits * (r % 2) := by
    rw [rightOnce, Nat.add_sub_cancel, Nat.mul_comm (r % 2)]
  have hq : r / 2 ^ bits < 2 := Nat.div_lt_of_lt_mul (by omega)
  have hr' := Nat.div_add_mod r (2 ^ bits)
  have hlt := Nat.mod_lt r (Nat.two_pow_pos bits)
  simp only [shiftOnce, trunc, bitAt, ht, hone]
  rw [Nat.add_mul_mod_self_left, Nat.add_mul_div_left _ _ (Nat.two_pow_pos bits)]
  generalize 2 ^ bits = P at *
  generalize 2 ^ (bits - 1) = B at *
  subst h2
  have hhalf : r / 2 < 2 * B := by omega
  rw [Nat.mod_eq_of_lt hhalf, Nat.div_eq_of_lt hhalf, Nat.mod_eq_of_lt hq, Nat.zero_add, Nat.mod_mod]
  generalize r % (2 * B) = e at *
  generalize r / (2 * B) = t at *
  have hodd : e % 2 = r % 2 := by rw [← hr', Nat.mul_assoc, Nat.mul_add_mod]
  have hsum : e / 2 + t * B = r / 2 := by
    rw [← hr', Nat.mul_assoc, Nat.mul_add_div (by decide), Nat.mul_comm t, Nat.add_comm]
  rw [hodd, hsum]

theorem shiftMany_roxl (hb : 0 < bits) (hd : d < 2 ^ bits) (x : Bool) (n : Nat) :
    let r := rotateLeft (bits + 1) (n % (bits + 1)) (withExtend bits d x)
    LeavesPlaces .roxl bits n d x x (trunc bits r) (bitAt r bits) (bitAt r bits) := by
  have hlt := withExtend_lt hd x
  induction n with
  | zero =>
    rw [Nat.zero_mod, rotateLeft_zero hlt]
    exact ⟨(withExtend_trunc hd x).symm, (withExtend_top hd x).symm, (withExtend_top hd x).symm⟩
  | succ n ih =>
    have h := ih.succ
    rw [shiftOnce_roxl hb, rotateLeft_mod_succ (Nat.succ_pos bits) hlt] at h
    exact h

theorem shiftMany_roxr (hb : 0 < bits) (hd : d < 2 ^ bits) (x : Bool) (n : Nat) :
    let r := rotateRight (bits + 1) (n % (bits + 1)) (withExtend bits d x)
    LeavesPlaces .roxr bits n d x x (trunc bits r) (bitAt r bits) (bitAt r bits) := by
  have hlt := withExtend_lt hd x
  induction n with
  | zero =>
    rw [Nat.zero_mod, rotateRight_zero]
    exact ⟨(withExtend_trunc hd x).symm, (withExtend_top hd x).symm, (withExtend_top hd x).symm⟩
  | succ n ih =>
    have h := ih.succ
    rw [shiftOnce_roxr hb (rotateRight_lt hlt (Nat.mod_lt n (Nat.succ_pos bits)).le),
      rotateRight_mod_succ (Nat.succ_pos bits) hlt] at h
    exact h

end Closed

/-! Flags. -/

section Flags

variable {bits r : Nat} (hb : 0 < bits) (hr : r < 2 ^ bits) (q : StatusReg)

include hb hr

theorem flagsShift_eq (c v : Bool) : flagsShift bits r c v q =
    { q with x := c, n := decide (2 ^ (bits - 1) ≤ r), z := decide (r = 0), v := v, c := c } := by
  rw [flagsShift, msb_eq bits r hb hr, beq_decide]

theorem flagsRotate_eq (c : Bool) : flagsRotate bits r c q =
    { q with n := decide (2 ^ (bits - 1) ≤ r), z := decide (r = 0), v := false, c := c } := by
  rw [flagsRotate, msb_eq bits r hb hr, beq_decide]

end Flags

/-- What a shift or rotate has left, as result and flags. -/
def placesResult (bits r : Nat) (x c v : Bool) (q : StatusReg) : Nat × StatusReg :=
  (r, { q with x := x, n := decide (2 ^ (bits - 1) ≤ r), z := decide (r = 0), v := v, c := c })

section Results

variable {bits n d r : Nat}

/-- The shifts that move bits, and by no place leave X and clear C. -/
theorem placesResult_shift (hb : 0 < bits) (hr : r < 2 ^ bits) {v : Bool} (h0 : n = 0 → r = d ∧ v = false) (c : Bool)
    (q : StatusReg) :
    (if n = 0 then (d, flagsRotate bits d false q) else (r, flagsShift bits r c v q)) =
      placesResult bits r (if n = 0 then q.x else c) (if n = 0 then false else c) v q := by
  split
  case isTrue h =>
    obtain ⟨rfl, rfl⟩ := h0 h
    rw [flagsRotate_eq hb hr]
    rfl
  case isFalse h =>
    rw [flagsShift_eq hb hr]
    rfl

theorem shiftLeft_zero (hd : d < 2 ^ bits) : shiftLeft bits 0 d = d := by
  rw [shiftLeft, trunc, Nat.pow_zero, Nat.mul_one, Nat.mod_eq_of_lt hd]

theorem shiftLeft_lt (bits n d : Nat) : shiftLeft bits n d < 2 ^ bits := Nat.mod_lt _ (Nat.two_pow_pos _)

/-- The rotates that leave X: C is clear by no place. -/
theorem placesResult_rotate (hb : 0 < bits) (hr : r < 2 ^ bits) (n : Nat) (c : Bool) (q : StatusReg) :
    (r, flagsRotate bits r (n != 0 && c) q) = placesResult bits r q.x (if n = 0 then false else c) false q := by
  rw [flagsRotate_eq hb hr]
  cases n <;> rfl

end Results

end Sys2Proof.Machine

namespace Sys2Proof

-- One declaration at a time: the check bounds the memory of all threads together.
set_option Elab.async false

open Machine

/-- Settles O28: each operation's closed form is that of its single places. -/
theorem shiftByPlaces : Obligations.ShiftByPlaces := by
  intro op sz n d q hd m
  have hb := bits_pos sz
  have key : ∀ {r x c v}, shiftResult op sz.bits n d q = placesResult sz.bits r x c v q →
      m.1 = r ∧ m.2.1 = x ∧ m.2.2.1 = c → (match op with | .asl => m.2.2.2 | _ => false) = v →
      shiftResult op sz.bits n d q = (m.1, { q with
        x := m.2.1, n := decide (2 ^ (sz.bits - 1) ≤ m.1), z := decide (m.1 = 0), c := m.2.2.1
        v := match op with | .asl => m.2.2.2 | _ => false }) := by
    intro r x c v hres ⟨hr, hx, hc⟩ hv
    rw [hres, hr, hx, hc, hv]
    rfl
  cases op with
  | asl =>
    refine key (placesResult_shift hb (shiftLeft_lt _ n d) (fun h => ?_) _ q) (shiftMany_left hb hd q.x (.inl rfl) n)
      (shiftMany_asl_overflow hb hd q.x n)
    subst h
    exact ⟨shiftLeft_zero hd, aslOverflow_zero hb hd⟩
  | lsl =>
    refine key (placesResult_shift hb (shiftLeft_lt _ n d) (fun h => ?_) _ q) (shiftMany_left hb hd q.x (.inr rfl) n) rfl
    subst h
    exact ⟨shiftLeft_zero hd, rfl⟩
  | lsr =>
    refine key (placesResult_shift hb ((Nat.div_le_self d _).trans_lt hd) (fun h => ?_) _ q) (shiftMany_lsr hd q.x n) rfl
    subst h
    exact ⟨Nat.div_one d, rfl⟩
  | asr =>
    refine key (placesResult_shift hb (ofSigned_lt _ _) (fun h => ?_) _ q) (shiftMany_asr hb hd q.x n) rfl
    subst h
    exact ⟨shiftRightArith_zero hb hd, rfl⟩
  | rol =>
    exact key (placesResult_rotate hb (rotateLeft_lt hd (Nat.mod_lt n hb).le) n _ q) (shiftMany_rol hb hd q.x false n) rfl
  | ror =>
    exact key (placesResult_rotate hb (rotateRight_lt hd (Nat.mod_lt n hb).le) n _ q) (shiftMany_ror hb hd q.x false n) rfl
  | roxl =>
    exact key (congrArg (Prod.mk _) (flagsShift_eq hb (Nat.mod_lt _ (Nat.two_pow_pos _)) q _ _)) (shiftMany_roxl hb hd q.x n) rfl
  | roxr =>
    exact key (congrArg (Prod.mk _) (flagsShift_eq hb (Nat.mod_lt _ (Nat.two_pow_pos _)) q _ _)) (shiftMany_roxr hb hd q.x n) rfl

end Sys2Proof

/-! Reading ahead (20_memory.md sections 1 and 4) and RTE with its record of error frames (49_multiprecision_misc_movep.md
section 6). -/

namespace Sys2Proof.Machine

-- One declaration at a time: the check bounds the memory of all threads together.
set_option Elab.async false

section ReadAhead

variable {s : State} {x y : BusAnswer} {l : List BusAnswer}

/-- A bus cycle in a device window uses the platform's next answer. -/
theorem busCycle_device {a : Long} (h : s.kindAt (phys a) = .device) (hx : s.answers = x :: l) (read program : Bool)
    (pending : List Host.Cell) :
    s.busCycle a read program pending =
      if x = .busError then
        .error (.access { bus := true, addr := a, read := read, program := program } { s with answers := l } pending)
      else .ok (x, { s with answers := l }) := by
  simp only [State.busCycle, h, State.answer, hx]
  cases x <;> rfl

theorem busCycles_word {a : Long} (he : a.toNat % 2 = 0) (read program : Bool) (pending : List Host.Cell) :
    s.busCycles .w a read program pending =
      match s.busCycle a read program pending with
      | .error e => .error e
      | .ok (x, t) => .ok (x, x, t) := by
  rw [State.busCycles, if_neg (by simp [he])]
  rfl

theorem readAhead_one (ha : s.ahead = [y]) (h : s.lookAhead (s.pc + 2) = (x, { s with answers := l })) :
    s.readAhead = { s with answers := l, ahead := [y, x] } := by
  unfold State.readAhead
  rw [ha]
  simp only [h]

theorem readAhead_none (ha : s.ahead = []) (h : s.kindAt (phys s.pc) = .device) (h' : s.kindAt (phys (s.pc + 2)) = .device)
    (hx : s.answers = x :: y :: l) : s.readAhead = { s with answers := l, ahead := [x, y] } := by
  have h2 : ({ s with answers := y :: l } : State).lookAhead (s.pc + 2) = (y, { s with answers := l }) :=
    lookAhead_device (s := { s with answers := y :: l }) h' rfl
  unfold State.readAhead
  rw [ha]
  simp only [lookAhead_device h hx, h2]

theorem jump_device {t : Long} (he : t.toNat % 2 = 0) (h : s.kindAt (phys t) = .device) (h' : s.kindAt (phys (t + 2)) = .device)
    (hx : s.answers = x :: y :: l) (hne : x ≠ .busError) :
    s.jump t = .ok { s with pc := t, answers := l, ahead := [x, y] } := by
  have h1 := busCycle_device (s := { s with pc := t }) h hx true true []
  have h2 : ({ s with pc := t, answers := y :: l } : State).lookAhead (t + 2) = (y, { s with pc := t, answers := l }) :=
    lookAhead_device (s := { s with pc := t, answers := y :: l }) h' rfl
  rw [if_neg hne] at h1
  simp only [State.jump, busCycles_word (s := { s with pc := t }) he, h1, State.arrive, h2]

theorem takeWord_data {a : Long} {w : Word} (he : a.toNat % 2 = 0) (ha : s.ahead = .data w :: l) :
    s.takeWord a = .ok (w.toNat, { s with ahead := l }) := by
  have hw : s.cycleValue .w a (.data w) = w.toNat := Nat.mod_eq_of_lt w.isLt
  simp only [State.takeWord, ha, hw]
  rw [if_neg (by omega), if_neg (by simp)]

/-- A word read ahead that ended in a bus error raises it when it is used. -/
theorem takeWord_busError {a : Long} (he : a.toNat % 2 = 0) (ha : s.ahead = .busError :: l) :
    s.takeWord a = .error (.access { bus := true, addr := a, read := true, program := true } { s with ahead := l } []) := by
  simp only [State.takeWord, ha]
  rw [if_neg (by omega), if_pos trivial]

end ReadAhead

/-! The record of error frames (log 27). -/

section Frames

variable {s : State} {f : Group0Frame}

theorem wholeAt_iff {ssp : Long} : f.wholeAt ssp = true ↔
    (ssp - f.sp).toNat < 8 ∧ ∃ k ∈ f.kept, k < 8 ∧ (ssp - f.sp).toNat ≤ k ∧ k < (ssp - f.sp).toNat + 6 := by
  simp [Group0Frame.wholeAt, and_assoc]

theorem resumesAt_iff {ssp target : Long} : f.resumesAt ssp target = true ↔
    f.sp + 8 = ssp ∧ (∃ k ∈ f.kept, 8 ≤ k) ∧ (target - f.start).toNat < f.length := by
  have hsp : ssp - f.sp = 8 ↔ f.sp + 8 = ssp := by rw [sub_eq_iff_eq_add, add_comm, eq_comm]
  simp only [Group0Frame.resumesAt, Bool.and_eq_true, beq_iff_eq, hsp, List.any_eq_true, decide_eq_true_iff, and_assoc]

/-- A frame after stores: a kept byte stays unless it was discarded and is stored over. -/
theorem mem_kept_stored {addrs : List Nat} {k : Nat} : k ∈ (f.stored addrs).kept ↔
    k ∈ f.kept ∧ ¬(k < f.top ∧ phys (f.sp + BitVec.ofNat 32 k) ∈ addrs) := by
  simp [Group0Frame.stored, imp_iff_not_or]

theorem mem_frames_stored {b : Bookkeeping} {addrs : List Nat} (hf : f ∈ b.frames) (hk : (f.stored addrs).kept ≠ []) :
    f.stored addrs ∈ (b.stored addrs).frames := by
  simp only [Bookkeeping.stored, List.mem_filter, List.mem_map]
  exact ⟨⟨f, hf, rfl⟩, by simpa using hk⟩

end Frames

section Rte

variable {s : State}

theorem exec_rte (hs : s.sr.s = true) : exec .rte s = s.finish (time .rte) [] (s.skip 1).returnFromException :=
  privileged_supervisor hs _

theorem returnFromException_whole (h : ∃ f ∈ s.book.frames, f.wholeAt s.ssp = true) :
    s.returnFromException = .error (.refuse .rteFromGroup0Frame) := if_pos (List.any_eq_true.2 h)

/-- RTE past the first refusal. -/
theorem returnFromException_popped (h : ∀ f ∈ s.book.frames, ¬f.wholeAt s.ssp = true) (hw : s.CanReach .w s.ssp)
    (hl : s.CanReach .l (s.ssp + 2)) :
    s.returnFromException =
      if s.book.frames.any (fun f => f.resumesAt s.ssp (BitVec.ofNat 32 (s.peek .l (s.ssp + 2)))) then
        .error (.refuse .resumesFaultedInstruction)
      else ({ s with ssp := s.ssp + 6, sr := StatusReg.ofNat (s.peek .w s.ssp) } : State).jump
        (BitVec.ofNat 32 (s.peek .l (s.ssp + 2))) := by
  have hno : ¬s.book.frames.any (fun f => f.wholeAt s.ssp) = true := fun hany => by
    obtain ⟨f, hf, hwhole⟩ := List.any_eq_true.1 hany
    exact h f hf hwhole
  rw [State.returnFromException, if_neg hno]
  simp only [memRead_ok hw, memRead_ok hl]

end Rte

end Sys2Proof.Machine

namespace Sys2Proof

-- One declaration at a time: the check bounds the memory of all threads together.
set_option Elab.async false

open Machine

/-- Settles O4: each read by what answers it. -/
theorem readAhead : Obligations.ReadAhead := by
  intro s x y l device
  refine ⟨readAhead_ok, fun ha hd hx => readAhead_one ha (lookAhead_device hd hx),
    fun ha h h' hx => ⟨x, y, .inl rfl, readAhead_none ha h h' hx⟩, fun ha h => ?_,
    fun t he h h' hx hne _ => ⟨x, y, .inl rfl, jump_device he h h' hx hne⟩, fun hd hx => ?_,
    fun a w he ha => takeWord_data he ha, fun hreset hrun htrace hint he ha => ?_⟩
  · exact readAhead_one (l := s.answers) ha (lookAhead_absent h)
  · rw [State.extraRead, lookAhead_device hd hx]
  · let u : State := { s.sampled with level7Edge := false }
    have hpc : u.pc = s.pc := State.sampled_pc s
    have htake := takeWord_busError (s := u) (hpc ▸ he) ((State.sampled_ahead s).trans ha)
    refine ⟨{ start := u.pc, length := 2, inException := false, regs := [], full := fetchBound }, true, ?_⟩
    rw [step_running hreset hrun htrace hint, fetch_error exec htake, ← hpc]

/-- Settles O56: the two refusals, the pops, and the record of frames at a step and at a store. -/
theorem returnFromException : Obligations.ReturnFromException := by
  intro s p whole into same
  have hpop : (∀ f ∈ s.book.frames, ¬whole f) → s.CanReach .w s.ssp → s.CanReach .l (s.ssp + 2) →
      (s.skip 1).returnFromException =
        if s.book.frames.any (fun f => f.resumesAt s.ssp p) then .error (.refuse .resumesFaultedInstruction)
        else (({ s with ssp := s.ssp + 6, sr := StatusReg.ofNat (s.peek .w s.ssp) } : State).skip 1).jump p :=
    fun hno hw hl => returnFromException_popped (s := s.skip 1) (fun f hf h => hno f hf (wholeAt_iff.1 h)) hw hl
  refine ⟨fun hs => ⟨fun ⟨f, hf, h⟩ => ?_, fun hno hw hl => ⟨fun ⟨f, hf, h⟩ => ?_, fun hnot ht => ?_⟩⟩, fun f hf => ?_,
    fun cells f hf => ?_⟩
  · rw [exec_rte hs, returnFromException_whole (s := s.skip 1) ⟨f, hf, wholeAt_iff.2 h⟩]
    rfl
  · rw [exec_rte hs, hpop hno hw hl, if_pos (List.any_eq_true.2 ⟨f, hf, resumesAt_iff.2 h⟩)]
    rfl
  · refine ⟨StatusReg.ofNat (s.peek .w s.ssp), ?_, ?_⟩
    · have hnone : ¬s.book.frames.any (fun f => f.resumesAt s.ssp p) = true := fun hany => by
        obtain ⟨f, hf, h⟩ := List.any_eq_true.1 hany
        exact hnot f hf (resumesAt_iff.1 h)
      rw [exec_rte hs, hpop hno hw hl, if_neg hnone]
      exact congrArg (s.finish _ _)
        (jump_skip (s := { s with ssp := s.ssp + 6, sr := StatusReg.ofNat (s.peek .w s.ssp) }) (n := 1) ht)
    · rw [StatusReg.toWord_ofNat]
  · rw [State.sampled_book]
    refine ⟨_, List.mem_map_of_mem hf, ⟨rfl, rfl, rfl⟩, rfl, ?_⟩
    simp only [Nat.cast_max]
    omega
  intro lost
  refine ⟨fun k hk => ?_, fun hkeep hne => ?_⟩
  · let g := f.stored (cells.map Prod.fst)
    by_cases hlost : lost k
    · exact .inl hlost
    · have hkg : k ∈ g.kept := mem_kept_stored.2 ⟨hk, fun ⟨ht, hm⟩ => hlost ⟨ht, by simpa using hm⟩⟩
      exact .inr ⟨g, mem_frames_stored hf (List.ne_nil_of_mem hkg), ⟨rfl, rfl, rfl⟩, rfl, hkg⟩
  · have hg : f.stored (cells.map Prod.fst) = f := by
      have hkept : (f.stored (cells.map Prod.fst)).kept = f.kept := by
        refine List.filter_eq_self.2 fun k hk => ?_
        have := hkeep k hk
        simp [lost] at this ⊢
        grind
      cases f
      simp only [Group0Frame.stored] at hkept ⊢
      rw [hkept]
    have h := mem_frames_stored (addrs := cells.map Prod.fst) hf (by rwa [hg])
    rwa [hg] at h

end Sys2Proof

/-! Bus and address error processing (60_exceptions.md section 3): what R55 leaves free, the frame of R430, and the vector. -/

namespace Sys2Proof.Machine

-- One declaration at a time: the check bounds the memory of all threads together.
set_option Elab.async false

/-! Registers that an abandoned instruction may write. -/

section Registers

variable {s t u : State} {regs : List RegRef}

/-- `t` is `s` but for the registers of a list, SSP not among them, and for memory, the bookkeeping and the draws. -/
structure Scrambled (regs : List RegRef) (s t : State) : Prop where
  eq : t = { s with d := t.d, a := t.a, usp := t.usp, mem := t.mem, book := t.book, draws := t.draws }
  dreg : ∀ r, RegRef.d r ∉ regs → t.dreg r = s.dreg r
  areg : ∀ r : Reg, r.val < 7 → RegRef.a r ∉ regs → t.areg r = s.areg r
  usp : RegRef.a 7 ∉ regs → t.usp = s.usp

theorem Scrambled.refl (regs : List RegRef) (s : State) : Scrambled regs s s :=
  ⟨rfl, fun _ _ => rfl, fun _ _ _ => rfl, fun _ => rfl⟩

theorem Scrambled.trans (h : Scrambled regs s t) (h' : Scrambled regs t u) : Scrambled regs s u where
  eq := h'.eq.trans (by rw [h.eq])
  dreg r hr := (h'.dreg r hr).trans (h.dreg r hr)
  areg r h7 hr := (h'.areg r h7 hr).trans (h.areg r h7 hr)
  usp hr := (h'.usp hr).trans (h.usp hr)

/-- Any state with the same registers. -/
theorem Scrambled.of_eq (regs : List RegRef) {m : Memory} {k : Bookkeeping} {n : Nat}
    (h : t = { s with mem := m, book := k, draws := n }) : Scrambled regs s t := by
  subst h
  exact ⟨rfl, fun _ _ => rfl, fun _ _ _ => rfl, fun _ => rfl⟩

theorem scrambleReg_scrambled {r : RegRef} (hr : r ∈ regs) (s : State) : Scrambled regs s (s.scrambleReg r) := by
  have hne : ∀ {g : RegRef}, g ∉ regs → g ≠ r := fun hg e => hg (e ▸ hr)
  cases r with
  | d n =>
    refine ⟨rfl, fun q hq => ?_, fun _ _ _ => rfl, fun _ => rfl⟩
    exact State.reg_setReg_ne s (g := .d q) (g' := .d n) (hne hq) _
  | a n =>
    have harm : s.scrambleReg (.a n) = if n.val = 7 && s.sr.s then s else (s.setA n (Config.freeLong s.draws)).drawn 1 := rfl
    rw [harm]
    split
    case isTrue => exact .refl regs s
    case isFalse h =>
      by_cases h7 : n.val < 7
      · rw [State.setA_of_lt s h7]
        refine ⟨rfl, fun _ _ => rfl, fun q hq7 hq => ?_, fun _ => rfl⟩
        have := State.areg_setA_ne s (q := q) (r := n) (fun e => hne hq (congrArg RegRef.a e)) (Config.freeLong s.draws)
        rwa [State.setA_of_lt s h7] at this
      · have hn : n.val = 7 := by omega
        have hu : s.sr.s = false := by simpa [hn] using h
        rw [State.setA_of_not_lt s h7, State.setSp_user hu]
        refine ⟨rfl, fun _ _ => rfl, fun q hq7 _ => ?_, fun hq => ?_⟩
        · rw [State.areg_of_lt _ hq7, State.areg_of_lt _ hq7]
          rfl
        · exact absurd (congrArg RegRef.a (Fin.ext hn)) (hne hq).symm

theorem scrambleCell_scrambled (regs : List RegRef) (s : State) (c : Host.Cell) : Scrambled regs s (s.scrambleCell c) := by
  unfold State.scrambleCell
  split
  · exact .of_eq (m := (s.poke [c]).mem) (k := (s.poke [c]).book) regs rfl
  · exact .of_eq (m := s.mem) (k := s.book) regs rfl

theorem scramble_scrambled (regs : List RegRef) (s : State) (cells : List Host.Cell) :
    Scrambled regs s (s.scramble regs cells) := by
  have hregs : ∀ (l : List RegRef) (u : State), l ⊆ regs → Scrambled regs u (l.foldl State.scrambleReg u) := by
    intro l
    induction l with
    | nil => exact fun u _ => .refl regs u
    | cons r rs ih =>
      intro u hl
      obtain ⟨hr, hrs⟩ := List.cons_subset.1 hl
      exact (scrambleReg_scrambled hr u).trans (ih _ hrs)
  have hcells : ∀ (l : List Host.Cell) (u : State), Scrambled regs u (l.foldl State.scrambleCell u) := by
    intro l
    induction l with
    | nil => exact fun u => .refl regs u
    | cons c cs ih => exact fun u => (scrambleCell_scrambled regs u c).trans (ih _)
  exact (hregs regs s (List.Subset.refl _)).trans (hcells cells _)

end Registers

/-! Memory that it may write. -/

section Cells

variable {s t u : State} {cells : List Host.Cell} {v : Nat}

theorem phys_vector (hv : v < 256) : phys (BitVec.ofNat 32 (4 * v)) = 4 * v := by
  simp [phys, Config.addrBits]
  omega

/-- The bytes of a vector. -/
theorem mem_addrs_vector (hv : v < 256) {b : Nat} : b ∈ addrs 4 (BitVec.ofNat 32 (4 * v)) ↔ b / 4 = v := by
  simp only [mem_addrs, phys_add, phys_vector hv]
  constructor
  · rintro ⟨k, hk, rfl⟩
    omega
  · intro h
    exact ⟨b - 4 * v, by omega, by omega⟩

/-- Whether a vector is set depends on its bytes and on the record of stores. -/
theorem VectorSet_congr (hv : v ∈ t.book.vectors ↔ v ∈ s.book.vectors)
    (hr : ∀ b, b ∈ addrs 4 (BitVec.ofNat 32 (4 * v)) → Memory.read t.mem b = Memory.read s.mem b) :
    t.VectorSet v ↔ s.VectorSet v := by
  unfold State.VectorSet
  exact or_congr hv (exists_congr fun b => and_congr_right fun hb => by rw [hr b hb])

theorem peek_of_read {sz : Size} {a : Long} (h : ∀ b, b ∈ addrs sz.bytes a → Memory.read t.mem b = Memory.read s.mem b) :
    t.peek sz a = s.peek sz a := by
  have key : ∀ k, k < sz.bytes → t.byteAt (a + BitVec.ofNat 32 k) = s.byteAt (a + BitVec.ofNat 32 k) := fun k hk =>
    h _ (mem_addrs.2 ⟨k, hk, rfl⟩)
  have h0 : t.byteAt a = s.byteAt a := by simpa using key 0 (by cases sz <;> decide)
  cases sz with
  | b => exact congrArg BitVec.toNat h0
  | w =>
    have h1 := key 1 (by decide)
    exact congrArg₂ (fun x y : Byte => 256 * x.toNat + y.toNat) h0 h1
  | l =>
    have h1 : t.byteAt (a + 1) = s.byteAt (a + 1) := key 1 (by decide)
    have h2 : t.byteAt (a + 2) = s.byteAt (a + 2) := key 2 (by decide)
    have h3 : t.byteAt (a + 3) = s.byteAt (a + 3) := key 3 (by decide)
    simp only [State.peek, h0, h1, h2, h3]

/-- `t` has memory in canonical form, each byte that of `s` or of one of the cells; stores have reached no other vector than one
of theirs. -/
structure Disturbed (cells : List Host.Cell) (s t : State) : Prop where
  wf : t.mem.wf = true
  read : ∀ b, Memory.read t.mem b = Memory.read s.mem b ∨ ∃ c ∈ cells, c.1 = b ∧ Memory.read t.mem b = c.2
  vectors : ∀ v, v < 256 → (∀ c ∈ cells, c.1 ∉ addrs 4 (BitVec.ofNat 32 (4 * v))) → (v ∈ t.book.vectors ↔ v ∈ s.book.vectors)

theorem Disturbed.refl (h : s.mem.wf = true) (cells : List Host.Cell) : Disturbed cells s s :=
  ⟨h, fun _ => .inl rfl, fun _ _ _ => Iff.rfl⟩

theorem Disturbed.trans (h : Disturbed cells s t) (h' : Disturbed cells t u) : Disturbed cells s u where
  wf := h'.wf
  read b := by
    obtain hb | hb := h'.read b
    · rw [hb]
      exact h.read b
    · exact .inr hb
  vectors v hv hc := (h'.vectors v hv hc).trans (h.vectors v hv hc)

theorem Disturbed.vectorSet (h : Disturbed cells s t) (hv : v < 256)
    (hc : ∀ c ∈ cells, c.1 ∉ addrs 4 (BitVec.ofNat 32 (4 * v))) : t.VectorSet v ↔ s.VectorSet v :=
  VectorSet_congr (h.vectors v hv hc) fun b hb => by
    obtain hr | ⟨c, hcm, rfl, -⟩ := h.read b
    · exact hr
    · exact absurd hb (hc c hcm)

theorem Disturbed.peek (h : Disturbed cells s t) {sz : Size} {a : Long} (hc : ∀ c ∈ cells, c.1 ∉ addrs sz.bytes a) :
    t.peek sz a = s.peek sz a :=
  peek_of_read fun b hb => by
    obtain hr | ⟨c, hcm, rfl, -⟩ := h.read b
    · exact hr
    · exact absurd hb (hc c hcm)

theorem poke_disturbed (hm : s.mem.wf = true) {c : Host.Cell} (hc : c ∈ cells) (hlt : c.1 < 2 ^ Config.addrBits) :
    Disturbed cells s (s.poke [c]) where
  wf := Memory.wf_write hm c.2 hlt
  read b := by
    by_cases hb : b = c.1
    · exact .inr ⟨c, hc, hb.symm, by rw [hb]; exact Memory.read_write_same hm c.1 c.2⟩
    · exact .inl (Memory.read_write_ne s.mem c.2 hb)
  vectors v hv hno := by
    rw [poke_vectors s [c] hv]
    refine or_iff_left ?_
    rintro ⟨c', hc', h4⟩
    obtain rfl := List.mem_singleton.1 hc'
    exact hno c' hc ((mem_addrs_vector hv).2 h4)

theorem scramble_disturbed (hm : s.mem.wf = true) (regs : List RegRef) (hlt : ∀ c ∈ cells, c.1 < 2 ^ Config.addrBits) :
    Disturbed cells s (s.scramble regs cells) := by
  have hregs : ∀ (l : List RegRef) (u : State), (l.foldl State.scrambleReg u).mem = u.mem ∧
      (l.foldl State.scrambleReg u).book = u.book := by
    intro l
    induction l with
    | nil => exact fun u => ⟨rfl, rfl⟩
    | cons r rs ih =>
      intro u
      obtain ⟨h1, h2⟩ := ih (u.scrambleReg r)
      have hr : (u.scrambleReg r).mem = u.mem ∧ (u.scrambleReg r).book = u.book := by
        unfold State.scrambleReg
        cases r with
        | d n => exact ⟨rfl, rfl⟩
        | a n =>
          dsimp only
          split
          · exact ⟨rfl, rfl⟩
          · exact ⟨State.setA_mem u n _, State.setA_book u n _⟩
      exact ⟨h1.trans hr.1, h2.trans hr.2⟩
  have hcells : ∀ (l : List Host.Cell) (u : State), l ⊆ cells → u.mem.wf = true → Disturbed cells u (l.foldl State.scrambleCell u) := by
    intro l
    induction l with
    | nil => exact fun u _ hu => .refl hu cells
    | cons c cs ih =>
      intro u hl hu
      obtain ⟨hc, hcs⟩ := List.cons_subset.1 hl
      have hone : Disturbed cells u (u.scrambleCell c) := by
        unfold State.scrambleCell
        split
        · obtain ⟨h1, h2, h3⟩ := poke_disturbed hu hc (hlt c hc)
          exact ⟨h1, h2, h3⟩
        · obtain ⟨h1, h2, h3⟩ := Disturbed.refl hu cells
          exact ⟨h1, h2, h3⟩
      exact hone.trans (ih _ hcs hone.wf)
  obtain ⟨h1, h2⟩ := hregs regs s
  obtain ⟨hw, hr, hv⟩ := hcells cells _ (List.Subset.refl _) (by rw [h1]; exact hm)
  rw [h1] at hr
  rw [h2] at hv
  exact ⟨hw, hr, hv⟩

end Cells

/-! The frame. -/

section Frame

variable {s s1 : State} {x : Abandoned} {f : AccessFault} {pending : List Host.Cell}

/-- The state in which the frame is stacked: the new status register and SSP, and the record of the frame. -/
def State.faulted (s1 : State) (x : Abandoned) : State :=
  { s1 with
    sr := { s1.sr with s := true, t := false }, ssp := s1.ssp - 14, run := .running, tracePending := false
    draws := s1.draws + 5
    book := { s1.tracked with
      frames := { sp := s1.ssp - 14, start := x.start, length := x.length, top := 0, kept := List.range 14 } ::
        s1.tracked.frames } }

/-- The words of the frame. -/
def State.faultWords (s1 : State) (x : Abandoned) (f : AccessFault) : List (Long × Nat) :=
  group0FrameWords (s1.ssp - 14) (specialStatus f x.inException s1.sr.s s1.draws) f.addr s1.ir s1.sr.toWord
    (x.start + BitVec.ofNat 32 (2 + Config.freeNat (s1.draws + 1) % 9))

theorem enterGroup0_odd (h : s.ssp.toNat % 2 = 1) : ∃ t, s.enterGroup0 x f pending = .next t ∧ t.run = .halted := by
  have hsp : (s.scramble x.regs pending).ssp = s.ssp := by rw [(scramble_scrambled x.regs s pending).eq]
  have hodd : ((s.scramble x.regs pending).ssp - 14).toNat % 2 = 1 := by rw [hsp]; bv_omega
  have hwrite : ∀ (u : State) (p : List Host.Cell) (w : Nat) (rest : List (Long × Nat)),
      u.writeAll .w p (((s.scramble x.regs pending).ssp - 14, w) :: rest) = .error (.access
        { bus := false, addr := (s.scramble x.regs pending).ssp - 14, read := false, program := false } u []) := by
    intro u p w rest
    simp only [State.writeAll, State.writeCycles, busCycles_odd (sz := .w) (by decide) hodd]
  unfold State.enterGroup0
  simp only [group0FrameWords, hwrite]
  exact ⟨_, rfl, rfl⟩

/-- How error processing ends once its frame is stacked. -/
def State.group0End (s1 : State) (x : Abandoned) : Except Stop State → Host.Outcome State Fault Refusal
  | .error (.fault r) => .fault r
  | .error (.refuse r) => .refused r
  | .error (.access _ u _) => .next { u with run := .halted }
  | .ok u => .next ((u.charge (group0Elapsed x.full (s1.draws + 2))).charge (time .group0))

theorem enterGroup0_stacked {cells : List Host.Cell}
    (h : ∀ p, ((s.scramble x.regs pending).faulted x).writeAll .w p ((s.scramble x.regs pending).faultWords x f) =
      .ok (cells, (s.scramble x.regs pending).faulted x)) :
    s.enterGroup0 x f pending = (s.scramble x.regs pending).group0End x
      ((((s.scramble x.regs pending).faulted x).poke cells).toVector (if f.bus then 2 else 3)) := by
  have h' := h ((((s.scramble x.regs pending).faultWords x f)).flatMap
    (fun p => ((s.scramble x.regs pending).faulted x).mayCells .w p.1 p.2))
  unfold State.enterGroup0
  simp only [State.faulted, State.faultWords] at h' ⊢
  simp only [h']
  rfl

end Frame

end Sys2Proof.Machine

namespace Sys2Proof

-- One declaration at a time: the check bounds the memory of all threads together.
set_option Elab.async false

open Machine

/-- Settles O7: stopped, error processing with an odd SSP, and halted. -/
theorem stoppedAndHalted : Obligations.StoppedAndHalted := by
  intro s
  refine ⟨fun hreset hrun htp hint => ?_, fun x f pending h => enterGroup0_odd h, fun hreset hrun => ?_⟩
  · have htp' : ¬s.sampled.tracePending = true := by simp [htp]
    rw [step_proceed hreset (by simp [hrun]), State.proceed, if_neg htp', if_neg (by simp [hint]), if_pos]
    rwa [State.sampled_run]
  · have hstep : step s = if s.sampled.schedule = [] then .fault .halted else .next s.sampled := by
      unfold step
      simp only [hreset, Bool.false_eq_true, if_false, State.sampled_run, hrun, if_true]
    rw [hstep]
    exact ⟨fun h => if_neg h, fun h => if_pos h⟩

end Sys2Proof

/-! Bus and address error processing: the frame of seven words, and what is left of the rest (R430, R431, R55). -/

namespace Sys2Proof.Machine

-- One declaration at a time: the check bounds the memory of all threads together.
set_option Elab.async false

/-! A list of words stored in RAM. -/

section Words

variable {s : State} {stores : List (Long × Nat)} {p : Long × Nat}

theorem cellsOf_word_mod (a : Long) (v : Nat) : cellsOf .w a (v % 65536) = cellsOf .w a v := by
  have hhigh : BitVec.ofNat 8 (v % 65536 / 256) = BitVec.ofNat 8 (v / 256) := BitVec.eq_of_toNat_eq (by simp; omega)
  have hlow : BitVec.ofNat 8 (v % 65536) = BitVec.ofNat 8 v := BitVec.eq_of_toNat_eq (by simp)
  simp only [cellsOf, bytesOf, hhigh, hlow]

/-- A word that a list of stores to RAM holds is read back. -/
theorem peek_mayStore_word (hm : s.mem.wf = true) (hd : (reached .w stores).Nodup) (he : p.1.toNat % 2 = 0)
    (hram : ∀ b, b ∈ addrs 2 p.1 → s.kindAt b = .ram) (hp : p ∈ stores) :
    (s.poke (s.mayStore .w stores)).peek .w p.1 = p.2 % 65536 := by
  have hcells : cellsOf .w p.1 (p.2 % 65536) ⊆ s.mayStore .w stores := by
    rw [cellsOf_word_mod, ← mayCells_ram (s := s) (sz := .w) (.inr he) hram]
    exact fun c hc => List.mem_flatMap.2 ⟨p, hp, hc⟩
  exact peek_w_poke hm (mayStore_lt s .w stores) ((mayStore_addrs_sublist s .w stores).nodup hd)
    (Nat.mod_lt _ (by decide)) hcells

/-- A long stored as two words. -/
theorem peek_mayStore_long (hm : s.mem.wf = true) (hd : (reached .w stores).Nodup) {a : Long} {v : Nat} (hv : v < 2 ^ 32)
    (he : a.toNat % 2 = 0) (hram : ∀ b, b ∈ addrs 4 a → s.kindAt b = .ram) (hhigh : (a, v / 65536) ∈ stores)
    (hlow : (a + 2, v) ∈ stores) : (s.poke (s.mayStore .w stores)).peek .l a = v := by
  have hsplit : addrs 4 a = addrs 2 a ++ addrs 2 (a + 2) := addrs_add 2 2 a
  have h1 := peek_mayStore_word (p := (a, v / 65536)) hm hd he
    (fun b hb => hram b (hsplit ▸ List.mem_append_left _ hb)) hhigh
  have h2 := peek_mayStore_word (p := (a + 2, v)) hm hd (by bv_omega)
    (fun b hb => hram b (hsplit ▸ List.mem_append_right _ hb)) hlow
  rw [peek_long, h1, h2]
  omega

end Words

/-! The frame of error processing. -/

section Frame

variable {s s1 : State} {x : Abandoned} {f : AccessFault} {pending : List Host.Cell} {v : Nat}

/-- The cells of the frame. -/
def State.faultCells (s1 : State) (x : Abandoned) (f : AccessFault) : List Host.Cell :=
  (s1.faulted x).mayStore .w (s1.faultWords x f)

/-- The state with the frame stacked. -/
def State.stacked (s1 : State) (x : Abandoned) (f : AccessFault) : State := (s1.faulted x).poke (s1.faultCells x f)

theorem reached_faultWords (s1 : State) (x : Abandoned) (f : AccessFault) :
    reached .w (s1.faultWords x f) = addrs 14 (s1.ssp - 14) := by
  simp [reached, State.faultWords, group0FrameWords, addrs, List.range, List.range.loop, Size.bytes, BitVec.add_assoc]

theorem reached_faultWords_nodup (s1 : State) (x : Abandoned) (f : AccessFault) : (reached .w (s1.faultWords x f)).Nodup := by
  rw [reached_faultWords]
  exact nodup_addrs 14 _ (by decide)

/-- Each word of the frame lies at an even distance within it. -/
theorem faultWords_place {p : Long × Nat} (hp : p ∈ s1.faultWords x f) :
    ∃ k, k < 7 ∧ p.1 = s1.ssp - 14 + BitVec.ofNat 32 (2 * k) := by
  simp only [State.faultWords, group0FrameWords, List.mem_cons, List.not_mem_nil, or_false] at hp
  obtain rfl | rfl | rfl | rfl | rfl | rfl | rfl := hp
  · exact ⟨0, by decide, (BitVec.add_zero _).symm⟩
  · exact ⟨1, by decide, rfl⟩
  · exact ⟨2, by decide, rfl⟩
  · exact ⟨3, by decide, rfl⟩
  · exact ⟨4, by decide, rfl⟩
  · exact ⟨5, by decide, rfl⟩
  · exact ⟨6, by decide, rfl⟩

theorem addrs_within {m n k : Nat} (h : k + m ≤ n) (a : Long) : addrs m (a + BitVec.ofNat 32 k) ⊆ addrs n a := by
  intro b hb
  obtain ⟨j, hj, rfl⟩ := mem_addrs.1 hb
  exact mem_addrs.2 ⟨k + j, by omega, by rw [BitVec.ofNat_add, BitVec.add_assoc]⟩

theorem faultWords_reach (he : s1.ssp.toNat % 2 = 0) (hram : ∀ b, b ∈ addrs 14 (s1.ssp - 14) → s1.kindAt b = .ram)
    {p : Long × Nat} (hp : p ∈ s1.faultWords x f) : (s1.faulted x).CanReach .w p.1 := by
  obtain ⟨k, hk, hpk⟩ := faultWords_place hp
  refine canReach_of_ram (by rw [hpk]; bv_omega) fun b hb => ?_
  rw [hpk] at hb
  exact hram b (addrs_within (m := 2) (by omega) _ hb)

/-- Error processing whose frame RAM takes. -/
theorem enterGroup0_ram (he : (s.scramble x.regs pending).ssp.toNat % 2 = 0)
    (hram : ∀ b, b ∈ addrs 14 ((s.scramble x.regs pending).ssp - 14) → (s.scramble x.regs pending).kindAt b = .ram) :
    s.enterGroup0 x f pending = (s.scramble x.regs pending).group0End x
      (((s.scramble x.regs pending).stacked x f).toVector (if f.bus then 2 else 3)) :=
  enterGroup0_stacked fun p => writeAll_ok (fun _ hq => faultWords_reach he hram hq) p

theorem faultCells_addrs {b : Nat} (hb : b ∈ (s1.faultCells x f).map Prod.fst) : b ∈ addrs 14 (s1.ssp - 14) := by
  rw [← reached_faultWords s1 x f]
  exact (mayStore_addrs_sublist _ _ _).subset hb

/-- The stacking reaches no byte outside the frame. -/
theorem read_stacked {b : Nat} (hb : b ∉ addrs 14 (s1.ssp - 14)) :
    Memory.read (s1.stacked x f).mem b = Memory.read s1.mem b :=
  read_mayStore_of_not_mem (s1.faulted x) (by rwa [reached_faultWords])

/-- Nor any vector that lies outside it. -/
theorem vectorSet_stacked (hv : v < 256) (hno : ∀ b, b ∈ addrs 14 (s1.ssp - 14) → b ∉ addrs 4 (BitVec.ofNat 32 (4 * v))) :
    (s1.stacked x f).VectorSet v ↔ s1.VectorSet v := by
  refine VectorSet_congr ?_ fun b hb => read_stacked fun hf => hno b hf hb
  rw [State.stacked, poke_vectors _ _ hv]
  refine or_iff_left ?_
  rintro ⟨c, hc, h4⟩
  exact hno c.1 (faultCells_addrs (List.mem_map_of_mem hc)) ((mem_addrs_vector hv).2 h4)

theorem peek_vector_stacked (hno : ∀ b, b ∈ addrs 14 (s1.ssp - 14) → b ∉ addrs 4 (BitVec.ofNat 32 (4 * v))) :
    (s1.stacked x f).peek .l (BitVec.ofNat 32 (4 * v)) = s1.peek .l (BitVec.ofNat 32 (4 * v)) :=
  peek_of_read fun b hb => read_stacked fun hf => hno b hf hb

/-- The record of the frame stands: nothing of it has been discarded. -/
theorem frame_recorded (s1 : State) (x : Abandoned) (f : AccessFault) :
    { sp := s1.ssp - 14, start := x.start, length := x.length, top := 0, kept := List.range 14 } ∈
      (s1.stacked x f).book.frames := by
  have hsame : ∀ (as : List Nat) (sp start : Long) (n : Nat),
      ({ sp := sp, start := start, length := n, top := 0, kept := List.range 14 } : Group0Frame).stored as =
        { sp := sp, start := start, length := n, top := 0, kept := List.range 14 } := fun as sp start n => by
    simp [Group0Frame.stored]
  have h := mem_frames_stored (b := (s1.faulted x).book) (addrs := (s1.faultCells x f).map Prod.fst)
    (f := { sp := s1.ssp - 14, start := x.start, length := x.length, top := 0, kept := List.range 14 })
    List.mem_cons_self (by rw [hsame]; simp)
  rwa [hsame] at h

/-- The fields of the frame (R430). -/
theorem stacked_fields (hm : s1.mem.wf = true) (he : s1.ssp.toNat % 2 = 0)
    (hram : ∀ b, b ∈ addrs 14 (s1.ssp - 14) → s1.kindAt b = .ram) :
    (s1.stacked x f).peek .w (s1.ssp - 14) = specialStatus f x.inException s1.sr.s s1.draws % 65536 ∧
    (s1.stacked x f).peek .l (s1.ssp - 12) = f.addr.toNat ∧ (s1.stacked x f).peek .w (s1.ssp - 8) = s1.ir.toNat ∧
    (s1.stacked x f).peek .w (s1.ssp - 6) = s1.sr.toWord.toNat ∧
    (s1.stacked x f).peek .l (s1.ssp - 4) = (x.start + BitVec.ofNat 32 (2 + Config.freeNat (s1.draws + 1) % 9)).toNat := by
  have hd := reached_faultWords_nodup s1 x f
  have hin : ∀ {m k : Nat}, k + m ≤ 14 → ∀ b, b ∈ addrs m (s1.ssp - 14 + BitVec.ofNat 32 k) → (s1.faulted x).kindAt b = .ram :=
    fun h b hb => hram b (addrs_within h _ hb)
  have h12 : s1.ssp - 12 = s1.ssp - 14 + 2 := by bv_omega
  have h8 : s1.ssp - 8 = s1.ssp - 14 + 6 := by bv_omega
  have h6 : s1.ssp - 6 = s1.ssp - 14 + 8 := by bv_omega
  have h4 : s1.ssp - 4 = s1.ssp - 14 + 10 := by bv_omega
  have hw : ∀ (k v : Nat), k + 2 ≤ 14 → k % 2 = 0 → (s1.ssp - 14 + BitVec.ofNat 32 k, v) ∈ s1.faultWords x f →
      (s1.stacked x f).peek .w (s1.ssp - 14 + BitVec.ofNat 32 k) = v % 65536 := fun k v hk hk2 hp =>
    peek_mayStore_word (p := (s1.ssp - 14 + BitVec.ofNat 32 k, v)) hm hd (by bv_omega) (hin hk) hp
  refine ⟨?_, ?_, ?_, ?_, ?_⟩
  · have := hw 0 _ (by decide) rfl (by simp only [BitVec.add_zero]; exact List.mem_cons_self)
    rwa [BitVec.add_zero] at this
  · rw [h12]
    exact peek_mayStore_long hm hd f.addr.isLt (by bv_omega) (hin (m := 4) (k := 2) (by decide))
      (by simp [State.faultWords, group0FrameWords]) (by simp [State.faultWords, group0FrameWords, BitVec.add_assoc])
  · rw [h8]
    exact (hw 6 s1.ir.toNat (by decide) rfl (by simp [State.faultWords, group0FrameWords])).trans
      (Nat.mod_eq_of_lt s1.ir.isLt)
  · rw [h6]
    exact (hw 8 s1.sr.toWord.toNat (by decide) rfl (by simp [State.faultWords, group0FrameWords])).trans
      (Nat.mod_eq_of_lt s1.sr.toWord.isLt)
  · rw [h4]
    exact peek_mayStore_long hm hd (BitVec.isLt _) (by bv_omega) (hin (m := 4) (k := 10) (by decide))
      (by simp [State.faultWords, group0FrameWords]) (by simp [State.faultWords, group0FrameWords, BitVec.add_assoc])

theorem specialStatus_low (f : AccessFault) (inException supervisor : Bool) (draw : Nat) :
    specialStatus f inException supervisor draw % 65536 % 32 =
      (if f.read then 16 else 0) + (if inException then 8 else 0) + (if supervisor then 4 else 0) +
        (if f.program then 2 else 1) := by
  have hb : ∀ b : Bool, b.toNat = if b then 1 else 0 := fun b => by cases b <;> rfl
  simp only [specialStatus, hb]
  split_ifs <;> omega

theorem group0Elapsed_atMost (full : Time) (draw : Nat) : (group0Elapsed full draw).atMost full :=
  ⟨Nat.lt_succ_iff.1 (Nat.mod_lt _ (Nat.succ_pos _)), Nat.lt_succ_iff.1 (Nat.mod_lt _ (Nat.succ_pos _)),
    Nat.lt_succ_iff.1 (Nat.mod_lt _ (Nat.succ_pos _))⟩

/-- The state in which error processing ends. -/
def State.group0Done (s1 : State) (x : Abandoned) (f : AccessFault) (v : Nat) : State :=
  (((s1.stacked x f).landAt (BitVec.ofNat 32 (s1.peek .l (BitVec.ofNat 32 (4 * v))))).charge
    (group0Elapsed x.full (s1.draws + 2))).charge ⟨50, 4, 7⟩

theorem group0Done_eq (s1 : State) (x : Abandoned) (f : AccessFault) (v : Nat) :
    ∃ l k q, s1.group0Done x f v = { s1.stacked x f with
      pc := BitVec.ofNat 32 (s1.peek .l (BitVec.ofNat 32 (4 * v))), answers := l, draws := k, ahead := q
      elapsed := (s1.elapsed.add (group0Elapsed x.full (s1.draws + 2))).add ⟨50, 4, 7⟩ } := by
  obtain ⟨l, k, q, h⟩ := landAt_eq (s1.stacked x f) (BitVec.ofNat 32 (s1.peek .l (BitVec.ofNat 32 (4 * v))))
  refine ⟨l, k, q, ?_⟩
  rw [State.group0Done, h]
  simp only [State.charge, charge_withWait]
  rfl

end Frame

end Sys2Proof.Machine

namespace Sys2Proof

-- One declaration at a time: the check bounds the memory of all threads together.
set_option Elab.async false

open Machine

/-- Settles O9: the frame is RAM's, so only the vector can fail; the words of the frame are read back, and what it does not reach
is as R55 leaves it. -/
theorem group0Entry : Obligations.Group0Entry := by
  intro s x f pending v hm hpend
  have hv : v < 256 := by simp only [v]; split_ifs <;> decide
  have hregs := scramble_scrambled x.regs s pending
  have hmem := scramble_disturbed hm x.regs fun c hc => (hpend c hc).1
  have hvec : ∀ c ∈ pending, c.1 ∉ addrs 4 (BitVec.ofNat 32 (4 * v)) := fun c hc => (hpend c hc).2
  have hset := hmem.vectorSet hv hvec
  have hpeek := hmem.peek (sz := .l) hvec
  generalize hs1 : s.scramble x.regs pending = s1 at hregs hmem hset hpeek
  have hssp : s1.ssp = s.ssp := by rw [hregs.eq]
  have hsr : s1.sr = s.sr := by rw [hregs.eq]
  have hir : s1.ir = s.ir := by rw [hregs.eq]
  have hel : s1.elapsed = s.elapsed := by rw [hregs.eq]
  have hregions : s1.regions = s.regions := by rw [hregs.eq]
  have hrun : s.CanStack 14 v → s.enterGroup0 x f pending = s1.group0End x ((s1.stacked x f).toVector v) := by
    rintro ⟨he, hram, -, -⟩
    subst hs1
    exact enterGroup0_ram (by rw [hssp]; exact he) fun b hb => by
      rw [State.kindAt_congr hregions]
      rw [hssp] at hb
      exact hram b hb
  have hno : s.CanStack 14 v → ∀ b, b ∈ addrs 14 (s1.ssp - 14) → b ∉ addrs 4 (BitVec.ofNat 32 (4 * v)) :=
    fun hc => by rw [hssp]; exact hc.2.2.2
  have hreach : ∀ {sz : Size} {a : Long}, s.CanReach sz a → (s1.stacked x f).CanReach sz a := fun h =>
    (CanReach_congr (s := s) (t := s1.stacked x f) hregions _ _).2 h
  refine ⟨fun hc hnot => ?_, fun ⟨hc, hvs, htarget⟩ => ?_⟩
  · have hn : ¬(s1.stacked x f).VectorSet v := by rwa [vectorSet_stacked hv (hno hc), hset]
    rw [hrun hc, toVector_unset (hreach hc.2.2.1) hn]
    rfl
  have hpk : (s1.stacked x f).peek .l (BitVec.ofNat 32 (4 * v)) = s1.peek .l (BitVec.ofNat 32 (4 * v)) :=
    peek_vector_stacked (hno hc)
  have hgo : s.enterGroup0 x f pending = .next (s1.group0Done x f v) := by
    rw [hrun hc, toVector_ok (hreach hc.2.2.1) ((vectorSet_stacked hv (hno hc)).2 (hset.2 hvs))
      (by rw [hpk, hpeek]; exact hreach htarget), hpk]
    rfl
  obtain ⟨l, k, q, hdone⟩ := group0Done_eq s1 x f v
  have hdmem : (s1.group0Done x f v).mem = (s1.stacked x f).mem := by rw [hdone]
  obtain ⟨hstatus, haddr, hirw, hsrw, hpcw⟩ := stacked_fields (x := x) (f := f) hmem.wf (by rw [hssp]; exact hc.1)
    (fun b hb => by rw [State.kindAt_congr hregions]; rw [hssp] at hb; exact hc.2.1 b hb)
  refine ⟨s1.group0Done x f v, hgo, ?_, ?_, ?_, ?_, ?_, ?_, ?_, ?_, ?_, ?_, ?_, ?_, ?_, ?_, ?_, ?_⟩
  · rw [hdone, ← hsr]; rfl
  · rw [hdone, ← hssp]; rfl
  · rw [hdone]; rfl
  · rw [hdone]; rfl
  · rw [hdone, ← hssp]; exact frame_recorded s1 x f
  · rw [hdone, ← hpeek]
  · rw [peek_congr hdmem, ← hssp, hstatus, specialStatus_low, hsr]
  · rw [peek_congr hdmem, ← hssp, haddr]
  · rw [peek_congr hdmem, ← hssp, hirw, hir]
  · rw [peek_congr hdmem, ← hssp, hsrw, hsr]
  · refine ⟨2 + Config.freeNat (s1.draws + 1) % 9, by omega, by omega, ?_⟩
    rw [peek_congr hdmem, ← hssp, hpcw]
  · intro b hb
    rw [← hssp] at hb
    rw [hdmem, read_stacked hb]
    exact hmem.read b
  · intro r hr
    rw [hdone]
    exact hregs.dreg r hr
  · intro r h7 hr
    rw [hdone, State.areg_of_lt _ h7, ← hregs.areg r h7 hr, State.areg_of_lt _ h7]
    rfl
  · intro hr
    rw [hdone]
    exact hregs.usp hr
  · refine ⟨_, group0Elapsed_atMost x.full (s1.draws + 2), ?_⟩
    rw [hdone, ← hel]

end Sys2Proof

/-! When an access raises an error (R54, R402), and when a fetch does. -/

namespace Sys2Proof.Machine

-- One declaration at a time: the check bounds the memory of all threads together.
set_option Elab.async false

section Access

variable {s : State} {sz : Size} {a : Long}

/-- The cycle at an address that nothing answers ends an access there. -/
theorem busCycles_absent (he : sz = .b ∨ a.toNat % 2 = 0) (h : s.kindAt (phys a) = .absent) (read program : Bool)
    (pending : List Host.Cell) : s.busCycles sz a read program pending =
      .error (.access { bus := true, addr := a, read := read, program := program } s pending) := by
  have hodd : ¬(sz ≠ .b ∧ a.toNat % 2 = 1) := by
    rintro ⟨h1, h2⟩
    exact he.elim h1 (by omega)
  rw [State.busCycles, if_neg hodd, busCycle_absent h]

/-- The second cycle of a long. -/
theorem busCycles_absent_second (he : a.toNat % 2 = 0) (h : s.Answers a) (h2 : s.kindAt (phys (a + 2)) = .absent)
    (read program : Bool) (pending : List Host.Cell) : s.busCycles .l a read program pending =
      .error (.access { bus := true, addr := a + 2, read := read, program := program } s pending) := by
  rw [State.busCycles, if_neg (by simp [he]), busCycle_ok h]
  simp only [if_true, busCycle_absent h2]

theorem memRead_error {program : Bool} {e : Stop} (h : s.busCycles sz a true program [] = .error e) :
    s.memRead sz a program = .error e := by rw [State.memRead, h]

theorem memWrite_error {v : Nat} {e : Stop} (h : s.busCycles sz a false false (s.mayCells sz a v) = .error e) :
    s.memWrite sz a v = .error e := by rw [State.memWrite, State.writeCycles, h]

/-- What one cycle gives is what a word read gives. -/
theorem memRead_word {program : Bool} {x : BusAnswer} {t : State} (he : a.toNat % 2 = 0)
    (h : s.busCycle a true program [] = .ok (x, t)) : s.memRead .w a program = .ok (t.cycleValue .w a x, t) := by
  rw [State.memRead, busCycles_word he, h]
  rfl

theorem cycleValue_data (t : State) (w : Word) : t.cycleValue .w a (.data w) = w.toNat := Nat.mod_eq_of_lt w.isLt

theorem memRead_device {program : Bool} {x : BusAnswer} {l : List BusAnswer} (he : a.toNat % 2 = 0)
    (h : s.kindAt (phys a) = .device) (hx : s.answers = x :: l) (hne : x ≠ .busError) :
    s.memRead .w a program = .ok (({ s with answers := l } : State).cycleValue .w a x, { s with answers := l }) :=
  memRead_word he (by rw [busCycle_device h hx, if_neg hne])

theorem memRead_device_busError {program : Bool} {l : List BusAnswer} (he : a.toNat % 2 = 0)
    (h : s.kindAt (phys a) = .device) (hx : s.answers = .busError :: l) : s.memRead .w a program =
      .error (.access { bus := true, addr := a, read := true, program := program } { s with answers := l } []) :=
  memRead_error (by rw [busCycles_word he, busCycle_device h hx, if_pos rfl])

/-- A word that cannot be fetched. -/
theorem takeWord_error_of {pc : Long} (h : pc.toNat % 2 = 1 ∨ s.ahead = [] ∧ s.kindAt (phys pc) = .absent) :
    s.takeWord pc = .error (.access { bus := decide (pc.toNat % 2 = 0), addr := pc, read := true, program := true } s []) := by
  by_cases hodd : pc.toNat % 2 = 1
  · have hbus : decide (pc.toNat % 2 = 0) = false := by simp [hodd]
    rw [hbus, State.takeWord]
    split
    · exact memRead_error (busCycles_odd (by decide) hodd ..)
    · exact if_pos hodd
  · obtain ⟨hahead, habsent⟩ := h.resolve_left hodd
    have heven : pc.toNat % 2 = 0 := by omega
    rw [decide_eq_true heven, State.takeWord, hahead]
    exact memRead_error (busCycles_absent (.inr heven) habsent ..)

end Access

end Sys2Proof.Machine

namespace Sys2Proof

-- One declaration at a time: the check bounds the memory of all threads together.
set_option Elab.async false

open Machine

/-- Settles O10: each access by its first bus cycle that fails. -/
theorem accessErrors : Obligations.AccessErrors := by
  intro s sz a v program absent readFails writeFails
  have hfails : ∀ {z : Size} {b : Long}, (∀ (read q : Bool) (cells : List Host.Cell), s.busCycles z a read q cells =
      .error (.access { bus := true, addr := b, read := read, program := q } s cells)) →
      s.memRead z a program = .error (.access { bus := true, addr := b, read := true, program := program } s []) ∧
      ∃ p cells, s.memWrite z a v = .error (.access { bus := true, addr := b, read := false, program := p } s cells) :=
    fun h => ⟨memRead_error (h true program []), false, _, memWrite_error (h false false _)⟩
  refine ⟨fun hb ho => ?_, fun h => ?_, fun he h h2 => ?_, fun he habsent _ => ?_, fun he h habsent => ?_,
    fun he habsent _ => ?_, fun x rest he hdev hx => ?_, fun st he hund => ?_, fun hreset hrun htrace hint h => ?_⟩
  · exact ⟨memRead_error (busCycles_odd hb ho ..), false, memWrite_error (busCycles_odd hb ho ..)⟩
  · have hreach : s.CanReach .b a := ⟨.inl rfl, h, by simp⟩
    refine ⟨memRead_ok hreach program, fun hw => ⟨_, memWrite_ok ⟨hreach, fun b hb => ?_⟩ v⟩⟩
    obtain rfl : b = phys a := by simpa [addrs, Size.bytes] using hb
    exact hw
  · exact memRead_ok ⟨.inr he, h, fun _ => h2⟩ program
  · exact hfails (busCycles_absent he habsent)
  · exact hfails (busCycles_absent_second he h habsent)
  · have hfirst := hfails (z := .l) (busCycles_absent (.inr he) habsent)
    exact ⟨⟨a, .inl rfl, hfirst.1⟩, a, .inl rfl, hfirst.2⟩
  · cases x with
    | memory => exact memRead_device he hdev hx (by simp)
    | data w =>
      rw [memRead_device he hdev hx (by simp), cycleValue_data]
    | busError => exact memRead_device_busError he hdev hx
  · exact ⟨_, by rw [memRead_word he (busCycle_undriven hund program []), cycleValue_data]⟩
  · let u : State := { s.sampled with level7Edge := false }
    have hpc : u.pc = s.pc := State.sampled_pc s
    have hkind : u.kindAt (phys s.pc) = s.kindAt (phys s.pc) := State.kindAt_congr (State.sampled_regions s) _
    have htake := takeWord_error_of (s := u) (pc := u.pc)
      (by rw [hpc, hkind]; exact h.imp_right fun ⟨ha, hk⟩ => ⟨(State.sampled_ahead s).trans ha, hk⟩)
    refine ⟨{ start := u.pc, length := 2, inException := false, regs := [], full := fetchBound }, true, ?_⟩
    rw [step_running hreset hrun htrace hint, fetch_error exec htake, ← hpc]

end Sys2Proof

/-! Bus and address errors inside an instruction: MOVE.W, BRA, and the instructions that set their flags before they store. -/

namespace Sys2Proof.Machine

-- One declaration at a time: the check bounds the memory of all threads together.
set_option Elab.async false

section Fails

variable {s : State} {a : Long} {src dst ea : Ea} {sz : Size}

/-- A word access to this address raises an error that no device decides. -/
def State.Fails (s : State) (a : Long) : Prop := a.toNat % 2 = 1 ∨ s.kindAt (phys a) = .absent

theorem Fails_congr {t : State} (h : t.regions = s.regions) (a : Long) : t.Fails a ↔ s.Fails a := by
  simp [State.Fails, State.kindAt_congr h]

theorem busCycles_fails (h : s.Fails a) (read program : Bool) : s.busCycles .w a read program [] =
    .error (.access { bus := decide (a.toNat % 2 = 0), addr := a, read := read, program := program } s []) := by
  by_cases hodd : a.toNat % 2 = 1
  · have hbus : decide (a.toNat % 2 = 0) = false := by simp [hodd]
    rw [hbus, busCycles_odd (by decide) hodd]
  · have heven : a.toNat % 2 = 0 := by omega
    rw [decide_eq_true heven, busCycles_absent (.inr heven) (h.resolve_left hodd)]

theorem mayCells_fails (h : s.Fails a) (v : Nat) : s.mayCells .w a v = [] := by
  by_cases hodd : a.toNat % 2 = 1
  · exact if_pos ⟨by decide, hodd⟩
  · simp [State.mayCells, hodd, answeredCells, State.mayTake, h.resolve_left hodd]

theorem memRead_fails (h : s.Fails a) (program : Bool) : s.memRead .w a program =
    .error (.access { bus := decide (a.toNat % 2 = 0), addr := a, read := true, program := program } s []) :=
  memRead_error (busCycles_fails h true program)

theorem memWrite_fails (h : s.Fails a) (v : Nat) : s.memWrite .w a v =
    .error (.access { bus := decide (a.toNat % 2 = 0), addr := a, read := false, program := false } s []) :=
  memWrite_error (by rw [mayCells_fails h, busCycles_fails h])

theorem jump_fails {t : Long} (h : s.Fails t) : s.jump t =
    .error (.access { bus := decide (t.toNat % 2 = 0), addr := t, read := true, program := true } { s with pc := t } []) := by
  rw [State.jump, busCycles_fails (s := { s with pc := t }) h]

/-- An operand that cannot be read: the error is met past its extension words and a pre-decrement. -/
theorem readEa_fails {program : Bool} (hl : (s.locate .w ea).1 = .mem a program) (h : s.Fails a) : s.readEa .w ea =
    .error (.access { bus := decide (a.toNat % 2 = 0), addr := a, read := true, program := program } (s.locate .w ea).2 []) := by
  have hread := memRead_fails ((Fails_congr (locate_regions s .w ea) a).2 h) program
  simp only [State.readEa, hl, State.readLoc, hread]

/-- One that cannot be stored. -/
theorem writeEa_fails {program : Bool} (hl : (s.locate .w ea).1 = .mem a program) (h : s.Fails a) (v : Nat) :
    s.writeEa .w ea v = .error (.access { bus := decide (a.toNat % 2 = 0), addr := a, read := false, program := false }
      (s.locate .w ea).2 []) := by
  have hwrite := memWrite_fails ((Fails_congr (locate_regions s .w ea) a).2 h) v
  simp only [State.writeEa, hl, State.writeLoc, hwrite]

theorem operandAt_zero (s : State) (sz : Size) (ea : Ea) : s.operandAt 0 sz ea = (s.locate sz ea).1 := by
  simp [State.operandAt, State.skip]

/-- What a location may hold after an error lies in its own bytes. -/
theorem mem_locCells {l : Loc} {v : Nat} {c : Host.Cell} (h : c ∈ s.locCells sz v l) :
    ∃ b p, l = .mem b p ∧ c.1 ∈ addrs sz.bytes b := by
  cases l with
  | mem b p =>
    refine ⟨b, p, rfl, ?_⟩
    rw [← cellsOf_addrs sz b v]
    exact List.mem_map_of_mem ((mayCells_sublist s sz b v).subset h)
  | _ => exact absurd h (List.not_mem_nil)

end Fails

/-! MOVE. -/

section Move

variable {s : State} {a : Long} {src dst : Ea} {program : Bool}

/-- The abandoned MOVE.W. -/
def State.abandonedMove (s : State) (src dst : Ea) : Abandoned :=
  { start := s.pc, length := s.irBytes, inException := false, regs := eaUpdates src ++ eaTargets dst
    full := moveTime .w src.mode dst.mode }

/-- The cells of the destination that a source which fails, in the state `u`, leaves old or new. -/
def State.moveCells (src dst : Ea) (u : State) : List Host.Cell :=
  u.locCells .w (u.freeOperand .w) ((u.settle .w src).locate .w dst).1

theorem execMoveW_source (hl : s.operandAt 1 .w src = .mem a program) (h : s.Fails a) :
    exec (.moveW src dst) s = (((s.skip 1).locate .w src).2.drawn 2).enterGroup0 (s.abandonedMove src dst)
      { bus := decide (a.toNat % 2 = 0), addr := a, read := true, program := program }
      (State.moveCells src dst ((s.skip 1).locate .w src).2) := by
  have arm : exec (.moveW src dst) s = moveEa .w src dst s := rfl
  have hread := readEa_fails (s := s.skip 1) hl h
  rw [arm, moveEa, hread]
  rfl

theorem execMoveW_destination (hr : s.CanRead .w (s.operandAt 1 .w src))
    (hl : (s.past 1 .w src).operandAt 0 .w dst = .mem a program) (h : s.Fails a) :
    exec (.moveW src dst) s = ((s.past 1 .w src).locate .w dst).2.enterGroup0 (s.abandonedMove src dst)
      { bus := decide (a.toNat % 2 = 0), addr := a, read := false, program := false } [] := by
  have arm : exec (.moveW src dst) s = moveEa .w src dst s := rfl
  have hreg : (s.past 1 .w src).regions = s.regions := past_regions s 1 .w src
  have hwrite := writeEa_fails (s := s.past 1 .w src) (ea := dst) (program := program)
    ((operandAt_zero _ _ _).symm.trans hl) ((Fails_congr hreg a).2 h)
    (s.valueAt .w (s.operandAt 1 .w src))
  simp only [arm, moveEa, readEa_ok hr, orPending_ok, bind, Except.bind, hwrite]
  rfl

end Move

/-! The flags set before a store. -/

section Store

variable {s : State} {a : Long} {r : Reg} {w : Word} {l : List BusAnswer}

/-- A byte read in a device window and a write there that alone fails. -/
theorem testAndModifyEa_write_fails (hk : s.kindAt (phys (s.areg r)) = .device) (hx : s.answers = .data w :: .busError :: l)
    (g : Nat → StatusReg → Nat × StatusReg) : ∃ pending, s.testAndModifyEa .b (.ind r) g =
      .error (.access { bus := true, addr := s.areg r, read := false, program := false }
        { s with answers := l, sr := (g (w.toNat % 256) s.sr).2 } pending) := by
  let u : State := { s with answers := .busError :: l, sr := (g (w.toNat % 256) s.sr).2 }
  have hread : s.memRead .b (s.areg r) false = .ok (w.toNat % 256, { s with answers := .busError :: l }) := by
    have hcycle := busCycle_device hk hx true false []
    rw [if_neg (by simp)] at hcycle
    simp only [State.memRead, State.busCycles, hcycle]
    rfl
  have hwrite : u.memWrite .b (s.areg r) (g (w.toNat % 256) s.sr).1 =
      .error (.access { bus := true, addr := s.areg r, read := false, program := false } { u with answers := l }
        (u.mayCells .b (s.areg r) (g (w.toNat % 256) s.sr).1)) := by
    refine memWrite_error ?_
    have hcycle := busCycle_device (s := u) hk rfl false false (u.mayCells .b (s.areg r) (g (w.toNat % 256) s.sr).1)
    rw [if_pos rfl] at hcycle
    simp only [State.busCycles, hcycle]
    rfl
  refine ⟨u.mayCells .b (s.areg r) (g (w.toNat % 256) s.sr).1, ?_⟩
  have hea : s.readEa .b (.ind r) = .ok
      { value := w.toNat % 256, loc := .mem (s.areg r) false, state := { s with answers := .busError :: l } } := by
    simp only [State.readEa, State.locate, State.readLoc, hread]
    rfl
  rw [State.testAndModifyEa, hea]
  exact hwrite

/-- So ends an instruction that is such a read and write. -/
theorem finish_write_fails (hk : s.kindAt (phys (s.areg r)) = .device) (hx : s.answers = .data w :: .busError :: l)
    (tm : Time) (regs : List RegRef) (g : Nat → StatusReg → Nat × StatusReg) :
    ∃ y pending, s.finish tm regs ((s.skip 1).testAndModifyEa .b (.ind r) g) =
      ({ s.skip 1 with answers := l, sr := (g (w.toNat % 256) s.sr).2 } : State).enterGroup0 y
        { bus := true, addr := s.areg r, read := false, program := false } pending := by
  obtain ⟨pending, h⟩ := testAndModifyEa_write_fails (s := s.skip 1) hk hx g
  refine ⟨{ start := s.pc, length := s.irBytes, inException := false, regs := regs, full := tm }, pending, ?_⟩
  rw [h]
  rfl

theorem execTas_write_fails (ht : s.tasForbidden = false) (hk : s.kindAt (phys (s.areg r)) = .device)
    (hx : s.answers = .data w :: .busError :: l) : ∃ y pending, execTas (.ind r) s =
      ({ s.skip 1 with answers := l, sr := moveFlags 8 (w.toNat % 256) s.sr } : State).enterGroup0 y
        { bus := true, addr := s.areg r, read := false, program := false } pending := by
  obtain ⟨y, pending, h⟩ := finish_write_fails hk hx (time (.tasMem .ind)) (eaTargets (.ind r))
    (fun d sr => (d ||| 128, flagsLogic 8 d sr))
  have hflags : flagsLogic 8 (w.toNat % 256) s.sr = moveFlags 8 (w.toNat % 256) s.sr :=
    flagsLogic_eq 8 _ (by decide) (Nat.mod_lt _ (by decide)) s.sr
  rw [← hflags, execTas, ht]
  exact ⟨y, pending, h⟩

theorem bitOpEa_write_fails {op : BitOp} (hop : op ≠ .tst) (hk : s.kindAt (phys (s.areg r)) = .device)
    (hx : s.answers = .data w :: .busError :: l) (raw : Nat) : ∃ y pending, bitOpEa op false raw (.ind r) s =
      ({ s.skip 1 with answers := l, sr := { s.sr with z := !w.toNat.testBit (raw % 8) } } : State).enterGroup0 y
        { bus := true, addr := s.areg r, read := false, program := false } pending := by
  obtain ⟨y, pending, h⟩ := finish_write_fails hk hx (bitOpTime op false (raw % 8) (.ind r)) (eaTargets (.ind r))
    (fun d sr => (bitOpResult op d (raw % 8), { sr with z := !bitAt d (raw % 8) }))
  have hbit : bitAt (w.toNat % 256) (raw % 8) = w.toNat.testBit (raw % 8) := by
    rw [bitAt_eq_testBit]
    simpa [Nat.mod_lt raw (show 0 < 8 by decide)] using Nat.testBit_mod_two_pow w.toNat 8 (raw % 8)
  rw [hbit] at h
  exact ⟨y, pending, (bitOpEa_store Mode.noConfusion hop).trans h⟩

end Store

end Sys2Proof.Machine

namespace Sys2Proof

-- One declaration at a time: the check bounds the memory of all threads together.
set_option Elab.async false

open Machine

/-- Settles O11: a MOVE.W by the operand that fails, BRA by its fetch, the others by the write after their flags. -/
theorem accessErrorsInInstruction : Obligations.AccessErrorsInInstruction := by
  intro s a program src dst d fails even x
  refine ⟨fun hl h => ?_, fun hr hl h => execMoveW_destination hr hl h, ?_, ?_⟩
  · refine ⟨2, State.moveCells src dst ((s.skip 1).locate .w src).2, fun c hc => ?_, execMoveW_source hl h⟩
    rw [operandAt_zero]
    exact mem_locCells hc
  · intro target h
    have arm : exec (.bra (.word d)) s = s.finish ⟨10, 2, 0⟩ [] ((s.skip 2).jump target) := rfl
    rw [arm, jump_fails (s := s.skip 2) h]
    rfl
  · intro dn r w l i q hi htas hk hx
    simp only [List.map_cons, List.map_nil, List.cons_append, List.nil_append, List.mem_cons, List.not_mem_nil, or_false,
      Prod.mk.injEq] at hi
    obtain ⟨rfl, rfl⟩ | ⟨rfl, rfl⟩ | ⟨rfl, rfl⟩ | ⟨rfl, rfl⟩ := hi
    · exact execTas_write_fails htas hk hx
    · exact bitOpEa_write_fails (op := .chg) (by decide) hk hx _
    · exact bitOpEa_write_fails (op := .clr) (by decide) hk hx _
    · exact bitOpEa_write_fails (op := .set) (by decide) hk hx _

end Sys2Proof

/-! What an effective address steps (20_memory.md R59, 40_effective_address.md R127), and operands in memory as their bytes
(20_memory.md R52). -/

namespace Sys2Proof.Machine

-- One declaration at a time: the check bounds the memory of all threads together.
set_option Elab.async false

section Stepped

variable (s : State) (sz : Size)

/-- The state with the register of `(An)+` or `-(An)` stepped, the pc where it was. -/
def State.stepped : Ea → State
  | .postInc r => s.setA r (s.areg r + increment sz r)
  | .preDec r => s.setA r (s.areg r - increment sz r)
  | _ => s

/-- What an effective address does to the state: the step of its register, and the pc past its words. -/
theorem past_eq_skip_stepped (n : Nat) (ea : Ea) : s.past n sz ea = (s.stepped sz ea).skip (n + ea.extWords) := by
  cases ea with
  | dn r => rfl
  | an r => rfl
  | ind r => rfl
  | postInc r => exact s.setA_skip n _
  | preDec r => exact s.setA_skip n _
  | disp r d => exact s.skip_add n _
  | index r x => exact s.skip_add n _
  | absW a => exact s.skip_add n _
  | absL a => exact s.skip_add n _
  | pcDisp d => exact s.skip_add n _
  | pcIndex x => exact s.skip_add n _
  | imm v => exact s.skip_add n _

variable (ea : Ea)

theorem State.stepped_eq :
    s.stepped sz ea = { s with a := (s.stepped sz ea).a, usp := (s.stepped sz ea).usp, ssp := (s.stepped sz ea).ssp } := by
  unfold State.stepped
  split
  · exact s.setA_eq _
  · exact s.setA_eq _
  · rfl

/-- The stack pointer of the other state is not stepped. -/
theorem State.stepped_usp (h : s.sr.s = true) : (s.stepped sz ea).usp = s.usp := by
  unfold State.stepped
  split
  · exact s.setA_usp h _
  · exact s.setA_usp h _
  · rfl

theorem State.stepped_ssp (h : s.sr.s = false) : (s.stepped sz ea).ssp = s.ssp := by
  unfold State.stepped
  split
  · exact s.setA_ssp h _
  · exact s.setA_ssp h _
  · rfl

/-- One register is stepped, upward by `(An)+` and downward by `-(An)`. -/
theorem State.areg_stepped (r : Reg) :
    (s.stepped sz ea).areg r = if ea = .postInc r then s.areg r + increment sz r
      else if ea = .preDec r then s.areg r - increment sz r else s.areg r := by
  unfold State.stepped
  split
  case h_1 q =>
    by_cases h : r = q
    · rw [h, areg_setA_same, if_pos rfl]
    · rw [s.areg_setA_ne h, if_neg fun e => h (Ea.postInc.inj e).symm, if_neg Ea.noConfusion]
  case h_2 q =>
    rw [if_neg Ea.noConfusion]
    by_cases h : r = q
    · rw [h, areg_setA_same, if_pos rfl]
    · rw [s.areg_setA_ne h, if_neg fun e => h (Ea.preDec.inj e).symm]
  case h_3 hpost hpre => rw [if_neg (hpost r), if_neg (hpre r)]

/-- The step of a byte is 1, and 2 through A7 (R59). -/
theorem increment_byte (r : Reg) : increment .b r = if r.val = 7 then 2 else 1 := if_congr (and_iff_right rfl) rfl rfl

theorem increment_word (r : Reg) : increment .w r = 2 := rfl

theorem increment_long (r : Reg) : increment .l r = 4 := rfl

end Stepped

section BigEndian

variable {s t : State} {sz : Size} {a : Long} {v : Nat}

/-- A store that memory answers ends in the state with its cells written, or not at all. -/
theorem eq_poke_of_memWrite (h : s.CanReach sz a) (ht : s.memWrite sz a v = .ok t) : t = s.poke (s.mayCells sz a v) := by
  simp only [State.memWrite, writeCycles_ok h, State.storeCells] at ht
  split at ht
  · cases ht
  · exact (Except.ok.inj ht).symm

/-- A byte of an operand in memory that ROM does not answer. -/
theorem Stored.byteAt {n : Nat} (h : Stored s t.mem n a v) {k : Nat} (hk : k < n)
    (hr : s.kindAt (phys (a + BitVec.ofNat 32 (k / 2 * 2))) ≠ .rom) :
    t.byteAt (a + BitVec.ofNat 32 k) = BitVec.ofNat 8 (v / 256 ^ (n - 1 - k)) := (h.2 k hk).trans (if_neg hr)

/-- An operand stored outside ROM is read back. -/
theorem Stored.peek_eq (h : Stored s t.mem sz.bytes a v) (hv : v < 2 ^ sz.bits)
    (hr : ∀ k, k < sz.bytes → s.kindAt (phys (a + BitVec.ofNat 32 (k / 2 * 2))) ≠ .rom) : t.peek sz a = v := by
  have byte : ∀ k, k < sz.bytes → t.byteAt (a + BitVec.ofNat 32 k) = BitVec.ofNat 8 (v / 256 ^ (sz.bytes - 1 - k)) :=
    fun k hk => h.byteAt hk (hr k hk)
  have hpos : 0 < sz.bytes := by cases sz <;> decide
  have first := byte 0 hpos
  rw [BitVec.add_zero] at first
  have last := byte (sz.bytes - 1) (Nat.sub_one_lt_of_lt hpos)
  rw [Nat.sub_self, Nat.pow_zero, Nat.div_one] at last
  cases sz with
  | b =>
    have only : t.byteAt a = BitVec.ofNat 8 (v / 1) := first
    rw [State.peek, only, Nat.div_one]
    exact Nat.mod_eq_of_lt hv
  | w => exact peek_w_of first last hv
  | l => exact peek_l_of first (byte 1 (by decide)) (byte 2 (by decide)) last hv

end BigEndian

end Sys2Proof.Machine

namespace Sys2Proof

-- One declaration at a time: the check bounds the memory of all threads together.
set_option Elab.async false

open Machine

/-- Settles O21: an effective address steps its register and then moves the pc. -/
theorem operandStep : Obligations.OperandStep := by
  intro s n sz ea
  rw [past_eq_skip_stepped]
  refine ⟨congrArg (fun u => u.skip (n + ea.extWords)) (s.stepped_eq sz ea), s.stepped_usp sz ea, s.stepped_ssp sz ea,
    fun r => ?_⟩
  intro inc
  have hinc : inc = increment sz r := by
    cases sz with
    | b => exact (increment_byte r).symm
    | w => exact (increment_word r).symm
    | l => exact (increment_long r).symm
  rw [hinc]
  exact ⟨s.areg_stepped sz ea r, rfl, rfl⟩

/-- Settles O23: reads as the bytes say, and the bytes of a store. -/
theorem bigEndian : Obligations.BigEndian := by
  intro s t sz a v hm hv
  refine ⟨rfl, peek_long s a, rfl, fun h program => memRead_ok h program, fun h ht => ?_⟩
  obtain rfl := eq_poke_of_memWrite h ht
  have hS := Stored_poke hm h v
  exact ⟨poke_eq s _, hS, hS.peek_eq hv⟩

end Sys2Proof
